-- ==== Sys2Proof/Word.lean ====
section
/-! DEFINITION. The word types of the SVB-1024 and their plainest arithmetic. -/

namespace Sys2Proof

/-- A byte (00 R7). -/
abbrev Byte := BitVec 8
/-- A 32-bit word: an instruction word (11 R187), a stride, an FP32 pattern. -/
abbrev W32 := BitVec 32
/-- A 64-bit doubleword: `a`, an address, a CSR (11 R200). -/
abbrev Word := BitVec 64

/-- Sign extension to 64 bits: `SX()` of 00 R7. -/
def sx {n : Nat} (v : BitVec n) : Word := v.signExtend 64
/-- Zero extension to 64 bits: `ZX()` of 00 R7. -/
def zx {n : Nat} (v : BitVec n) : Word := v.zeroExtend 64
/-- `ZX()` of a one-bit flag (00 R7). -/
def zxBool (b : Bool) : Word := if b then 1 else 0
/-- Bits [hi:lo] of a value as a number (the bit slice of 00 R7). -/
def bits {n : Nat} (v : BitVec n) (hi lo : Nat) : Nat := (v.toNat >>> lo) % 2 ^ (hi + 1 - lo)

end Sys2Proof
end

