-- ==== Sys2Proof/Machine/Fp.lean ====
section
/-! DEFINITION. IEEE 754 arithmetic of the scalar, vector and matrix units (12 R205, R206, R209, R210): values are
exact, and one rounding packs a result into its format. -/

namespace Sys2Proof.Machine

/-- A floating-point value with no rounding: NaN (signalling or not), infinity, or (-1)^neg · m · 2^e. -/
inductive Num where
  | nan (sig : Bool)
  | inf (neg : Bool)
  | fin (neg : Bool) (m : Nat) (e : Int)
  deriving DecidableEq, Repr, Inhabited

/-- A binary format: exponent and fraction widths (15 R250). -/
structure FpFmt where
  eb : Nat
  fb : Nat
  deriving DecidableEq, Repr

/-- FP32 (15 R250). -/
def fp32 : FpFmt := ⟨8, 23⟩
/-- FP64 (15 R250). -/
def fp64 : FpFmt := ⟨11, 52⟩
/-- BF16 (15 R250). -/
def bf16 : FpFmt := ⟨8, 7⟩
/-- FP16 (15 R250). -/
def fp16 : FpFmt := ⟨5, 10⟩
/-- E5M2 (15 R250). -/
def e5m2 : FpFmt := ⟨5, 2⟩
/-- E4M3's layout; it has no infinity and one NaN, which its own functions treat (15 R250). -/
def e4m3 : FpFmt := ⟨4, 3⟩

/-- FFLAGS bits (11 R197). -/
def flagNV : BitVec 5 := 16
def flagDZ : BitVec 5 := 8
def flagOF : BitVec 5 := 4
def flagUF : BitVec 5 := 2
def flagNX : BitVec 5 := 1

/-- A flag where a condition holds. -/
def flagIf (b : Bool) (f : BitVec 5) : BitVec 5 := if b then f else 0

def FpFmt.bias (f : FpFmt) : Nat := 2 ^ (f.eb - 1) - 1
/-- The exponent of the least normal number. -/
def FpFmt.emin (f : FpFmt) : Int := 1 - (f.bias : Int)
def FpFmt.width (f : FpFmt) : Nat := 1 + f.eb + f.fb
/-- The pattern of +∞. -/
def FpFmt.infBits (f : FpFmt) : Nat := (2 ^ f.eb - 1) <<< f.fb
/-- The default NaN (12 R205, R209). -/
def FpFmt.nanBits (f : FpFmt) : Nat := f.infBits + 2 ^ (f.fb - 1)
/-- The sign bit where a value is negative. -/
def FpFmt.signBits (f : FpFmt) (neg : Bool) : Nat := if neg then 2 ^ (f.eb + f.fb) else 0

/-- The value of a pattern of an IEEE 754 format. -/
def FpFmt.decode (f : FpFmt) (w : Nat) : Num :=
  let neg := w / 2 ^ (f.eb + f.fb) % 2 == 1
  let ex := w / 2 ^ f.fb % 2 ^ f.eb
  let fr := w % 2 ^ f.fb
  if ex == 2 ^ f.eb - 1 then
    if fr == 0 then .inf neg else .nan (fr / 2 ^ (f.fb - 1) == 0)
  else if ex == 0 then .fin neg fr (f.emin - f.fb)
  else .fin neg (2 ^ f.fb + fr) (f.emin - f.fb + (ex - 1 : Nat))

/-- Number of significant bits of a magnitude. -/
def bitLen (m : Nat) : Nat := if m = 0 then 0 else m.log2 + 1

/-- m / 2^sh rounded to an integer under FRM (11 R197): 0 nearest even, 1 to zero, 2 up, 3 down. -/
def roundShift (rm : BitVec 2) (neg : Bool) (m sh : Nat) : Nat :=
  let q := m >>> sh
  let r := m % 2 ^ sh
  if r = 0 then q
  else if rm = 0 then (if r * 2 > 2 ^ sh || (r * 2 == 2 ^ sh && q % 2 == 1) then q + 1 else q)
  else if rm = 1 then q
  else if rm = 2 then (if neg then q else q + 1)
  else if neg then q + 1 else q

/-- m · 2^e in units of 2^u, rounded, and whether that was inexact. -/
def roundTo (rm : BitVec 2) (neg : Bool) (m : Nat) (e u : Int) : Nat × Bool :=
  if u ≤ e then (m <<< (e - u).toNat, false)
  else (roundShift rm neg m (u - e).toNat, m % 2 ^ (u - e).toNat != 0)

/-- Rounds and packs a finite value: the pattern and the flags (12 R205: tininess after rounding, underflow only
with inexact). -/
def FpFmt.packFin (f : FpFmt) (rm : BitVec 2) (neg : Bool) (m : Nat) (e : Int) : Nat × BitVec 5 :=
  if m = 0 then (f.signBits neg, 0)
  else
    let top : Int := e + (m.log2 : Int)
    let ex : Int := max top f.emin
    let (q, nx) := roundTo rm neg m e (ex - f.fb)
    let body := ((ex - f.emin).toNat <<< f.fb) + q
    if f.infBits ≤ body then
      let toInf := rm == 0 || (rm == 2 && !neg) || (rm == 3 && neg)
      (f.signBits neg + (if toInf then f.infBits else f.infBits - 1), flagOF ||| flagNX)
    else
      let (q0, _) := roundTo rm neg m e (top - f.fb)
      let tiny := top < f.emin && !(top == f.emin - 1 && q0 == 2 ^ (f.fb + 1))
      (f.signBits neg + body, flagIf nx flagNX ||| flagIf (tiny && nx) flagUF)

/-- Rounds and packs any value; every NaN gives the default NaN (12 R205). -/
def FpFmt.pack (f : FpFmt) (rm : BitVec 2) : Num → Nat × BitVec 5
  | .nan _ => (f.nanBits, 0)
  | .inf neg => (f.signBits neg + f.infBits, 0)
  | .fin neg m e => f.packFin rm neg m e

/-- A magnitude with its sign as an integer. -/
def signed (neg : Bool) (m : Nat) : Int := if neg then -(m : Int) else m

/-- An integer times 2^e as a value; zero takes the sign given. -/
def ofInt (zneg : Bool) (v : Int) (e : Int) : Num :=
  if v = 0 then .fin zneg 0 e else .fin (v < 0) v.natAbs e

def Num.isNan : Num → Bool
  | .nan _ => true
  | _ => false
def Num.isSig : Num → Bool
  | .nan s => s
  | _ => false
def Num.isZero : Num → Bool
  | .fin _ m _ => m == 0
  | _ => false
def Num.isInf : Num → Bool
  | .inf _ => true
  | _ => false
def Num.neg : Num → Bool
  | .nan _ => false
  | .inf n => n
  | .fin n _ _ => n
/-- The value with its sign inverted. -/
def Num.flip : Num → Num
  | .nan s => .nan s
  | .inf n => .inf (!n)
  | .fin n m e => .fin (!n) m e
/-- The value without its sign. -/
def Num.abs : Num → Num
  | .nan s => .nan s
  | .inf _ => .inf false
  | .fin _ m e => .fin false m e

/-- Two finite magnitudes over one exponent. -/
def align (m1 : Nat) (e1 : Int) (m2 : Nat) (e2 : Int) : Nat × Nat × Int :=
  if e1 ≤ e2 then (m1, m2 <<< (e2 - e1).toNat, e1) else (m1 <<< (e1 - e2).toNat, m2, e2)

/-- Exact sum; an exact zero sum of unlike signs is −0 only when `down` (rounding toward −∞) holds. -/
def Num.addExact (down : Bool) : Num → Num → Num × BitVec 5
  | .nan s, y => (.nan false, flagIf (s || y.isSig) flagNV)
  | x, .nan s => (.nan false, flagIf (s || x.isSig) flagNV)
  | .inf n, .inf n' => if n == n' then (.inf n, 0) else (.nan false, flagNV)
  | .inf n, .fin _ _ _ => (.inf n, 0)
  | .fin _ _ _, .inf n => (.inf n, 0)
  | .fin n1 m1 e1, .fin n2 m2 e2 =>
    let (a, b, e) := align m1 e1 m2 e2
    let zneg := if n1 == n2 then n1 else down
    (ofInt zneg (signed n1 a + signed n2 b) e, 0)

/-- Exact product. -/
def Num.mulExact : Num → Num → Num × BitVec 5
  | .nan s, y => (.nan false, flagIf (s || y.isSig) flagNV)
  | x, .nan s => (.nan false, flagIf (s || x.isSig) flagNV)
  | .inf n, .inf n' => (.inf (n != n'), 0)
  | .inf n, .fin n' m _ => if m = 0 then (.nan false, flagNV) else (.inf (n != n'), 0)
  | .fin n m _, .inf n' => if m = 0 then (.nan false, flagNV) else (.inf (n != n'), 0)
  | .fin n1 m1 e1, .fin n2 m2 e2 => (.fin (n1 != n2) (m1 * m2) (e1 + e2), 0)

/-- The quotient to 64 bits or more with a last bit that holds whether anything lies below (one rounding of it
is the rounding of the exact quotient). -/
def Num.divSticky : Num → Num → Num × BitVec 5
  | .nan s, y => (.nan false, flagIf (s || y.isSig) flagNV)
  | x, .nan s => (.nan false, flagIf (s || x.isSig) flagNV)
  | .inf _, .inf _ => (.nan false, flagNV)
  | .inf n, .fin n' _ _ => (.inf (n != n'), 0)
  | .fin n _ e, .inf n' => (.fin (n != n') 0 e, 0)
  | .fin n1 m1 e1, .fin n2 m2 e2 =>
    if m2 = 0 then (if m1 = 0 then (.nan false, flagNV) else (.inf (n1 != n2), flagDZ))
    else
      let num := m1 <<< 128
      let q := num / m2
      (.fin (n1 != n2) (2 * q + (if num % m2 = 0 then 0 else 1)) (e1 - e2 - 129), 0)

/-- The greatest r below 2^k with r·r ≤ m, r built from its high bit down. -/
def isqrtGo (m : Nat) : Nat → Nat → Nat
  | 0, r => r
  | k + 1, r => if (r + 2 ^ k) * (r + 2 ^ k) ≤ m then isqrtGo m k (r + 2 ^ k) else isqrtGo m k r

/-- The square root with a last bit that holds whether anything lies below (12 R208: √−0 = −0; a negative
non-zero operand gives the default NaN). -/
def Num.sqrtSticky : Num → Num × BitVec 5
  | .nan s => (.nan false, flagIf s flagNV)
  | .inf n => if n then (.nan false, flagNV) else (.inf false, 0)
  | .fin n m e =>
    if m = 0 then (.fin n 0 e, 0)
    else if n then (.nan false, flagNV)
    else
      let odd := e % 2 != 0
      let m' := (if odd then m * 2 else m) <<< 128
      let e' : Int := (if odd then e - 1 else e) - 128
      let r := isqrtGo m' 96 0
      (.fin false (2 * r + (if r * r = m' then 0 else 1)) (e' / 2 - 1), 0)

/-- x < y for values that are not NaN; −0 and +0 are equal. -/
def Num.lt : Num → Num → Bool
  | .nan _, _ => false
  | _, .nan _ => false
  | .inf n, .inf n' => n && !n'
  | .inf n, .fin _ _ _ => n
  | .fin _ _ _, .inf n => !n
  | .fin n1 m1 e1, .fin n2 m2 e2 =>
    let (a, b, _) := align m1 e1 m2 e2
    signed n1 a < signed n2 b

/-- x = y as values; false where either is NaN. -/
def Num.eqv (x y : Num) : Bool := !x.isNan && !y.isNan && !x.lt y && !y.lt x

/-- A value below another where −0 counts below +0 (12 R206). -/
def Num.ltTotal (x y : Num) : Bool := x.lt y || (x.isZero && y.isZero && x.neg && !y.neg)

/-- FMIN and FMAX on values (12 R206). -/
def Num.minMax (wantMax : Bool) (x y : Num) : Num × BitVec 5 :=
  let nv := flagIf (x.isSig || y.isSig) flagNV
  if x.isNan && y.isNan then (.nan false, nv)
  else if x.isNan then (y, nv)
  else if y.isNan then (x, nv)
  else (if (if wantMax then x.ltTotal y else y.ltTotal x) then y else x, nv)

/-- a + x·y with one rounding to come (12 R205: ∞ × 0 gives the default NaN whatever the addend holds). -/
def Num.fmaExact (down : Bool) (a x y : Num) : Num × BitVec 5 :=
  let (p, fp) := x.mulExact y
  let (r, fr) := a.addExact down p
  (r, fp ||| fr)

/-- A finite value rounded to an integer under FRM, with its sign. -/
def Num.toIntRound (rm : BitVec 2) (neg : Bool) (m : Nat) (e : Int) : Int × Bool :=
  let (q, nx) := roundTo rm neg m e 0
  (signed neg q, nx)

/-- A value to a signed or unsigned 64-bit integer, saturating (12 R209). -/
def Num.toInt64 (rm : BitVec 2) (sgn : Bool) (x : Num) : Word × BitVec 5 :=
  let lo : Int := if sgn then -(2 ^ 63) else 0
  let hi : Int := if sgn then 2 ^ 63 - 1 else 2 ^ 64 - 1
  match x with
  | .nan _ => (0, flagNV)
  | .inf n => (BitVec.ofInt 64 (if n then lo else hi), flagNV)
  | .fin n m e =>
    let (v, nx) := Num.toIntRound rm n m e
    if v < lo then (BitVec.ofInt 64 lo, flagNV)
    else if hi < v then (BitVec.ofInt 64 hi, flagNV)
    else (BitVec.ofInt 64 v, flagIf nx flagNX)

/-- F64.RINT (12 R209). -/
def Num.rint (rm : BitVec 2) (x : Num) : Num × BitVec 5 :=
  match x with
  | .nan s => (.nan false, flagIf s flagNV)
  | .inf n => (.inf n, 0)
  | .fin n m e =>
    if 0 ≤ e then (x, 0)
    else
      let (q, nx) := roundTo rm n m e 0
      (.fin n q 0, flagIf nx flagNX)

/-- The class mask of FCLASS (12 R210) for an FP64 pattern. -/
def fclassMask (w : Word) : Word :=
  let neg := w.getLsbD 63
  let ex := bits w 62 52
  let fr := bits w 51 0
  if ex = 2047 then
    if fr = 0 then (if neg then 1 else 128)
    else if 2 ^ 51 ≤ fr then 512 else 256
  else if ex = 0 then
    if fr = 0 then (if neg then 8 else 16) else (if neg then 4 else 32)
  else (if neg then 2 else 64)

/-- The value of an FP64 pattern. -/
def num64 (w : Word) : Num := fp64.decode w.toNat
/-- The value of an FP32 pattern. -/
def num32 (w : W32) : Num := fp32.decode w.toNat

/-- A value rounded into FP64, with flags added. -/
def toF64 (rm : BitVec 2) (r : Num × BitVec 5) : Word × BitVec 5 :=
  let (b, f) := fp64.pack rm r.1
  (BitVec.ofNat 64 b, r.2 ||| f)
/-- A value rounded into FP32, with flags added. -/
def toF32 (rm : BitVec 2) (r : Num × BitVec 5) : W32 × BitVec 5 :=
  let (b, f) := fp32.pack rm r.1
  (BitVec.ofNat 32 b, r.2 ||| f)

/-- `RN32()` of 00 R7: an exact value rounded to FP32, to nearest with ties to even. -/
def rn32 (x : Num) : W32 := (toF32 0 (x, 0)).1
/-- `RN64()` of 00 R7. -/
def rn64 (x : Num) : Word := (toF64 0 (x, 0)).1

/-- A pattern of a narrower format widened to FP64 exactly: the value, and invalid for a signalling NaN (12 R205). -/
def FpFmt.widen (f : FpFmt) (w : Nat) : Word × BitVec 5 :=
  let x := f.decode w
  (rn64 x, flagIf x.isSig flagNV)

end Sys2Proof.Machine
end

