-- ==== Sys2Proof/Machine/Formats.lean ====
section
/-! DEFINITION. The storage formats, the conversions into them, the accumulation order, draws, and the exponentials
(15 R250-R262, 16 R277, R283). -/

namespace Sys2Proof.Machine

/-- Bits of an element of a format code (15 R250). -/
def fmtBits : Nat → Nat
  | 0 => 32 | 1 => 16 | 2 => 16 | 3 => 8 | 4 => 8 | 5 => 8 | 6 => 4 | 7 => 8 | 8 => 6
  | 9 => 64 | 10 => 32 | 11 => 32 | _ => 0
/-- A format code R250 names. -/
def fmtKnown (f : Nat) : Bool := f ≤ 11
/-- INT8, INT4 and INT32. -/
def fmtIsInt (f : Nat) : Bool := f == 5 || f == 6 || f == 11

/-- Two's complement value of the low w bits. -/
def intOf (w v : Nat) : Int := if v % 2 ^ w < 2 ^ (w - 1) then (v % 2 ^ w : Nat) else (v % 2 ^ w : Nat) - (2 ^ w : Nat)

/-- Length of the run of bits equal to `r` from bit `n - 1` of `b` downward. -/
def runLen (b : Nat) (r : Bool) : Nat → Nat
  | 0 => 0
  | n + 1 => if b.testBit n == r then runLen b r n + 1 else 0

/-- Magnitude of a T8 (`es`) or T6 body of w bits as m · 2^e (15 R252). -/
def tbody (w : Nat) (es : Bool) (b : Nat) : Nat × Int :=
  if b % 2 ^ w = 0 then (0, 0)
  else
    let r := b.testBit (w - 1)
    let run := runLen b r w
    let k : Int := if r then (run : Int) - 1 else -(run : Int)
    let n := w - run - 1
    let n' := if es then n - 1 else n
    let e : Nat := if es && 0 < n then b / 2 ^ n' % 2 else 0
    (2 ^ n' + b % 2 ^ n', (if es then 2 * k + (e : Int) else k) - (n' : Int))

/-- The value of a T8 (`es`) or T6 code of w + 1 bits (15 R252). -/
def tval (w : Nat) (es : Bool) (x : Nat) : Num :=
  let s := x.testBit w
  if x % 2 ^ w = 0 then (if s then .nan false else .fin false 0 0)
  else .fin s (tbody w es x).1 (tbody w es x).2

/-- The value of an element of a format (15 R250, R257); an integer is exact. -/
def fmtDecode (f v : Nat) : Num :=
  match f with
  | 0 => fp32.decode v
  | 1 => bf16.decode v
  | 2 => fp16.decode v
  | 3 => if v % 128 = 127 then .nan false
         else .fin (v.testBit 7) (if v / 8 % 16 = 0 then v % 8 else 8 + v % 8)
                ((max (v / 8 % 16) 1 : Nat) - 10 : Int)
  | 4 => e5m2.decode v
  | 5 => ofInt false (intOf 8 v) 0
  | 6 => ofInt false (intOf 4 v) 0
  | 7 => tval 7 true v
  | 8 => tval 5 false v
  | 9 => fp64.decode v
  | 10 => fp32.decode v
  | 11 => ofInt false (intOf 32 v) 0
  | _ => .nan false

/-- Is m · 2^e ≤ m' · 2^e'. -/
def magLe (m : Nat) (e : Int) (m' : Nat) (e' : Int) : Bool :=
  let (a, b, _) := align m e m' e'
  a ≤ b

/-- The greatest body below `n` bodies whose magnitude is at most m · 2^e. -/
def tFloor (w : Nat) (es : Bool) (m : Nat) (e : Int) : Nat → Nat
  | 0 => 0
  | n + 1 => if magLe (tbody w es n).1 (tbody w es n).2 m e then n else tFloor w es m e n

/-- The body of T8 or T6 nearest to m · 2^e; a tie goes to the even body (15 R254). -/
def tNearest (w : Nat) (es : Bool) (m : Nat) (e : Int) : Nat :=
  let b := tFloor w es m e (2 ^ w)
  if b + 1 = 2 ^ w then b
  else
    -- twice the value against the sum of the two neighbours
    let (l, h, u) := align (tbody w es b).1 (tbody w es b).2 (tbody w es (b + 1)).1 (tbody w es (b + 1)).2
    let (v2, s, _) := align (2 * m) e (l + h) u
    if v2 < s then b else if s < v2 then b + 1 else if b % 2 = 0 then b else b + 1

/-- An exact integer rounded to nearest even and clamped to w bits of two's complement, as a pattern. -/
def intNarrow (w : Nat) (neg : Bool) (m : Nat) (e : Int) : Nat :=
  let q := signed neg (roundTo 0 neg m e 0).1
  let lo : Int := -(2 ^ (w - 1) : Nat)
  let hi : Int := (2 ^ (w - 1) : Nat) - 1
  ((if q < lo then lo else if hi < q then hi else q) % (2 ^ w : Nat)).toNat

/-- A conversion into a narrow format, or into FP32, NA12 and INT32 for the tile's own formats (15 R254, 16 R269). -/
def narrow (f : Nat) (x : Num) : Nat :=
  match f with
  | 0 => (fp32.pack 0 x).1
  | 1 => (bf16.pack 0 x).1
  | 2 => (fp16.pack 0 x).1
  | 3 => match x with
    | .nan _ => 0x7F
    | .inf n => e4m3.signBits n + 0x7E
    | .fin n m e =>
      if m = 0 then e4m3.signBits n
      else
        let ex : Int := max (e + (m.log2 : Int)) (-6)
        let body := ((ex + 6).toNat <<< 3) + (roundTo 0 n m e (ex - 3)).1
        e4m3.signBits n + min body 0x7E
  | 4 => match x with
    | .nan _ => 0x7F
    | .inf n => e5m2.signBits n + 0x7B
    | .fin n m e =>
      let b := (e5m2.packFin 0 n m e).1
      if b % 128 = 0x7C then b - 1 else b
  | 5 => match x with
    | .nan _ => 0
    | .inf n => if n then 0x80 else 0x7F
    | .fin n m e => intNarrow 8 n m e
  | 6 => match x with
    | .nan _ => 0
    | .inf n => if n then 8 else 7
    | .fin n m e => intNarrow 4 n m e
  | 7 => match x with
    | .nan _ => 0x80
    | .inf n => if n then 0xFF else 0x7F
    | .fin n m e => let b := tNearest 7 true m e; if b = 0 then 0 else (if n then 128 + b else b)
  | 8 => match x with
    | .nan _ => 0x20
    | .inf n => if n then 0x3F else 0x1F
    | .fin n m e => let b := tNearest 5 false m e; if b = 0 then 0 else (if n then 32 + b else b)
  | 10 => ((⟨8, 12⟩ : FpFmt).pack 0 x).1 <<< 11
  | 11 => match x with
    | .nan _ => 0
    | .inf n => if n then 2 ^ 31 else 2 ^ 31 - 1
    | .fin n m e => intNarrow 32 n m e
  | _ => 0

/-- A scale byte's value 2^(b − 127), NaN for 0xFF (15 R255). -/
def scaleNum (b : Nat) : Num := if b = 255 then .nan false else .fin false 1 ((b : Int) - 127)
/-- 2^(127 − b), the factor of a strip that TQNT writes, for every byte that it chooses (16 R276). -/
def quantFactor (b : Nat) : Num := .fin false 1 (127 - (b : Int))
/-- The factor of a strip of TDRAIN: 2^(127 − b), and NaN for byte 0xFF, which 15 R255 calls NaN (16 R270; DEDUCED, log entry 23). -/
def scaleInv (b : Nat) : Num := if b = 255 then .nan false else quantFactor b

/-- Format code of an accumulator format (16 R263): 0 FP32, 1 NA12, 2 INT32. -/
def accCode (a : BitVec 2) : Nat := if a = 0 then 0 else if a = 1 then 10 else 11

/-- The value of an accumulator word. -/
def accVal (a : BitVec 2) (w : W32) : Num := fmtDecode (accCode a) w.toNat

/-- A value rounded to nearest even into an accumulator format (15 R260, 16 R269). -/
def accRound (a : BitVec 2) (x : Num) : W32 := BitVec.ofNat 32 (narrow (accCode a) x)

/-- Draw i of the generator (15 R261). -/
def draw (key ctr : Word) (i : Nat) : BitVec 16 :=
  let z := ctr + BitVec.ofNat 64 i
  let z := z ^^^ key
  let z := z ^^^ (z >>> 29)
  let z := z * 0x8F14E45FCEEA167B
  let z := z ^^^ (z >>> 32)
  let z := z * 0x6C8E9CF570932BD5
  let z := z ^^^ (z >>> 29)
  z.extractLsb' 48 16

/-- STOCH12 of an exact value with a draw (15 R262). -/
def stoch12 (x : Num) (d : BitVec 16) : W32 :=
  match x with
  | .nan _ => 0x7FC00000
  | .inf n => if n then 0xFF800000 else 0x7F800000
  | .fin n m e =>
    if m = 0 then (if n then 0x80000000 else 0)
    else
      let ex : Int := max (e + (m.log2 : Int)) (-126)
      -- the magnitude in units of 2^(ex - 28), truncated: the unit in the last place and the 16 bits below it
      let v := (roundTo 1 n m e (ex - 28)).1
      let q := v / 65536 + (if 65536 ≤ v % 65536 + d.toNat then 1 else 0)
      let body := ((ex + 126).toNat <<< 12) + q
      let body := if 0xFF000 ≤ body then 0xFF000 else body
      BitVec.ofNat 32 ((body <<< 11) + (if n then 2 ^ 31 else 0))

/-- floor(log2 |x|) of a non-zero finite magnitude. -/
def floorLog (m : Nat) (e : Int) : Int := e + (m.log2 : Int)

/-- The largest floor(log2) over the finite non-zero products, none when all are zero. -/
def groupEmax : List Num → Option Int
  | [] => none
  | .fin _ m e :: r =>
    if m = 0 then groupEmax r
    else match groupEmax r with
      | none => some (floorLog m e)
      | some x => some (max x (floorLog m e))
  | _ :: r => groupEmax r

/-- Sum of the products truncated toward zero to multiples of 2^u, in units of 2^u. -/
def groupSum (u : Int) : List Num → Int
  | [] => 0
  | .fin n m e :: r => signed n (roundTo 1 n m e u).1 + groupSum u r
  | _ :: r => groupSum u r

/-- The sum of a group of products (15 R258). -/
def groupValue (ps : List Num) : Num :=
  if ps.any Num.isNan || (ps.any (fun p => p.isInf && p.neg) && ps.any (fun p => p.isInf && !p.neg)) then .nan false
  else if ps.any Num.isInf then .inf (ps.any (fun p => p.isInf && p.neg))
  else match groupEmax ps with
    | none => .fin false 0 0
    | some x => num32 (rn32 (ofInt false (groupSum (x - 30) ps) (x - 30)))

/-- RN32 of a sum of two values, as a value (15 R259). -/
def addRn32 (x y : Num) : Num := num32 (rn32 (x.addExact false y).1)

/-- The chain of a chunk's groups (15 R259), from a value already in the chain. -/
def chunkChain (c : Option Num) : List Num → Option Num
  | [] => c
  | g :: gs => chunkChain (some (match c with | none => g | some x => addRn32 x g)) gs

/-- Step 5 (15 R260): a chunk's value added into an accumulator word. -/
def step5 (a : BitVec 2) (sr : Bool) (prior : Num) (y : Num) (d : BitVec 16) : W32 :=
  if a = 2 then
    match prior, y with
    | .fin n m e, .fin n' m' e' =>
      BitVec.ofInt 32 (signed n (roundTo 1 n m e 0).1 + signed n' (roundTo 1 n' m' e' 0).1)
    | _, _ => 0
  else
    let s := (prior.addExact false y).1
    if a = 1 && sr then stoch12 s d else accRound a s

/-- Bits of the fixed-point numbers of the exponentials. -/
def expPrec : Nat := 320
/-- ln 2 to 320 bits. -/
def ln2Fixed : Nat := 0xb17217f7d1cf79abc9e3b39803f2f6af40f343267298b62d8a0d175b8baafa2be7b876206debac98

/-- Σ r^n / n! from n on, in fixed point: `t` the term r^n / n!, `k` terms to go. -/
def expSeries (r : Nat) : Nat → Nat → Nat → Nat
  | 0, _, _ => 0
  | k + 1, n, t => t + expSeries r k (n + 1) ((r * t) >>> expPrec / (n + 1))

/-- e^r of a fixed-point r below 1. -/
def expFixed (r : Nat) : Nat := expSeries r 80 0 (1 <<< expPrec)

/-- 2^x of a finite value with a last bit that holds that the value is not exact (16 R283). -/
def exp2Sticky (neg : Bool) (m : Nat) (e : Int) : Num :=
  if m = 0 then .fin false 1 0
  else if 12 ≤ floorLog m e then .fin false 3 (if neg then -5000 else 5000)
  else
    let X := signed neg (roundTo 3 neg m e (-(expPrec : Int))).1
    let inexact := (roundTo 3 neg m e (-(expPrec : Int))).2
    let k := X / (1 <<< expPrec : Nat)
    let f := (X % (1 <<< expPrec : Nat)).toNat
    if f = 0 && !inexact then .fin false 1 k
    else .fin false (2 * expFixed ((f * ln2Fixed) >>> expPrec) + 1) (k - expPrec - 1)

/-- VEXP2 of one value (16 R283): the value to be rounded once, and invalid for a signalling NaN. -/
def exp2Num (x : Num) : Num × BitVec 5 :=
  match x with
  | .nan s => (.nan false, flagIf s flagNV)
  | .inf n => (if n then .fin false 0 0 else .inf false, 0)
  | .fin n m e => (exp2Sticky n m e, 0)

/-- EXP32 (16 R277): e^y correctly rounded to FP32, for an exact y. -/
def exp32 (y : Num) : W32 :=
  match y with
  | .nan _ => 0x7FC00000
  | .inf n => if n then 0 else 0x7F800000
  | .fin n m e =>
    if m = 0 then 0x3F800000
    else if 8 ≤ floorLog m e then (if n then 0 else 0x7F800000)
    else
      let Y := signed n (roundTo 1 n m e (-(expPrec : Int))).1
      let k := Y / (ln2Fixed : Nat)
      let r := (Y % (ln2Fixed : Nat)).toNat
      rn32 (.fin false (2 * expFixed r + 1) (k - expPrec - 1))

/-- Element `i` of a little-endian run of elements of w bits (15 R251). -/
def elemAt (w : Nat) (run i : Nat) : Nat := (run >>> (w * i)) % 2 ^ w

/-- The run of bytes that holds elements of w bits in order (15 R251). -/
def packElems (w : Nat) : List Nat → Nat
  | [] => 0
  | x :: r => x % 2 ^ w + (packElems w r <<< w)

/-- Bytes of n elements of w bits. -/
def runBytes (w n : Nat) : Nat := (w * n + 7) / 8

end Sys2Proof.Machine
end

