-- ==== Sys2Proof/Machine/StampWord.lean ====
section
/-! DEFINITION. Stamped words: fields, decay, the logical word and the operations' arithmetic (07 R122-R131). -/

namespace Sys2Proof.Machine

/-- Fields of a stamped word (07 R122). -/
def stampOf (w : Word) : BitVec 24 := w.extractLsb' 40 24
def classOf (w : Word) : Nat := bits w 39 36
def stampZero (w : Word) : Bool := bits w 35 32 == 0
def valueOf (w : Word) : W32 := w.extractLsb' 0 32

/-- A stamped word of its fields (07 R122). -/
def stampWord (st : BitVec 24) (c : Nat) (v : W32) : Word :=
  BitVec.ofNat 64 (st.toNat * 2 ^ 40 + c % 16 * 2 ^ 36 + v.toNat)

/-- RN32 of a product and of a sum of FP32 values; a home returns the default NaN and touches no flag (07 R126). -/
def mul32 (x y : W32) : W32 := rn32 ((num32 x).mulExact (num32 y)).1
def add32 (x y : W32) : W32 := rn32 ((num32 x).addExact false (num32 y)).1
def sub32 (x y : W32) : W32 := rn32 ((num32 x).addExact false (num32 y).flip).1
def div32 (x y : W32) : W32 := rn32 ((num32 x).divSticky (num32 y)).1
def sqrt32 (x : W32) : W32 := rn32 ((num32 x).sqrtSticky).1

/-- The product over the set bits of n, ascending, of the powers P(i) (07 R126). -/
def decayChain : List W32 → Nat → W32 → W32
  | [], _, d => d
  | p :: ps, n, d => decayChain ps (n / 2) (if n % 2 = 1 then mul32 d p else d)

/-- DECAY(c, n) under a decay table of 15 records (07 R126); class 15 never decays. -/
def decayOf (tbl : List (List W32)) (c n : Nat) : W32 :=
  if c = 15 then 0x3F800000 else decayChain (tbl.getD c []) n 0x3F800000

/-- The STAMP code that a stored word raises at its home (07 R129), before the operand's. -/
def storedFault (tbl : Option (List (List W32))) (cls : Nat) (now : BitVec 24) (w : Word) : Option Nat :=
  if !stampZero w then some 2
  else if classOf w != cls then some 3
  else if 2 ^ 23 ≤ (now - stampOf w).toNat then some 5
  else if classOf w != 15 && tbl.isNone then some 6
  else none

/-- The logical word: stamp, class, value and age (07 R130). -/
structure Logical where
  st  : BitVec 24
  cls : Nat
  val : W32
  age : Nat
  deriving DecidableEq, Repr

/-- LOGICAL of a word whose age is below 2^23 (07 R130). -/
def logical (tbl : List (List W32)) (now base : BitVec 24) (w : Word) : Logical :=
  let age := (now - stampOf w).toNat
  let b := (now - base).toNat
  if b < age then ⟨base, classOf w, mul32 (valueOf w) (decayOf tbl (classOf w) (age - b)), b⟩
  else ⟨stampOf w, classOf w, valueOf w, age⟩

/-- The value decayed to now. -/
def Logical.faded (l : Logical) (tbl : List (List W32)) : W32 := mul32 l.val (decayOf tbl l.cls l.age)

/-- SMRG (07 R131): two logical words of one class merged at the newer stamp. -/
def mergeStamped (tbl : List (List W32)) (l o : Logical) : Word :=
  if o.age ≤ l.age then stampWord o.st l.cls (add32 o.val (mul32 l.val (decayOf tbl l.cls (l.age - o.age))))
  else stampWord l.st l.cls (add32 l.val (mul32 o.val (decayOf tbl l.cls (o.age - l.age))))

/-- The STAMP code of an operation FN of the STMP major on a stored word w with operand o (07 R129, 13 R224). -/
def stampCheck (tbl : Option (List (List W32))) (cls : Nat) (now : BitVec 24) (fn : Nat) (w o : Word) : Option Nat :=
  if !stampZero w then some 2
  else if classOf w != cls then some 3
  else if (fn == 1 || fn == 4) && classOf o != cls then some 4
  else if 2 ^ 23 ≤ (now - stampOf w).toNat || (fn == 4 && 2 ^ 23 ≤ (now - stampOf o).toNat) then some 5
  else if cls != 15 && tbl.isNone then some 6
  else none

/-- What an operation that passes its checks writes, and the word it returns (07 R131, 13 R224). -/
def stampEffect (tbl : List (List W32)) (cls : Nat) (now base : BitVec 24) (fn : Nat) (w o : Word) : Option Word × Word :=
  let l := logical tbl now base w
  match fn with
  | 0 => (none, stampWord now l.cls (l.faded tbl))
  | 1 => (some (stampWord now cls (valueOf o)), 0)
  | 4 =>
    let r := mergeStamped tbl l (logical tbl now base o)
    (some r, r)
  | 5 => (none, BitVec.ofNat 64 l.age)
  | 6 =>
    let r := stampWord now l.cls (l.faded tbl)
    (some r, r)
  | _ =>
    let r := stampWord now l.cls (add32 (l.faded tbl) (valueOf o))
    (some r, r)

/-- The word a decay record of 23 powers must hold, entry by entry (07 R125, R127). -/
def decayRecordOk (ps : List W32) : Bool :=
  match ps with
  | [] => false
  | p0 :: rest =>
    !p0.getLsbD 31 && p0.toNat ≤ 0x3F800000 &&
      (List.zip (p0 :: rest) rest).all (fun e => e.2 == mul32 e.1 e.1)

end Sys2Proof.Machine
end

