-- ==== Sys2Proof/Config.lean ====
section
/-! DEFINITION. What the SVB-1024 fixes in numbers, and the free values the manual leaves open. -/

namespace Sys2Proof.Config

/-- Compute cores (00 R2). -/
def nCores : Nat := 1024
/-- Compute and service cores, which is the number of vaults (01 R11, R13). -/
def nVaults : Nat := 1152
/-- Bytes of a compute core's vault (01 R19). -/
def vaultBytes : Nat := 0x200000
/-- Bytes of a service core's vault (01 R15). -/
def svcVaultBytes : Nat := 0x80000
/-- First byte of the engine window (01 R13). -/
def engineWindow : Nat := 0x200000
/-- First byte after the engine window (01 R13). -/
def engineWindowEnd : Nat := 0x210000
/-- First byte of the vault windows (01 R13). -/
def windowBase : Nat := 0x100000000
/-- First byte after the vault windows (01 R13). -/
def windowEnd : Nat := 0x190000000
/-- First byte of translated device virtual space (01 R13). -/
def translatedBase : Nat := 0x200000000
/-- Home key of vault byte 0: vault bytes are keyed above the 48-bit physical space (01 R23, R25). -/
def vaultKey : Nat := 0x1000000000000
/-- HBM4E ends here (01 R23). -/
def hbmEnd : Nat := 0x8000000000
/-- First byte of the context save areas that the control complex assigns, at the top of HBM4E (10 R185; DESIGN CHOICE, log entry 29). -/
def areasBase : Nat := 0x7800000000
/-- The second tier (01 R23). -/
def tierBase : Nat := 0x10000000000
/-- First byte after the second tier (01 R23). -/
def tierEnd : Nat := 0x30000000000
/-- The host window (01 R23). -/
def hostBase : Nat := 0x400000000000
/-- First byte after the host window, where the peer windows begin (01 R23). -/
def peerBase : Nat := 0x600000000000
/-- First byte after the peer windows (01 R23). -/
def peerEnd : Nat := 0x680000000000
/-- Journal header offset in a vault (08 R140). -/
def journalBase : Nat := 0x1C0000
/-- Journal entries a region's core may use (08 R140). -/
def journalCap : Nat := 7679
/-- The number SRC of a frame from the host (10 R178). -/
def hostSrc : Nat := 0xFFFF
/-- Default watchdog limit (10 R176). -/
def wdogDefault : Word := 0x1000000
/-- Default aging limit (10 R175). -/
def wageDefault : Word := 65536

/-- A value the manual leaves open: uninterpreted, so no proof can lean on one (DESIGN CHOICE, log entry 3). The step
applies it to a counter of State, so that every use is a fresh value. -/
opaque freeWord : Nat → Word

/-- The SHA-256 digest of bytes, which 21 R358 and R359 name and whose definition lies outside the manual: uninterpreted (DESIGN CHOICE, log entry
34). -/
opaque sha256 : List Byte → BitVec 256

/-- The ECDSA signature, r and s, of a digest with a key, over P-256 (21 R359): uninterpreted (DESIGN CHOICE, log entry 34). -/
opaque sign : BitVec 256 → BitVec 256 → BitVec 256 × BitVec 256

end Sys2Proof.Config
end

