-- ==== Sys2Proof/Syntax/Operands.lean ====
section
/-! DEFINITION. The operand forms of the instructions, and the data an event of the device carries. -/

namespace Sys2Proof

/-- The fields of an M-format word (11 R188): pointer, addressing mode, size code, displacement. -/
structure MOp where
  p    : BitVec 3
  am   : BitVec 2
  sz   : BitVec 2
  disp : BitVec 14
  deriving DecidableEq, Repr, Inhabited

/-- One MREAD's request to one slice (14 R242, 02 R52): issuer, its task's number (13 R226), the MREAD's number on its core, slice, the slice's lines of the range in ascending
order, each a line number (a physical address divided by 128) with its offset in the destination vaults, the masks, and the barrier
object. -/
structure MReq where
  src   : Nat
  id    : Nat
  slice : Nat
  lines : List (Nat × Nat)
  qset  : BitVec 16
  pos   : Word
  bobj  : Option Nat
  owner : Nat := 0
  deriving DecidableEq, Repr, Inhabited

/-- What a request asks of its home (02 R34, 13 R222-R224, R228). `atom` carries the FN of the ATOM major, `cas` the value
compared, `stamp` the context, the virtual address and the FN of the STMP major, `mread` an MREAD's request; `hold` is the place of an access that its
core performs itself once the line lets it (02 R33), and no request from outside. -/
inductive ReqOp where
  | load | store | storeNt | cflush | cpin | cunpin | cpref | watch | hold
  | atom (fn : BitVec 5)
  | cas (old : Word)
  | stamp (ctx : Nat) (va : Word) (fn : Nat)
  | mread (m : MReq)
  deriving DecidableEq, Repr, Inhabited

/-- A request arriving at a home from another agent (02 R34): its source (a core number; 0xFFFF for a
port or an engine), what it asks, the home address, the access size in bytes and its data; the address that its instruction named and that
instruction's own (02 R40); whether it is a peer's release (03 R70); and when it reached its slice, on the scale of acceptance keys, which the slice
sets (04 R81). -/
structure Req where
  src  : Nat
  op   : ReqOp
  addr : Nat
  size : Nat
  data : Word
  va   : Word := 0
  pc   : Word := 0
  rel  : Bool := false
  stamp : Nat := 0
  deriving DecidableEq, Repr, Inhabited

/-- A response on its way to a core (03 R53): the core, with the context and the number of the task that asked (03 R67), the value of
a load or returning atomic (none for an acknowledgement), whether the far side refused or the link is down (03 R71, 21 R360), and
whether the word was poisoned (02 R40). -/
structure Resp where
  core    : Nat
  ctx     : Nat
  owner   : Nat
  value   : Option Word
  refused : Bool
  bad     : Bool
  deriving DecidableEq, Repr, Inhabited

/-- A delivered packet (04 R93): the issuing core and its context, the destination vault and offset, the bytes, which of its 8-byte
words are poisoned, the barrier object's offset in that vault, the acceptance key of the MCAST whose line it is, and its source in the network (02
R48): a core, 2048 and a slice's number, or 2112 and an engine's. -/
structure Delivery where
  issuer : Nat
  ctx    : Nat
  vault  : Nat
  off    : Nat
  data   : List Byte
  bad    : List Nat
  bobj   : Option Nat
  cmd    : Option Nat
  src    : Nat
  deriving DecidableEq, Repr, Inhabited

/-- A decrement of a join word sent by an agent other than the running task (10 R179): the context, the
join's address as the decrementer named it, and the core its upcalls go to. -/
structure JoinReq where
  ctx  : Nat
  name : Word
  core : Nat
  deriving DecidableEq, Repr, Inhabited

/-- Why an instruction fetch faults (01 R30, 21 R360): TRANSL with a REASON of 06 R119 and whether the entry is a COW one, PERM, ECC, or a link
that is down. -/
inductive FetchFault where
  | transl (reason : BitVec 8) (cow : Bool)
  | perm
  | ecc
  | link
  deriving DecidableEq, Repr, Inhabited

/-- A translation (06 R113): virtual page base, size code, context, physical base and attributes. -/
structure Page where
  va   : Nat
  size : Nat
  ctx  : Nat
  pa   : Nat
  cow  : Bool
  tier : Nat
  il   : Bool
  mig  : Bool
  x    : Bool
  w    : Bool
  r    : Bool
  deriving DecidableEq, Repr, Inhabited

/-- What the owner gives when it creates a context (21 R356, 05 R97, 04 R86, 06 R117, 10 R173); of a saved context, its step count and its
decay and region tables with their addresses, empty lists for none (07 R123, R125). -/
structure CtxSpec where
  num        : Nat
  priority   : Nat
  grant      : BitVec 128
  pages      : List Page
  faultRing  : Word
  fillLimit  : Nat
  layerBase  : Word
  layerCount : Nat
  budget     : Nat
  layerWait  : Nat
  queueCap   : Nat
  gstep      : Word
  decayb     : Word
  decay      : List Word
  srtb       : Word
  regions    : List Word
  patGrant   : List (BitVec 64)
  link       : Nat
  vf         : Nat
  pasid      : Nat
  deriving DecidableEq, Repr, Inhabited

end Sys2Proof
end

