-- ==== Sys2Proof/Syntax.lean ====
section
/-! DEFINITION. The instructions and device steps of the SVB-1024: one constructor per row of the opcode table
(11 R193; the steps without an encoding are those that 95 lists). A constructor carries the fields the
instruction uses (11 R194), or the data that names the instance of a device step. Constructors without fields stand last. -/

namespace Sys2Proof

/-- The rows of the opcode table (11 R193, 95). -/
inductive Instr where
  /-- R220: Loads 2^SZ bytes at ea, sign-extended into a, ordered by R55. -/
  | ld (m : MOp)
  /-- R220: Loads 2^SZ bytes at ea, zero-extended into a. -/
  | ldu (m : MOp)
  /-- R220: Sets a to the effective address without any access or check. -/
  | lda (m : MOp)
  /-- R58: Acquire load of LOC scope into a. -/
  | ldAcqLoc (m : MOp)
  /-- R58: Acquire load of DEV scope into a. -/
  | ldAcqDev (m : MOp)
  /-- R58: Acquire load of SYS scope into a. -/
  | ldAcqSys (m : MOp)
  /-- R220: Load that asks the home slice not to allocate. -/
  | ldNt (m : MOp)
  /-- R220: Loads an FP32 or FP64 value into a, widening FP32 exactly. -/
  | ldf (m : MOp)
  /-- R221: Stores the low 2^SZ bytes of a at ea. -/
  | st (m : MOp)
  /-- R57: Release store of LOC scope. -/
  | stRelLoc (m : MOp)
  /-- R57: Release store of DEV scope. -/
  | stRelDev (m : MOp)
  /-- R57: Release store of SYS scope, with host link ordering under R68. -/
  | stRelSys (m : MOp)
  /-- R65: Store outside release ordering, written through at a slice. -/
  | stNt (m : MOp)
  /-- R221: Stores a as FP64, or rounded to FP32 under FRM. -/
  | stf (m : MOp)
  /-- R202: a := a + m with carry into C. -/
  | add (m : MOp)
  /-- R202: a := a − m with borrow into C. -/
  | sub (m : MOp)
  /-- R202: a := m − a with borrow into C. -/
  | rsb (m : MOp)
  /-- R202: a := a and m. -/
  | and (m : MOp)
  /-- R202: a := a or m. -/
  | or (m : MOp)
  /-- R202: a := a xor m. -/
  | xor (m : MOp)
  /-- R202: a := low 64 bits of a × m. -/
  | mul (m : MOp)
  /-- R202: a := high 64 bits of the signed product. -/
  | mulh (m : MOp)
  /-- R202: a := high 64 bits of the unsigned product. -/
  | mulhu (m : MOp)
  /-- R203: Signed division truncated toward zero, never trapping. -/
  | div (m : MOp)
  /-- R203: Unsigned division, never trapping. -/
  | divu (m : MOp)
  /-- R203: Signed remainder with the sign of a. -/
  | rem (m : MOp)
  /-- R203: Unsigned remainder. -/
  | remu (m : MOp)
  /-- R202: a := signed minimum of a and m. -/
  | min (m : MOp)
  /-- R202: a := signed maximum of a and m. -/
  | max (m : MOp)
  /-- R202: a := unsigned minimum. -/
  | minu (m : MOp)
  /-- R202: a := unsigned maximum. -/
  | maxu (m : MOp)
  /-- R202: a := a shifted left by m[5:0]. -/
  | shl (m : MOp)
  /-- R202: Logical right shift of a by m[5:0]. -/
  | shr (m : MOp)
  /-- R202: Arithmetic right shift of a by m[5:0]. -/
  | sar (m : MOp)
  /-- R202: Rotates a left by m[5:0]. -/
  | rol (m : MOp)
  /-- R202: T := (a == m). -/
  | cmpeq (m : MOp)
  /-- R202: T := (a < m) signed. -/
  | cmplt (m : MOp)
  /-- R202: T := (a < m) unsigned. -/
  | cmpltu (m : MOp)
  /-- R202: T := ((a and m) ≠ 0). -/
  | tst (m : MOp)
  /-- R202: a := a + m + C with carry out. -/
  | addc (m : MOp)
  /-- R202: a := a − m − C with borrow out. -/
  | subc (m : MOp)
  /-- R204: FP64 add of a and the loaded operand under FRM. -/
  | fadd (m : MOp)
  /-- R204: FP64 subtract. -/
  | fsub (m : MOp)
  /-- R204: FP64 multiply. -/
  | fmul (m : MOp)
  /-- R204: FP64 divide. -/
  | fdiv (m : MOp)
  /-- R206: FP64 minimum with −0 below +0 and NaN handling. -/
  | fmin (m : MOp)
  /-- R206: FP64 maximum. -/
  | fmax (m : MOp)
  /-- R206: T := (a == m) in floating point. -/
  | fcmpeq (m : MOp)
  /-- R206: T := (a < m) in floating point. -/
  | fcmplt (m : MOp)
  /-- R206: T := (a ≤ m) in floating point. -/
  | fcmple (m : MOp)
  /-- R207: a := sign-extended immediate. -/
  | li (imm : BitVec 21)
  /-- R207: a := (a << 21) or the zero-extended immediate. -/
  | lui (imm : BitVec 21)
  /-- R207: a := a + sign-extended immediate, C as ADD. -/
  | addi (imm : BitVec 21)
  /-- R207: a := a and sign-extended immediate. -/
  | andi (imm : BitVec 21)
  /-- R207: a := a or zero-extended immediate. -/
  | ori (imm : BitVec 21)
  /-- R207: a := a xor zero-extended immediate. -/
  | xori (imm : BitVec 21)
  /-- R207: Shifts a left by an immediate 0–63. -/
  | shli (sh : BitVec 6)
  /-- R207: Logical right shift of a by an immediate. -/
  | shri (sh : BitVec 6)
  /-- R207: Arithmetic right shift of a by an immediate. -/
  | sari (sh : BitVec 6)
  /-- R207: T := (a == sign-extended immediate). -/
  | cmpeqi (imm : BitVec 21)
  /-- R207: T := (a < sign-extended immediate) signed. -/
  | cmplti (imm : BitVec 21)
  /-- R207: T := (a < zero-extended immediate) unsigned. -/
  | cmpltui (imm : BitVec 21)
  /-- R207: T := ((a and immediate) ≠ 0). -/
  | tsti (imm : BitVec 21)
  /-- R207: a := low 64 bits of a × immediate. -/
  | muli (imm : BitVec 21)
  /-- R208: Sign-extends the low byte, half or word of a. -/
  | sext (w : BitVec 2)
  /-- R208: Zero-extends the low byte, half or word of a. -/
  | zext (w : BitVec 2)
  /-- R209: Converts a in place by the named conversion code. -/
  | fcvt (code : BitVec 5)
  /-- R222: Returning atomic add at the home. -/
  | aadd (m : MOp)
  /-- R222: Returning atomic and. -/
  | aand (m : MOp)
  /-- R222: Returning atomic or. -/
  | aor (m : MOp)
  /-- R222: Returning atomic xor. -/
  | axor (m : MOp)
  /-- R222: Returning atomic signed minimum. -/
  | amin (m : MOp)
  /-- R222: Returning atomic signed maximum. -/
  | amax (m : MOp)
  /-- R222: Returning atomic unsigned minimum. -/
  | aminu (m : MOp)
  /-- R222: Returning atomic unsigned maximum. -/
  | amaxu (m : MOp)
  /-- R222: Returning atomic swap. -/
  | aswp (m : MOp)
  /-- R222: Returning atomic floating add rounded to nearest even at the home. -/
  | afadd (m : MOp)
  /-- R222: Posted atomic add, ordered as a store. -/
  | aaddN (m : MOp)
  /-- R222: Posted atomic and. -/
  | aandN (m : MOp)
  /-- R222: Posted atomic or. -/
  | aorN (m : MOp)
  /-- R222: Posted atomic xor. -/
  | axorN (m : MOp)
  /-- R222: Posted atomic signed minimum. -/
  | aminN (m : MOp)
  /-- R222: Posted atomic signed maximum. -/
  | amaxN (m : MOp)
  /-- R222: Posted atomic unsigned minimum. -/
  | aminuN (m : MOp)
  /-- R222: Posted atomic unsigned maximum. -/
  | amaxuN (m : MOp)
  /-- R222: Posted atomic swap. -/
  | aswpN (m : MOp)
  /-- R222: Posted atomic floating add. -/
  | afaddN (m : MOp)
  /-- R224: Returns the stamped word decayed to now. -/
  | sld (m : MOp)
  /-- R224: Stores a stamped value at now in the region class. -/
  | sst (m : MOp)
  /-- R224: Decays the stamped word to now, adds the operand and returns the word written. -/
  | sadd (m : MOp)
  /-- R224: Posted stamped add. -/
  | saddN (m : MOp)
  /-- R131: Merges a stamped operand into the stored word at the newer stamp. -/
  | smrg (m : MOp)
  /-- R224: Returns the logical age of the stamped word. -/
  | sage (m : MOp)
  /-- R224: Rewrites the stamped word decayed to now. -/
  | srebase (m : MOp)
  /-- R211: pd.addr := a + immediate. -/
  | pset (pd : BitVec 3) (imm : BitVec 16)
  /-- R211: a := ps.addr + immediate. -/
  | pget (ps : BitVec 3) (imm : BitVec 16)
  /-- R211: pd.addr := ps.addr + immediate. -/
  | padd (pd ps : BitVec 3) (imm : BitVec 16)
  /-- R211: pd.addr := ps.addr + a. -/
  | padda (pd ps : BitVec 3)
  /-- R211: pd.stride := immediate. -/
  | pstr (pd : BitVec 3) (imm : BitVec 16)
  /-- R211: pd.stride := a[31:0], checking the signed range. -/
  | pstra (pd : BitVec 3)
  /-- R211: T := (pd.addr == ps.addr). -/
  | pcmpeq (pd ps : BitVec 3)
  /-- R211: T := (pd.addr < ps.addr) unsigned. -/
  | pcmplt (pd ps : BitVec 3)
  /-- R211: a := sign-extended stride of ps. -/
  | pgets (ps : BitVec 3)
  /-- R212: Branches PC-relative when the condition holds. -/
  | bcc (cc : BitVec 4) (off : BitVec 22)
  /-- R213: Pushes the return address through p7 and branches PC-relative. -/
  | call (off : BitVec 22)
  /-- R213: Pops the return address and discards n more doublewords. -/
  | ret (n : BitVec 20)
  /-- R214: Raises BREAK as a precise trap with the break code. -/
  | brk (n : BitVec 20)
  /-- R215: a := a + x × y with one rounding, loading x and y through PA and PB. -/
  | fmac (ty pa pb : BitVec 3) (x : BitVec 2)
  /-- R223: Atomic compare-and-swap at the PA home with the new value loaded through PB. -/
  | acas (ty pa pb : BitVec 3)
  /-- R215: a := the PA element if T is 1, else the PB element. -/
  | sel (ty pa pb : BitVec 3) (x : BitVec 2)
  /-- R215: a := a + x × y in integers, wrapping. -/
  | imac (ty pa pb : BitVec 3) (x : BitVec 2)
  /-- R215: Copies one element from the PA address to the PD address. -/
  | movm (ty pd pa : BitVec 3) (xa xd : BitVec 1)
  /-- R60: Delays later accesses until earlier in-scope accesses are performed. -/
  | fence (scope : BitVec 2)
  /-- R226: Stalls until each count of CNTS is at or below its nibble. -/
  | waitc (n : BitVec 16)
  /-- R227: Arms a watch on the 128-byte block at its home. -/
  | mwatch (p : BitVec 3)
  /-- R227: Stalls until a watch event or timeout, setting T. -/
  | mwait (n : BitVec 19)
  /-- R228: Writes back a line's dirty words and invalidates it unless pinned. -/
  | cflush (p : BitVec 3)
  /-- R228: Allocates and pins a line, T reporting success. -/
  | cpin (p : BitVec 3)
  /-- R228: Clears a line's pin bit. -/
  | cunpin (p : BitVec 3)
  /-- R228: Prefetches a line into its slice, possibly dropped. -/
  | cpref (p : BitVec 3)
  /-- R329: a := the named CSR. -/
  | mfs (csr : BitVec 12)
  /-- R329: Writes a to the named CSR under R198. -/
  | mts (csr : BitVec 12)
  /-- R330: Raises SYSCALL with the immediate in TRAPX. -/
  | trap (n : BitVec 20)
  /-- R115: Firmware removes a context's entries over a range or all, and waits for their accesses. -/
  | tlbi (all : BitVec 1)
  /-- R334: Firmware restores a save area and enters user mode in a context. -/
  | crst (c : BitVec 6)
  /-- R336: Sets the task's own watchdog limit. -/
  | wdog (n : BitVec 12)
  /-- R217: Reads and checks a loop-nest record and loads the sequencer. -/
  | lnset (ps : BitVec 3) (imm : BitVec 16)
  /-- R217: a := the index of a loop level. -/
  | lnidx (j : BitVec 2)
  /-- R217: Sets a pointer to a stream's current address and level-0 stride. -/
  | lnptr (pd : BitVec 3) (s : BitVec 2)
  /-- R268: Configures a tile's shape and format, zeroing affected tiles or raising TILELIVE. -/
  | tcfg (ac : BitVec 2) (fl : BitVec 9)
  /-- R269: Zeroes a tile and marks it not live. -/
  | trel (ac : BitVec 2)
  /-- R269: Zeroes a tile and marks it live. -/
  | tzero (ac : BitVec 2)
  /-- R270: Loads a tile from a view with scaling and widening. -/
  | tld (ac : BitVec 2) (pa : BitVec 3) (fl : BitVec 1)
  /-- R270: Writes a tile to a view bit for bit. -/
  | twr (ac : BitVec 2) (pa : BitVec 3) (fl : BitVec 1)
  /-- R270: Drains a tile to a view with conversion, zeroing the tile. -/
  | tdrain (ac : BitVec 2) (pa : BitVec 3) (fl : BitVec 2)
  /-- R269: Transposes a tile in place. -/
  | ttrn (ac : BitVec 2)
  /-- R269: Multiplies every tile element by an FP32 scale. -/
  | tscl (ac : BitVec 2) (pa : BitVec 3)
  /-- R272: Matrix multiply-accumulate into a tile in the fixed accumulation order. -/
  | mma (ac : BitVec 2) (pa pb : BitVec 3) (fl : BitVec 6)
  /-- R272: Matrix multiply-accumulate with one 2-of-4 compressed operand. -/
  | mmas (ac : BitVec 2) (pa pb : BitVec 3) (fl : BitVec 6)
  /-- R273: Compresses a dense view into a 2-of-4 view. -/
  | tcmpr (pa pb : BitVec 3) (fl : BitVec 1)
  /-- R274: Combines a tile element-wise with a view, vector or scalar. -/
  | tvop (ac : BitVec 2) (pa : BitVec 3) (fl : BitVec 7)
  /-- R275: Reduces a tile's rows or columns into a vector in memory. -/
  | tred (ac : BitVec 2) (pa : BitVec 3) (fl : BitVec 3)
  /-- R269: Converts a tile to another accumulator format. -/
  | tcvt (ac : BitVec 2) (fl : BitVec 4)
  /-- R276: Drains a tile choosing strip scales, optionally building a CPT. -/
  | tqnt (ac : BitVec 2) (pa : BitVec 3) (fl : BitVec 2)
  /-- R277: Replaces each tile row by its softmax. -/
  | tsmax (ac : BitVec 2)
  /-- R283: Element-wise vector add. -/
  | vadd (ty pd pa pb : BitVec 3) (x : BitVec 2)
  /-- R283: Element-wise vector subtract. -/
  | vsub (ty pd pa pb : BitVec 3) (x : BitVec 2)
  /-- R283: Element-wise vector multiply. -/
  | vmul (ty pd pa pb : BitVec 3) (x : BitVec 2)
  /-- R283: Element-wise fused multiply-add into d. -/
  | vfma (ty pd pa pb : BitVec 3) (x : BitVec 2)
  /-- R283: Element-wise maximum. -/
  | vmax (ty pd pa pb : BitVec 3) (x : BitVec 2)
  /-- R283: Element-wise minimum. -/
  | vmin (ty pd pa pb : BitVec 3) (x : BitVec 2)
  /-- R284: Sums VL elements in the fixed 64-lane tree order into memory and a. -/
  | vsum (ty pd pa : BitVec 3) (x : BitVec 2)
  /-- R284: Dot product of two vectors in the fixed tree order. -/
  | vdot (ty pd pa pb : BitVec 3) (x : BitVec 2)
  /-- R285: Converts a vector between FP32 or INT32 and a narrow format. -/
  | vcvt (ty pd pa : BitVec 3) (x : BitVec 8)
  /-- R286: Gathers elements by INT32 indices. -/
  | vgath (ty pd pa pb : BitVec 3) (x : BitVec 2)
  /-- R286: Scatters elements by INT32 indices in ascending order. -/
  | vscat (ty pd pa pb : BitVec 3) (x : BitVec 2)
  /-- R283: Multiplies elements by block scale bytes. -/
  | vscl (ty pd pa pb : BitVec 3) (x : BitVec 2)
  /-- R283: Element-wise 2^x correctly rounded. -/
  | vexp2 (ty pd pa : BitVec 3) (x : BitVec 2)
  /-- R287: Stamped adds of a vector into stamped words of the own vault. -/
  | vsad (pd pa : BitVec 3) (x : BitVec 2)
  /-- R288: Updates weights with decayed stamped moments in Adam form. -/
  | awupd (pd pa pb : BitVec 3) (adv : BitVec 1)
  /-- R291: Loads the receive or emit slot from a stream configuration record. -/
  | rkcfg (p : BitVec 3) (slot : BitVec 1)
  /-- R294: Loads and checks the falling sequence G and surrogate H. -/
  | rkldg (p : BitVec 3)
  /-- R295: Reads and sorts a producer's values and starts background emission. -/
  | rkemit (p : BitVec 3) (idx : BitVec 4)
  /-- R298: Runs the backward pass through the log and scatters channel gradients. -/
  | rkbwd (p : BitVec 3)
  /-- R297: Stores RACC to memory and returns RKCNT. -/
  | rkrd (p : BitVec 3)
  /-- R302: Sorts keys with indices in key order. -/
  | osort (ty pd pa : BitVec 3) (x : BitVec 2)
  /-- R304: Selects the K best keys into a hand with sums. -/
  | otopk (ty pd pa : BitVec 3) (x : BitVec 2)
  /-- R305: Merges two hands into one. -/
  | omerge (ty pd pa pb : BitVec 3)
  /-- R306: Counts boundaries at or below each query key. -/
  | obkt (ty pd pa pb : BitVec 3) (x : BitVec 2)
  /-- R234: Posts a copy of a continuation record to a core or cluster queue. -/
  | spawn (p : BitVec 3) (self : BitVec 1)
  /-- R235: Delivers a message to a core or the host message queue. -/
  | send (p : BitVec 3) (len : BitVec 6) (host : BitVec 1)
  /-- R238: Moves the running task with a carried frame to another core. -/
  | hop (p : BitVec 3) (size : BitVec 5)
  /-- R236: Reads, checks and accepts a launch record, returning its LAUNCHID. -/
  | launch (p : BitVec 3)
  /-- R239: Appends a to an outbound flume, stalling while full. -/
  | lqput (n : BitVec 2)
  /-- R239: Takes the oldest entry of an inbound flume into a, stalling while empty. -/
  | lqget (n : BitVec 2)
  /-- R239: Tests a flume for an entry or a free slot into T. -/
  | lqtst (n : BitVec 2) (out : BitVec 1)
  /-- R241: Multicasts a tile from the own vault into vaults with barrier counting. -/
  | tsend (p : BitVec 3)
  /-- R242: Requests a device-memory range multicast from its home slices into vaults. -/
  | mread (p : BitVec 3)
  /-- R243: Acquires and pins a layer, parking if it is not resident. -/
  | lwait (l : BitVec 12) (froma : BitVec 1)
  /-- R243: Posts an unpin of a layer. -/
  | lrel (l : BitVec 12) (froma : BitVec 1)
  /-- R243: Posts a stream-in hint or retry request for a layer. -/
  | lhint (l : BitVec 12) (froma : BitVec 1)
  /-- R245: Posts a decrement of a join word. -/
  | jdec (p : BitVec 3)
  /-- R246: Arms a barrier object with an expected count and record. -/
  | barm (p : BitVec 3) (pc : BitVec 3)
  /-- R80: An access held on a claimed line is performed once the engine's part is done. -/
  | recall (addr : Nat) (write : Bool)
  /-- R34: A slice bank performs an arriving load, store, atomic or control request. -/
  | sliceRequest (r : Req)
  /-- R21: A vault controller performs an arriving access in arrival order. -/
  | vaultAccess (r : Req)
  /-- R52: An MREAD request opens or joins a slice multicast table entry. -/
  | mreadRequest (m : MReq)
  /-- R93: A TSEND, MREAD or multicast packet is written at a destination vault. -/
  | vaultDelivery (d : Delivery)
  /-- R246: An arming of a barrier object is performed at its home. -/
  | barmAtHome (g : Nat) (off expected : Nat) (cr : Word) (issuer : Nat)
  /-- R179: A join word is decremented at its home, posting its record at zero. -/
  | joinDecrement (j : JoinReq)
  /-- R182: A put flume entry becomes present at the neighbour. -/
  | flumeTransfer (g n : Nat)
  /-- R182: A freed flume slot returns to the sender. -/
  | flumeSlotReturn (g n : Nat)
  /-- R121: The control complex marks, copies and invalidates a page to move it between tiers. -/
  | migration (ctx : Nat) (va : Word) (newpa : Nat)
  /-- R24: The control complex flushes a band and flips its interleave mode. -/
  | bandModeChange (band : Nat) (stackLocal : Bool)
  /-- R120: The driver asks for a host-backed range to be unmapped device-wide. -/
  | hostUnmapRequest (ctx : Nat) (va : Word) (pages : Nat)
  /-- R120: The driver answers a fault-in request for a host-backed range. -/
  | hostFaultInAnswer (g : Nat) (pa : Option Nat)
  /-- R106: An LWAIT is performed at the flag word's home. -/
  | lwaitAtHome (g layer : Nat)
  /-- R107: An LREL decrements PIN at the flag word's home. -/
  | lrelAtHome (g layer : Nat)
  /-- R107: An LHINT queues a demand stream-in or a retry at the flag's home. -/
  | lhintAtHome (g layer : Nat)
  /-- R104: A finished good LAYERIN sets RESIDENT and posts parked waiters. -/
  | layerResidentStep (ctx layer : Nat)
  /-- R105: A failed stream-in sets FAULTED and raises LAYER upcalls for waiters. -/
  | layerFaultStep (ctx layer err : Nat)
  /-- R109: EVICT completion sets the layer ABSENT and frees its frames. -/
  | layerEvictedStep (ctx layer : Nat)
  /-- R143: Once every task has reached OBAR or ended, vault controllers send write sets. -/
  | orderedMerge (ctx slot : Nat)
  /-- R144: Collected conflict reports decide to apply or abandon the merge. -/
  | mergeCheck (ctx slot : Nat)
  /-- R143: Every home and port has applied the merge; parked tasks resume. -/
  | mergeCompletion (ctx slot : Nat)
  /-- R363: A STOP reaches a producer, which sends END or ignores it. -/
  | stopPacketArrival (g stream : Nat)
  /-- R165: A launch generator adds the next task when its queue has room. -/
  | launchTaskGenerate (ctx slot : Nat)
  /-- R168: All tasks ended and their accesses performed; slot freed and join decremented. -/
  | launchCompletion (ctx slot : Nat)
  /-- R279: An error met by the matrix engine after issue raises ECC at the next boundary. -/
  | deferredTileFault (g : Nat) (addr : Word)
  /-- R362: A 10 µs temperature reading steps clocks, slows stacks or halts contexts. -/
  | thermalSample (q : Nat) (celsius : Nat) (stack : Bool)
  /-- R373: A halted context's clusters are saved and handed to another context. -/
  | clusterHandover (ctx next : Nat)
  /-- R356: The owner creates a context with its partition, budgets and tables. -/
  | contextCreate (c : CtxSpec)
  /-- R331: Writing DBGCTL.STEP turns single-stepping on or off. -/
  | dbgctlWrite (g : Nat) (v : Word)
  /-- R360: A host or peer link goes down. -/
  | linkDown (peer : Bool) (n : Nat)
  /-- R352: A host read or write through the device memory aperture is translated and performed. -/
  | hostApertureAccess (ctx : Nat) (r : Req)
  /-- R70: A write from a peer link is performed at its home. -/
  | peerInboundWrite (n : Nat) (r : Req)
  /-- R353: The host advances the launch queue tail and records are launched. -/
  | launchQueueDoorbell (ctx : Nat) (tail : Nat)
  /-- R354: The host advances the message-in tail and entries are delivered. -/
  | messageInDoorbell (ctx : Nat) (tail : Nat)
  /-- R355: A claim is written and its attestation exchange run. -/
  | ownershipClaim (link master : Nat) (attested : Bool)
  /-- R357: The driver writes the accepted feature subset. -/
  | acceptWrite (v : BitVec 128)
  /-- R358: At start the boot ROM checks the firmware signature or enters recovery. -/
  | firmwareBoot (good : Bool)
  /-- R358: The host delivers the firmware image again in recovery. -/
  | firmwareImageDelivery (good : Bool)
  /-- R196: A fetched word that breaks the opcode map raises ILLEGAL as a precise trap and performs nothing. -/
  | illegalInstruction (w : W32)
  /-- R30: An instruction fetch from a non-executable, reserved or vault address raises TRANSL or PERM with TRAPPC at the fetch address. -/
  | fetchFault (addr : Word) (f : FetchFault)
  /-- R68: A PCI Express completion for a device read, AtomicOp or zero-length read arrives at a host port. -/
  | hostCompletion (link : Nat) (r : Resp)
  /-- R70: A peer's acknowledgement, read data or refusal such as inbound pool full reaches the issuing peer port. -/
  | peerAcknowledgement (n : Nat) (r : Resp)
  /-- R70: A load or atomic from a peer device arrives on a peer link and is performed at its home here. -/
  | peerInboundRead (n : Nat) (r : Req)
  /-- R353: The host frees entries of a function's message queue, letting stalled host SENDs proceed. -/
  | messageQueueConsumed (ctx n : Nat)
  /-- R360: A host or peer link comes back up and its traffic and the owner's presence resume. -/
  | linkUp (peer : Bool) (n : Nat)
  /-- R208: a := 0 − a, C := (a ≠ 0). -/
  | neg
  /-- R208: a := not a. -/
  | not
  /-- R208: a := count of leading zero bits. -/
  | clz
  /-- R208: a := count of trailing zero bits. -/
  | ctz
  /-- R208: a := count of one bits. -/
  | popc
  /-- R208: Reverses the bytes of a. -/
  | bswap
  /-- R208: T := 1. -/
  | sett
  /-- R208: T := 0. -/
  | clrt
  /-- R208: a := ZX(T). -/
  | movt
  /-- R208: a := ZX(C). -/
  | movc
  /-- R208: Clears the sign bit of a. -/
  | fabs
  /-- R208: Inverts the sign bit of a. -/
  | fneg
  /-- R208: a := rounded square root of a under R205. -/
  | fsqrt
  /-- R210: a := one-hot class mask of the FP64 value in a. -/
  | fclass
  /-- R214: Does nothing. -/
  | nop
  /-- R213: PC := a. -/
  | jmpa
  /-- R213: Pushes the return address and jumps to a. -/
  | calla
  /-- R65: Waits until every earlier store, ST.NT and posted atomic is performed. -/
  | drain
  /-- R72: Waits for own stores, invalidates the instruction cache and refetches. -/
  | ifence
  /-- R124: Advances the context step count and waits until every home and core holds it. -/
  | step
  /-- R327: Restores a trap frame and continues at its PC. -/
  | rft
  /-- R333: Firmware writes an entry image into the cluster TLB. -/
  | tlbw
  /-- R334: Firmware writes the core's context save area. -/
  | csave
  /-- R310: Loads the context's rewrite rule table on every core of the partition. -/
  | rwld
  /-- R318: Sets RWCTL.SKIP so the window after the next RFT runs unrewritten. -/
  | rwskip
  /-- R335: Firmware stops issue until a record, halt request or signal. -/
  | idle
  /-- R217: Advances the loop nest as an odometer, setting T. -/
  | lnext
  /-- R296: Starts receiving a stream, granting credits and forming tail sums. -/
  | rkrecv
  /-- R297: Resumes a paused merge. -/
  | rkres
  /-- R297: Stops the stream between arrivals. -/
  | rkstop
  /-- R237: Saves the task and requeues it at level 3. -/
  | yield
  /-- R237: Finishes the task. -/
  | endTask
  /-- R247: Ends the task's part in the ordered region and parks until the merge. -/
  | obar
  /-- R127: Every home or core has taken or refused a new decay, region or rule table. (State.unit says which context.) -/
  | tableLoadComplete
  /-- R89: Engine command copying LEN bytes in ascending order under claims. (State.unit says which engine.) -/
  | copy
  /-- R89: Engine command copying rows with source and destination pitches. (State.unit says which engine.) -/
  | copy2d
  /-- R89: Engine command writing copies of an 8-byte pattern. (State.unit says which engine.) -/
  | fill
  /-- R90: Engine command writing one source to the same offset in many vaults. (State.unit says which engine.) -/
  | mcast
  /-- R95: Engine command gathering a strided tensor through a stride-gather unit. (State.unit says which engine.) -/
  | gathert
  /-- R91: Engine command gathering blocks listed in a block table. (State.unit says which engine.) -/
  | btwalk
  /-- R104: Control-complex command streaming a layer into HBM4E with a CRC. (State.unit says which engine.) -/
  | layerin
  /-- R132: Control-complex command rewriting stamped words stamped before the base. (State.unit says which engine.) -/
  | sweep
  /-- R109: Control-complex command invalidating a layer's lines and translations. (State.unit says which engine.) -/
  | evict
  /-- R88: Engine command continuing a faulted command from its fault record. (State.unit says which engine.) -/
  | resume
  /-- R94: Engine command loading a stride-gather pattern entry. (State.unit says which engine.) -/
  | ptload
  /-- R73: An engine takes an accepted command from its queue when it has room. (State.unit says which engine.) -/
  | engineCommandStart
  /-- R83: A command's writes are all performed and its completion target is acted on. (State.unit says which engine.) -/
  | engineCompletion
  /-- R85: A stopped command writes its fault record and sends the fault notice. (State.unit says which engine.) -/
  | faultNotice
  /-- R86: A held fault retries the engine fault ring every 1,024 cycles. (State.unit says which engine.) -/
  | faultRingRetry
  /-- R36: A miss or merging fill from DRAM completes and waiting requests proceed. (State.unit says which line.) -/
  | mergingFill
  /-- R53: An acknowledgement or value reaches the issuing core and leaves CNTS. (State.unit says which core.) -/
  | accessResponse
  /-- R62: A write, watch loss or spurious event ends a waiting MWAIT. (State.unit says which core.) -/
  | mwaitWake
  /-- R227: The MWAIT timeout elapses and it returns with T = 0. (State.unit says which core.) -/
  | mwaitTimeout
  /-- R52: A multicast entry's 32-ring-cycle merge window expires. (State.unit says which slice.) -/
  | mergeWindowEnd
  /-- R52: A multicast entry reads and sends its next line, closing after its last original line. (State.unit says which slice.) -/
  | multicastLineSend
  /-- R51: A residual multicast packet leaves a fork when its branches gain credit. (State.unit says which fork.) -/
  | partialForkResidual
  /-- R116: The service core receives a miss and walks, fills and answers it. (State.unit says which core.) -/
  | translationMissMessage
  /-- R117: A translation completion notice arrives as a level-0 continuation. (State.unit says which core.) -/
  | completionNotice
  /-- R117: A fill unanswered within the fill limit gets status TIMEOUT. (State.unit says which core.) -/
  | fillTimeout
  /-- R121: After recopy, new entries are written and held fills answered. (State.unit says which context.) -/
  | migrationCommit
  /-- R102: The headrace starts a layer stream-in, evicting if needed. (State.unit says which context.) -/
  | streamInStart
  /-- R103: A demand stream-in waiting past the layer wait limit fails with STALL. (State.unit says which context.) -/
  | layerWaitLimit
  /-- R124: The step home adds one to GSTEP and broadcasts the new value. (State.unit says which context.) -/
  | stepIncrement
  /-- R124: A home or core takes the new step value and base and acknowledges. (State.unit says which context.) -/
  | stepBroadcast
  /-- R149: A producer sends a rank packet when a credit is available. (State.unit says which core.) -/
  | rankPacketSend
  /-- R150: A rank packet arrives at the receiver's producer queue or is discarded as stray. (State.unit says which core.) -/
  | rankPacketArrival
  /-- R152: The merge applies the next event to RACC, the log and RKCNT. (State.unit says which core.) -/
  | rankArrival
  /-- R171: A posted continuation record arrives at a core or cluster queue. (State.unit says which core.) -/
  | recordArrival
  /-- R178: A message lands in a message frame and its handler is queued. (State.unit says which core.) -/
  | messageArrival
  /-- R181: A hop lands in the landing frame or queue and enters level 2. (State.unit says which core.) -/
  | hopArrival
  /-- R173: Entries return from the overflow ring or device queue to the run queues. (State.unit says which core.) -/
  | queueRefill
  /-- R175: A free core selects and starts the next record. -/
  | recordSelect
  /-- R264: The matrix engine finishes a tile instruction. (State.unit says which core.) -/
  | tileInstructionComplete
  /-- R316: A rewritten group's shadow accumulator becomes visible. (State.unit says which core.) -/
  | sluiceGroupCommit
  /-- R280: Module power nears 3,000 W and MMAs narrow or wait. -/
  | powerAlarm
  /-- R280: A waiting MMA receives power budget and starts. (State.unit says which core.) -/
  | powerBudgetGrant
  /-- R184: An equal-priority context's wait reaches one quantum. (State.unit says which context.) -/
  | quantumExpiry
  /-- R184: The control complex sends a halt request to a partition. (State.unit says which context.) -/
  | preemptRequest
  /-- R184: A core stops at an instruction boundary and writes its save area. (State.unit says which core.) -/
  | coreHalt
  /-- R67: A core's save completes once its issued stores and posted atomics are performed. (State.unit says which core.) -/
  | contextSaveComplete
  /-- R373: The control complex restores a context's partition, images and queued entries. (State.unit says which context.) -/
  | contextResume
  /-- R108: The owner destroys a context, dropping its pins. (State.unit says which context.) -/
  | contextDestroy
  /-- R361: The owner fences a quadrant, moving its work and repairing it. (State.unit says which quadrant.) -/
  | quadrantFence
  /-- R336: The watchdog count reaches its limit and WDOG is raised. -/
  | watchdogFire
  /-- R87: A host port returns no credit for 1 ms and the command stops with FULL. (State.unit says which engine.) -/
  | hostCreditTimeout
  /-- R356: The owner names a successor identity. (State.unit says which successor.) -/
  | ownershipHandover
  /-- R356: The owner's link stays down for 1 s and the election reopens. -/
  | ownershipLapse
  /-- R39: A DRAM write of dirty words, a bypassed access or a write-through completes, releasing the line lock and performing CFLUSH. (State.unit says which line.) -/
  | writeBackComplete
  /-- R82: Read data or a write acknowledgement reaches a copy engine, which then issues the next write or releases progress. (State.unit says which engine.) -/
  | engineResponse
  /-- R280: Module power falls from near 3,000 W and MMAs stop narrowing or waiting for budget. -/
  | powerAlarmClear
  deriving DecidableEq, Repr, Inhabited

end Sys2Proof
end

