-- ==== Sys2Proof/Machine/State.lean ====
section
/-! DEFINITION. The state of the machine as plain data, the reasons a step can stop, and the machine right
after reset (11 R200). INVENTORY.md lists every piece with its rule and its reset value. -/

namespace Sys2Proof.Machine

/-- The machine stops with a fault. -/
inductive Fault where
  /-- Raised by no instruction: every fault the manual describes is a trap or an upcall and a next state.
  It stands for a step of a core whose number is not one of the 1,152 of 01 R11; it is safe. -/
  | noSuchCore
  deriving DecidableEq, Repr

/-- The model gives the instruction no meaning there. -/
inductive Refusal where
  /-- Raised by exec's arm of an instruction that has no meaning yet; safe. -/
  | notModelled (mnemonic : String)
  deriving DecidableEq, Repr

/-- A pointer: address and signed byte stride (11 R190). -/
structure Ptr where
  addr   : Word
  stride : BitVec 32
  deriving DecidableEq, Repr, Inhabited

/-- A task's identity (10 R162). -/
structure Ident where
  tid   : BitVec 32
  coord : BitVec 48
  stage : BitVec 4
  slot  : BitVec 6
  seq   : BitVec 24
  deriving DecidableEq, Repr, Inhabited

/-- The scalar registers of a task (11 R200, 10 R177). -/
structure Regs where
  a      : Word
  p      : Vector Ptr 8
  t      : Bool
  c      : Bool
  vl     : BitVec 13
  frm    : BitVec 2
  fflags : BitVec 5
  pc     : Word
  deriving DecidableEq, Repr

/-- A task's scalar state with its identity, the message frame it holds (10 R177, R178, R180), the number that the
core gave it when it started, which marks its commands and tile operations (04 R78, 13 R226), the host links it has written
since its last SYS release, fence or drain (03 R68), and the address of an instruction that it left its core by while it was stepped, until its BREAK
is raised (19 R331). -/
structure TaskState where
  regs  : Regs
  id    : Ident
  msg   : Option Nat
  owner : Nat
  wrote : BitVec 2
  stepped : Option Word := none
  deriving DecidableEq, Repr

/-- What a trap or upcall reports (19 R322): TRAPC, TRAPA, TRAPPC, TRAPX. -/
structure TrapInfo where
  cause : BitVec 8
  addr  : Word
  pc    : Word
  x     : Word
  deriving DecidableEq, Repr, Inhabited

/-- Where the state of a task that left its core stands: a trap frame, or the context's device-memory
queue when no frame was free (10 R177, 19 R325), with the KIND, CAUSE and XST its frame will take. -/
inductive FrameRef where
  | none
  | frame (n : Nat)
  | away (ts : TaskState) (kind : BitVec 2) (cause : BitVec 8) (xst : BitVec 3)
  deriving DecidableEq, Repr

/-- A continuation record waiting to start (10 R169): its four doublewords, its source address, the task id
and launch sequence of a launch's task, whether the posting rule fixes the level, and the message frame
its handler holds. -/
structure Rec where
  code  : Word
  arg   : Word
  entp  : Word
  word3 : Word
  src   : Word
  tid   : BitVec 32
  seq   : BitVec 24
  msg   : Option Nat
  deriving DecidableEq, Repr, Inhabited

/-- Work that waits in a run queue (10 R171). -/
inductive Work where
  /-- a record to start under 10 R170 -/
  | start (r : Rec)
  /-- a yielded or parked task whose state stands in a frame -/
  | resume (n : Nat)
  /-- a yielded or parked task whose state is in the device-memory queue -/
  | resumeAway (ts : TaskState)
  /-- a hop that has arrived: the state, the frame's offset and bytes, whether the landing frame holds it -/
  | hop (ts : TaskState) (off : Nat) (data : List Byte) (landed : Bool)
  /-- a trap (`up` false) or upcall handler (19 R320) -/
  | handler (up : Bool) (info : TrapInfo) (frame : FrameRef)
  /-- a translation completion notice (06 R117) -/
  | notice (status : Nat) (frame : FrameRef)
  /-- a message that waits for a message frame (10 R178) -/
  | message (handler : Word) (src : Nat) (payload : List Byte)
  deriving DecidableEq, Repr

/-- An entry of a run queue: level, work, the device's clock when it entered, whether its aging turn is used (10 R175), and the slot of
the overflow ring that holds it (01 R22). -/
structure QEntry where
  level   : Nat
  work    : Work
  entered : Nat
  aged    : Bool
  slot    : Option Nat := none
  deriving DecidableEq, Repr

/-- Status and configuration CSRs of a core (11 R197). `here` is the core's own time on the device's clock. -/
structure Csrs where
  cyc    : Word
  here   : Nat
  wdogl  : Word
  wage   : Word
  upcv   : Word
  trapv  : Word
  trap   : TrapInfo
  dgkey  : Word
  dgctr  : Word
  dbgStep : Bool
  deriving DecidableEq, Repr

/-- An accumulator tile (16 R263): 8,192 words in row-major order (a list's missing tail reads 0), shape
code (0 128x64, 1 64x128, 2 pair base, 3 pair member), format code (0 FP32, 1 NA12, 2 INT32), live, pending. -/
structure Tile where
  cells : List W32
  shape : BitVec 2
  fmt   : BitVec 2
  live  : Bool
  pend  : Bool
  deriving DecidableEq, Repr, Inhabited

/-- A tile view record's fields (16 R266). -/
structure View where
  base   : Word
  stride : Nat
  rows   : Nat
  cols   : Nat
  fmt    : Nat
  cmp    : Bool
  cpt    : Bool
  cm     : Bool
  scaleb : Word
  cptb   : Word
  deriving DecidableEq, Repr, Inhabited

/-- What a tile instruction that a halt can stop inside has found at its issue (16 R264, R278): the core and its own time, the registers, tiles
and draw generator, the bytes of the core's vault and its poison, the bypass buffer, and the number of the next free value; and how many of its units of work (K groups of
16, or blocks of 16 rows) a halt has let it perform. -/
structure TileRun where
  num    : Nat
  since  : Nat
  pos    : Nat
  regs   : Regs
  tiles  : Vector Tile 4
  key    : Word
  ctr    : Word
  vault  : List Host.Cell
  poison : List Nat
  bypass : Option View
  free   : Nat
  deriving DecidableEq, Repr

/-- The matrix engine: tiles, NARROW, RSD with RSDPOS and the held instruction, the bypass buffer's view,
faults that wait for a boundary of a numbered task, tile operations outstanding and the task they belong to (16 R263-R279, 26 R371),
the device's clock when the work in the engine ends (16 R281), and the run in the engine or the one that a halt has stopped (16 R278). -/
structure Matrix where
  tiles   : Vector Tile 4
  narrow  : Bool
  rsd     : List W32
  rsdpos  : Word
  rsdWord : W32
  bypass  : Option View
  faults  : List (Nat × TrapInfo)
  ops     : Nat
  owner   : Nat
  doneAt  : Nat
  run     : Option TileRun
  deriving DecidableEq, Repr

/-- A group that has run and not committed (18 R316): the shadow accumulator (tiles and bypass buffer), the advanced
DGCTR, originals in the group, its rule and its mask of window positions. -/
structure Shadow where
  mx    : Matrix
  dgctr : Word
  n     : Nat
  rule  : Nat
  mask  : Nat
  deriving DecidableEq, Repr

/-- The sluice's registers, its table of 64 entries as doublewords, and the window in progress: its words that are still
to run, its position, whether it runs unrewritten, the table it uses, and a group that has run (18 R308-R319). `armed`
says that an RFT has followed an RWSKIP. -/
structure Sluice where
  en     : Bool
  s      : Bool
  a      : Bool
  skip   : Bool
  armed  : Bool
  rwrec  : Word
  hits   : W32
  table  : List (List Word)
  win    : List W32
  pos    : Nat
  plain  : Bool
  wtab   : List (List Word)
  shadow : Option Shadow
  deriving DecidableEq, Repr

/-- The loop-nest sequencer's record and indices (12 R216, R217). -/
structure Nest where
  nl    : Nat
  ns    : Nat
  bound : List Nat
  base  : List Word
  str   : List (BitVec 32)
  idx   : List Nat
  deriving DecidableEq, Repr, Inhabited

/-- A command of a copy engine (04 R73-R88): its words, target, accepting core and context, the engine that runs it,
acceptance key, destination bytes performed, the source data a table walk has read so far, the step at which a sweep started, or the source
address of the first poisoned word of a stream-in, CRC so far, poison met, the
fault it stopped with, the task that gave it, whether a port accepted it (false for the control complex's own commands), and whether a RESUME
continues it. -/
structure Cmd where
  ecw0   : Word
  ecw1   : Word
  ecw2   : Word
  ecw3   : Word
  target : Word
  core   : Nat
  ctx    : Nat
  on     : Nat
  key    : Nat
  seq    : Nat
  done   : Nat
  crc    : W32
  poison : Bool
  table  : List Word
  fault  : Option (BitVec 8 × Word × Nat)
  owner  : Nat
  byPort : Bool
  resumed : Bool
  deriving DecidableEq, Repr, Inhabited

/-- A core's command port (04 R74-R78); `owner` is the running task's number and `tasks` the last one given. -/
structure Port where
  ecw0     : Word
  ecw1     : Word
  ecw2     : Word
  ecw3     : Word
  fcode    : BitVec 8
  pend     : Nat
  accepted : BitVec 16
  done     : BitVec 16
  seq      : Nat
  waiting  : List Cmd
  owner    : Nat
  tasks    : Nat
  deriving DecidableEq, Repr

/-- A watch (03 R62): the 128-byte block's number among home addresses, when it was armed, and whether it has seen an
event. -/
structure Watch where
  block : Nat
  since : Nat
  seen  : Bool
  deriving DecidableEq, Repr, Inhabited

/-- A stream configuration (17 R291). Each producer is its core, first channel and channel count. -/
structure RkCfg where
  stream : Nat
  p      : Nat
  eref   : BitVec 8
  slim   : Nat
  pol    : Bool
  j      : Nat
  mstop  : Bool
  mtrap  : Bool
  rcore  : Nat
  wbase  : Word
  logb   : Word
  dwb    : Word
  gxb    : Word
  goff   : Nat
  crCode : Word
  crArg  : Word
  crEntp : Word
  crWord3 : Word
  src    : Word
  prods  : List (Nat × Nat × Nat)
  deriving DecidableEq, Repr, Inhabited

/-- A backward pass under way (17 R298, R299): the configuration, dy, the logged channels, the offsets of the W, dW and gradient tables, and how many
of its words cleared, arrivals and stores are done. -/
structure RkBwd where
  cfg : RkCfg
  dy  : List W32
  chs : List Nat
  w   : Nat
  dw  : Nat
  gx  : Nat
  pos : Nat
  deriving DecidableEq, Repr

/-- RKSTAT.STATE (09 R161). -/
inductive RkState where
  | idle | recv | paused | drain | bwd
  deriving DecidableEq, Repr, Inhabited

/-- The rank unit of a core (09 R146-R161, 17 R291-R299). -/
structure Rank where
  recv    : Option RkCfg
  emit    : Option RkCfg
  loaded  : Bool
  g       : List W32
  h       : List W32
  watch   : W32
  wmax    : W32
  marg    : W32
  cnt     : Nat
  racc    : List W32
  wmaxL   : W32
  tails   : List W32
  state   : RkState
  stream  : Nat
  prod    : Nat
  slot    : Nat
  nan     : Bool
  sat     : Bool
  stray   : Bool
  endc    : BitVec 3
  queues  : List (List (List W32))
  endSeen : List Bool
  emitting : Bool
  emitP   : Nat
  unsent  : List W32
  bwd     : Option RkBwd
  deriving DecidableEq, Repr

/-- An access whose acknowledgement is on its way (03 R53): the clock at which it reaches the core, the home (none for ST.NT, R65), and the number
of the task that issued it (13 R226). -/
structure Ack where
  due   : Nat
  home  : Option Nat
  owner : Nat
  deriving DecidableEq, Repr, Inhabited

/-- Run queues of a core and what its running task holds (10 R173, R176-R178, R181, 19 R335, R336). `ringAt`
counts the deposits in the overflow ring; `frames` pairs a trap frame with the message frame that the task in it still holds, the task's
number, the host links it has written and the instruction whose BREAK is due (10 R178, 04 R78, 03 R68, 19 R331), which are `wrote` and `stepped` of the running task; `acks` holds the
acknowledgements of posted accesses that are on their way. `stepDone` and `tableDone`
record the outcome of a STEP or table load carried through (07 R135, R136); `returns` holds the values that the waiting instruction has been given
and has to use first when it goes on, `asked` says that another is on its way, `askHome` is the home of a load that waits for one, `checked` pairs the
addresses of its accesses that have been issued with whether each is written and its home, and `again` is that instruction, which is not fetched anew (03
R53, R67, R68); `stalled` says that the
last attempt of the instruction at PC stalled; `journalPcs` pairs the places of journal entries with the addresses of their instructions (08 R141,
19 R326); `first` is the handler's entry until its first fetch (19 R323). -/
structure Sched where
  running  : Bool
  user     : Bool
  idling   : Bool
  msg      : Option Nat
  wdCount  : Nat
  wdOwn    : Nat
  queue    : List QEntry
  ring     : List QEntry
  msgHeld  : BitVec 64
  ringAt   : Nat
  frames   : List (Nat × Option Nat × Nat × BitVec 2 × Option Word)
  wrote    : BitVec 2
  stepped  : Option Word
  acks     : List Ack
  landing  : Bool
  taskEntry : Bool
  journalPcs : List (Nat × Word)
  mwaited  : Nat
  halted   : Bool
  stepDone : Bool
  tableDone : Option (Option TrapInfo)
  returns  : List Resp
  asked    : Bool
  askHome  : Option Nat
  checked  : List (Word × Bool × Nat)
  again    : Option Instr
  stalled  : Bool
  first    : Option QEntry
  deriving DecidableEq, Repr

/-- A core: everything that belongs to it (10 R170, 11 R200). `tlbWays` pairs the ways of its TLB with the pages last put there, and
`tlbTree` is the tree of its pseudo-LRU, node n in bit n (06 R114). -/
structure Core where
  num    : Nat
  ctx    : Nat
  regs   : Regs
  id     : Ident
  csr    : Csrs
  sluice : Sluice
  mx     : Matrix
  nest   : Option Nest
  port   : Port
  watch  : Option Watch
  rank   : Rank
  sched  : Sched
  tlb    : List Page
  tlbWays : List (Nat × Page)
  tlbTree : BitVec 64
  icache : List (Nat × BitVec 1024)
  deriving DecidableEq, Repr

/-- An entry of the stamped-region table (07 R128). -/
structure Region where
  base : Nat
  len  : Nat
  cls  : Nat
  deriving DecidableEq, Repr, Inhabited

/-- A live launch (10 R163-R168): `made` counts the tasks generated for each destination, and `start` is the step count
held when it began (07 R134); `wrote` says which host links its ended tasks and its merge have written since a SYS release (03 R68), and `cmds` how
many commands of a merge whose other entries are applied have been accepted (08 R143). -/
structure Launch where
  slot    : Nat
  seq     : BitVec 24
  ordered : Bool
  level   : Nat
  entry   : Word
  arg     : Word
  src     : Word
  x       : Nat
  y       : Nat
  z       : Nat
  stages  : Nat
  place   : Nat
  pbase   : Word
  table   : List Nat
  join    : Word
  total   : Nat
  made    : List (Nat × Nat)
  ended   : Nat
  atObar  : Nat
  core    : Nat
  merging : Option (Option (Nat × Nat × Nat))
  start   : Word
  wrote   : BitVec 2 := 0
  cmds    : Option Nat := none
  deriving DecidableEq, Repr, Inhabited

/-- A parked task (10 R177, 14 R244, R247): its core, the layer it waits for or none for OBAR, where its
state stands, the address of the instruction it parked at, and its launch slot. -/
structure Parked where
  core  : Nat
  layer : Option Nat
  frame : FrameRef
  pc    : Word
  slot  : Nat
  deriving DecidableEq, Repr

/-- A translation fill that waits for its answer (06 R116, R117): core, address, whether it writes, whether
it fetches, whether it hit a COW entry, the frame of the task (none when the core stalls without a frame), the status once answered, whether
its notice has reached a core that stalls, whether the host is asked, the clock when it was sent, and the acceptance key of the engine
command that asked, which takes no frame and no notice (04 R85). -/
structure Fill where
  core   : Nat
  va     : Word
  write  : Bool
  fetch  : Bool
  cow    : Bool
  frame  : FrameRef
  status : Option Nat
  told   : Bool
  host   : Bool
  since  : Nat
  cmd    : Option Nat
  deriving DecidableEq, Repr

/-- A demand stream-in (05 R102, R103, R106): the layer, and the clock when it was queued. -/
structure Demand where
  layer : Nat
  since : Nat
  deriving DecidableEq, Repr, Inhabited

/-- A table being loaded (07 R127, R136, 18 R310): which, by whom, from where, and the image read. -/
structure Load where
  kind  : Nat
  core  : Nat
  owner : Nat
  addr  : Word
  words : List Word
  deriving DecidableEq, Repr, Inhabited

/-- A flume (10 R182): entries present, entries on the way, slots on the way back. -/
structure Flume where
  core      : Nat
  n         : Nat
  present   : List Word
  moving    : List Word
  returning : Nat
  deriving DecidableEq, Repr, Inhabited

/-- A context (00 R2, 10 R184, 21 R356). `home` names the clusters whose vault images are saved while it holds none (10
R373), with its flumes' entries; `wants` the clusters it waits for and `waited` the clock when that wait began; `saved` says
that a halted context's saves are complete. `gstep` is the step home's count and `held` the value that its homes and
cores hold, from which their now and base follow (07 R123, R124); `hostAsks` holds the driver's unanswered requests, a core with an address (06 R120). -/
structure Ctx where
  num        : Nat
  priority   : Nat
  grant      : BitVec 128
  part       : BitVec 128
  home       : BitVec 128
  wants      : BitVec 128
  running    : Bool
  saved      : Bool
  flumes     : List Flume
  gstep      : Word
  held       : Word
  stepReq    : List Nat
  decayb     : Word
  srtb       : Word
  decay      : Option (List (List W32))
  regions    : Option (List (Option Region))
  loading    : List Load
  rules      : List (List Word)
  sweeps     : Nat
  sweepStart : Word
  faultRing  : Word
  faultNext  : Nat
  fillLimit  : Nat
  pages      : List Page
  hostGaps   : List Page
  hostAsks   : List (Nat × Nat)
  layerBase  : Word
  layerCount : Nat
  budget     : Nat
  layerWait  : Nat
  last       : Nat
  demands    : List Demand
  parked     : List Parked
  launches   : List Launch
  launchSeq  : BitVec 24
  queue      : List (Nat × QEntry)
  queueCap   : Nat
  patGrant   : List (BitVec 64)
  fills      : List Fill
  link       : Nat
  vf         : Nat
  pasid      : Nat
  waited     : Nat
  deriving DecidableEq, Repr

/-- A slice line (02 R33, R35, R37): its number (physical address divided by 128), the way of its set that holds it, valid and
dirty words, pin, lock, and what DRAM holds behind its dirty words, each by its place in the line (02 R36, R40). -/
structure Line where
  num    : Nat
  way    : Nat
  valid  : BitVec 16
  dirty  : BitVec 16
  pinned : Bool
  locked : Bool
  behind : List (Nat × Word)
  deriving DecidableEq, Repr, Inhabited

/-- An entry of a slice's multicast table (02 R52, 23 R365): its request, whether its merge window is still on, the lines
sent, whether a later request may join it, and the late joiners, each with the line it joined at and the lines sent to it again. -/
structure MEntry where
  req    : MReq
  window : Bool
  sent   : Nat
  isOpen : Bool
  late   : List (MReq × Nat × Nat)
  deriving DecidableEq, Repr, Inhabited

/-- The traffic classes (02 R43). -/
inductive TClass where
  | req | rsp | msg | evt
  deriving DecidableEq, Repr, Inhabited

/-- The turnouts of a quadrant (02 R45). -/
inductive Turnout where
  | w | e | h | v
  deriving DecidableEq, Repr, Inhabited

/-- A stop of a quadrant's rings (02 R41): a turnout, or a cluster, slice or copy engine by its number in the quadrant. -/
inductive RingStop where
  | turnout (t : Turnout)
  | cluster (n : Nat)
  | slice (n : Nat)
  | engine (n : Nat)
  deriving DecidableEq, Repr, Inhabited

/-- A multicast packet in a class buffer of a stop or turnout (02 R47, R49-R51): the quadrant and the stop, its source (a core, 2048 and a
slice's number, or 2112 and an engine's), its class, the direction in which it travels on a ring (clockwise when true), and the copies that
its mask still names. -/
structure Packet where
  quad  : Nat
  place : RingStop
  src   : Nat
  cls   : TClass
  way   : Option Bool
  parts : List Delivery
  deriving DecidableEq, Repr, Inhabited

/-- A TSEND under way (14 R241): its number, its core, context and task's number, the tile's offset in the core's vault, the offset in the destination vaults,
the masks, the barrier object, the lines of the tile and those that have left. -/
structure Send where
  id    : Nat
  core  : Nat
  ctx   : Nat
  owner : Nat
  off   : Nat
  dst   : Nat
  qset  : BitVec 16
  pos   : Word
  bobj  : Option Nat
  count : Nat
  sent  : Nat
  deriving DecidableEq, Repr, Inhabited

/-- The AtomicOps of a host or peer link (03 R71). -/
inductive AtomicOp where
  | fetchAdd | swap | cas
  deriving DecidableEq, Repr, Inhabited

/-- What a host or peer port emits on its link (01 R29, 03 R68, R70, R71): the link (a peer's is 2 and its number), the PASID of the context, whether it
writes, the far address, the bytes, the Relaxed Ordering attribute, the AtomicOp that it is, and whether it is a release to a peer. -/
structure Tlp where
  link    : Nat
  pasid   : Nat
  write   : Bool
  addr    : Nat
  len     : Nat
  relaxed : Bool
  atomic  : Option AtomicOp := none
  release : Bool := false
  deriving DecidableEq, Repr, Inhabited

/-- A copy engine (04 R73): its queue, its running commands, commands that have stopped and wait for a free
slot of the fault ring, commands of the control complex that its queue has not taken yet, fenced for service or not. -/
structure Engine where
  queue   : List Cmd
  running : List Cmd
  held    : List Cmd
  own     : List Cmd
  fenced  : Bool
  deriving DecidableEq, Repr, Inhabited

/-- A stride-gather pattern entry (04 R94). -/
structure Pattern where
  unit    : Nat
  entry   : Nat
  rstride : BitVec 32
  cstride : BitVec 32
  rows    : Nat
  cols    : Nat
  esize   : Nat
  deriving DecidableEq, Repr, Inhabited

/-- A rank packet in flight (09 R149), with its context. -/
structure RkPacket where
  ctx     : Nat
  src     : Nat
  dst     : Nat
  stream  : Nat
  p       : Nat
  entries : List W32
  deriving DecidableEq, Repr, Inhabited

/-- A message, record or hop in flight (02 R43): destination core and its work. -/
structure Flight where
  dst  : Nat
  ctx  : Nat
  ent  : QEntry
  deriving DecidableEq, Repr

/-- A page under migration (06 R121): the old entry, the new physical base, copied and dirty-after-copy lines, and whether
fills are held and the old translations gone (steps 3 to 5). -/
structure Migration where
  page   : Page
  newPa  : Nat
  copied : List Nat
  dirty  : List Nat
  held   : Bool
  deriving DecidableEq, Repr, Inhabited

/-- A virtual function (21 R352-R354): the context it is bound to, its link and number; the registers of its three rings in host memory, bases, entry
counts, heads and tails; the frames of the control complex that wait for room in the message queue; and the virtual address at
which the aperture starts. -/
structure HostFn where
  ctx     : Nat
  link    : Nat
  vf      : Nat
  lqBase  : Nat
  lqSize  : Nat
  lqHead  : Nat
  lqTail  : Nat
  mqBase  : Nat
  mqSize  : Nat
  mqHead  : Nat
  mqTail  : Nat
  mqWaits : List (List Word)
  miBase  : Nat
  miSize  : Nat
  miHead  : Nat
  miTail  : Nat
  aperture : Nat
  deriving DecidableEq, Repr, Inhabited

/-- An attestation report (21 R359): the nonce, the digest of the running firmware, FEAT and the fuse revision, with the signature's r and s. -/
structure Attest where
  nonce  : BitVec 256
  digest : BitVec 256
  feat   : BitVec 128
  rev    : Word
  r      : BitVec 256
  s      : BitVec 256
  deriving DecidableEq, Repr, Inhabited

/-- What a host sends that waits in its link's order (03 R69): an access to a context's aperture, the driver's write of a function's registers, or
that of a message queue's tail, by the frames that it takes. -/
inductive Inbound where
  | access (ctx : Nat) (r : Req)
  | registers (f : HostFn)
  | consumed (ctx n : Nat)
  deriving DecidableEq, Repr

/-- Host, peer, owner and service state (21 R352-R362, 03 R68-R71). `peerOpen` holds the ranges (link, start, length) that
peers have opened for this device, and `opened` those that its owner has opened for peers; `downAt` is the clock when the
owner's link went down; `reports` is what the control complex has been told, a code with an address; `clockStep` and
`stackHot` hold each quadrant's and stack's step and how many cool samples it has seen since; `emitted` is what the host ports have sent on
their links, `heldIn` the inbound requests, with their links, that wait in their order, `aborts` the masters whose requests have been refused because another is the
owner (21 R356), `hot` the places (quadrants, then stacks) whose temperature halts every context (21 R362), and `corrected` counts the correctable errors (02 R40); `idKey` and `fuseRev` are the fuses', `fwDigest` the running firmware's, and `attests` the reports given (21 R359). -/
structure Outside where
  fns       : List HostFn
  hostUp    : BitVec 2
  peerUp    : BitVec 8
  peerOpen  : List (Nat × Nat × Nat)
  opened    : List (Nat × Nat × Nat)
  heldIn    : List (Nat × Inbound)
  aborts    : List Nat
  emitted   : List Tlp
  corrected : Nat
  bonded    : Bool
  reports   : List (Nat × Word)
  owner     : Option Nat
  ownerLink : Nat
  successor : Option Nat
  downAt    : Option Nat
  feat      : BitVec 128
  accept    : Option (BitVec 128)
  fwGood    : Bool
  fwDigest  : BitVec 256
  idKey     : BitVec 256
  fuseRev   : Word
  attests   : List Attest
  fenced    : BitVec 16
  clockStep : List (Nat × Nat)
  stackHot  : List (Nat × Nat)
  hot       : BitVec 24
  alarm     : Bool
  budgetWait : List Nat
  budgetGiven : List Nat
  deriving DecidableEq, Repr

/-- Who moves at a step: a device event that is due, a core, or an input from outside or a device step at unit `n`; a write
of the host or a peer to its own memory, which the host and peer windows show; ranges that this device's owner (`mine`) or its
peers open (21 R360); the driver's write of a function's registers (21 R352-R354); or an uncorrectable error in the word at a home
address, or in the tag of a slice line, and a correctable one (02 R40); a signal of the control complex to core g (19 R335); its writing of TRAPV and UPCV
of a halted context's core for the owner (19 R323); or a master's request for a step `i` at unit `n` that only the owner may have, or for another partition, budget
or layer table of a context, as `c` gives them (21 R356). -/
inductive Turn where
  | device
  | core (g : Nat)
  | input (n : Nat) (i : Instr)
  | far (addr n v : Nat)
  | ranges (mine : Bool) (rs : List (Nat × Nat × Nat))
  | registers (f : HostFn)
  | badWord (addr : Nat)
  | badTag (line : Nat)
  | softError
  | signal (g : Nat)
  | vectors (ctx g : Nat) (trapv upcv : Word)
  | request (master n : Nat) (i : Instr)
  | settings (master : Nat) (c : CtxSpec)
  deriving DecidableEq, Repr

/-- The state of the device. `core` is the core whose turn it is; `others` holds the cores that differ
from their reset state, by rising number. `unit` says which core, engine, context or other unit the device step at hand concerns, and
`pending` holds the steps that are due with theirs. `trees` holds the pseudo-LRU trees of the slices' sets, node n of a set's tree
in bit n (02 R37), and `clusterUse` the entries of the cluster TLBs that have been used (06 R114). `clock` counts REFT in twenty-firsts of a tick, two for each core cycle
of 1.05 GHz (00 R5), of the core that is furthest on. `beat` counts the turns that no `turns` entry lays down. -/
structure State where
  core     : Core
  others   : List (Nat × Core)
  mem      : List Host.Cell
  poison   : List Nat
  lines    : List Line
  trees    : List (Nat × BitVec 64)
  waiting  : List Req
  responses : List Resp
  mcast    : List MEntry
  forks    : List Packet
  sends    : List Send
  stop     : List Req
  bands    : BitVec 64
  clock    : Nat
  ctxs     : List Ctx
  clusterQ : List (Nat × QEntry)
  clusterTlb : List (Nat × Page)
  clusterUse : List (Nat × Page)
  flumes   : List Flume
  engines  : Vector Engine 32
  patterns : List Pattern
  pool     : Nat
  migrations : List Migration
  rankNet  : List RkPacket
  net      : List Flight
  out      : Outside
  saves    : List (Nat × Core)
  turns    : List Turn
  pending  : List (Nat × Instr)
  unit     : Nat
  freeCtr  : Nat
  beat     : Nat
  deriving DecidableEq, Repr

/-- Registers at core reset: zero, except VL, which reads 4,096 (11 R200). -/
def Regs.reset : Regs :=
  { a := 0, p := Vector.replicate 8 ⟨0, 0⟩, t := false, c := false, vl := 4096, frm := 0, fflags := 0, pc := 0 }

/-- A tile at core reset: 128x64 FP32, zero, not live, not pending (16 R263). -/
def Tile.reset : Tile := { cells := [], shape := 0, fmt := 0, live := false, pend := false }

/-- The rank unit at core reset (09 R161, 11 R200). -/
def Rank.reset : Rank :=
  { recv := none, emit := none, loaded := false, g := [], h := [], watch := 0, wmax := 0, marg := 0, cnt := 0,
    racc := [], wmaxL := 0, tails := [], state := .idle, stream := 0, prod := 0, slot := 0, nan := false,
    sat := false, stray := false, endc := 0, queues := [], endSeen := [], emitting := false, emitP := 0,
    unsent := [], bwd := none }

/-- Core `g` at core reset (11 R200, 19 R332): zero, but for VL, WDOGL and WAGE; no task runs; firmware mode. -/
def Core.reset (g : Nat) : Core :=
  { num := g, ctx := 0, regs := Regs.reset, id := { tid := 0, coord := 0, stage := 0, slot := 0, seq := 0 },
    csr := { cyc := 0, here := 0, wdogl := Config.wdogDefault, wage := Config.wageDefault, upcv := 0, trapv := 0,
             trap := ⟨0, 0, 0, 0⟩, dgkey := 0, dgctr := 0, dbgStep := false },
    sluice := { en := false, s := false, a := false, skip := false, armed := false, rwrec := 0, hits := 0,
                table := [], win := [], pos := 0, plain := false, wtab := [], shadow := none },
    mx := { tiles := Vector.replicate 4 Tile.reset, narrow := false, rsd := [], rsdpos := 0, rsdWord := 0,
            bypass := none, faults := [], ops := 0, owner := 0, doneAt := 0, run := none },
    nest := none,
    port := { ecw0 := 0, ecw1 := 0, ecw2 := 0, ecw3 := 0, fcode := 0, pend := 0, accepted := 0, done := 0,
              seq := 0, waiting := [], owner := 0, tasks := 0 },
    watch := none, rank := Rank.reset,
    sched := { running := false, user := false, idling := false, msg := none, wdCount := 0, wdOwn := 0,
               queue := [], ring := [], ringAt := 0, msgHeld := 0, frames := [], wrote := 0, stepped := none, acks := [], landing := false, taskEntry := false, journalPcs := [], mwaited := 0,
               halted := false, stepDone := false, tableDone := none, returns := [], asked := false, askHome := none, checked := [], again := none,
               stalled := false, first := none },
    tlb := [], tlbWays := [], tlbTree := 0, icache := [] }

/-- FEAT as the module's fuses and straps give it (21 R357): the fixed bits SVC, HOSTPG, ORD and TIER2; PEER
and BOND are set (DESIGN CHOICE, log entry 5). -/
def featReset : BitVec 128 := 0x3F

/-- The machine right after reset (11 R200, 21 R355): core 0 current and idle, no context, memory with
nothing listed. Values the manual does not give are DESIGN CHOICE: log entry 1. -/
def State.reset : State :=
  { core := Core.reset 0, others := [], mem := [], poison := [], lines := [], trees := [], waiting := [], responses := [],
    mcast := [], forks := [], sends := [], stop := [], bands := 0, clock := 0, ctxs := [], clusterQ := [], clusterTlb := [], clusterUse := [], flumes := [],
    engines := Vector.replicate 32 { queue := [], running := [], held := [], own := [], fenced := false },
    patterns := [], pool := 0, migrations := [], rankNet := [], net := [],
    out := { fns := [], hostUp := 3, peerUp := 0xFF, peerOpen := [], opened := [], heldIn := [], aborts := [], emitted := [], corrected := 0, bonded := true, reports := [],
             owner := none, ownerLink := 0, successor := none, downAt := none, feat := featReset, accept := none,
             fwGood := true, fwDigest := 0, idKey := 0, fuseRev := 0, attests := [], fenced := 0, clockStep := List.replicate 16 (0, 0), stackHot := List.replicate 8 (0, 0), hot := 0,
             alarm := false, budgetWait := [], budgetGiven := [] },
    saves := [], turns := [], pending := [], unit := 0, freeCtr := 0, beat := 0 }

end Sys2Proof.Machine
end

