-- ==== Sys2Proof/Machine/Mem.lean ====
section
/-! DEFINITION. Bytes of memory by home address: one sparse list, sorted, with no entry that reads as an unlisted
byte does (01 R25, 00 R7). -/

namespace Sys2Proof.Machine

/-- Memory: home address and byte, addresses strictly rising, no byte zero. -/
abbrev Memory := List Host.Cell

/-- What a byte that nothing has written reads as (DESIGN CHOICE, log entry 2). -/
def blankByte : Byte := 0

/-- Is a cell among the n bytes from a. -/
def inSpan (a n : Nat) (c : Host.Cell) : Bool := a ≤ c.1 && c.1 < a + n

/-- One byte of memory. -/
def readByte (m : Memory) (a : Nat) : Byte :=
  match m.find? (fun c => c.1 == a) with
  | some c => c.2
  | none => blankByte

/-- The little-endian value of cells from address a (00 R7). -/
def spanNat (a : Nat) : List Host.Cell → Nat
  | [] => 0
  | c :: r => (c.2.toNat <<< (8 * (c.1 - a))) + spanNat a r

/-- The n bytes from a, little-endian (00 R7). -/
def readNat (m : Memory) (a n : Nat) : Nat := spanNat a (m.filter (inSpan a n))

/-- The cells of the n low bytes of v, the ones that read as blank left out. -/
def cellsOf (a v : Nat) : Nat → List Host.Cell
  | 0 => []
  | n + 1 =>
    let b : Byte := BitVec.ofNat 8 v
    if b = blankByte then cellsOf (a + 1) (v >>> 8) n else (a, b) :: cellsOf (a + 1) (v >>> 8) n

/-- Writes cells over the n bytes from a. -/
def putSpan (m : Memory) (a n : Nat) (cs : List Host.Cell) : Memory :=
  m.filter (fun c => c.1 < a) ++ cs ++ m.filter (fun c => a + n ≤ c.1)

/-- Writes the n low bytes of v from a on (00 R7). -/
def writeNat (m : Memory) (a n v : Nat) : Memory := putSpan m a n (cellsOf a v n)

/-- Copies n bytes from src to dst; the source is read wholly first. -/
def copySpan (m : Memory) (src dst n : Nat) : Memory :=
  putSpan m dst n ((m.filter (inSpan src n)).map (fun c => (c.1 - src + dst, c.2)))

/-- The canonical form of memory. -/
def Memory.wf (m : Memory) : Bool :=
  decide (m.Pairwise (fun a b => a.1 < b.1)) && m.all (fun c => c.2 != blankByte)

/-- Numbers of the aligned 8-byte words that n bytes from a touch. -/
def wordsOf (a n : Nat) : List Nat := if n = 0 then [] else (List.range ((a + n - 1) / 8 - a / 8 + 1)).map (· + a / 8)

/-- Is word w wholly within the n bytes from a. -/
def wordInside (a n w : Nat) : Bool := a ≤ 8 * w && 8 * w + 8 ≤ a + n

/-- The first poisoned word that n bytes from a touch (02 R40). -/
def poisonIn (p : List Nat) (a n : Nat) : Option Nat :=
  if n = 0 then none else p.find? (fun w => a / 8 ≤ w && w ≤ (a + n - 1) / 8)

/-- Poisoned words after a write of n bytes from a: a word written whole is clean (02 R40). -/
def poisonAfterWrite (p : List Nat) (a n : Nat) : List Nat := p.filter (fun w => !wordInside a n w)

/-- Inserts a number into a rising list, once. -/
def insertNat (x : Nat) : List Nat → List Nat
  | [] => [x]
  | y :: r => if x < y then x :: y :: r else if x = y then y :: r else y :: insertNat x r

/-- Poisoned words after a copy of n bytes from src to dst: poison travels with the data (02 R40). -/
def poisonAfterCopy (p : List Nat) (src dst n : Nat) : List Nat :=
  let hit := p.filter (fun w => src < 8 * w + 8 && 8 * w < src + n)
  let moved := hit.flatMap (fun w =>
    let lo := max src (8 * w)
    let hi := min (src + n) (8 * w + 8)
    wordsOf (lo - src + dst) (hi - lo))
  moved.foldl (fun acc w => insertNat w acc) (poisonAfterWrite p dst n)

end Sys2Proof.Machine
end

