-- ==== Sys2Proof/Machine/Base.lean ====
section
/-! DEFINITION. Accessors of the state, where an address lies, homes and their lines, run queues, records posted by
homes, joins and barrier objects. -/

namespace Sys2Proof.Machine

/-! ## Cores and contexts -/

/-- A core that is not the current one: its entry, or a core as reset leaves it. -/
def otherCore : List (Nat × Core) → Nat → Core
  | [], g => Core.reset g
  | e :: r, g => if e.1 = g then e.2 else otherCore r g

/-- Sets a core that is not the current one, numbers rising. -/
def putOther (g : Nat) (c : Core) : List (Nat × Core) → List (Nat × Core)
  | [] => [(g, c)]
  | e :: r => if g < e.1 then (g, c) :: e :: r else if g = e.1 then (g, c) :: r else e :: putOther g c r

/-- Core g. -/
def coreOf (s : State) (g : Nat) : Core := if s.core.num = g then s.core else otherCore s.others g

/-- Sets core g. -/
def setCore (s : State) (g : Nat) (c : Core) : State :=
  if s.core.num = g then { s with core := c } else { s with others := putOther g c s.others }

/-- Changes core g. -/
def updCore (s : State) (g : Nat) (f : Core → Core) : State := setCore s g (f (coreOf s g))


/-- Makes core g the current one. -/
def switchTo (s : State) (g : Nat) : State :=
  if s.core.num = g then s
  else { s with core := otherCore s.others g, others := putOther s.core.num s.core (s.others.filter (fun e => e.1 != g)) }

/-- A context by number. -/
def ctxOf (s : State) (n : Nat) : Option Ctx := s.ctxs.find? (fun c => c.num == n)

/-- Changes a context. -/
def updCtx (s : State) (n : Nat) (f : Ctx → Ctx) : State :=
  { s with ctxs := s.ctxs.map (fun c => if c.num = n then f c else c) }

/-- A compute core's number (01 R11). -/
def isCompute (g : Nat) : Bool := g < Config.nCores
/-- The cluster of a core or vault (01 R11). -/
def clusterOf (g : Nat) : Nat := if isCompute g then g / 8 else g - Config.nCores
/-- The service core of a cluster (01 R11). -/
def serviceCore (cl : Nat) : Nat := Config.nCores + cl
/-- The quadrant of a core (01 R11). -/
def quadrantOf (g : Nat) : Nat := clusterOf g / 8
/-- The cores of a cluster. -/
def clusterCores (cl : Nat) : List Nat := (List.range 8).map (· + 8 * cl)
/-- The clusters of a mask, rising. -/
def clustersOf (m : BitVec 128) : List Nat := (List.range 128).filter m.getLsbD
/-- The compute cores of a context's partition, rising (10 R184). -/
def partCores (c : Ctx) : List Nat := (clustersOf c.part).flatMap clusterCores
/-- Is core g in the context's partition. -/
def inPart (c : Ctx) (g : Nat) : Bool := isCompute g && c.part.getLsbD (clusterOf g)

/-- Does core g hold the state of context cx's core, and not a save of it, while the context holds no cluster (10 R373). -/
def standsHere (s : State) (cx g : Nat) : Bool :=
  (coreOf s g).ctx == cx && !(match ctxOf s cx with | some x => x.home.getLsbD (clusterOf g) | none => false)

/-- Changes the state of a context's core g, where it runs and where it is saved (10 R184, R185). -/
def updTask (s : State) (cx g : Nat) (f : Core → Core) : State :=
  let s1 := if standsHere s cx g then updCore s g f else s
  { s1 with saves := s1.saves.map (fun e => if e.1 = cx * 2048 + g then (e.1, f e.2) else e) }

/-- The context of the current core, when it exists. -/
def myCtx (s : State) : Option Ctx := ctxOf s s.core.ctx

/-! ## Registers of the current core -/

def State.withRegs (s : State) (r : Regs) : State := { s with core := { s.core with regs := r } }
def State.setA (s : State) (v : Word) : State := s.withRegs { s.core.regs with a := v }
def State.setT (s : State) (b : Bool) : State := s.withRegs { s.core.regs with t := b }
def State.setC (s : State) (b : Bool) : State := s.withRegs { s.core.regs with c := b }
def State.setPc (s : State) (v : Word) : State := s.withRegs { s.core.regs with pc := v }
/-- The next instruction: PC + 4. -/
def State.advance (s : State) : State := s.setPc (s.core.regs.pc + 4)
/-- FFLAGS accumulates (12 R205). -/
def State.addFlags (s : State) (f : BitVec 5) : State := s.withRegs { s.core.regs with fflags := s.core.regs.fflags ||| f }
/-- Pointer i (11 R190). -/
def Regs.ptr (r : Regs) (i : BitVec 3) : Ptr := r.p[i.toNat]'(i.isLt)
def State.ptr (s : State) (i : BitVec 3) : Ptr := s.core.regs.ptr i
def State.setPtr (s : State) (i : BitVec 3) (v : Ptr) : State :=
  s.withRegs { s.core.regs with p := s.core.regs.p.set i.toNat v i.isLt }
def State.setAddr (s : State) (i : BitVec 3) (v : Word) : State := s.setPtr i { s.ptr i with addr := v }

/-! ## Where an address lies -/

/-- The regions of the virtual space (01 R13). -/
inductive Space where
  | ownVault
  | engine
  | window
  | translated
  | reserved
  deriving DecidableEq, Repr

/-- The region of a virtual address; an address with bits [63:56] set, and a reserved range, is reserved. -/
def spaceOf (va : Word) : Space :=
  let a := va.toNat
  if a < Config.engineWindow then .ownVault
  else if a < Config.engineWindowEnd then .engine
  else if a < Config.windowBase then .reserved
  else if a < Config.windowEnd then .window
  else if a < Config.translatedBase then .reserved
  else if a < 2 ^ 56 then .translated
  else .reserved

/-- Vault and offset of a vault window address (01 R13). -/
def windowVault (va : Word) : Nat := (va.toNat - Config.windowBase) / Config.vaultBytes
def windowOff (va : Word) : Nat := (va.toNat - Config.windowBase) % Config.vaultBytes
/-- The vault window address of a vault's byte (01 R13). -/
def windowAddr (g off : Nat) : Word := BitVec.ofNat 64 (Config.windowBase + g * Config.vaultBytes + off)
/-- The home address of a vault's byte. -/
def vaultHome (g off : Nat) : Nat := Config.vaultKey + g * Config.vaultBytes + off
/-- Bytes of a vault (01 R15). -/
def vaultSize (g : Nat) : Nat := if isCompute g then Config.vaultBytes else Config.svcVaultBytes

/-- Is a home address in HBM4E, the second tier, the host window, a peer window (01 R23). -/
def isHbm (a : Nat) : Bool := a < Config.hbmEnd
def isTier (a : Nat) : Bool := Config.tierBase ≤ a && a < Config.tierEnd
def isHost (a : Nat) : Bool := Config.hostBase ≤ a && a < Config.peerBase
def isPeer (a : Nat) : Bool := Config.peerBase ≤ a && a < Config.peerEnd
/-- Does a slice home it (01 R25). -/
def isSliced (a : Nat) : Bool := isHbm a || isTier a
def isVaultHome (a : Nat) : Bool := Config.vaultKey ≤ a
/-- A physical address something stands behind (01 R23). -/
def isPopulated (a : Nat) : Bool := isHbm a || isTier a || isHost a || isPeer a
/-- The tier code of a physical address (06 R112), none where unpopulated. -/
def tierOf (a : Nat) : Option Nat :=
  if isHbm a then some 0 else if isTier a then some 1 else if isHost a then some 2 else if isPeer a then some 3 else none
/-- The peer link of a peer window address (01 R23). -/
def peerLink (a : Nat) : Nat := (a - Config.peerBase) / 0x10000000000
/-- Has the driver accepted feature b of FEAT (21 R357). -/
def featureOn (s : State) (b : Nat) : Bool := (s.out.accept.getD 0).getLsbD b
/-- Are both host links bonded to one host: the strap says so, and BOND is accepted (21 R357). -/
def bonded (s : State) : Bool := s.out.bonded && featureOn s 0
/-- The host link of a host window address: PA[44], or PA[12] when bonded (01 R29). -/
def hostLink (s : State) (a : Nat) : Nat := if bonded s then a / 2 ^ 12 % 2 else a / 2 ^ 44 % 2
/-- Is band `b` stack-local (01 R24). -/
def bandLocal (s : State) (a : Nat) : Bool := s.bands.getLsbD (a / 2 ^ 33)

/-- Exclusive or of the 6-bit fields of a granule number (01 R26, R28). -/
def xorFields (g : Nat) : Nat → Nat
  | 0 => 0
  | k + 1 => (g % 64) ^^^ xorFields (g / 64) k

/-- The home slice of a physical address (01 R26, R27, R28). -/
def homeSlice (s : State) (a : Nat) : Nat :=
  if isHbm a then
    if bandLocal s a then
      let f := a / 2 ^ 13 % 2 ^ 17
      let x := (f % 8) ^^^ (f / 8 % 8) ^^^ (f / 64 % 8) ^^^ (f / 512 % 8) ^^^ (f / 4096 % 8) ^^^ (f / 32768 % 4)
      a / 2 ^ 30 % 8 * 8 + x
    else xorFields (a / 2 ^ 9 % 2 ^ 24) 4 ^^^ (a / 2 ^ 33 % 64)
  else
    let g := (a - Config.tierBase) / 2 ^ 9
    xorFields (g % 2 ^ 30) 5 ^^^ (g / 2 ^ 30 % 4)

/-- The stack byte offset of an HBM4E address (01 R26, R27). -/
def stackOffset (s : State) (a : Nat) : Nat :=
  let b := a / 2 ^ 33
  if bandLocal s a then b * 2 ^ 30 + a % 2 ^ 30
  else b * 2 ^ 30 + homeSlice s a % 8 * 2 ^ 27 + a / 2 ^ 15 % 2 ^ 18 * 2 ^ 9 + a % 2 ^ 9

/-- The line number L of 02 R31. -/
def lineL (s : State) (a : Nat) : Nat := if isHbm a then stackOffset s a / 128 else (a - Config.tierBase) / 128

/-- The bank of a line in its slice (02 R31). -/
def bankOf (s : State) (n : Nat) : Nat := lineL s (n * 128) % 4 ^^^ lineL s (n * 128) / 4 % 4

/-- Do two lines compete for the ways of one set (02 R31). -/
def sameSet (s : State) (a b : Nat) : Bool := homeSlice s a == homeSlice s b && lineL s a % 4096 == lineL s b % 4096

/-! ## Slice lines (02 R33-R39) -/

/-- The entry of a line. -/
def lineOf (ls : List Line) (n : Nat) : Option Line := ls.find? (fun l => l.num == n)

/-- Sets a line's entry, numbers rising. -/
def putLine (l : Line) : List Line → List Line
  | [] => [l]
  | x :: r => if l.num < x.num then l :: x :: r else if l.num = x.num then l :: r else x :: putLine l r

/-- Removes a line's entry. -/
def dropLine (n : Nat) (ls : List Line) : List Line := ls.filter (fun l => l.num != n)

/-! ### Pseudo-LRU trees (02 R37, 06 R114)

The tree of 2^k ways has nodes 1 to 2^k − 1; node n's children are 2n and 2n + 1, and way w is leaf 2^k + w. A node's bit says which
half goes next, the right one when it is set (PRESUMED, log entry 6). -/

/-- Bit n of a tree set to b. -/
def setNode (t : BitVec 64) (n : Nat) (b : Bool) : BitVec 64 :=
  if b then t ||| ((1 : BitVec 64) <<< n) else t &&& ~~~((1 : BitVec 64) <<< n)

/-- The tree of 2^k ways after a use of way w: every node above it points away from it, or toward it when `late`. -/
def treeTouch (k : Nat) (late : Bool) (t : BitVec 64) (w : Nat) : BitVec 64 :=
  (List.range k).foldl (fun t j => setNode t ((2 ^ k + w) / 2 ^ (j + 1)) (((2 ^ k + w) / 2 ^ j % 2 == 1) == late)) t

/-- The leaf that goes next below node n, `d` levels down, among those that `ok` allows. -/
def treeVictim (ok : Nat → Bool) (t : BitVec 64) : Nat → Nat → Option Nat
  | 0, n => if ok n then some n else none
  | d + 1, n =>
    let b := if t.getLsbD n then 1 else 0
    match treeVictim ok t d (2 * n + b) with
    | some w => some w
    | none => treeVictim ok t d (2 * n + 1 - b)

/-- The way of 2^k that goes next among those that `ok` allows. PRESUMED: log entry 6. -/
def victimWay (k : Nat) (ok : Nat → Bool) (t : BitVec 64) : Option Nat :=
  (treeVictim (fun n => ok (n - 2 ^ k)) t k 1).map (· - 2 ^ k)

/-! ### The ways of a set (02 R31, R37, R38) -/

/-- The number of a line's set among those of every slice. -/
def setKey (s : State) (n : Nat) : Nat := homeSlice s (n * 128) * 4096 + lineL s (n * 128) % 4096
/-- The lines of a line's set. -/
def setLines (s : State) (n : Nat) : List Line := s.lines.filter (fun l => sameSet s (l.num * 128) (n * 128))
/-- A set's tree. -/
def treeOf (s : State) (n : Nat) : BitVec 64 := ((s.trees.find? (fun e => e.1 == setKey s n)).map (·.2)).getD 0
/-- Sets a set's tree, numbers rising. -/
def putTree (k : Nat) (t : BitVec 64) : List (Nat × BitVec 64) → List (Nat × BitVec 64)
  | [] => [(k, t)]
  | e :: r => if k < e.1 then (k, t) :: e :: r else if k = e.1 then (k, t) :: r else e :: putTree k t r

/-- Does a bank keep a lock on the line: a fill is under way, or a request waits for it, behind the fill, a claim's recall or its order (02 R33). -/
def holdsLock (s : State) (l : Line) : Bool := l.locked || s.waiting.any (fun r => r.addr / 128 == l.num)

/-- The way that a line has, or takes: a free one, else the victim's; none when every way is pinned or locked. -/
def wayFor (s : State) (n : Nat) : Option Nat :=
  match lineOf s.lines n with
  | some l => some l.way
  | none =>
    let set := setLines s n
    match (List.range 16).find? (fun w => !set.any (fun l => l.way == w)) with
    | some w => some w
    | none => victimWay 4 (fun w => !set.any (fun l => l.way == w && (l.pinned || holdsLock s l))) (treeOf s n)

/-- A line that is present, or one that a free way or a victim's can take (02 R37, R38). -/
def canAllocate (s : State) (n : Nat) : Bool := (wayFor s n).isSome

/-- A line that no way can take until a lock in its set goes (02 R37). -/
def setBusy (s : State) (n : Nat) : Bool := (wayFor s n).isNone && (setLines s n).any (holdsLock s)

/-- The line that the way line n takes has held until then. -/
def evictedBy (s : State) (n : Nat) : Option Nat :=
  if (lineOf s.lines n).isSome then none
  else match wayFor s n with
    | some w => ((setLines s n).find? (fun l => l.way == w)).map (·.num)
    | none => none

/-- The lines without the one whose way line n takes; a dirty victim's words are in memory already (02 R36; DEDUCED, log entry 42). -/
def makeRoom (s : State) (n w : Nat) : List Line :=
  s.lines.filter (fun l => l.num == n || !(l.way == w && sameSet s (l.num * 128) (n * 128)))

/-- The line as it is, or a new one in the way it takes. -/
def lineAt (s : State) (n w : Nat) : Line :=
  (lineOf s.lines n).getD { num := n, way := w, valid := 0, dirty := 0, pinned := false, locked := false, behind := [] }

/-- The trees after a use of line n; `late` leaves it next to go (02 R37). -/
def treesAfter (s : State) (n : Nat) (late : Bool) : List (Nat × BitVec 64) :=
  match wayFor s n with
  | some w => putTree (setKey s n) (treeTouch 4 late (treeOf s n) w) s.trees
  | none => s.trees

/-- The line filled: every word valid (02 R36), with changes `f`. -/
def fillWith (s : State) (n : Nat) (f : Line → Line) : List Line :=
  match wayFor s n with
  | some w => putLine (f { lineAt s n w with valid := 0xFFFF }) (makeRoom s n w)
  | none => s.lines

/-- Words of a line that a store of n bytes at a covers wholly, and all that it touches, as masks (02 R35). -/
def wordMask (p : Nat → Bool) : BitVec 16 := BitVec.ofNat 16 ((List.range 16).foldl (fun m i => if p i then m + 2 ^ i else m) 0)

/-- Does a load at a use a line of its slice: one that is present, or that it allocates (02 R35, R38, 13 R220). -/
def loadUses (s : State) (a : Nat) (alloc : Bool) : Bool := isSliced a && (alloc || (lineOf s.lines (a / 128)).isSome)

/-- The words of the line at a that n bytes touch. -/
def touchedWords (a n : Nat) : BitVec 16 := wordMask (fun i => (wordsOf a n).contains (a / 128 * 16 + i))

/-- The slice's lines after a load of n bytes at a: a line that lacks a word of them is filled (02 R35, R36, R38). -/
def lineAfterLoad (s : State) (a n : Nat) (alloc : Bool) : List Line :=
  if !loadUses s a alloc then s.lines
  else match lineOf s.lines (a / 128) with
    | some l => if touchedWords a n &&& ~~~l.valid = 0 then s.lines else fillWith s (a / 128) id
    | none => fillWith s (a / 128) id
/-- Its trees: a hit of LD.NT leaves its line next to go (13 R220). -/
def treeAfterLoad (s : State) (a : Nat) (alloc : Bool) : List (Nat × BitVec 64) :=
  if loadUses s a alloc then treesAfter s (a / 128) (!alloc) else s.trees

/-- What DRAM holds behind a line's dirty words, before a store that makes the words of `d` dirty (02 R36, R40). -/
def behindAfter (s : State) (l : Line) (d : BitVec 16) : List (Nat × Word) :=
  let fresh := d &&& ~~~l.dirty
  l.behind.filter (fun e => d.getLsbD e.1) ++
    (if fresh = 0 then [] else
      let v := readNat s.mem (l.num * 128) 128
      ((List.range 16).filter fresh.getLsbD).map (fun i => (i, BitVec.ofNat 64 (v >>> (64 * i)))))

/-- The slice's lines after a store of n bytes at a within one line, from the state before it; `through` writes DRAM at once (02 R35, R38, R39).
DEDUCED: log entry 42. -/
def lineAfterStore (s : State) (a n : Nat) (through : Bool) : List Line :=
  match wayFor s (a / 128) with
  | none => s.lines
  | some w =>
    if isSliced a then
      let whole := wordMask (fun i => wordInside a n (a / 128 * 16 + i))
      let touched := touchedWords a n
      let l0 := lineAt s (a / 128) w
      let l := if touched &&& ~~~(l0.valid ||| whole) = 0 then l0 else { l0 with valid := 0xFFFF }
      let d := if through then l.dirty &&& ~~~touched else l.dirty ||| touched
      putLine { l with valid := l.valid ||| touched, dirty := d, behind := behindAfter s l d } (makeRoom s (a / 128) w)
    else s.lines
/-- Its trees: a store through to DRAM leaves its line next to go (02 R37, R39). -/
def treeAfterStore (s : State) (a : Nat) (through : Bool) : List (Nat × BitVec 64) :=
  if isSliced a then treesAfter s (a / 128) through else s.trees

/-! ## Latencies of homes (01 R19, 02 R32, 21 R374) -/

/-- A span of cycles from lo to hi, both among the manual's choices. -/
structure Span where
  lo : Nat
  hi : Nat
  deriving DecidableEq, Repr, Inhabited

/-- Exactly n cycles. -/
def exactly (n : Nat) : Span := ⟨n, n⟩
/-- One span after another. -/
def Span.then (a b : Span) : Span := ⟨a.lo + b.lo, a.hi + b.hi⟩

/-- The way from a quadrant to another (01 R19). -/
def wayBetween (q r : Nat) : Span := if q = r then ⟨40, 60⟩ else if q / 4 = r / 4 then ⟨80, 120⟩ else ⟨150, 250⟩

/-- The die of the port that a host or peer window address leaves by (21 R374). -/
def portDie (s : State) (h : Nat) : Nat := if isHost h then 2 * hostLink s h else peerLink h / 2

/-- The way from a quadrant to a port on a die and back, with the cycles in the port each time (21 R374). -/
def portWay (q die : Nat) : Span :=
  let leg : Span := if q / 4 = die then ⟨80, 120⟩ else ⟨150, 250⟩
  (leg.then (exactly 60)).then leg

/-- The latency of home bytes from the current core. Of the time on a link and at its far side the manual gives no bound (21 R374): the
steps that pass until its answer comes are that wait. -/
def homeLatency (s : State) (h : Nat) : Span :=
  let g := s.core.num
  if isVaultHome h then
    let v := (h - Config.vaultKey) / Config.vaultBytes
    if v = g then exactly 3 else if clusterOf v = clusterOf g then exactly 12 else wayBetween (quadrantOf g) (quadrantOf v)
  else if isSliced h then
    let bank := if (lineOf s.lines (h / 128)).isSome then 6 else if isHbm h then 110 else 180
    (wayBetween (quadrantOf g) (homeSlice s h / 4)).then (exactly bank)
  else if isHost h || isPeer h then portWay (quadrantOf g) (portDie s h)
  else exactly 0

/-- The length of a core cycle in units of `State.clock`, two at 1.05 GHz: the step of the core's quadrant, at least one
where its stack is hot (21 R362). DEDUCED: log entry 32. -/
def cycleLength (s : State) (g : Nat) : Nat :=
  let q := quadrantOf g
  let hot := (s.out.stackHot.getD (q / 2) (0, 0)).1
  2 + max (s.out.clockStep.getD q (0, 0)).1 (min hot 1)

/-! ## Watches and writes at a home -/

/-- A watch on a line that its slice evicts is lost (03 R62). -/
def Core.loseWatch (n : Nat) (c : Core) : Core :=
  match c.watch with
  | some w => if w.block = n then { c with watch := none } else c
  | none => c

/-- Every core's watch on line n is lost. -/
def loseWatch (s : State) (n : Nat) : State :=
  { s with core := s.core.loseWatch n, others := s.others.map (fun e => (e.1, e.2.loseWatch n)) }

/-- A core's watch on one of some lines is lost. -/
def Core.loseWatches (p : Nat → Bool) (c : Core) : Core :=
  match c.watch with
  | some w => if p w.block then { c with watch := none } else c
  | none => c

/-- The lines that `p` picks leave their slices, and the watches on them are lost (03 R62). -/
def dropLines (s : State) (p : Line → Bool) : State :=
  let gone := fun (n : Nat) => s.lines.any (fun l => l.num == n && p l)
  { s with core := s.core.loseWatches gone, others := s.others.map (fun e => (e.1, e.2.loseWatches gone)),
           lines := s.lines.filter (fun l => !p l) }

/-- The watches on the line that line n pushes out are lost. -/
def loseEvicted (s : State) (n : Nat) : State :=
  match evictedBy s n with
  | some m => loseWatch s m
  | none => s

/-- A load of n bytes at a uses its slice's line (02 R35-R38). -/
def loadLine (s : State) (a n : Nat) (alloc : Bool) : State :=
  if loadUses s a alloc then
    { loseEvicted s (a / 128) with lines := lineAfterLoad s a n alloc, trees := treeAfterLoad s a alloc }
  else s

/-- A store of n bytes at a, within one line, that is about to be performed uses its slice's line (02 R35-R39). -/
def storeLine (s : State) (a n : Nat) (through : Bool) : State :=
  if isSliced a then
    { loseEvicted s (a / 128) with lines := lineAfterStore s a n through, trees := treeAfterStore s a through }
  else s

/-- A write to the home bytes a .. a + n − 1 is an event for watches on its blocks (03 R62). -/
def Core.seeWrite (a n : Nat) (c : Core) : Core :=
  match c.watch with
  | some w => if a / 128 ≤ w.block && w.block ≤ (a + n - 1) / 128 then { c with watch := some { w with seen := true } } else c
  | none => c

/-- Runs of a view's elements, and elements and bytes of a run: rows, or columns when CM is set (16 R266). -/
def View.runs (v : View) : Nat := if v.cm then v.cols else v.rows
def View.runLen (v : View) : Nat := if v.cm then v.rows else v.cols
def View.runBytes (v : View) : Nat := (fmtBits v.fmt * v.runLen + 7) / 8

/-- Offset in its core's vault of an own-vault address (16 R265). -/
def ownOffset (va : Word) : Nat := if spaceOf va = .window then windowOff va else va.toNat

/-- The byte ranges of a view's span, as offsets in its vault (16 R266). -/
def View.span (v : View) : List (Nat × Nat) :=
  (List.range v.runs).map (fun k => (ownOffset v.base + k * v.stride, v.runBytes)) ++
    (if v.scaleb = 0 then [] else [(ownOffset v.scaleb, v.rows * ((v.cols + 127) / 128))]) ++
    (if v.cpt then [(ownOffset v.cptb, 2 * v.cols)] else [])

/-- A write to a byte of the drained view's span voids the bypass buffer of core num (26 R371). -/
def Matrix.voidBypass (num a n : Nat) (m : Matrix) : Matrix :=
  match m.bypass with
  | some v => if v.span.any (fun r => vaultHome num r.1 < a + n && a < vaultHome num r.1 + r.2) then { m with bypass := none } else m
  | none => m

/-- It voids the core's buffer, and the one that a group which has not committed has left (26 R371, 18 R316). -/
def Core.voidBypass (a n : Nat) (c : Core) : Core :=
  let c1 := { c with mx := c.mx.voidBypass c.num a n }
  match c.sluice.shadow with
  | some sh => { c1 with sluice := { c.sluice with shadow := some { sh with mx := sh.mx.voidBypass c.num a n } } }
  | none => c1

/-- What a write to home bytes does to a core that waits on them or holds a drain of them. -/
def Core.watchWrite (a n : Nat) (c : Core) : Core := (c.seeWrite a n).voidBypass a n

/-- The event for every core's watch. -/
def watchWrite (s : State) (a n : Nat) : State :=
  if n = 0 then s
  else { s with core := s.core.watchWrite a n, others := s.others.map (fun e => (e.1, e.2.watchWrite a n)) }

/-- Lines of a migrating page copied already and written again (06 R121). -/
def markDirty (ms : List Migration) (a n : Nat) : List Migration :=
  ms.map (fun m =>
    { m with dirty := (m.copied.filter (fun l => a < l * 128 + 128 && l * 128 < a + n)).foldl (fun d l => insertNat l d) m.dirty })

/-- The n low bytes of v written at their home (01 R25, 02 R40, 03 R62, 06 R121). -/
def homeWrite (s : State) (a n v : Nat) : State :=
  watchWrite { s with mem := writeNat s.mem a n v, poison := poisonAfterWrite s.poison a n,
                      migrations := markDirty s.migrations a n } a n

/-- n bytes copied between homes, poison with them (02 R40, 04 R82). -/
def homeCopy (s : State) (src dst n : Nat) : State :=
  watchWrite { s with mem := copySpan s.mem src dst n, poison := poisonAfterCopy s.poison src dst n,
                      migrations := markDirty s.migrations dst n } dst n

/-- The n bytes at a home address. -/
def homeRead (s : State) (a n : Nat) : Nat := readNat s.mem a n
/-- A doubleword at a home address. -/
def homeWord (s : State) (a : Nat) : Word := BitVec.ofNat 64 (homeRead s a 8)

/-! ## Run queues (10 R171-R175) -/

/-- Entries of one level. -/
def atLevel (q : List QEntry) (l : Nat) : Nat := (q.filter (fun e => e.level == l)).length

/-- Number of cluster cl's shared queue among the destinations of the device-memory queue. -/
def sharedDst (cl : Nat) : Nat := 2048 + cl

/-- A free value the manual leaves open, and the counter advanced (DESIGN CHOICE, log entry 3). -/
def freeNext (s : State) : Word × State := (Config.freeWord s.freeCtr, { s with freeCtr := s.freeCtr + 1 })

/-- k free values as one number of k doublewords. -/
def freeSpan (s : State) : Nat → Nat × State
  | 0 => (0, s)
  | k + 1 =>
    let (w, t) := freeNext s
    let r := freeSpan t k
    (w.toNat + r.1 * 2 ^ 64, r.2)

/-- The slot of the overflow ring that takes the next deposit: the next in turn that is free (DESIGN CHOICE, log entry 44). -/
def ringSlot (c : Core) : Nat :=
  (((List.range 128).map (fun i => (c.sched.ringAt + i) % 128)).find? (fun n => !c.sched.ring.any (fun e => e.slot == some n))).getD (c.sched.ringAt % 128)

/-- Home address of a slot of core g's overflow ring (01 R22). -/
def ringHome (g n : Nat) : Nat := vaultHome g (0x2400 + 32 * n)

/-- The 32 bytes of a record (10 R169). -/
def Rec.nat (r : Rec) : Nat := r.code.toNat + r.arg.toNat * 2 ^ 64 + r.entp.toNat * 2 ^ 128 + r.word3.toNat * 2 ^ 192

/-- An entry deposited in core g's overflow ring: a record's CR in its slot; of other work's 32 bytes the manual gives no layout, so
they are free values (01 R22, 10 R173; DESIGN CHOICE, log entry 3). -/
def ringPush (s : State) (g : Nat) (e : QEntry) : State :=
  let n := ringSlot (coreOf s g)
  let s1 := match e.work with
    | .start r => homeWrite s (ringHome g n) 32 r.nat
    | _ =>
      let (v, t) := freeSpan s 4
      homeWrite t (ringHome g n) 32 v
  updCore s1 g (fun c => { c with sched := { c.sched with ring := c.sched.ring ++ [{ e with slot := some n }], ringAt := n + 1 } })

/-- A ring entry as the ring's bytes give it: a record's CR is read back from its slot. -/
def fromRing (s : State) (g : Nat) (e : QEntry) : QEntry :=
  match e.work, e.slot with
  | .start r, some n =>
    let h := ringHome g n
    { e with work := .start { r with code := homeWord s h, arg := homeWord s (h + 8), entp := homeWord s (h + 16), word3 := homeWord s (h + 24) } }
  | _, _ => e

/-- Does an entry of level l for destination d wait in the device-memory queue. -/
def awayHas (c : Ctx) (d l : Nat) : Bool := c.queue.any (fun e => e.1 == d && e.2.level == l)

/-- An entry added to core g's queues: its level, else the ring, else the context's device-memory queue, each
level first in first out; to the device-memory queue while the context is halted (10 R173, R184, R373). -/
def enqueue (s : State) (cx g : Nat) (e : QEntry) : State :=
  let c := coreOf s g
  let e := { e with entered := s.clock }
  match ctxOf s cx with
  | none => s
  | some x =>
    if !x.running || awayHas x g e.level then updCtx s cx (fun x => { x with queue := x.queue ++ [(g, e)] })
    else if atLevel c.sched.ring e.level = 0 && atLevel c.sched.queue e.level < 32 then
      setCore s g { c with sched := { c.sched with queue := c.sched.queue ++ [e] } }
    else if c.sched.ring.length < 128 then ringPush s g e
    else updCtx s cx (fun x => { x with queue := x.queue ++ [(g, e)] })

/-- A trap record, ahead of every level-0 entry of its core; a core that has not halted yet takes it with its other entries into the
halt (19 R320, R328). -/
def enqueueFront (s : State) (cx g : Nat) (e : QEntry) : State :=
  let c := coreOf s g
  let e := { e with entered := s.clock }
  match ctxOf s cx with
  | none => setCore s g { c with sched := { c.sched with queue := e :: c.sched.queue } }
  | some x =>
    if x.running || !c.sched.halted then setCore s g { c with sched := { c.sched with queue := e :: c.sched.queue } }
    else updCtx s cx (fun x => { x with queue := (g, e) :: x.queue })

/-- An entry added to a cluster's shared queue of 64 (10 R174). -/
def enqueueShared (s : State) (cx cl : Nat) (e : QEntry) : State :=
  let e := { e with entered := s.clock }
  match ctxOf s cx with
  | none => s
  | some x =>
    if x.running && !awayHas x (sharedDst cl) e.level && (s.clusterQ.filter (fun q => q.1 == cl)).length < 64 then
      { s with clusterQ := s.clusterQ ++ [(cl, e)] }
    else updCtx s cx (fun x => { x with queue := x.queue ++ [(sharedDst cl, e)] })

/-- A level-0 upcall without a frame on core g (19 R320). -/
def raiseUpcall (s : State) (cx g : Nat) (i : TrapInfo) : State :=
  enqueue s cx g { level := 0, work := .handler true i .none, entered := 0, aged := false }

/-! ## Records (10 R169, R172) -/

/-- The record of four doublewords. -/
def mkRec (code arg entp word3 src : Word) : Rec :=
  { code := code, arg := arg, entp := entp, word3 := word3, src := src, tid := 0xFFFFFFFF, seq := 0, msg := none }

/-- A record at a home address. -/
def recAt (s : State) (a : Nat) (src : Word) : Rec :=
  mkRec (homeWord s a) (homeWord s (a + 8)) (homeWord s (a + 16)) (homeWord s (a + 24)) src

/-- LEVEL of a record built by software: 0 is taken as 1 (10 R169). -/
def recLevel (r : Rec) : Nat := if bits r.word3 1 0 = 0 then 1 else bits r.word3 1 0
/-- CL of a record (10 R169). -/
def recShared (r : Rec) : Bool := r.word3.getLsbD 2
/-- SLOT of a record (10 R169). -/
def recSlot (r : Rec) : Nat := bits r.word3 11 6

/-- A record sent to core g, or to its cluster's queue when CL is set: it travels as MSG (02 R43). -/
def sendRec (s : State) (cx g : Nat) (r : Rec) : State :=
  { s with net := s.net ++ [{ dst := g, ctx := cx, ent := { level := recLevel r, work := .start r, entered := 0, aged := false } }],
           pending := s.pending ++ [(g, .recordArrival)] }

/-- Is g a core of the context: of its partition, or of the clusters whose vault images are saved while it holds none (10 R373). -/
def Ctx.holds (x : Ctx) (g : Nat) : Bool := inPart x g || (isCompute g && x.home.getLsbD (clusterOf g))

/-- Home address of a saved vault image's byte (10 R373). -/
def imageHome (cx g off : Nat) : Nat := Config.vaultKey + (2048 + cx * 2048 + g) * Config.vaultBytes + off

/-- The save area that the control complex assigns to core g in context cx (10 R185; DESIGN CHOICE, log entry 29). -/
def assignedArea (cx g : Nat) : Nat := Config.areasBase + (cx * 2048 + g) * 0x40000

/-- Home address of a byte of the vault of context cx's core g, or of its image while the context holds no cluster. -/
def ctxVault (s : State) (cx g off : Nat) : Nat :=
  match ctxOf s cx with
  | some x => if x.home.getLsbD (clusterOf g) then imageHome cx g off else vaultHome g off
  | none => vaultHome g off

/-- A home posts the record at a CR address for a join word or barrier object that `name` names, on behalf of the
core `issuer` of the context (10 R172). -/
def postAt (s : State) (cx : Nat) (cr name : Word) (issuer : Nat) : State :=
  let g := windowVault cr
  if spaceOf cr = .window && (match ctxOf s cx with | some x => x.holds g | none => false) then
    sendRec s cx g (recAt s (ctxVault s cx g (windowOff cr)) cr)
  else raiseUpcall s cx issuer { cause := 2, addr := name, pc := 0, x := 6 }

/-! ## Joins and barrier objects (10 R179, 04 R84, 14 R246) -/

/-- A decrement of the join word at a home address (10 R179), named `name`, for core `issuer`; a poisoned word is
left and reported with `pc` (02 R40). -/
def joinDec (s : State) (cx home : Nat) (name : Word) (issuer : Nat) (pc : Word) : State :=
  match poisonIn s.poison home 16 with
  | some w => raiseUpcall s cx issuer { cause := 9, addr := name + BitVec.ofNat 64 (w * 8 - home), pc := pc, x := 0 }
  | none =>
    let w := homeRead s home 8
    if w % 2 ^ 32 = 0 || w / 2 ^ 32 != 0 then
      raiseUpcall s cx issuer { cause := 2, addr := name, pc := 0, x := 7 }
    else
      let s1 := homeWrite (storeLine s home 4 false) home 4 (w - 1)
      if w = 1 then
        let s2 := loadLine s1 (home + 8) 8 true
        postAt s2 cx (homeWord s2 (home + 8)) name issuer
      else s1

/-- What a barrier object's controller does when its counts are `arr` and `ex` (04 R84). -/
def barrierSettle (s : State) (cx g off arr ex : Nat) (fresh : Bool) (name : Word) (issuer : Nat) : State :=
  let h := vaultHome g off
  if ex != 0 && arr = ex then
    let s1 := homeWrite s h 8 0
    postAt s1 cx (homeWord s1 (h + 8)) name issuer
  else
    let s1 := homeWrite s h 8 (arr * 2 ^ 32 + ex)
    if ex != 0 && ex < arr && fresh then
      raiseUpcall s1 (coreOf s1 g).ctx g { cause := 0x10, addr := name, pc := 0, x := 0 }
    else s1

/-- Bytes arrive at a barrier object in vault g (04 R84). -/
def barrierArrive (s : State) (cx g off n : Nat) (name : Word) (issuer : Nat) : State :=
  let w := homeRead s (vaultHome g off) 8
  let old := w / 2 ^ 32
  let ex := w % 2 ^ 32
  barrierSettle s cx g off (min (old + n) 0xFFFFFFFF) ex (old ≤ ex) name issuer

/-- A barrier object is armed (04 R84, 14 R246): an armed object is left, and OPERAND 0x17 is raised. -/
def barrierArm (s : State) (cx g off expected : Nat) (cr name : Word) (issuer : Nat) : State :=
  let h := vaultHome g off
  let w := homeRead s h 8
  if w % 2 ^ 32 != 0 then raiseUpcall s cx issuer { cause := 2, addr := name, pc := 0, x := 0x17 }
  else
    let s1 := homeWrite s (h + 8) 8 cr.toNat
    barrierSettle s1 cx g off (w / 2 ^ 32) expected true name issuer

/-! ## The step count (07 R123) -/

/-- now: GSTEP[23:0] as the homes hold it. -/
def nowOf (held : Word) : BitVec 24 := BitVec.ofNat 24 held.toNat
/-- base: GSTEP rounded down to a multiple of 2^20, kept to 24 bits. -/
def baseOf (held : Word) : BitVec 24 := BitVec.ofNat 24 (held.toNat / 2 ^ 20 * 2 ^ 20)

end Sys2Proof.Machine
end

