-- ==== Sys2Proof/Machine/Xlate.lean ====
section
/-! DEFINITION. Translations: pages, the two levels of TLB, and what the service core's firmware answers to a miss
(06 R112-R120). -/

namespace Sys2Proof

/-- Bytes of a page by size code (06 R112). -/
def pageBytes (size : Nat) : Nat := if size = 0 then 0x1000 else if size = 1 then 0x10000 else if size = 2 then 0x200000 else 0x40000000

/-- Does a page translate an address of a context. -/
def Page.has (p : Page) (cx va : Nat) : Bool := p.ctx == cx && p.va ≤ va && va < p.va + pageBytes p.size
/-- The physical address a page gives. -/
def Page.phys (p : Page) (va : Nat) : Nat := p.pa + (va - p.va)
/-- Do two pages of one context overlap. -/
def Page.overlaps (p q : Page) : Bool := p.ctx == q.ctx && p.va < q.va + pageBytes q.size && q.va < p.va + pageBytes p.size

/-- May TLBW write the entry (06 R113): alignment, size and space, tier and interleave. -/
def Page.accepted (p : Page) : Bool :=
  p.size ≤ 3 && p.tier ≤ 3 && p.va % pageBytes p.size == 0 && p.pa % pageBytes p.size == 0 && p.va < 2 ^ 56 && p.pa < 2 ^ 48 &&
  match Machine.tierOf p.pa with
  | none => !p.il
  | some t => p.tier == t && (!p.il || t == 0) &&
      (if p.size = 0 then t == 2 else if p.size = 3 then t ≤ 1 else true)

/-- The set of the cluster TLB that holds a page (06 R114). -/
def Page.tlbSet (p : Page) : Nat := (p.va / pageBytes p.size ^^^ p.ctx ^^^ (p.ctx * 8)) % 512

end Sys2Proof

namespace Sys2Proof.Machine

/-- The per-core TLB's entry for an address, else the cluster's (06 R116). -/
def lookupPage (s : State) (va : Nat) : Option Page :=
  match s.core.tlb.find? (fun p => p.has s.core.ctx va) with
  | some p => some p
  | none => (s.clusterTlb.find? (fun e => e.1 == clusterOf s.core.num && e.2.has s.core.ctx va)).map (·.2)

/-- The ways of a core's TLB that hold an entry. -/
def Core.heldWays (c : Core) : List (Nat × Page) := c.tlbWays.filter (fun e => c.tlb.contains e.2)

/-- The core's 64 entries with a page put in: the lowest free way, else the one that the tree gives (06 R114). -/
def Core.copyPage (p : Page) (c : Core) : Core :=
  let held := c.heldWays
  let free := (List.range 64).find? (fun w => !held.any (fun e => e.1 == w))
  let w := (free.orElse (fun _ => victimWay 6 (fun _ => true) c.tlbTree)).getD 0
  let out := (held.filter (fun e => e.1 == w)).map (·.2)
  { c with tlb := c.tlb.filter (fun q => !out.contains q) ++ [p], tlbWays := held.filter (fun e => e.1 != w) ++ [(w, p)],
           tlbTree := treeTouch 6 false c.tlbTree w }

/-- A hit of an entry. -/
def Core.usePage (p : Page) (c : Core) : Core :=
  match c.heldWays.find? (fun e => e.2 == p) with
  | some e => { c with tlbTree := treeTouch 6 false c.tlbTree e.1 }
  | none => c

/-- An entry of a cluster TLB is marked used. -/
def markUse (us : List (Nat × Page)) (e : Nat × Page) : List (Nat × Page) := if us.contains e then us else us ++ [e]

/-- A hit uses the core's entry; a per-core miss that hits the cluster TLB copies the entry into the core's 64 (06 R114, R116). -/
def State.touchTlb (s : State) (va : Nat) : State :=
  match s.core.tlb.find? (fun p => p.has s.core.ctx va) with
  | some p => { s with core := s.core.usePage p }
  | none =>
    match s.clusterTlb.find? (fun e => e.1 == clusterOf s.core.num && e.2.has s.core.ctx va) with
    | some e => { s with core := s.core.copyPage e.2, clusterUse := markUse s.clusterUse e }
    | none => s

/-- Drops pages from every TLB of a cluster (06 R114, R115). -/
def dropPages (s : State) (cl : Nat) (p : Page → Bool) : State :=
  let f := fun (c : Core) => if clusterOf c.num = cl then { c with tlb := c.tlb.filter (fun q => !p q) } else c
  { s with core := f s.core, others := s.others.map (fun e => (e.1, f e.2)),
           clusterTlb := s.clusterTlb.filter (fun e => !(e.1 == cl && p e.2)) }

/-- Drops pages from the TLBs of every cluster (06 R115: a device-wide invalidation). -/
def dropEverywhere (s : State) (p : Page → Bool) : State :=
  let f := fun (c : Core) => { c with tlb := c.tlb.filter (fun q => !p q) }
  { s with core := f s.core, others := s.others.map (fun e => (e.1, f e.2)),
           clusterTlb := s.clusterTlb.filter (fun e => !p e.2) }

/-- The cluster TLB with an entry added: overlapping entries go first, and of eight ways one that has not been used makes room; where
all have been used, the marks of the others go (06 R114; PRESUMED, log entry 6). -/
def insertPage (s : State) (cl : Nat) (p : Page) : State :=
  let s1 := dropPages s cl (fun q => q.overlaps p)
  let same := s1.clusterTlb.filter (fun e => e.1 == cl && e.2.tlbSet == p.tlbSet)
  let unused := same.find? (fun e => !s1.clusterUse.contains e)
  let kept := if 8 ≤ same.length then s1.clusterTlb.erase (unused.getD (same.headD (cl, p))) else s1.clusterTlb
  let marks := if 8 ≤ same.length && unused.isNone then s1.clusterUse.filter (fun e => !same.contains e) else s1.clusterUse
  { s1 with clusterTlb := kept ++ [(cl, p)], clusterUse := markUse marks (cl, p) }

/-- The layer entry's home address, through the context's tables (05 R97). -/
def layerHome (x : Ctx) (l : Nat) : Option Nat :=
  let va := x.layerBase.toNat + 64 * l
  (x.pages.find? (fun p => p.has x.num va)).map (fun p => p.phys va)

/-- STATE of a layer's flag word (05 R99). -/
def layerState (s : State) (x : Ctx) (l : Nat) : Nat :=
  match layerHome x l with
  | some h => homeRead s h 1 % 8
  | none => 0

/-- Does an address lie in the pages of a layer's destination whose STATE `p` picks: its last 64 KiB page belongs to it whole (05 R98, R99, R103). -/
def inLayerAt (s : State) (x : Ctx) (va : Nat) (p : Nat → Bool) : Bool :=
  (List.range x.layerCount).any (fun l =>
    match layerHome x l with
    | some h =>
      let d := homeRead s (h + 16) 8
      d / 2 ^ 16 * 2 ^ 16 ≤ va && va < (d + homeRead s (h + 28) 4 + 0xFFFF) / 2 ^ 16 * 2 ^ 16 && p (layerState s x l)
    | none => false)

/-- Does an address lie in the destination of a layer that is not mapped, and in none that is (05 R103). -/
def inAbsentLayer (s : State) (x : Ctx) (va : Nat) : Bool :=
  inLayerAt s x va (fun st => !(st == 1 || st == 2)) && !inLayerAt s x va (fun st => st == 1 || st == 2)

/-- A physical frame no page holds, above every page of its tier and below the layer pool, which is the top of HBM4E (DESIGN CHOICE, log entry 7: the
manual gives the allocation to firmware). -/
def freeFrame (s : State) (tier size : Nat) : Option Nat :=
  let lo := if tier = 0 then 0 else Config.tierBase
  let hi := if tier = 0 then Config.areasBase - s.pool else Config.tierEnd
  let pages := (s.ctxs.flatMap (·.pages)) ++ s.migrations.map (fun m => { m.page with pa := m.newPa })
  let top := pages.foldl (fun t p => if lo ≤ p.pa && p.pa < hi then max t (p.pa + pageBytes p.size) else t) lo
  let a := (top + pageBytes size - 1) / pageBytes size * pageBytes size
  if a + pageBytes size ≤ hi && (tier = 0 || featureOn s 1) then some a else none

/-- The homes of accesses that cores of a context which have halted still have to make to page p: they lie in the frame at `pa` from now on, or are
looked up anew (06 R115). -/
def rehome (s : State) (p : Page) (pa : Option Nat) : State :=
  let g := fun (e : Word × Bool × Nat) =>
    if p.has p.ctx e.1.toNat && e.2.2 == p.phys e.1.toNat then pa.map (fun b => (e.1, e.2.1, b + (e.1.toNat - p.va))) else some e
  let f := fun (c : Core) => { c with sched := { c.sched with checked := c.sched.checked.filterMap g } }
  { s with core := if s.core.ctx = p.ctx then f s.core else s.core, others := s.others.map (fun e => if e.2.ctx = p.ctx then (e.1, f e.2) else e),
           saves := s.saves.map (fun e => if e.1 / 2048 = p.ctx then (e.1, f e.2) else e) }

/-- How the service core resolves a store to a copy-on-write page (06 R118): the last sharer keeps the frame, any other gets a copy, in HBM4E, or
in the second tier for a page that has no HBM4E frame; the old entry leaves every TLB. A migration of the page goes on with the frame that is kept, and
ends with one that is left. DEDUCED: log entry 11. -/
def resolveCow (s : State) (p : Page) : Option (State × Page) :=
  let n := pageBytes p.size
  let sharers := (s.ctxs.flatMap (·.pages)).filter (fun q => q.pa < p.pa + n && p.pa < q.pa + pageBytes q.size)
  let put := fun (t : State) (q : Page) => updCtx (dropEverywhere t (fun r => r.overlaps p)) p.ctx (fun x => { x with pages := x.pages.map (fun r => if r = p then q else r) })
  if sharers.length ≤ 1 then
    let q := { p with cow := false, w := true }
    some (put { s with migrations := s.migrations.map (fun m => if m.page = p then { m with page := q } else m) } q, q)
  else if p.size = 0 then none
  else (freeFrame s (min p.tier 1) p.size).map (fun pa =>
    let q := { p with pa := pa, tier := min p.tier 1, il := isHbm pa && bandLocal s pa, cow := false, w := true, mig := false }
    (put (rehome { homeCopy s p.pa pa n with migrations := s.migrations.filter (fun m => m.page != p) } p (some pa)) q, q))

/-- Has a slice still to read lines of the n bytes from pa for an MREAD that has gone to it (02 R52, 06 R115). -/
def linesOwed (s : State) (pa n : Nat) : Bool :=
  let hit := fun (m : MReq) (k : Nat) => (m.lines.drop k).any (fun l => l.1 * 128 < pa + n && pa < l.1 * 128 + 128)
  s.mcast.any (fun e => hit e.req e.sent || e.late.any (fun l => hit { l.1 with lines := l.1.lines.take l.2.1 } l.2.2)) ||
    (s.waiting ++ s.stop).any (fun r => match r.op with
      | .mread m => hit m 0
      | _ => false)

/-- Has a core an access to the n home bytes from pa on its way, or still to make for an instruction that it has begun. -/
def Core.through (pa n : Nat) (c : Core) : Bool := (c.sched.asked || !c.sched.halted) && c.sched.checked.any (fun e => pa ≤ e.2.2 && e.2.2 < pa + n)

/-- Is an access to the n bytes from pa that the cores which `p` picks have issued still to be performed: the lines of an MREAD, a request at a slice,
or an access of theirs (06 R115). -/
def issuedThrough (s : State) (p : Core → Bool) (pa n : Nat) : Bool :=
  linesOwed s pa n || (s.waiting ++ s.stop).any (fun r => pa ≤ r.addr && r.addr < pa + n) ||
    (s.core :: s.others.map (·.2) ++ s.saves.map (·.2)).any (fun c => p c && c.through pa n)

/-- Whether a held page keeps a fill unanswered (06 R121 step 3). -/
def heldByMigration (s : State) (cx va : Nat) : Bool := s.migrations.any (fun m => m.held && m.page.has cx va)

/-- The firmware's answer to a miss of context cx at va (06 R116-R118): the page to write, or the status of R117, 0 while it has to
wait: the copy of a shared page waits for accesses that have still to be made to it (06 R115). No page fills the destination of a layer that is not
mapped (05 R103). DEDUCED: log entry 11. -/
def walk (s : State) (cx va : Nat) (write fetch : Bool) : Except Nat (State × Page) :=
  match ctxOf s cx with
  | none => .error 1
  | some x =>
    if inAbsentLayer s x va then .error 5
    else match x.pages.find? (fun p => p.has cx va) with
    | none => .error (if x.hostGaps.any (fun p => p.has cx va) && featureOn s 4 then 3 else 1)
    | some p =>
      if !p.accepted || (p.tier == 1 && !featureOn s 1) then .error 1
      else if fetch && !p.x then .error 2
      else if !fetch && !write && !p.r then .error 2
      else if write && p.cow then
        if issuedThrough s (fun c => c.ctx == cx) p.pa (pageBytes p.size) then .error 0
        else match resolveCow s p with
        | some r => .ok r
        | none => .error 1
      else if write && !p.w then .error 2
      else .ok (s, p)

end Sys2Proof.Machine
end

