-- ==== Sys2Proof/Machine/Claims.lean ====
section
/-! DEFINITION. How a copy engine's command moves its bytes, what it claims, and the recall that makes an access to a
claimed line wait for it (04 R73-R96). -/

namespace Sys2Proof.Machine

/-- Fields of a command's words (04 R75, R76). -/
def Cmd.code (c : Cmd) : Nat := bits c.ecw0 7 0
def Cmd.len (c : Cmd) : Nat := bits c.ecw0 63 32
def Cmd.param (c : Cmd) : Nat := bits c.ecw0 31 16
def Cmd.rows (c : Cmd) : Nat := bits c.ecw3 63 48
def Cmd.spitch (c : Cmd) : Nat := bits c.ecw3 47 24
def Cmd.dpitch (c : Cmd) : Nat := bits c.ecw3 23 0
def Cmd.a1 (c : Cmd) : Nat := c.ecw1.toNat
def Cmd.a2 (c : Cmd) : Nat := c.ecw2.toNat

/-- The cores a quadrant set and a position set name, rising (02 R49). -/
def multicastCores (qset : BitVec 16) (pos : BitVec 64) : List Nat :=
  ((List.range 16).filter qset.getLsbD).flatMap (fun q => ((List.range 64).filter pos.getLsbD).map (fun i => q * 64 + i))

/-- MCAST's destination vaults (04 R90). -/
def Cmd.vaults (c : Cmd) : List Nat := multicastCores (BitVec.ofNat 16 c.param) c.ecw3

/-- Is SWEEP's region in the local alias (07 R132). -/
def Cmd.sweepsAlias (c : Cmd) : Bool := spaceOf c.ecw1 == .ownVault

/-- Bytes a command moves, in its own destination order; MCAST counts each byte once here (04 R83). -/
def Cmd.total (s : State) (c : Cmd) : Nat :=
  match c.code with
  | 2 => c.rows * c.len
  | 4 => if c.vaults.isEmpty then 0 else c.len
  | 8 => if c.sweepsAlias then c.len * (match ctxOf s c.param with | some x => (partCores x).length | none => 0) else c.len
  | 0xB => 32
  | _ => c.len

/-- The byte count of R83. A PTLOAD counts the 32 bytes of its entry, and a completed RESUME the whole of the command that it continues: R83 lists
neither (DESIGN CHOICE, log entry 44). -/
def Cmd.byteCount (s : State) (c : Cmd) : Nat := if c.code = 4 then c.len * c.vaults.length else c.total s

/-- DONEB of a fault record (04 R86). -/
def Cmd.doneBytes (c : Cmd) : Nat := if c.code = 4 then c.done * c.vaults.length else c.done

/-- A far side that cannot take an access: its link is down, or a peer has not opened the range (21 R360, 04 R87); a peer link that the driver has
not accepted is as one that is down (21 R357; DESIGN CHOICE, log entry 34). -/
def farFault (s : State) (h : Nat) : Option (BitVec 8) :=
  if isHost h then (if s.out.hostUp.getLsbD (hostLink s h) then none else some 0x17)
  else if isPeer h then
    if !s.out.peerUp.getLsbD (peerLink h) || !featureOn s 2 then some 0x17
    else if s.out.peerOpen.any (fun r => r.1 == peerLink h && r.2.1 ≤ (h - Config.peerBase) % 0x10000000000 &&
        (h - Config.peerBase) % 0x10000000000 < r.2.1 + r.2.2) then none
    else some 5
  else none

/-- What the engine knows of the answer to its own miss at va: none has been asked for, it is awaited, or a status (06 R117, R120). -/
def Cmd.answered (x : Ctx) (c : Cmd) (va : Nat) : Option (Option Nat) :=
  (x.fills.find? (fun f => f.cmd == some c.key && f.va.toNat == va)).map (·.status)

/-- What an engine finds at a virtual address of its context: the home, or the fault that stops it as TRAPC value and
SUB; cause 0 means that it waits, with SUB 1 where the driver has still to be asked for a host-backed range (04 R83, R85, 06 R120, R121). -/
def engineHome (s : State) (c : Cmd) (va : Nat) (write : Bool) : Except (BitVec 8 × Nat) (State × Nat) :=
  let v : Word := BitVec.ofNat 64 va
  match spaceOf v with
  | .ownVault => if va < vaultSize c.core then .ok (s, vaultHome c.core va) else .error (6, 0)
  | .engine => .error (0x12, 0)
  | .reserved => .error (4, 2)
  | .window =>
    match ctxOf s c.ctx with
    | some x =>
      if isCompute (windowVault v) && x.grant.getLsbD (clusterOf (windowVault v)) then .ok (s, vaultHome (windowVault v) (windowOff v))
      else .error (6, 0)
    | none => .error (6, 0)
  | .translated =>
    let cl := clusterOf c.core
    let hit := (s.clusterTlb.find? (fun e => e.1 == cl && e.2.has c.ctx va)).map (·.2)
    let use := fun (s1 : State) (p : Page) =>
      if (if write then !(p.w || c.code == 7) else !p.r) then Except.error ((5 : BitVec 8), 0)
      else if !isPopulated (p.phys va) then .error (4, 3)
      else if isHbm (p.phys va) && p.il != bandLocal s1 (p.phys va) then .error (4, 4)
      else match farFault s1 (p.phys va) with
        | some f => .error (f, 0)
        | none => .ok (s1, p.phys va)
    let fill := fun (_ : Unit) =>
      if heldByMigration s c.ctx va then Except.error ((0 : BitVec 8), 0)
      else match walk s c.ctx va (write && c.code != 7) false with
        | .ok (s1, p) => use (insertPage s1 cl p) p
        | .error 0 => .error (0, 0)
        | .error 2 => .error (5, 0)
        | .error 3 =>
          match (ctxOf s c.ctx).bind (fun x => c.answered x va) with
          | none => .error (0, 1)
          | some none => .error (0, 0)
          | some (some st) => .error (if st = 0 then (0, 1) else (4, 5))
        | .error _ => .error (4, 5)
    match hit with
    | some p => if write && p.cow then fill () else use s p
    | none => fill ()

/-- Bytes that may move at once from position d: to the end of the destination's line, of a 4 KiB stretch of the
source, and of the run. -/
def pieceLen (src dst left : Nat) : Nat := min left (min (128 - dst % 128) (4096 - src % 4096))

/-- One step of the CRC-32C register (05 R99). -/
def crcBit (c : W32) : W32 := if c.getLsbD 0 then (c >>> 1) ^^^ 0x82F63B78 else c >>> 1
/-- The register after one byte. -/
def crcByte (c : W32) (b : Byte) : W32 :=
  let x := c ^^^ b.zeroExtend 32
  crcBit (crcBit (crcBit (crcBit (crcBit (crcBit (crcBit (crcBit x)))))))
/-- The register after n bytes at a home address. -/
def crcSpan (m : Memory) (a : Nat) : Nat → W32 → W32
  | 0, c => c
  | n + 1, c => crcSpan m (a + 1) n (crcByte c (readByte m a))

/-- Does a request name a line that n bytes from a touch. -/
def reqMeets (r : Req) (a n : Nat) : Bool := r.addr / 128 * 128 < a + n && a < r.addr / 128 * 128 + 128

/-- Is a line of the n bytes from a locked, or awaited by a request of `before` (02 R33, R34). -/
def lineShut (s : State) (before : List Req) (a n : Nat) : Bool :=
  s.lines.any (fun l => l.locked && l.num * 128 < a + n && a < l.num * 128 + 128) || before.any (fun r => reqMeets r a n)

/-- Is a line of the n bytes from a locked, or awaited by a request that reached its slice before (02 R33, R34). -/
def lineLocked (s : State) (a n : Nat) : Bool := lineShut s s.waiting a n

/-- The key of what reaches a slice now, after those of the commands accepted in the same REFT tick (04 R77, R81). -/
def arrivalKey (s : State) : Nat := s.clock / 21 * 2 ^ 40 + 2 ^ 40 - 1

/-- Must a command of key k wait at a line of the n bytes from a: for its lock, or for a request that reached the slice before the command was
accepted (02 R34, 04 R81). -/
def lockedFor (s : State) (k a n : Nat) : Bool := lineShut s (s.waiting.filter (fun r => r.stamp < k)) a n

/-- The parts of n bytes from a, line by line. -/
def linePieces (a n : Nat) : List (Nat × Nat) :=
  if n = 0 then []
  else (List.range ((a + n - 1) / 128 - a / 128 + 1)).map (fun i =>
    let lo := max a ((a / 128 + i) * 128)
    (lo, min (a + n) ((a / 128 + i) * 128 + 128) - lo))

/-- A copy of n bytes between homes with the slices' lines kept (02 R35, 04 R82). -/
def moveBytes (s : State) (src dst n : Nat) : State :=
  let s1 := (linePieces src n).foldl (fun t p => loadLine t p.1 p.2 true) s
  let s2 := (linePieces dst n).foldl (fun t p => storeLine t p.1 p.2 false) s1
  homeCopy s2 src dst n

/-- Zero or pattern bytes written at a home. -/
def putBytes (s : State) (dst n v : Nat) : State := homeWrite (storeLine s dst n false) dst n v

/-! ### What the host ports emit (01 R29, 03 R68) -/

/-- The address that a port presents on its link: PA[44:0] on bonded links, PA[43:0] to a host of its own, PA[39:0] to a peer (01 R29, 21 R360). -/
def farAddr (s : State) (h : Nat) : Nat :=
  if isPeer h then h % 2 ^ 40 else if bonded s then (h - Config.hostBase) % 2 ^ 45 else (h - Config.hostBase) % 2 ^ 44

/-- An access of context cx to the host or a peer goes out on its link, with the context's PASID; elsewhere nothing does. Reads and releases have
Relaxed Ordering clear; `op` is an atomic's AtomicOp, and a release sets a peer write's release bit (03 R68, R70, R71, 21 R352). -/
def emitAs (op : Option AtomicOp) (release : Bool) (s : State) (cx : Nat) (write : Bool) (h n : Nat) (relaxed : Bool) : State :=
  if isHost h || isPeer h then
    let p := ((ctxOf s cx).map (·.pasid)).getD 0
    let t : Tlp := { link := if isPeer h then 2 + peerLink h else hostLink s h, pasid := p, write := write, addr := farAddr s h, len := n,
                     relaxed := relaxed && isHost h, atomic := op, release := release && isPeer h }
    { s with out := { s.out with emitted := s.out.emitted ++ [t] } }
  else s

/-- An access that is no atomic and no release. -/
def emit (s : State) (cx : Nat) (write : Bool) (h n : Nat) (relaxed : Bool) : State := emitAs none false s cx write h n relaxed

/-- n bytes at h are about to be read for context cx by an engine or by a fetch past the cache: the lines at a slice are whole, and a host or peer
port emits its read (02 R35, 03 R68, 21 R352). -/
def readBy (s : State) (cx h n : Nat) : State := emit ((linePieces h n).foldl (fun t p => loadLine t p.1 p.2 true) s) cx false h n false

/-! ### Lines of an MCAST on their way (02 R49, 04 R90) -/

/-- Does a delivery write into the n bytes at home address a. -/
def owes (d : Delivery) (a n : Nat) : Bool := vaultHome d.vault d.off < a + n && a < vaultHome d.vault d.off + d.data.length

/-- The deliveries under way: in the rings' buffers, and at their vaults. -/
def deliveries (s : State) : List Delivery :=
  s.forks.flatMap (·.parts) ++ s.pending.filterMap (fun e => match e.2 with
    | .vaultDelivery d => some d
    | _ => none)

/-- Are lines of the command still on their way. -/
def Cmd.inFlight (s : State) (c : Cmd) : Bool := c.code == 4 && (deliveries s).any (fun d => d.cmd == some c.key)

/-- Has an MCAST's line still to be written into the n bytes at a: the claim on it stands until then (04 R82, R90). -/
def Cmd.owesAt (s : State) (c : Cmd) (a n : Nat) : Bool := c.code == 4 && isVaultHome a && (deliveries s).any (fun d => d.cmd == some c.key && owes d a n)

/-- Must an access of the current core to home address a let lines of its own TSENDs go first: those to the same vault, and a residual at its own
stop before whatever leaves the core's vault (02 R48, R51). -/
def behindSends (s : State) (a : Nat) : Bool :=
  let g := s.core.num
  let own := isVaultHome a && (a - Config.vaultKey) / Config.vaultBytes == g
  (!own && s.forks.any (fun p => p.src == g && p.quad == quadrantOf g && p.place == .cluster (clusterOf g % 8) && p.way.isNone)) ||
    (isVaultHome a && (deliveries s).any (fun d => d.src == g && d.vault == (a - Config.vaultKey) / Config.vaultBytes))

/-- While packets stand in the rings' buffers, they move at the next step that is due (02 R51). -/
def dueForks (s : State) : State :=
  if s.forks.isEmpty || s.pending.any (fun e => e.2 == .partialForkResidual) then s else { s with pending := s.pending ++ [(0, .partialForkResidual)] }

/-- A multicast packet stands at its source's stop (02 R49). -/
def sendPacket (s : State) (p : Packet) : State := if p.parts.isEmpty then s else dueForks { s with forks := s.forks ++ [p] }

/-- A run of bytes from one virtual address to another, one piece of it (04 R89). -/
def movePiece (s : State) (c : Cmd) (src dst left : Nat) : State × Cmd :=
  let n := pieceLen src dst left
  match engineHome s c src false with
  | .error (f, sub) => if f = 0 then (s, c) else (s, { c with fault := some (f, BitVec.ofNat 64 src, sub) })
  | .ok (s1, hs) =>
    match engineHome s1 c dst true with
    | .error (f, sub) => if f = 0 then (s1, c) else (s1, { c with fault := some (f, BitVec.ofNat 64 dst, sub) })
    | .ok (s2, hd) =>
      let bad := poisonIn s2.poison hs n
      let s3 := emit (emit (moveBytes s2 hs hd n) c.ctx false hs n false) c.ctx true hd n true
      (s3, { c with done := c.done + n, crc := if c.code = 7 then crcSpan s3.mem hd n c.crc else c.crc,
                    poison := c.poison || (c.code == 7 && bad.isSome),
                    table := match bad with
                      | some w => if c.code = 7 && !c.poison then [BitVec.ofNat 64 (src + (max hs (8 * w) - hs))] else c.table
                      | none => c.table })

/-- Value of n repetitions of a doubleword. -/
def repeatWord (v : Nat) : Nat → Nat
  | 0 => 0
  | n + 1 => v + (repeatWord v n <<< 64)

/-- One piece of a command that writes the same bytes whatever memory holds (FILL and BTWALK's zero entry). -/
def fillPiece (s : State) (c : Cmd) (dst n v : Nat) : State × Cmd :=
  match engineHome s c dst true with
  | .error (f, sub) => if f = 0 then (s, c) else (s, { c with fault := some (f, BitVec.ofNat 64 dst, sub) })
  | .ok (s1, hd) => (emit (putBytes s1 hd n v) c.ctx true hd n true, { c with done := c.done + n })

/-- n bytes at a home address. -/
def bytesAt (s : State) (a n : Nat) : List Byte := (List.range n).map (fun i => readByte s.mem (a + i))

/-- The words of a destination, from offset `off` of a vault on, that n bytes from home address a spoil (02 R40). -/
def badWords (s : State) (a off n : Nat) : List Nat :=
  (poisonAfterCopy (s.poison.filter (fun w => a < 8 * w + 8 && 8 * w < a + n)) a (Config.peerEnd + off) n).filterMap (fun w =>
    if Config.peerEnd / 8 ≤ w && 8 * w < Config.peerEnd + off + n && Config.peerEnd + off < 8 * w + 8 then some (w - Config.peerEnd / 8) else none)

/-- One line of an MCAST, read once and sent from the engine's stop to the same offset of every destination vault (02 R49, 04 R90). -/
def mcastPiece (s : State) (c : Cmd) : State × Cmd :=
  let src := c.a1 + c.done
  let dst := c.a2 + c.done
  let n := pieceLen src dst (c.len - c.done)
  match engineHome s c src false with
  | .error (f, sub) => if f = 0 then (s, c) else (s, { c with fault := some (f, BitVec.ofNat 64 src, sub) })
  | .ok (s1, hs) =>
    let s2 := readBy s1 c.ctx hs n
    let part := fun (g : Nat) => ({ issuer := c.core, ctx := c.ctx, vault := g, off := dst, data := bytesAt s2 hs n, bad := badWords s2 hs dst n, bobj := none, cmd := some c.key,
                                    src := 2112 + c.on } : Delivery)
    (sendPacket s2 { quad := c.on / 2, place := .engine (c.on % 2), src := 2112 + c.on, cls := .req, way := none, parts := c.vaults.map part },
     { c with done := c.done + n })

/-- One piece of a BTWALK: the entry of the block, then bytes of the block or zeros; a RESUME inside a block reads its entry again (04
R88, R91). A misaligned entry stops the command with its own value in FADDR (DESIGN CHOICE, log entry 44). -/
def btwalkPiece (s : State) (c : Cmd) : State × Cmd :=
  let b := 2 ^ c.param
  let i := c.done / b
  let off := c.done % b
  let dst := c.a2 + c.done
  match engineHome s c (c.a1 + 8 * i) false with
  | .error (f, sub) => if f = 0 then (s, c) else (s, { c with fault := some (f, BitVec.ofNat 64 (c.a1 + 8 * i), sub) })
  | .ok (s0, ht) =>
    let fresh := off = 0 || c.table.isEmpty
    let s1 := if fresh then readBy s0 c.ctx ht 8 else s0
    let e := if fresh then homeRead s1 ht 8 else (c.table.headD 0).toNat
    let c := { c with table := [BitVec.ofNat 64 e] }
    if e = 0 then fillPiece s1 c dst (min (b - off) (128 - dst % 128)) 0
    else if e % b != 0 then (s1, { c with fault := some (0x12, BitVec.ofNat 64 e, 5) })
    else movePiece s1 c (e + off) dst (b - off)

/-- The stack that holds an HBM4E address, whose slices lie on its die (01 R26, R27). -/
def stackOf (s : State) (home : Nat) : Option Nat := if isHbm home then some (homeSlice s home / 8) else none

/-- The pattern entry a GATHERT uses: the unit of the stack that holds A, and ECW3[5:0] (04 R94, R95). -/
def patternOf (s : State) (home : Nat) (c : Cmd) : Option Pattern :=
  s.patterns.find? (fun p => some p.unit == stackOf s home && p.entry == bits c.ecw3 5 0)

/-- The words of a pattern that a running GATHERT keeps (04 R94). -/
def patternWords (p : Pattern) : List Word :=
  [BitVec.ofNat 64 (p.rstride.toNat * 2 ^ 32 + p.cstride.toNat), BitVec.ofNat 64 (p.rows * 2 ^ 32 + p.cols * 2 ^ 16 + p.esize)]

/-- Sign of a 32-bit stride as an integer. -/
def strideInt (v : Nat) : Int := intOf 32 v

/-- Address of element n of a GATHERT whose kept words are given (04 R95). -/
def gatherAddr (c : Cmd) (n : Nat) : Nat :=
  let w0 := (c.table.headD 0).toNat
  let w1 := (c.table.getD 1 0).toNat
  let rows := w1 / 2 ^ 32
  let i := n % rows
  let j := n / rows
  (((c.a1 : Int) + (i : Int) * strideInt (w0 / 2 ^ 32) + (j : Int) * strideInt (w0 % 2 ^ 32)) % (2 ^ 64 : Nat)).toNat

/-- One element of a GATHERT, or its part up to the end of the destination's line, with the faults of R96 (04 R95, R96). Where several of SUB 1, 2, 3
and 4 hold, the lowest is reported; FADDR is the element's address, A's own for SUB 4 and for an entry whose product no longer is LEN, which stops
the command with ENGINE, SUB 5 (DESIGN CHOICE, log entry 44). -/
def gatherPiece (s : State) (c : Cmd) : State × Cmd :=
  let stop := fun (t : State) (va : Nat) (f : BitVec 8) (sub : Nat) =>
    if f = 0 then (t, c) else (t, { c with fault := some (f, BitVec.ofNat 64 va, sub) })
  match engineHome s c c.a1 false with
  | .error (f, sub) => stop s c.a1 f sub
  | .ok (s1, h0) =>
    let kept := if c.table.isEmpty then (patternOf s1 h0 c).map patternWords else some c.table
    if !(isHbm h0 && bandLocal s1 h0) then stop s1 c.a1 0x11 1
    else match kept with
    | none => stop s1 c.a1 0x11 4
    | some ws =>
      let c := { c with table := ws }
      let w1 := (ws.getD 1 0).toNat
      let sz := 2 ^ (w1 % 4)
      if c.len != w1 / 2 ^ 32 * (w1 / 2 ^ 16 % 2 ^ 16) * sz then (s1, { c with fault := some (0x12, BitVec.ofNat 64 c.a1, 5) })
      else
        let va := gatherAddr c (c.done / sz)
        match engineHome s1 c va false with
        | .error (f, sub) => if f = 0 then (s1, c) else (s1, { c with fault := some (f, BitVec.ofNat 64 va, sub) })
        | .ok (s2, h) =>
          let bad := fun (sub : Nat) => (s2, { c with fault := some ((0x11 : BitVec 8), BitVec.ofNat 64 va, sub) })
          if !(isHbm h && bandLocal s2 h) then bad 1
          else if stackOf s2 h != stackOf s2 h0 then bad 2
          else if va % sz != 0 then bad 3
          else
            let at_ := c.done % sz
            let n := min (sz - at_) (128 - (c.a2 + c.done) % 128)
            match engineHome s2 c (c.a2 + c.done) true with
            | .error (f, sub) => if f = 0 then (s2, c) else (s2, { c with fault := some (f, BitVec.ofNat 64 (c.a2 + c.done), sub) })
            | .ok (s3, hd) => (emit (moveBytes s3 (h + at_) hd n) c.ctx true hd n true, { c with done := c.done + n })

/-- LAYERIN's entry: source, destination and length (05 R98, R104). -/
def layerFields (s : State) (c : Cmd) : Option (Nat × Nat) :=
  match engineHome s { c with ctx := c.param } c.a1 false with
  | .ok (s1, h) => some (homeRead s1 (h + 8) 8, homeRead s1 (h + 16) 8)
  | .error _ => none

/-- Must a command of the headrace wait before it can read its layer's entry (06 R121). -/
def Cmd.entryWaits (s : State) (c : Cmd) : Bool :=
  match engineHome s { c with ctx := c.param } c.a1 false with
  | .error (f, _) => f == 0
  | .ok _ => false

/-- The engine reads the entry as the command begins (05 R104, 02 R35). -/
def Cmd.readEntry (s : State) (c : Cmd) : State :=
  if c.done != 0 then s
  else match engineHome s { c with ctx := c.param } c.a1 false with
    | .ok (s1, h) => readBy s1 c.param h 64
    | .error _ => s

/-- One piece of a LAYERIN: the context is PARAM's (05 R104). -/
def layerPiece (s : State) (c : Cmd) : State × Cmd :=
  match layerFields s c with
  | none => if c.entryWaits s then (s, c) else (s, { c with fault := some (4, c.ecw1, 5) })
  | some (src, dst) => movePiece (c.readEntry s) { c with ctx := c.param } (src + c.done) (dst + c.done) (c.len - c.done)

/-- Where the next word of a SWEEP lies, or the fault at it: cause 0 while it waits (07 R132). -/
def sweepHome (s : State) (c : Cmd) : Except (BitVec 8) (State × Nat) :=
  if c.sweepsAlias then
    match (ctxOf s c.param).bind (fun x => (partCores x)[c.done / c.len]?) with
    | some g => .ok (s, vaultHome g (c.a1 + c.done % c.len))
    | none => .error cTransl
  else match engineHome s { c with ctx := c.param } (c.a1 + c.done) true with
    | .ok (t, h) => if isHost h || isPeer h then .error cPerm else .ok (t, h)
    | .error (f, _) => .error f
where
  /-- TRAPC values of 11 R199. -/
  cTransl : BitVec 8 := 4
  cPerm : BitVec 8 := 5

/-- Does a region of context x hold the doubleword at va whose home is h, judged by the bytes reached. -/
def Region.holds (x : Ctx) (r : Region) (va h : Nat) : Bool :=
  let b : Word := BitVec.ofNat 64 r.base
  match spaceOf b with
  | .ownVault =>
    isVaultHome h && inPart x ((h - Config.vaultKey) / Config.vaultBytes) &&
      r.base ≤ (h - Config.vaultKey) % Config.vaultBytes && (h - Config.vaultKey) % Config.vaultBytes < r.base + r.len
  | .window => vaultHome (windowVault b) (windowOff b) ≤ h && h < vaultHome (windowVault b) (windowOff b) + r.len
  | .translated => !isVaultHome h && r.base ≤ va && va < r.base + r.len
  | _ => false

/-- The class of the valid region that holds a doubleword. -/
def regionClass (x : Ctx) (va h : Nat) : Option Nat :=
  ((x.regions.getD []).filterMap id).find? (fun r => r.holds x va h) |>.map (·.cls)

/-- One doubleword of a SWEEP (07 R132): the logical word written back where its stamp precedes the base; a word that fails
a check of R129, that of its region included, is left and reported, and so is a poisoned one (DESIGN CHOICE, log entry 44). -/
def sweepPiece (s : State) (c : Cmd) : State × Cmd :=
  match ctxOf s c.param with
  | none => (s, { c with done := c.total s })
  | some x =>
    let va := c.a1 + (if c.sweepsAlias then c.done % c.len else c.done)
    let c1 := { c with done := c.done + 8 }
    let report := fun (t : State) => { t with out := { t.out with reports := t.out.reports ++ [(0x16, BitVec.ofNat 64 (c.a1 + c.done))] } }
    match sweepHome s c with
    | .error f => if f = 0 then (s, c) else (report s, c1)
    | .ok (s, h) =>
      let w := homeWord s h
      let now := nowOf x.held
      let base := baseOf x.held
      match regionClass x va h with
      | none => (report s, c1)
      | some cls =>
        let s1 := loadLine s h 8 true
        if lockedFor s c.key h 8 then (s, c)
        else if (poisonIn s.poison h 8).isSome || (storedFault x.decay cls now w).isSome then (report s1, c1)
        else if (now - base).toNat < (now - stampOf w).toNat then
          let l := logical (x.decay.getD []) now base w
          (putBytes s1 h 8 (stampWord l.st l.cls l.val).toNat, c1)
        else (s1, c1)

/-- Is a page one of the layer that an EVICT takes away (05 R103, R109). -/
def Cmd.evicts (s : State) (c : Cmd) (p : Page) : Bool :=
  let dst := match layerFields s c with
    | some (_, d) => d
    | none => 0
  p.ctx == c.param && p.size == 1 && dst ≤ p.va && p.va < dst + c.len

/-- The home bytes of those pages. -/
def Cmd.evictHomes (s : State) (c : Cmd) : List (Nat × Nat) :=
  match ctxOf s c.param with
  | some x => (x.pages.filter (c.evicts s)).map (fun (p : Page) => (p.pa, pageBytes p.size))
  | none => []

/-- EVICT: the span's lines leave their slices and its translations go (05 R109). -/
def evictPiece (s : State) (c : Cmd) : State × Cmd :=
  let inSpanVa := c.evicts s
  let homes := c.evictHomes s
  if c.entryWaits s || homes.any (fun h => linesOwed s h.1 h.2) then (s, c)
  else
  let s1 := dropLines (c.readEntry s) (fun l => homes.any (fun h => h.1 ≤ l.num * 128 && l.num * 128 < h.1 + h.2))
  let s2 := dropEverywhere s1 inSpanVa
  (updCtx s2 c.param (fun x => { x with pages := x.pages.filter (fun p => !inSpanVa p) }), { c with done := c.total s })

/-- PTLOAD (04 R94): the entry from its image, or a stop with TABLE. -/
def ptloadPiece (s : State) (c : Cmd) : State × Cmd :=
  match engineHome s c c.a1 false with
  | .error (f, sub) => if f = 0 then (s, c) else (s, { c with fault := some (f, c.ecw1, sub) })
  | .ok (s0, h) =>
    let s1 := readBy s0 c.ctx h 32
    let w0 := homeRead s1 h 8
    let w1 := homeRead s1 (h + 8) 8
    let rows := w1 / 2 ^ 32 % 2 ^ 16
    let cols := w1 / 2 ^ 16 % 2 ^ 16
    if w1 / 2 ^ 48 != 0 || w1 / 4 % 2 ^ 14 != 0 || homeRead s1 (h + 16) 16 != 0 || rows = 0 || 4096 < rows || cols = 0 || 4096 < cols then
      (s1, { c with fault := some (0x19, 0, 0) })
    else
      let p : Pattern := { unit := bits c.ecw3 10 8, entry := bits c.ecw3 5 0, rstride := BitVec.ofNat 32 (w0 / 2 ^ 32),
                           cstride := BitVec.ofNat 32 w0, rows := rows, cols := cols, esize := w1 % 4 }
      ({ s1 with patterns := p :: s1.patterns.filter (fun q => !(q.unit == p.unit && q.entry == p.entry)) },
       { c with done := 32 })

/-- The kept words of a GATHERT's pattern, or those of the entry that it would use now. -/
def Cmd.pattern (s : State) (c : Cmd) : Option (List Word) :=
  if !c.table.isEmpty then some c.table
  else match engineHome s c c.a1 false with
    | .ok (s1, h0) => (patternOf s1 h0 c).map patternWords
    | .error _ => none

/-- The lowest to the highest byte of the elements that a GATHERT has still to read: the rest of its column, and the columns after it (04
R82, R95). -/
def Cmd.gatherSpan (s : State) (c : Cmd) : List (Bool × Nat × Nat) :=
  match c.pattern s with
  | none => []
  | some ws =>
    let w1 := (ws.getD 1 0).toNat
    let rows := w1 / 2 ^ 32
    let cols := w1 / 2 ^ 16 % 2 ^ 16
    let sz := 2 ^ (w1 % 4)
    let n := c.done / sz
    let k := n / rows
    let last := fun (j : Nat) => rows * j + rows - 1
    let es := ([n, last k] ++ (if k + 1 < cols then [rows * (k + 1), last (k + 1), rows * (cols - 1), last (cols - 1)] else [])).map
      (gatherAddr { c with table := ws })
    let lo := es.foldl Nat.min (es.headD 0)
    let hi := es.foldl Nat.max 0
    [(false, lo, hi - lo + sz)]

/-- The value of the block table's entry that a BTWALK is at: none where it has not read it yet (04 R91). -/
def Cmd.blockEntry (c : Cmd) : Option Nat := if c.done % 2 ^ c.param = 0 then none else c.table.head?.map (·.toNat)

/-- Ranges of virtual addresses that the command still claims: exclusive or shared, start, length (04 R79, R82, R91); a
stopped command keeps them until its fault notice (04 R85). -/
def Cmd.claims (s : State) (c : Cmd) : List (Bool × Nat × Nat) :=
  if c.total s ≤ c.done then []
  else match c.code with
    | 1 => [(true, c.a2 + c.done, c.len - c.done), (false, c.a1 + c.done, c.len - c.done)]
    | 2 =>
      let i := c.done / c.len
      let off := c.done % c.len
      let lo := if i + 1 < c.rows then min off c.spitch else off
      [(true, c.a2 + i * c.dpitch + off, (c.rows - 1 - i) * c.dpitch + c.len - off),
       (false, c.a1 + i * c.spitch + lo, (c.rows - 1 - i) * c.spitch + c.len - lo)]
    | 3 => [(true, c.a2 + c.done, c.len - c.done)]
    | 4 => (false, c.a1 + c.done, c.len - c.done) ::
        c.vaults.map (fun g => (true, (windowAddr g (c.a2 + c.done)).toNat, c.len - c.done))
    | 5 => (true, c.a2 + c.done, c.len - c.done) :: c.gatherSpan s
    | 6 =>
      let b := 2 ^ c.param
      [(true, c.a2 + c.done, c.len - c.done), (false, c.a1 + 8 * (c.done / b), 8 * (c.len / b - c.done / b))] ++
        (match c.blockEntry with
         | some e => if e = 0 then [] else [(false, e + c.done % b, b - c.done % b)]
         | none => [])
    | 7 =>
      match layerFields s c with
      | some (src, dst) => [(true, dst + c.done, c.len - c.done), (false, src + c.done, c.len - c.done)]
      | none => []
    | 9 =>
      match layerFields s c with
      | some (_, dst) => [(true, dst, c.len)]
      | none => []
    | 0xB => [(false, c.a1, 32)]
    | _ => []

/-- What the command's next piece reaches: write, virtual address, length (04 R82). -/
def Cmd.next (s : State) (c : Cmd) : List (Bool × Nat × Nat) :=
  let n := min 128 (c.len - c.done)
  if c.total s ≤ c.done then []
  else match c.code with
    | 2 =>
      let i := c.done / c.len
      let off := c.done % c.len
      let m := min 128 (c.len - off)
      [(false, c.a1 + i * c.spitch + off, m), (true, c.a2 + i * c.dpitch + off, m)]
    | 3 => [(true, c.a2 + c.done, n)]
    | 4 => (false, c.a1 + c.done, n) :: c.vaults.map (fun g => (true, (windowAddr g (c.a2 + c.done)).toNat, n))
    | 5 =>
      match c.pattern s with
      | some ws =>
        let sz := 2 ^ ((ws.getD 1 0).toNat % 4)
        [(false, gatherAddr { c with table := ws } (c.done / sz), sz), (true, c.a2 + c.done, min (sz - c.done % sz) (128 - (c.a2 + c.done) % 128))]
      | none => [(false, c.a1, 1)]
    | 6 =>
      let b := 2 ^ c.param
      let slot := c.a1 + 8 * (c.done / b)
      let e := match c.blockEntry with
        | some e => e
        | none => match engineHome s c slot false with
          | .ok (s1, h) => homeRead s1 h 8
          | .error _ => 0
      [(false, slot, 8), (true, c.a2 + c.done, n)] ++ (if e % b != 0 || e = 0 then [] else [(false, e + c.done % b, n)])
    | 7 =>
      (false, c.a1, 64) :: (match layerFields s c with
        | some (src, dst) => [(false, src + c.done, n), (true, dst + c.done, n)]
        | none => [])
    | 8 => if c.sweepsAlias then [] else [(true, c.a1 + c.done, 8)]
    | 9 => [(false, c.a1, 64)]
    | 0xB => [(false, c.a1, 32)]
    | 1 => [(false, c.a1 + c.done, n), (true, c.a2 + c.done, n)]
    | _ => []

/-- The context in which the command's addresses are translated: PARAM's for LAYERIN, SWEEP and EVICT (05 R104, R109, 07 R132). -/
def Cmd.inCtx (c : Cmd) : Cmd := if 7 ≤ c.code && c.code ≤ 9 then { c with ctx := c.param } else c

/-- An address that the command needs and whose host-backed range the driver has still to be asked for (06 R120). -/
def Cmd.unasked (s : State) (c : Cmd) : Option (Bool × Nat × Nat) :=
  (c.next s).find? (fun k => match engineHome s c.inCtx k.2.1 k.1 with
    | .error (f, sub) => f == 0 && sub == 1
    | .ok _ => false)

/-- The issuing core's service core is told of an engine's miss, without any fault (04 R85, 06 R116, R120). -/
def askService (s : State) (c : Cmd) (k : Bool × Nat × Nat) : State :=
  let f : Fill := { core := c.core, va := BitVec.ofNat 64 k.2.1, write := k.1, fetch := false, cow := false, frame := .none, status := none,
                    told := false, host := false, since := s.clock, cmd := some c.key }
  let s1 := updCtx s c.inCtx.ctx (fun x => { x with fills := x.fills.filter (fun g => g.cmd != some c.key) ++ [f] })
  { s1 with pending := s1.pending ++ [(c.core, .translationMissMessage)] }

/-- The driver is asked for an address at which `engineHome` has found a host-backed range that nobody has asked for yet (06 R120). -/
def askGap (s : State) (c : Cmd) (va : Nat) (write : Bool) : State :=
  match engineHome s c va write with
  | .error (f, sub) => if f = 0 && sub = 1 then askService s c (write, va, 8) else s
  | .ok _ => s

/-- The misses asked for by the access with this key are done with. -/
def dropAsks (s : State) (cx key : Nat) : State := updCtx s cx (fun x => { x with fills := x.fills.filter (fun f => f.cmd != some key) })

/-- Keys of accesses that the device makes by itself, beyond the keys of commands: a merge's on core g, the record of a RESUME at core g's port, the join of
a launch, and what the control complex reads for a host. -/
def mergeKey (g : Nat) : Nat := 2 ^ 64 + g
def recordKey (g : Nat) : Nat := 2 ^ 64 + 2 ^ 20 + g
def joinKey (slot : Nat) : Nat := 2 ^ 64 + 2 ^ 21 + slot
def hostKey : Nat := 2 ^ 64 + 2 ^ 22

/-- Does a range of a command's virtual addresses reach the home bytes a .. a + n − 1; ranges in the host and peer
windows are not claimed (04 R79). -/
def spanHits (s : State) (c : Cmd) (va len a n : Nat) : Bool :=
  let v : Word := BitVec.ofNat 64 va
  match spaceOf v with
  | .ownVault => vaultHome c.core va < a + n && a < vaultHome c.core va + min len (vaultSize c.core - va)
  | .window => vaultHome (windowVault v) (windowOff v) < a + n && a < vaultHome (windowVault v) (windowOff v) + len &&
      a < vaultHome Config.nCores 0
  | .translated =>
    let cx := if c.code = 7 || c.code = 9 then c.param else c.ctx
    match ctxOf s cx with
    | none => false
    | some x => x.pages.any (fun p =>
        p.va < va + len && va < p.va + pageBytes p.size && (isSliced p.pa) &&
        (let lo := max va p.va
         let hi := min (va + len) (p.va + pageBytes p.size)
         p.phys lo < a + n && a < p.phys lo + (hi - lo)))
  | _ => false

/-- The piece of a command that is not finished (04 R82, R89-R95). -/
def movePart (s : State) (c : Cmd) : State × Cmd :=
  match c.code with
    | 1 => movePiece s c (c.a1 + c.done) (c.a2 + c.done) (c.len - c.done)
    | 2 =>
      let i := c.done / c.len
      let off := c.done % c.len
      movePiece s c (c.a1 + i * c.spitch + off) (c.a2 + i * c.dpitch + off) (c.len - off)
    | 3 =>
      let dst := c.a2 + c.done
      let n := min (c.len - c.done) (128 - dst % 128)
      fillPiece s c dst n (repeatWord c.a1 (n / 8))
    | 4 => mcastPiece s c
    | 5 => gatherPiece s c
    | 6 => btwalkPiece s c
    | 7 => layerPiece s c
    | 8 => sweepPiece s c
    | 9 => evictPiece s c
    | 0xB => ptloadPiece s c
    | _ => (s, { c with done := c.total s })

/-- Must an access to home bytes wait for the command, for a claim or for a line of it on its way (04 R80, R82). -/
def Cmd.conflicts (s : State) (c : Cmd) (a n : Nat) (write : Bool) : Bool :=
  (c.claims s).any (fun k => (k.1 || write) && spanHits s c k.2.1 k.2.2 a n) || c.owesAt s a n

/-- Every accepted command that has not ended, wherever it stands. -/
def allCmds (s : State) : List Cmd :=
  s.core.port.waiting ++ s.others.flatMap (fun e => e.2.port.waiting) ++
    s.engines.toList.flatMap (fun e => e.own ++ e.queue ++ e.running ++ e.held)

/-- Inserts a command by rising acceptance key (04 R77). -/
def insertCmd (c : Cmd) : List Cmd → List Cmd
  | [] => [c]
  | d :: r => if c.key ≤ d.key then c :: d :: r else d :: insertCmd c r

/-- Commands by rising acceptance key. -/
def sortCmds (l : List Cmd) : List Cmd := l.foldr insertCmd []

/-- Home bytes that the command's next piece reaches: write, home, length (04 R81, R82). -/
def Cmd.nextHomes (s : State) (c : Cmd) : List (Bool × Nat × Nat) :=
  if c.code = 8 then
    if c.total s ≤ c.done then [] else match sweepHome s c with
      | .ok (_, h) => [(true, h, 8)]
      | .error _ => []
  else (if c.code = 9 then (c.evictHomes s).map (fun h => (true, h.1, h.2)) else []) ++ (c.next s).filterMap (fun k =>
    match engineHome s c.inCtx k.2.1 k.1 with
    | .ok (_, h) => some (k.1, h, k.2.2)
    | .error _ => none)

/-- The stride-gather unit that a PTLOAD or GATHERT goes to (04 R94, R95). -/
def Cmd.gatherUnit (s : State) (c : Cmd) : Option Nat :=
  if c.code = 0xB then some (bits c.ecw3 10 8)
  else if c.code = 5 then match engineHome s c c.a1 false with
    | .ok (t, h) => stackOf t h
    | .error _ => none
  else none

/-- Cannot a GATHERT's unit be told yet: the page of A is held. A host-backed page that the driver has still to map lies on no stack. -/
def Cmd.unitUnknown (s : State) (c : Cmd) : Bool :=
  c.code == 5 && (match engineHome s c c.a1 false with
    | .ok _ => false
    | .error (f, sub) => f == 0 && sub == 0)

/-- Has its unit begun it. -/
def Cmd.begun (c : Cmd) : Bool := c.fault.isSome || (if c.code = 0xB then 32 ≤ c.done else !c.table.isEmpty)

/-- Must a unit begin command d before c, which it has not begun: they reach it in acceptance order (04 R94). -/
def Cmd.before (s : State) (d c : Cmd) : Bool :=
  !c.begun && !d.begun && (c.gatherUnit s).isSome && (d.gatherUnit s == c.gatherUnit s || d.unitUnknown s)

/-- A command of lower acceptance key whose claims, or whose turn at a stride-gather unit, hold back the next piece (04 R81, R94). -/
def Cmd.heldBy (s : State) (c : Cmd) : Option Cmd :=
  (sortCmds ((allCmds s).filter (fun d => d.key < c.key))).find? (fun d =>
    d.before s c || (c.nextHomes s).any (fun k => d.conflicts s k.2.1 k.2.2 k.1))

/-! ### The way to a slice (02 R32) -/

/-- Does the slice that homes a take no request from its stop now: requests wait there, or one of its banks' conflict queues of 32 is full (02
R32). -/
def intakeStopped (s : State) (a : Nat) : Bool :=
  s.stop.any (fun r => homeSlice s r.addr == homeSlice s a) ||
    (List.range 4).any (fun b => 32 ≤ (s.waiting.filter (fun r => homeSlice s r.addr == homeSlice s a && bankOf s (r.addr / 128) == b)).length)

/-- Must the next piece wait at a slice: for a lock, for a request that reached it before, or while it takes nothing from its stop, but for a piece
that a request there waits for (02 R32-R34, 04 R80). -/
def Cmd.shut (s : State) (c : Cmd) : Bool :=
  let recalled := s.waiting.any (fun r => c.key ≤ r.stamp && c.conflicts s r.addr r.size true)
  (c.nextHomes s).any (fun k => isSliced k.2.1 && (lockedFor s c.key k.2.1 k.2.2 || (!recalled && intakeStopped s k.2.1)))

/-- The next piece of a command that is not finished: it waits at its slices and for lower keys, and for an answer that its miss needs (02 R33, 04
R81, R85). -/
def moveOne (s : State) (c : Cmd) : State × Cmd :=
  if c.total s ≤ c.done || c.fault.isSome || c.shut s || (c.heldBy s).isSome then (s, c)
  else match c.unasked s with
    | some k => (askService s c k, c)
    | none => movePart s c

/-- Pieces until the command is finished, stops or waits. -/
def moveMany : Nat → State → Cmd → State × Cmd
  | 0, s, c => (s, c)
  | k + 1, s, c =>
    let r := moveOne s c
    if r.2.done = c.done then r else moveMany k r.1 r.2

/-- All the rest of a command. -/
def moveAll (s : State) (c : Cmd) : State × Cmd := moveMany (c.total s + 1) s c

/-- Sets a command, found by its key, wherever it stands. -/
def setCmd (s : State) (c : Cmd) : State :=
  let f := fun (l : List Cmd) => l.map (fun d => if d.key = c.key then c else d)
  let g := fun (k : Core) => { k with port := { k.port with waiting := f k.port.waiting } }
  { s with core := g s.core, others := s.others.map (fun e => (e.1, g e.2)),
           engines := s.engines.map (fun e => { e with queue := f e.queue, running := f e.running, held := f e.held, own := f e.own }) }

/-- Moves every command of a rising list to its end. -/
def finishCmds : List Cmd → State → State
  | [], s => s
  | c :: r, s =>
    let m := moveAll s c
    finishCmds r (setCmd m.1 m.2)

/-- The recall of R80: an access to claimed home bytes waits until the engine's part is done, so the command, and
those of lower acceptance key that it may wait for (04 R81), move on first; false while one of them must wait. Only the
commands that `p` picks hold it back. DEDUCED: log entry 10. -/
def settleAmong (p : Cmd → Bool) (s : State) (a n : Nat) (write : Bool) : State × Bool :=
  let cs := sortCmds (allCmds s)
  match (cs.filter (fun c => p c && c.conflicts s a n write)).getLast? with
  | none => (s, true)
  | some last =>
    let s1 := finishCmds (cs.filter (fun c => c.key ≤ last.key)) s
    (s1, !(allCmds s1).any (fun c => p c && c.conflicts s1 a n write))

/-- The recall by every command's claims; a locked line makes the access wait as well (02 R33). -/
def settle (s : State) (a n : Nat) (write : Bool) : State × Bool :=
  if lineLocked s a n then (s, false) else settleAmong (fun _ => true) s a n write

end Sys2Proof.Machine
end

