-- ==== Sys2Proof/Machine/Rings.lean ====
section
/-! DEFINITION. The rings of the quadrants: stops, directions, crossings, turnouts, routes and the forks of a multicast packet (02
R41-R51), and the traffic classes. Of packets with one destination no value depends on the way, so `step` keeps those only by their
source, home and class (02 R48; DESIGN CHOICE, log entry 8). -/

namespace Sys2Proof.Machine

/-! ## Classes (02 R43) -/

/-- The class of a device step that stands for a packet's arrival, or for the packets of an engine's reads and writes, whose data come back as
`engineResponse`. -/
def trafficClass : Instr → Option TClass
  | .sliceRequest _ => some .req
  | .vaultAccess _ => some .req
  | .mreadRequest _ => some .req
  | .barmAtHome _ _ _ _ _ => some .req
  | .joinDecrement _ => some .req
  | .lwaitAtHome _ _ => some .req
  | .lrelAtHome _ _ => some .req
  | .lhintAtHome _ _ => some .req
  | .layerResidentStep _ _ => some .req
  | .layerFaultStep _ _ _ => some .req
  | .layerEvictedStep _ _ => some .req
  | .streamInStart => some .req
  | .copy | .copy2d | .fill | .mcast | .gathert | .btwalk | .layerin | .sweep | .resume | .ptload => some .req
  | .accessResponse => some .rsp
  | .engineResponse => some .rsp
  | .recordArrival => some .msg
  | .messageArrival => some .msg
  | .hopArrival => some .msg
  | .translationMissMessage => some .msg
  | .completionNotice => some .msg
  | .rankPacketArrival => some .evt
  | .stopPacketArrival _ _ => some .evt
  | _ => none

/-! ## Stops and routes (02 R41-R46) -/

/-- The stops of a ring pair in clockwise order (02 R41); `slices` picks the slice pair. -/
def ringStops (slices : Bool) : List RingStop :=
  if slices then
    [.turnout .w, .slice 0, .slice 1, .engine 0, .turnout .h, .turnout .v, .slice 2, .slice 3, .engine 1, .turnout .e]
  else
    [.turnout .w, .cluster 3, .cluster 2, .cluster 1, .cluster 0, .turnout .h, .turnout .v, .cluster 4, .cluster 5, .cluster 6, .cluster 7,
     .turnout .e]

/-- Stops of a pair. -/
def ringLength (slices : Bool) : Nat := if slices then 10 else 12
/-- A stop's position on a pair. -/
def ringPos (slices : Bool) (x : RingStop) : Nat := (ringStops slices).idxOf x
/-- Stops from one position to another, clockwise and the other way. -/
def hopsClockwise (slices : Bool) (x y : RingStop) : Nat := (ringPos slices y + ringLength slices - ringPos slices x) % ringLength slices
def hopsCounter (slices : Bool) (x y : RingStop) : Nat := (ringPos slices x + ringLength slices - ringPos slices y) % ringLength slices
/-- A packet goes the shorter way, clockwise on a tie (02 R42). -/
def goesClockwise (slices : Bool) (x y : RingStop) : Bool := hopsClockwise slices x y ≤ hopsCounter slices x y
/-- Ring cycles from stop to stop, one for each (02 R42). -/
def ringHops (slices : Bool) (x y : RingStop) : Nat := min (hopsClockwise slices x y) (hopsCounter slices x y)

/-- Is a stop on the slice pair only. -/
def RingStop.onSlices : RingStop → Bool
  | .slice _ => true
  | .engine _ => true
  | _ => false

/-- The turnout at which traffic to a stop crosses between the pairs of its quadrant (02 R44). -/
def crossing : RingStop → Turnout
  | .cluster n => if n ≤ 3 then .w else .e
  | .slice n => if n ≤ 1 then .w else .e
  | .engine n => if n = 0 then .w else .e
  | .turnout t => t

/-- The quadrant to which a turnout of quadrant q leads (02 R45). -/
def leadsTo (q : Nat) : Turnout → Nat
  | .w => q / 4 * 4 + (q % 4 + 3) % 4
  | .e => q / 4 * 4 + (q % 4 + 1) % 4
  | .h => (q / 4 ^^^ 1) * 4 + q % 4
  | .v => (q / 4 ^^^ 2) * 4 + q % 4

/-- The turnout by which a packet arrives that left by another. -/
def arrivesAt : Turnout → Turnout
  | .w => .e
  | .e => .w
  | .h => .h
  | .v => .v

/-- The turnouts that a packet from quadrant q to quadrant r leaves by, in order: along the die, then across dies (02 R46). -/
def exits (q r : Nat) : List Turnout :=
  let d := (r % 4 + 4 - q % 4) % 4
  let x := q / 4 ^^^ r / 4
  (if d = 1 then [.e] else if d = 2 then [.e, .e] else if d = 3 then [.w] else []) ++
    (if x % 2 = 1 then [.h] else []) ++ (if x / 2 % 2 = 1 then [.v] else [])

/-- The quadrants on the way from quadrant q by some exits. -/
def quadrants (q : Nat) : List Turnout → List Nat
  | [] => [q]
  | t :: r => q :: quadrants (leadsTo q t) r

/-- One leg of a route: from stop to stop of one pair of one quadrant. -/
structure Leg where
  quadrant : Nat
  slices   : Bool
  src      : RingStop
  dst      : RingStop
  deriving DecidableEq, Repr

/-- The legs from an arrival turnout of quadrant q by some exits to stop y, on the pair that holds y (02 R44); so also in a quadrant that it only
passes through (DESIGN CHOICE, log entry 44). -/
def legsFrom (q : Nat) (x : RingStop) (y : RingStop) : List Turnout → List Leg
  | [] => [⟨q, y.onSlices, x, y⟩]
  | t :: r => ⟨q, y.onSlices, x, .turnout t⟩ :: legsFrom (leadsTo q t) (.turnout (arrivesAt t)) y r

/-- The one route from stop x of quadrant q to stop y of quadrant r: to the exit on the pair it started on, then on the pair that
holds y; between the pairs of one quadrant by the crossing (02 R44, R46). -/
def route (q : Nat) (x : RingStop) (r : Nat) (y : RingStop) : List Leg :=
  match exits q r with
  | [] =>
    if x.onSlices = y.onSlices then [⟨q, x.onSlices, x, y⟩]
    else [⟨q, x.onSlices, x, .turnout (crossing y)⟩, ⟨q, y.onSlices, .turnout (crossing y), y⟩]
  | t :: ts => ⟨q, x.onSlices, x, .turnout t⟩ :: legsFrom (leadsTo q t) (.turnout (arrivesAt t)) y ts

/-- The stop of a core's cluster, a home slice's stop, and a copy engine's, in their quadrants (01 R11, R25, 04 R73). -/
def coreStop (g : Nat) : RingStop := .cluster (clusterOf g % 8)
def sliceStop (n : Nat) : RingStop := .slice (n % 4)
def engineStop (e : Nat) : RingStop := .engine (e % 2)

/-! ## Forks (02 R50, R51) -/

/-- A multicast branch on the cluster pair from stop x to clusters goes where its farthest destination is fewer stops away. -/
def fanClockwise (x : RingStop) (cs : List Nat) : Bool :=
  cs.foldl (fun m c => max m (hopsClockwise false x (.cluster c))) 0 ≤ cs.foldl (fun m c => max m (hopsCounter false x (.cluster c))) 0

/-- The cluster of a branch that it visits first from stop x in a direction. -/
def fanFirst (cw : Bool) (x : RingStop) (cs : List Nat) : Nat :=
  let far := fun (c : Nat) => if cw then hopsClockwise false x (.cluster c) else hopsCounter false x (.cluster c)
  cs.foldl (fun b c => if far c < far b then c else b) (cs.headD 0)

/-- A way out of a fork: through the vault crossbar to this cluster's vaults, or on to the next stop, with the direction on its ring. -/
inductive Way where
  | here
  | hop (quad : Nat) (next : RingStop) (way : Option Bool)
  deriving DecidableEq, Repr

/-- The branches of a packet where it stands: by exit turnout, by crossing turnout on the slice pair, else the local branch and the onward
one; a turnout that it leaves by leads to the next quadrant. -/
def forkBranches (p : Packet) : List (Way × List Delivery) :=
  let out := fun (t : Turnout) =>
    (if p.place = .turnout t then Way.hop (leadsTo p.quad t) (.turnout (arrivesAt t)) none else Way.hop p.quad (.turnout t) none,
     p.parts.filter (fun d => (exits p.quad (quadrantOf d.vault)).head? == some t))
  let mine := p.parts.filter (fun d => quadrantOf d.vault == p.quad)
  let cross := fun (t : Turnout) => (Way.hop p.quad (.turnout t) none, mine.filter (fun d => crossing (coreStop d.vault) == t))
  let rest := mine.filter (fun d => coreStop d.vault != p.place)
  let cs := rest.map (fun d => clusterOf d.vault % 8)
  let cw := p.way.getD (fanClockwise p.place cs)
  let inside := if p.place.onSlices then [cross .w, cross .e]
    else [(Way.here, mine.filter (fun d => coreStop d.vault == p.place)), (Way.hop p.quad (.cluster (fanFirst cw p.place cs)) (some cw), rest)]
  ([.w, .e, .h, .v].map out ++ inside).filter (fun b => !b.2.isEmpty)

/-- Is a packet at a turnout about to leave its quadrant by it: that output has a buffer of its own (02 R47). -/
def Packet.leaves (p : Packet) : Bool :=
  match p.place with
  | .turnout t => p.parts.any (fun d => (exits p.quad (quadrantOf d.vault)).head? == some t)
  | _ => false

/-- Is a packet at its own source, on no ring yet. -/
def Packet.atSource (p : Packet) : Bool :=
  match p.place with
  | .turnout _ => false
  | _ => p.way.isNone

/-- Do two packets stand in one buffer: of one class, at one stop or turnout, on one ring or output; each source has its own where it enters (02 R43,
R47, R51). -/
def sameBuffer (p q : Packet) : Bool :=
  p.quad == q.quad && p.place == q.place && p.cls == q.cls && p.way == q.way && p.leaves == q.leaves && (!p.atSource || p.src == q.src)

/-- The packets in the buffer of a packet. -/
def inBuffer (l : List Packet) (p : Packet) : Nat := (l.filter (sameBuffer p)).length

/-- Has a branch of a packet credit: at the next stop one free slot of two, or both where it enters a ring; or vaults that have taken every earlier
copy of the same source (02 R47, R48; DESIGN CHOICE, log entry 8: a buffer holds two packets, and the credits that other traffic leaves are not
kept). -/
def wayFree (s : State) (ahead : List Packet) (p : Packet) (b : Way × List Delivery) : Bool :=
  match b.1 with
  | .here => !b.2.any (fun d => s.pending.any (fun e => match e.2 with
      | .vaultDelivery k => k.vault == d.vault && k.src == d.src
      | _ => false))
  | .hop q x w =>
    let n := inBuffer ahead { p with quad := q, place := x, way := w, parts := b.2 }
    if p.atSource || (w.isSome && p.way.isNone) then n = 0 else n < 2

/-- The packets of the forks move on, each by a stop where it is the first of its buffer: copies leave on the branches with credit, and the
residual stays at the head (02 R51). -/
def forkSweep : List Packet → List Packet → State → State
  | [], kept, s => { s with forks := kept }
  | p :: r, kept, s =>
    if kept.any (sameBuffer p) then forkSweep r (kept ++ [p]) s
    else
      let bs := forkBranches p
      let free := bs.filter (wayFree s (kept ++ r) p)
      let left := (bs.filter (fun b => !wayFree s (kept ++ r) p b)).flatMap (·.2)
      let moved := free.filterMap (fun b => match b.1 with
        | .here => none
        | .hop q x w => some { p with quad := q, place := x, way := w, parts := b.2 })
      let given := free.flatMap (fun b => if b.1 = .here then b.2 else [])
      forkSweep r (kept ++ (if left.isEmpty then [] else [{ p with parts := left }]) ++ moved)
        { s with pending := s.pending ++ given.map (fun d => (d.vault, Instr.vaultDelivery d)) }

/-- Is the first buffer of a source free, at its own stop. -/
def sourceFree (s : State) (p : Packet) : Bool := !s.forks.any (sameBuffer p)

end Sys2Proof.Machine
end

