-- ==== Sys2Proof/Machine/Journal.lean ====
section
/-! DEFINITION. The deferred-store journal of an ordered launch (08 R138-R142): a task's entries in its core's vault,
and the view it reads. -/

namespace Sys2Proof.Machine

/-- The launch of a context in a slot. -/
def launchOf (s : State) (cx slot : Nat) : Option Launch :=
  match ctxOf s cx with
  | some x => x.launches.find? (fun l => l.slot == slot)
  | none => none

/-- Changes a launch. -/
def updLaunch (s : State) (cx slot : Nat) (f : Launch → Launch) : State :=
  updCtx s cx (fun x => { x with launches := x.launches.map (fun l => if l.slot = slot then f l else l) })

/-- Does the running task belong to an ordered launch (08 R137, 10 R169: a task whose id is 0xFFFFFFFF is outside). -/
def isOrdered (s : State) : Bool :=
  s.core.id.slot != 63 && s.core.id.tid != 0xFFFFFFFF &&
  match launchOf s s.core.ctx s.core.id.slot.toNat with
  | some l => l.ordered
  | none => false

/-- Shared space: every home but the own vault (08 R137). -/
def isShared (s : State) (home : Nat) : Bool :=
  !(vaultHome s.core.num 0 ≤ home && home < vaultHome s.core.num Config.vaultBytes)

/-- An entry of a journal (08 R141): kind, mask, doubleword address, data, function code, the command words of a
CMD entry, and the task it belongs to. -/
structure JEntry where
  pos  : Nat
  kind : Nat
  mask : Nat
  dwa  : Nat
  data : Word
  fn   : Nat
  cmd  : List Word
  tid  : Nat
  deriving DecidableEq, Repr

/-- Home address of entry i of core g's journal (08 R140). -/
def jentryHome (g i : Nat) : Nat := vaultHome g (Config.journalBase + 16 + 16 * i)
/-- COUNT of core g's journal (08 R140). -/
def jcount (s : State) (g : Nat) : Nat := homeRead s (vaultHome g Config.journalBase) 4

/-- 16-byte entries an entry of a kind takes (08 R141). -/
def jsize (kind : Nat) : Nat := if kind = 4 then 5 else if kind = 1 || kind = 2 then 2 else 1

/-- The entries of a journal from index i on. -/
def jparse (s : State) (g : Nat) : Nat → Nat → Nat → List JEntry
  | 0, _, _ => []
  | k + 1, i, tid =>
    if jcount s g ≤ i then []
    else
      let w := homeWord s (jentryHome g i)
      let d := homeWord s (jentryHome g i + 8)
      let kind := bits w 2 0
      let tid' := if kind = 3 then d.toNat else tid
      let e : JEntry := { pos := i, kind := kind, mask := bits w 63 56, dwa := bits w 55 3 * 8, data := d,
                          fn := if kind = 1 || kind = 2 then bits (homeWord s (jentryHome g (i + 1))) 7 0 else 0,
                          cmd := if kind = 4 then (List.range 4).map (fun j => homeWord s (jentryHome g (i + 1 + j) + 8)) else [],
                          tid := tid' }
      e :: jparse s g k (i + jsize kind) tid'

/-- The whole journal of core g, in order of append. -/
def journal (s : State) (g : Nat) : List JEntry := jparse s g (jcount s g) 0 0xFFFFFFFF

/-- The running task's entries, oldest first. -/
def myEntries (s : State) : List JEntry := (journal s s.core.num).filter (fun e => e.tid == s.core.id.tid.toNat)

/-- A doubleword as one entry of the task leaves it in the view (08 R139). -/
def overlay (v : Nat) (e : JEntry) : Nat :=
  (List.range 8).foldl (fun acc i =>
    acc + (if e.mask.testBit i then e.data.toNat / 2 ^ (8 * i) % 256 else v / 2 ^ (8 * i) % 256) * 2 ^ (8 * i)) 0

/-- The task's view of the doubleword at virtual address va whose home bytes hold v (08 R139). -/
def viewWord (s : State) (va v : Nat) : Nat :=
  (myEntries s).foldl (fun acc e => if (e.kind == 0 || e.kind == 2) && e.dwa == va / 8 * 8 then overlay acc e else acc) v

/-- First doubleword of an entry (08 R141). -/
def jhead (kind mask va : Nat) : Word := BitVec.ofNat 64 (mask * 2 ^ 56 + va / 8 * 8 % 2 ^ 56 + kind)

/-- The header of core g's journal with a count, all its other bits zero (08 R140). -/
def jheader (s : State) (g n : Nat) : State := homeWrite s (vaultHome g Config.journalBase) 16 n

/-- Writes the doublewords of entries from index i on, and the count. -/
def jwrite (s : State) (g : Nat) : Nat → List (Word × Word) → State
  | i, [] => jheader s g i
  | i, e :: r => jwrite (homeWrite (homeWrite s (jentryHome g i) 8 e.1.toNat) (jentryHome g i + 8) 8 e.2.toNat) g (i + 1) r

/-- Appends entries for the running task, after its TASK entry when it has none in this run; none where they do not
fit (08 R140, R142, 14 R237). -/
def jappend (s : State) (es : List (Word × Word)) : Option State :=
  let g := s.core.num
  let es := if s.core.sched.taskEntry then es else (jhead 3 0 0, s.core.id.tid.zeroExtend 64) :: es
  if Config.journalCap < jcount s g + es.length then none
  else
    let s1 := jwrite s g (jcount s g) es
    some { s1 with core := { s1.core with sched := { s1.core.sched with taskEntry := true } } }

/-- A task of an ordered launch that comes to run on the core first appends its TASK entry, unless the journal's last one is its own; one that does
not fit is left to the first access that needs it, which faults (08 R140, R142). -/
def openJournal (s : State) : State :=
  if !(s.core.sched.running && isOrdered s) then s
  else if (((journal s s.core.num).filter (fun e => e.kind == 3)).getLast?).map (·.tid) = some s.core.id.tid.toNat then
    { s with core := { s.core with sched := { s.core.sched with taskEntry := true } } }
  else (jappend s []).getD s

/-- Bytes of the doubleword that n bytes at va cover, as a mask. -/
def laneMask (va n : Nat) : Nat := (2 ^ n - 1) * 2 ^ (va % 8)

/-- Merges a store into an entry in place. -/
def jmerge (s : State) (e : JEntry) (va n v : Nat) : State :=
  let h := jentryHome s.core.num e.pos
  let m := e.mask ||| laneMask va n
  let d := overlay e.data.toNat { e with mask := laneMask va n, data := BitVec.ofNat 64 (v * 2 ^ (8 * (va % 8))) }
  homeWrite (homeWrite s h 8 (jhead 0 m va).toNat) (h + 8) 8 d

/-- A store of n bytes at va within one doubleword, journaled (08 R141). -/
def jstore (s : State) (va n v : Nat) : Option State :=
  let newest := ((myEntries s).filter (fun e => (e.kind == 0 || e.kind == 1 || e.kind == 2) && e.dwa == va / 8 * 8)).getLast?
  let v := v % 2 ^ (8 * n)
  match newest with
  | some e => if e.kind = 0 then some (jmerge s e va n v)
              else jappend s [(jhead 0 (laneMask va n) va, BitVec.ofNat 64 (v * 2 ^ (8 * (va % 8))))]
  | none => jappend s [(jhead 0 (laneMask va n) va, BitVec.ofNat 64 (v * 2 ^ (8 * (va % 8))))]

/-- The core keeps the address of the instruction whose entry, of k places, is the journal's last (19 R326: TRAPPC of an upcall that a merge
raises for it). -/
def State.noteEntry (k : Nat) (s : State) : State :=
  { s with core := { s.core with sched := { s.core.sched with journalPcs := (jcount s s.core.num - k, s.core.regs.pc) :: s.core.sched.journalPcs } } }

/-- An atomic (kind 1) or stamped operation (kind 2) journaled with its operand and function code (08 R141). -/
def jatomic (s : State) (kind va n : Nat) (operand : Word) (fn : Nat) : Option State :=
  (jappend s [(jhead kind (laneMask va n) va, operand), (BitVec.ofNat 64 fn, 0)]).map (State.noteEntry 2)

/-- A store to EGO journaled with the shadow set (08 R141). -/
def jcommand (s : State) (ego : Word) : Option State :=
  let p := s.core.port
  (jappend s ((4, ego) :: [p.ecw0, p.ecw1, p.ecw2, p.ecw3].map (fun w => (0, w)))).map (State.noteEntry 5)

/-- The journal of core g emptied (08 R140). -/
def jclear (s : State) (g : Nat) : State :=
  updCore (jheader s g 0) g (fun c => { c with sched := { c.sched with taskEntry := false, journalPcs := [] } })

end Sys2Proof.Machine
end

