-- ==== Sys2Proof/Machine/Port.lean ====
section
/-! DEFINITION. A core's command port: acceptance of a go, ESTAT, and what ends a command (04 R74-R88). -/

namespace Sys2Proof.Machine

/-- The copies count of CNTS: the running task's commands of this port that have neither completed nor stopped (04 R78). -/
def copiesOf (s : State) : Nat :=
  ((allCmds s).filter (fun c => c.byPort && c.core == s.core.num && c.ctx == s.core.ctx && c.owner == s.core.port.owner)).length

/-- The running task's TSENDs with lines still to be read (14 R241). -/
def sendsOf (s : State) : Nat :=
  (s.sends.filter (fun d => d.core == s.core.num && d.ctx == s.core.ctx && d.owner == s.core.port.owner)).length

/-- The tile operations count of CNTS (13 R226, 14 R241, 16 R264). -/
def tileOps (s : State) : Nat := (if s.core.mx.owner = s.core.port.owner then s.core.mx.ops else 0) + sendsOf s

/-- ESTAT (04 R78). -/
def estat (p : Port) : Word :=
  BitVec.ofNat 64 (p.fcode.toNat * 2 ^ 48 + min p.pend 255 * 2 ^ 40 + p.waiting.length * 2 ^ 32 +
    p.accepted.toNat * 2 ^ 16 + p.done.toNat)

/-- A go refused: the fault's cause, TRAPA and TRAPX; or an acceptance that waits (04 R77). -/
inductive GoStop where
  | fault (cause : BitVec 8) (addr : Word) (x : Word)
  | wait
  deriving DecidableEq, Repr

/-- The EGO address (01 R16). -/
def egoAddr : Word := 0x200020

/-- A local-alias address as the core's own window names it, so that spans compare by the bytes they reach. -/
def plainAddr (g : Nat) (va : Nat) : Nat := if va < Config.engineWindow then Config.windowBase + g * Config.vaultBytes + va else va

/-- The span a command reads and the spans it writes, as start and length (04 R77). -/
def Cmd.spans (s : State) (c : Cmd) : List (Nat × Nat) × List (Nat × Nat) :=
  let len2 := (c.rows - 1) * c.spitch + c.len
  let dlen2 := (c.rows - 1) * c.dpitch + c.len
  match c.code with
  | 1 => ([(c.a1, c.len)], [(c.a2, c.len)])
  | 2 => if c.rows = 0 || c.len = 0 then ([], []) else ([(c.a1, len2)], [(c.a2, dlen2)])
  | 3 => ([], [(c.a2, c.len)])
  | 4 => ([(c.a1, c.len)], c.vaults.map (fun g => ((windowAddr g c.a2).toNat, c.len)))
  | 5 => ((c.claims s).filterMap (fun k => if k.1 then none else some k.2), [(c.a2, c.len)])
  | 6 => ([(c.a1, c.len / 2 ^ c.param * 8)], [(c.a2, c.len)])
  | _ => ([], [])

/-- Do the source and destination spans overlap (04 R77 0x04). -/
def Cmd.overlapping (s : State) (c : Cmd) : Bool :=
  let (src, dst) := c.spans s
  src.any (fun a => dst.any (fun b =>
    a.2 != 0 && b.2 != 0 && plainAddr c.core a.1 < plainAddr c.core b.1 + b.2 && plainAddr c.core b.1 < plainAddr c.core a.1 + a.2))

/-- The words of R76 that must be zero. -/
def Cmd.dashesZero (c : Cmd) : Bool :=
  match c.code with
  | 1 => c.param == 0 && c.ecw3 == 0
  | 2 => c.param == 0
  | 3 => c.param == 0 && c.ecw3 == 0
  | 4 => true
  | 5 => c.param == 0 && bits c.ecw3 63 6 == 0
  | 6 => bits c.ecw3 63 32 == 0
  | 7 => c.ecw2 == 0 && c.ecw3 == 0 && c.target == 0
  | 8 => c.ecw2 == 0 && bits c.ecw3 63 6 == 0 && c.target == 0
  | 9 => c.ecw2 == 0 && c.ecw3 == 0 && c.target == 0
  | 0xA => c.param == 0 && c.ecw2 == 0 && c.ecw3 == 0
  | 0xB => c.param == 0 && c.ecw2 == 0 && bits c.ecw3 63 11 == 0 && bits c.ecw3 7 6 == 0
  | _ => true

/-- The alignment and length rules of R76, R89, R91, R95 (04 R77 0x05). A COPY2D of zero rows is spared the check of its destination pitch
(DESIGN CHOICE, log entry 44). -/
def Cmd.lengthsOk (s : State) (c : Cmd) : Bool :=
  match c.code with
  | 2 => c.rows == 0 || c.len ≤ c.dpitch
  | 3 => c.len % 8 == 0 && c.a2 % 8 == 0
  | 4 => c.a2 < Config.vaultBytes && c.a2 + c.len ≤ Config.vaultBytes
  | 5 =>
    match engineHome s c c.a1 false with
    | .ok (s1, h) =>
      match patternOf s1 h c with
      | some p => c.len == p.rows * p.cols * 2 ^ p.esize
      | none => true
    | .error _ => true
  | 6 => 7 ≤ c.param && c.param ≤ 21 && c.a1 % 8 == 0 && c.len == bits c.ecw3 31 0 * 2 ^ c.param
  | 0xB => c.a1 % 32 == 0
  | _ => true

/-- CK and ENG fields (04 R75). -/
def Cmd.ck (c : Cmd) : Bool := c.ecw0.getLsbD 14
def Cmd.any (c : Cmd) : Bool := c.ecw0.getLsbD 13
def Cmd.eng (c : Cmd) : Nat := bits c.ecw0 12 8

/-- The completion target's rules (04 R77 0x06, R84). -/
def Cmd.targetOk (c : Cmd) : Bool :=
  if c.target = 0 then !c.ck
  else c.target.toNat % 16 == 0 && (!c.ck || spaceOf c.target == .ownVault || spaceOf c.target == .window)

/-- Is vault g granted to context cx. -/
def granted (s : State) (cx g : Nat) : Bool :=
  match ctxOf s cx with
  | some x => isCompute g && x.grant.getLsbD (clusterOf g)
  | none => false

/-- The first address of a range that lies in a vault window the context is not granted. -/
def firstUngranted (s : State) (cx va len : Nat) : Option Nat :=
  if len = 0 || va + len ≤ Config.windowBase || Config.windowEnd ≤ va then none
  else
    let lo := max va Config.windowBase
    let hi := min (va + len) Config.windowEnd
    let g0 := (lo - Config.windowBase) / Config.vaultBytes
    let g1 := (hi - 1 - Config.windowBase) / Config.vaultBytes
    ((List.range (g1 - g0 + 1)).find? (fun i => !granted s cx (g0 + i))).map (fun i =>
      max lo (Config.windowBase + (g0 + i) * Config.vaultBytes))

/-- The VAULT check of a go: destinations, then the completion target (04 R77). -/
def Cmd.ungranted (s : State) (c : Cmd) : Option Nat :=
  let named := if c.code = 4 then (c.vaults.find? (fun g => !granted s c.ctx g)).map (fun g => (windowAddr g c.a2).toNat) else none
  match named.orElse (fun _ => ((c.spans s).2.filterMap (fun d => firstUngranted s c.ctx d.1 d.2)).head?) with
  | some a => some a
  | none => if c.target = 0 then none else firstUngranted s c.ctx c.target.toNat 16

/-- The engine that runs a command (04 R75): ANY picks the one of the port's quadrant with fewer queued commands. -/
def Cmd.engine (s : State) (c : Cmd) : Nat :=
  if c.any then
    let q := quadrantOf c.core
    let load : Nat → Nat := fun e => match s.engines.toList[e]? with
      | some k => k.queue.length
      | none => 0
    if load (2 * q + 1) < load (2 * q) then 2 * q + 1 else 2 * q
  else c.eng

/-- The fault record a RESUME names, read as the engine reads it, and the command that continues, with the kind of target that the RESUME's own CK
gives (04 R80, R86, R88); true where the record's page is held by a migration, or its bytes by a command that has still to write them, false where
there is no such command, an address that cannot be translated or read among the reasons. A RESUME that stops writes the record of that command's
words, not of its own (DESIGN CHOICE, log entry 44). -/
def resumedCmd (s : State) (c : Cmd) : Except Bool (State × Cmd) :=
  match engineHome s { c with key := recordKey c.core } c.a1 false with
  | .error (f, _) => .error (f == 0)
  | .ok (s0, h) =>
    let t := settle s0 h 64 false
    if !t.2 then .error true
    else
      let s1 := readBy t.1 c.ctx h 64
      let w7 := homeRead s1 (h + 0x38) 8
      let w0 := homeWord s1 h
      let r := { c with ecw0 := w0 &&& ~~~(0x4000 : Word) ||| c.ecw0 &&& 0x4000, ecw1 := homeWord s1 (h + 8), ecw2 := homeWord s1 (h + 16), ecw3 := homeWord s1 (h + 24) }
      if w7 % 256 = 0 || w7 / 2 ^ 32 != c.core || r.code = 0xA then .error false
      else
        let d := homeRead s1 (h + 0x28) 8
        .ok (s1, { r with resumed := true, done := if r.code = 4 && r.vaults.length != 0 then d / r.vaults.length else d })

/-- The first check of R77 that a command breaks, standing highest in its table. The words of a command that a RESUME continues are checked as its
own are, so that a record which software has written is confined to what the context may do (00 R9, 04 R88; DEDUCED, log entry 45). The acceptance
waits for a record or for A of a GATHERT whose page is held. -/
def goFault (s : State) (c : Cmd) (user : Bool) : Option GoStop :=
  let eng := fun (x : Nat) => some (GoStop.fault 0x12 egoAddr (BitVec.ofNat 64 x))
  let rec_ := if c.code = 0xA then some (resumedCmd s c) else none
  let cs : List Cmd := c :: (match rec_ with
    | some (.ok (_, r)) => [{ r with ecw0 := r.ecw0 &&& ~~~(0x3F00 : Word) ||| c.ecw0 &&& 0x3F00 }]
    | _ => [])
  let lost := match rec_ with
    | some (.error false) => true
    | _ => false
  if cs.any (fun k => k.ecw0.getLsbD 15 || (k.any && k.eng != 0) || !k.dashesZero) then eng 1
  else if cs.any (fun k => k.code = 0 || 0xC ≤ k.code) then eng 2
  else if cs.any (fun k => 7 ≤ k.code && k.code ≤ 9 && user) then eng 3
  else if cs.any (fun k => k.overlapping s) then eng 4
  else if cs.any (fun k => !k.lengthsOk s) || lost then eng 5
  else if !c.targetOk then eng 6
  else if s.out.fenced.getLsbD (c.engine s / 2) then eng 7
  else if cs.any (fun k => (k.code == 5 || k.code == 0xB) && !patternGranted s k) then eng 8
  else match (cs.filterMap (fun k => k.ungranted s)).head? with
    | some a => some (.fault 6 (BitVec.ofNat 64 a) 0)
    | none => if cs.any (fun k => k.unitUnknown s) || (match rec_ with | some (.error true) => true | _ => false) then some .wait else none
where
  /-- Is the pattern entry granted to the context (04 R94). -/
  patternGranted (s : State) (c : Cmd) : Bool :=
    let unit := if c.code = 0xB then some (bits c.ecw3 10 8) else
      match engineHome s c c.a1 false with
      | .ok (s1, h) => stackOf s1 h
      | .error _ => none
    match unit, ctxOf s c.ctx with
    | some u, some x => (x.patGrant.getD u 0).getLsbD (bits c.ecw3 5 0)
    | none, _ => true
    | _, none => false

/-- The port that accepted a command, on its core or in the core's save while the context holds no cluster (04 R78, R83). -/
def updPort (s : State) (c : Cmd) (f : Port → Port) : State := updTask s c.ctx c.core (fun k => { k with port := f k.port })

/-- The core whose port accepted a command, which its key names: the context's images may have moved since (04 R77, R86, 10 R373). -/
def Cmd.acceptor (c : Cmd) : Nat := c.key / 2 ^ 24 % 2 ^ 16

/-- A free slot's home in the context's fault ring, or none where the next slot is not free, where its page cannot be translated or written, or
while a command of lower key holds its bytes: the fault is then held and tried again (04 R80, R81, R86; DESIGN CHOICE, log entry 44). -/
def faultSlot (s : State) (c : Cmd) : Option (State × Nat × Word) :=
  match ctxOf s c.ctx with
  | none => none
  | some x =>
    let va : Word := x.faultRing + BitVec.ofNat 64 (64 * (x.faultNext % 64))
    match engineHome s c va.toNat true with
    | .error _ => none
    | .ok (s0, h) =>
      let t := settleAmong (fun d => d.key < c.key) s0 h 64 true
      if !t.2 || lockedFor t.1 c.key h 64 then none
      else
        let s1 := readBy t.1 c.ctx (h + 0x38) 8
        if homeRead s1 (h + 0x38) 1 = 0 then some (s1, h, va) else none

/-- A stopped command writes its fault record and sends the fault notice (04 R85, R86); none where no slot is free. A command
of the control complex has no accepting core: its record's CORE is a free value (DESIGN CHOICE, log entry 3). No notice of a stream-in is sent
(05 R105). -/
def noticeFault (s : State) (c : Cmd) : Option State :=
  match c.fault, faultSlot s c with
  | some (f, a, sub), some (s0, h, va) =>
    let (v, s1) := if c.byPort then (BitVec.ofNat 64 c.acceptor, s0) else freeNext s0
    let w7 := v.toNat % 2 ^ 32 * 2 ^ 32 + c.on * 2 ^ 16 + sub % 256 * 256 + f.toNat
    let s2 := [c.ecw0, c.ecw1, c.ecw2, c.ecw3, c.target, BitVec.ofNat 64 c.doneBytes, a, BitVec.ofNat 64 w7].zipIdx.foldl
      (fun t e => putBytes t (h + 8 * e.2) 8 e.1.toNat) s1
    let s3 := updCtx (emit s2 c.ctx true h 64 false) c.ctx (fun x => { x with faultNext := (x.faultNext + 1) % 64 })
    if !c.byPort then some s3
    else
    let s4 := updPort s3 c (fun p => { p with fcode := f, pend := p.pend - 1, done := p.done + 1 })
    some (if c.code = 7 then s4 else raiseUpcall s4 c.ctx c.core { cause := f, addr := a, pc := 0, x := va })
  | _, _ => none

/-- What a completed command does to its target: a decrement or a byte count, or the fault that stops it there (04 R83);
cause 0 while the target's line is locked, or held by a claim of lower key (04 R81). A target in the host or a peer window stops it with PERM
(DESIGN CHOICE, log entry 44). -/
def actOnTarget (s : State) (c : Cmd) : Except (BitVec 8 × Nat) State :=
  if c.target = 0 then .ok s
  else match engineHome s { c with ecw0 := 1 } c.target.toNat true with
    | .error e => .error e
    | .ok (s0, h) =>
      let r := settleAmong (fun d => d.key < c.key) s0 h 16 true
      let s1 := r.1
      if isHost h || isPeer h then .error (5, 0)
      else if !r.2 || lockedFor s1 c.key h 16 then .error (0, 0)
      else if c.ck then .ok (barrierArrive s1 c.ctx ((h - Config.vaultKey) / Config.vaultBytes) ((h - Config.vaultKey) % Config.vaultBytes)
        (c.byteCount s) c.target c.core)
      else .ok (joinDec s1 c.ctx h c.target c.core 0)

/-- The port's counts when a command completes (04 R78). -/
def portDone (s : State) (c : Cmd) : State := updPort s c (fun p => { p with pend := p.pend - 1, done := p.done + 1 })

/-- The command that EGO value `ego` starts from the shadow set (04 R74, R77). -/
def goCmd (s : State) (ego : Word) : Cmd :=
  let p := s.core.port
  { ecw0 := p.ecw0, ecw1 := p.ecw1, ecw2 := p.ecw2, ecw3 := p.ecw3, target := ego, core := s.core.num, ctx := s.core.ctx, on := 0,
    key := s.clock / 21 * 2 ^ 40 + s.core.num * 2 ^ 24 + p.seq % 2 ^ 24, seq := p.seq, done := 0, crc := 0xFFFFFFFF, poison := false,
    table := [], fault := none, owner := p.owner, byPort := true, resumed := false }

/-- A checked command accepted by the current core's port; one of no bytes completes at once (04 R77, R83). -/
def acceptCmd (s : State) (c0 : Cmd) : State :=
  let r : State × Cmd := if c0.code = 0xA then ((resumedCmd s c0).toOption.map (fun r => (dropAsks r.1 c0.ctx (recordKey c0.core), r.2))).getD (s, c0) else (s, c0)
  let s := r.1
  let c := { r.2 with on := c0.engine s }
  let p := s.core.port
  let s1 := { s with core := { s.core with port := { p with seq := p.seq + 1, accepted := p.accepted + 1, pend := p.pend + 1 } } }
  let queued := { s1 with core := { s1.core with port := { s1.core.port with waiting := p.waiting ++ [c] } },
                          pending := s1.pending ++ [(c.on, .engineCommandStart)] }
  if c.total s = 0 then
    match actOnTarget s1 c with
    | .ok s2 => portDone s2 c
    | .error _ => queued
  else queued

/-- While a RESUME waits for its record, the driver is asked for the record's page where that is host-backed (06 R120). -/
def askRecord (s : State) (c : Cmd) : State := if c.code = 0xA then askGap s { c with key := recordKey c.core } c.a1 false else s

/-- Has the current core's port no place for one more command (04 R77, R78). -/
def portFull (s : State) : Bool := 4 ≤ s.core.port.waiting.length || 255 ≤ copiesOf s

/-- A store to EGO accepted, or why it is not (04 R77). -/
def acceptGo (s : State) (ego : Word) : Except GoStop State :=
  let c0 := goCmd s ego
  match goFault s c0 s.core.sched.user with
  | some f => .error f
  | none => if portFull s then .error .wait else .ok (acceptCmd s c0)

end Sys2Proof.Machine
end

