-- ==== Sys2Proof/Machine/Ops.lean ====
section
/-! DEFINITION. The named operations the meanings are written over: the checks of 01 R18, one access at its home,
taking a trap or upcall, and returning from one (19 R320-R327). -/

namespace Sys2Proof.Machine

/-! ## How an instruction ends that has no ordinary next state -/

/-- Why an instruction does not simply complete. -/
inductive Stop where
  /-- A precise trap: nothing the instruction did stands (19 R321). -/
  | trap (cause : BitVec 8) (addr x : Word)
  /-- A trap taken in state `s`, the frame's PC being `resume`: the instruction counts as complete, or its own rule
  says what stands (19 R324). -/
  | trapIn (s : State) (cause : BitVec 8) (addr x resume : Word)
  /-- A translation miss at an address (06 R116, R117): TRAPX, and whether the access writes or fetches. -/
  | miss (va x : Word) (write fetch : Bool)
  /-- Issue stalls in state `s`: the instruction is executed again (10 R176, 14 R233). -/
  | stall (s : State)
  /-- The instruction waits in state `s` for the answer of the host or a peer that home `h` lies behind; what its port has emitted stands there
  (03 R68, R70). -/
  | ask (s : State) (h : Nat) (load : Bool)
  /-- The model stops. -/
  | refuse (r : Refusal)

/-- The result of a step of an instruction's work. -/
abbrev Res := Except Stop

/-! ## Codes of 11 R199 -/

def cILLEGAL : BitVec 8 := 0x01
def cOPERAND : BitVec 8 := 0x02
def cALIGN : BitVec 8 := 0x03
def cTRANSL : BitVec 8 := 0x04
def cPERM : BitVec 8 := 0x05
def cVAULT : BitVec 8 := 0x06
def cNONLOCAL : BitVec 8 := 0x07
def cTILELIVE : BitVec 8 := 0x08
def cECC : BitVec 8 := 0x09
def cWDOG : BitVec 8 := 0x0A
def cLAYER : BitVec 8 := 0x0D
def cORDCONF : BitVec 8 := 0x0E
def cJOURNAL : BitVec 8 := 0x0F
def cENGINE : BitVec 8 := 0x12
def cBREAK : BitVec 8 := 0x13
def cSYSCALL : BitVec 8 := 0x14
def cPRIV : BitVec 8 := 0x15
def cSTAMP : BitVec 8 := 0x16
def cLINK : BitVec 8 := 0x17
def cTABLE : BitVec 8 := 0x19

/-- OPERAND with a reason code (19 R326). DEDUCED: log entry 19. -/
def operand (addr : Word) (x : Nat) : Stop := .trap cOPERAND addr (BitVec.ofNat 64 x)

/-! ## Checks of an access (01 R18) -/

/-- What an access does (06 R119): `load` is LD and LDU, `store` ST and STF, `probe` every other read and `atomic` every
other write; these two never reach the engine window (14 R248, 13 R224, R227, R228). -/
inductive Kind where
  | load
  | store
  | atomic
  | probe
  deriving DecidableEq, Repr

def Kind.writes : Kind → Bool
  | .load => false
  | .probe => false
  | _ => true

/-- Where a checked access goes: home bytes, or a word of the engine window (01 R25). -/
inductive Place where
  | home (h : Nat)
  | port (off : Nat)
  deriving DecidableEq, Repr, Inhabited

/-- An access that has passed its checks: virtual address, size, place. -/
structure Access where
  va    : Word
  n     : Nat
  place : Place
  deriving DecidableEq, Repr, Inhabited

/-- TRAPX of a TRANSL (06 R119). -/
def translX (reason : Nat) (write fetch cow : Bool) (status : Nat) : Word :=
  BitVec.ofNat 64 (reason + (if write then 2 ^ 8 else 0) + (if fetch then 2 ^ 9 else 0) + (if cow then 2 ^ 10 else 0) + status * 2 ^ 11)

/-- Step 3 for a vault window (01 R15, R18, R20): a granted compute vault; a service vault below 512 KiB in firmware mode. -/
def windowAllowed (s : State) (va : Word) : Bool :=
  let g := windowVault va
  if isCompute g then granted s s.core.ctx g else !s.core.sched.user && windowOff va < Config.svcVaultBytes

/-- Step 3 for the local alias (01 R15). -/
def aliasAllowed (s : State) (va : Word) : Bool := va.toNat < vaultSize s.core.num

/-- Step 4 (01 R16): an 8-byte store to ECW0-ECW3 or EGO, an 8-byte load of ESTAT. DEDUCED: log entry 15. -/
def portAllowed (va : Word) (n : Nat) (k : Kind) : Bool :=
  let off := va.toNat - Config.engineWindow
  match k with
  | .store => n == 8 && off % 8 == 0 && off ≤ 0x20
  | .load => n == 8 && off == 0x28
  | _ => false

/-- The home of an access that the instruction at PC has issued already, or checked before it issued another (03 R53, R67, 12 R215). -/
def issuedHome (s : State) (va : Word) (wr : Bool) : Option Nat :=
  (s.core.sched.checked.find? (fun e => e.1 == va && (e.2.1 || !wr))).map (·.2.2)

/-- Steps 6 to 8 for an address in translated space (01 R18, R23, R24, 06 R118), of an access that has not been issued. -/
def checkPage (s : State) (va : Word) (wr : Bool) : Res Nat :=
  match lookupPage s va.toNat with
  | none => .error (.miss va (translX 1 wr false false 0) wr false)
  | some p =>
    if wr && p.cow then .error (.miss va (translX 1 wr false true 0) wr false)
    else if (if wr then !p.w else !p.r) then .error (.trap cPERM va 0)
    else if !isPopulated (p.phys va.toNat) then .error (.trap cTRANSL va (translX 3 wr false p.cow 0))
    else if isHbm (p.phys va.toNat) && p.il != bandLocal s (p.phys va.toNat) then
      .error (.trap cTRANSL va (translX 4 wr false p.cow 0))
    else .ok (p.phys va.toNat)

/-- The home of an address in translated space. -/
def checkTranslated (s : State) (va : Word) (wr : Bool) : Res Nat :=
  match issuedHome s va wr with
  | some h => .ok h
  | none => checkPage s va wr

/-- The checks of R18 on a scalar or atomic access of n bytes. -/
def checkAccess (s : State) (va : Word) (n : Nat) (k : Kind) : Res Access :=
  match spaceOf va with
  | .reserved => .error (.trap cTRANSL va (translX 2 k.writes false false 0))
  | sp =>
    if va.toNat % n != 0 then .error (.trap cALIGN va 0)
    else match sp with
      | .ownVault => if aliasAllowed s va then .ok ⟨va, n, .home (vaultHome s.core.num va.toNat)⟩ else .error (.trap cVAULT va 0)
      | .window => if windowAllowed s va then .ok ⟨va, n, .home (vaultHome (windowVault va) (windowOff va))⟩ else .error (.trap cVAULT va 0)
      | .engine => if portAllowed va n k then .ok ⟨va, n, .port (va.toNat - Config.engineWindow)⟩ else .error (.trap cENGINE va 0)
      | .translated =>
        match checkTranslated s va k.writes with
        | .ok h => .ok ⟨va, n, .home h⟩
        | .error e => .error e
      | .reserved => .error (.trap cTRANSL va (translX 2 k.writes false false 0))

/-- The checks of several accesses of n bytes, in order. -/
def checkAll (s : State) (n : Nat) (k : Kind) : List Word → Res (List Access)
  | [] => .ok []
  | va :: r =>
    match checkAccess s va n k with
    | .error e => .error e
    | .ok a =>
      match checkAll s n k r with
      | .error e => .error e
      | .ok as => .ok (a :: as)

/-- Addresses of k doublewords from va. -/
def dwAddrs (va : Word) (k : Nat) : List Word := (List.range k).map (fun i => va + BitVec.ofNat 64 (8 * i))

/-- The checks of a tile or vector operand range (01 R17, R18): reserved, an ungranted window, then the first byte
outside the own vault; `write` for a destination. Its first byte's offset in the own vault. A range that starts in the own vault and runs past
its end takes NONLOCAL, whatever lies there (DESIGN CHOICE, log entry 44). DEDUCED: log entry 16. -/
def checkOperandAs (write : Bool) (s : State) (va : Word) (len : Nat) : Res Nat :=
  let g := s.core.num
  let inside := fun (base : Word) (off : Nat) =>
    if off + len ≤ vaultSize g then Except.ok off else Except.error (Stop.trap cNONLOCAL (base + BitVec.ofNat 64 (vaultSize g)) 0)
  match spaceOf va with
  | .reserved => .error (.trap cTRANSL va (translX 2 write false false 0))
  | .ownVault => if aliasAllowed s va then inside 0 va.toNat else .error (.trap cVAULT va 0)
  | .window =>
    if !windowAllowed s va then .error (.trap cVAULT va 0)
    else if windowVault va = g then inside (windowAddr g 0) (windowOff va)
    else .error (.trap cNONLOCAL va 0)
  | _ => .error (.trap cNONLOCAL va 0)

/-- A range that is read. -/
def checkOperand (s : State) (va : Word) (len : Nat) : Res Nat := checkOperandAs false s va len
/-- A range that is written. -/
def checkDest (s : State) (va : Word) (len : Nat) : Res Nat := checkOperandAs true s va len

/-! ## One access at its home -/

/-! ### The way to a home: order at a slice, and the counts of CNTS (02 R32-R34, 03 R53) -/

/-- Does a request of source `src` wait at the slice that homes a (02 R34). -/
def sourceWaits (s : State) (src a : Nat) : Bool := s.waiting.any (fun r => r.src == src && homeSlice s r.addr == homeSlice s a)

/-- Is a request the place of an access that core g performs itself. -/
def heldFor (g : Nat) (r : Req) : Bool := r.src == g && r.op == .hold

/-- Does the slice that homes a take no request of the current core now, or hold an earlier one back (02 R32, R34). -/
def sliceShut (s : State) (a : Nat) : Bool :=
  intakeStopped s a || s.waiting.any (fun r => r.src == s.core.num && r.op != .hold && homeSlice s r.addr == homeSlice s a)

/-- The current core's access takes its place in the conflict queue of its line's bank (02 R32, R33). -/
def State.holdPlace (s : State) (a n : Nat) : State :=
  { s with waiting := s.waiting ++ [{ src := s.core.num, op := .hold, addr := a, size := n, data := 0, stamp := arrivalKey s }] }

/-- No access of core g keeps a place at a slice. -/
def dropHolds (s : State) (g : Nat) : State := { s with waiting := s.waiting.filter (fun r => !heldFor g r) }

/-- The way of an access of the current core to n home bytes: behind what the core has sent before (02 R48, R51), and at a slice behind what reached
it before, locked lines among that, it waits for claims that a recall frees (02 R32-R34, 04 R80, R81). While it waits at a slice it keeps its place
there, and with it the line's lock. -/
def reach (s : State) (a n : Nat) (write : Bool) : State × Bool :=
  if behindSends s a then (s, false)
  else if !isSliced a then settle s a n write
  else match s.waiting.find? (fun r => heldFor s.core.num r && r.addr / 128 == a / 128) with
    | none =>
      if sliceShut s a then (s, false)
      else
        let r := settle s a n write
        if r.2 then r else (r.1.holdPlace a n, false)
    | some k =>
      if lineShut s (s.waiting.takeWhile (fun r => r != k)) a n then (s, false)
      else
        let r := settleAmong (fun c => c.key ≤ k.stamp) s a n write
        if r.2 then (dropHolds r.1 r.1.core.num, true) else r

/-- Posted accesses of the running task whose acknowledgement has not reached the core (03 R53, 13 R226). -/
def storesOut (s : State) : Nat := (s.core.sched.acks.filter (fun e => decide (s.core.csr.here < e.due) && e.owner == s.core.port.owner)).length

/-- Has the stores count of CNTS room for one more (03 R53). -/
def storeRoom (s : State) : Bool := storesOut s < 255

/-- MREADs of the running task that a slice has still to take up: they count as loads (14 R242, 13 R226). A load, a returning atomic, MWATCH and CPIN
wait for their answers, so none of them is outstanding when another instruction issues. -/
def loadsOut (s : State) : Nat :=
  ((s.waiting ++ s.stop).filterMap (fun r => match r.op with
    | .mread m => if m.src = s.core.num && m.owner = s.core.port.owner then some m.id else none
    | _ => none)).eraseDups.length

/-- Has the loads count of CNTS room for k more (03 R53). -/
def loadRoomFor (s : State) (k : Nat) : Bool := loadsOut s + k ≤ 255

/-- Has it room for one more. -/
def loadRoom (s : State) : Bool := loadRoomFor s 1

/-- A posted access to home h that was issued in state `b` is on its way, `nt` for ST.NT: its acknowledgement arrives after the latency that the home
had for it (03 R53, 13 R230). -/
def awaitAckOf (nt : Bool) (b s : State) (h : Nat) : State :=
  let p := homeLatency b h
  let r : Nat × State := if p.lo < p.hi then (p.lo + (freeNext s).1.toNat % (p.hi - p.lo + 1), (freeNext s).2) else (p.lo, s)
  let c := r.2.core
  { r.2 with core := { c with sched := { c.sched with acks := c.sched.acks.filter (fun e => c.csr.here < e.due) ++
    [{ due := c.csr.here + r.1 * cycleLength s c.num, home := if nt then none else some h, owner := c.port.owner }] } } }

/-- A posted access other than ST.NT. -/
def awaitAck (b s : State) (h : Nat) : State := awaitAckOf false b s h

/-- The address of the aligned doubleword that holds va: TRAPA of an ECC (13 R219). -/
def wordAddr (va : Word) : Word := va &&& ~~~7

/-- Is a home beyond a host or peer link. -/
def isFar (h : Nat) : Bool := isHost h || isPeer h

/-- Does a scope's set of homes hold home h (03 R56). -/
def inScope (s : State) (scope : BitVec 2) (h : Nat) : Bool :=
  if scope = 0 then isVaultHome h && clusterOf ((h - Config.vaultKey) / Config.vaultBytes) == clusterOf s.core.num
  else scope = 2 || !isFar h

/-- Is a posted access to a home of a scope outstanding; no fence waits for ST.NT (03 R60, R65, 13 R226). -/
def scopeOut (s : State) (scope : BitVec 2) : Bool :=
  s.core.sched.acks.any (fun e => decide (s.core.csr.here < e.due) && e.owner == s.core.port.owner && e.home.any (inScope s scope))

/-- Is a write of the running task to a peer not yet performed there (03 R70). -/
def peerOut (s : State) : Bool :=
  s.core.sched.acks.any (fun e => decide (s.core.csr.here < e.due) && e.owner == s.core.port.owner && e.home.any isPeer)

/-! ### Instructions of several accesses (03 R53, R67) -/

/-- A value that the instruction at PC has been given, as it is kept for when it goes on. -/
def keptValue (s : State) (v : Nat) : Resp :=
  { core := s.core.num, ctx := s.core.ctx, owner := s.core.port.owner, value := some (BitVec.ofNat 64 v), refused := false, bad := false }

/-- The values that the instruction has been given, and the homes of its accesses, stand for when it goes on. -/
def State.keepIssued (s : State) (vs : List Nat) (as : List (Word × Bool × Nat)) : State :=
  { s with core := { s.core with sched := { s.core.sched with returns := vs.map (keptValue s) ++ s.core.sched.returns, checked := as ++ s.core.sched.checked } } }

/-- An access as `issuedHome` looks for it. -/
def Access.seen (wr : Bool) (ac : Access) : Word × Bool × Nat :=
  (ac.va, wr, match ac.place with
    | .home h => h
    | .port _ => 0)

/-- An instruction that has issued accesses and stops before its end keeps their values: it issues none of them again (03 R53). One that has issued
none is executed again from its start. -/
def Stop.issued (vs : List Nat) (as : List (Word × Bool × Nat)) : Stop → Stop
  | .stall t => .stall (if vs.isEmpty && t.core.sched.returns.isEmpty then t else t.keepIssued vs as)
  | .ask t h l => .ask (t.keepIssued vs as) h l
  | e => e

/-- A value that the instruction has been given already is used: n bytes at home h (03 R53, R67). A refusal is PERM, and poison ECC. An atomic without
a value in its answer is performed on what the far memory holds. -/
def useValue (s : State) (va : Word) (h n : Nat) (r : Resp) (rest : List Resp) : Res (State × Nat) :=
  if r.refused then .error (.trap cPERM va 0)
  else if r.bad then .error (.trap cECC (wordAddr va) 0)
  else .ok ({ s with core := { s.core with sched := { s.core.sched with returns := rest } } },
    match r.value with
    | some v => v.toNat % 2 ^ (8 * n)
    | none => homeRead s h n)

/-- The far side's answer to a returning access, an AtomicOp where `op` says so (03 R68, R70, R71): the next answer that has arrived; with none the
instruction waits, once the loads count has room (03 R53). The answer of a load holds the value that the far memory had when it reached the port. A
link that is down raises LINK (21 R360). DESIGN CHOICE: log entry 34. -/
def farAnswer (load : Bool) (op : Option AtomicOp) (s : State) (va : Word) (h n : Nat) : Res (State × Nat) :=
  match farFault s h with
  | some f => .error (.trap f va 0)
  | none =>
    match s.core.sched.returns with
    | [] =>
      if !loadRoom s || behindSends s h then .error (.stall s)
      else .error (.ask ((emitAs op false s s.core.ctx false h n false).keepIssued [] [(va, !load, h)]) h load)
    | r :: rest => useValue s va h n r rest

/-- A load of a checked access: the value, and the state it leaves. `alloc` is false for LD.NT (13 R220). -/
def loadWith (alloc : Bool) (s : State) (ac : Access) : Res (State × Nat) :=
  match ac.place with
  | .port _ => .ok (s, (estat s.core.port).toNat)
  | .home h =>
    let view := fun (t : State) (v : Nat) =>
      if isOrdered t && isShared t h then
        viewWord t ac.va.toNat (v * 2 ^ (8 * (ac.va.toNat % 8))) / 2 ^ (8 * (ac.va.toNat % 8)) % 2 ^ (8 * ac.n)
      else v
    if isFar h then
      match farAnswer true none s ac.va h ac.n with
      | .ok (s1, v) => .ok (s1.touchTlb ac.va.toNat, view s1 v)
      | .error e => .error e
    else match s.core.sched.returns with
    | k :: rest => useValue s ac.va h ac.n k rest
    | [] =>
      if !loadRoom s then .error (.stall s)
      else
        let r := reach s h ac.n false
        if !r.2 then .error (.stall r.1)
        else match poisonIn r.1.poison h ac.n with
          | some _ => .error (.trap cECC (wordAddr ac.va) 0)
          | none => .ok ((loadLine r.1 h ac.n alloc).touchTlb ac.va.toNat, view r.1 (homeRead r.1 h ac.n))

/-- An ordinary load. -/
def loadAt (s : State) (ac : Access) : Res (State × Nat) := loadWith true s ac

/-- Loads in order. -/
def loadList (s : State) : List Access → Res (State × List Word)
  | [] => .ok (s, [])
  | a :: r =>
    match loadAt s a with
    | .error e => .error e
    | .ok (s1, v) =>
      match loadList s1 r with
      | .error e => .error (e.issued [v] [])
      | .ok (s2, vs) => .ok (s2, BitVec.ofNat 64 v :: vs)

/-- Must an instruction that makes k loads wait for room in the loads count: none has been issued yet (03 R53, 12 R215). -/
def lacksRoom (s : State) (k : Nat) : Bool := s.core.sched.returns.isEmpty && !loadRoomFor s k

/-- k doublewords from va, all checked as loads and then read, once the loads count has room for `n` of them. -/
def readDwords (n : Nat) (s : State) (va : Word) (k : Nat) : Res (State × List Word) :=
  match checkAll s 8 .probe (dwAddrs va k) with
  | .error e => .error e
  | .ok as =>
    if lacksRoom s n then .error (.stall s)
    else match loadList s as with
      | .error e => .error (e.issued [] (as.map (Access.seen false)))
      | .ok r => .ok r

/-- The loads of a task's instruction: all of them count (14 R232, 12 R217, 03 R53). -/
def loadWords (s : State) (va : Word) (k : Nat) : Res (State × List Word) := readDwords k s va k

/-- The image of a table: homes or cores read it, none of it as loads of the task's own count (07 R127, 18 R310; DEDUCED, log entry 27). -/
def readImage (s : State) (va : Word) (k : Nat) : Res (State × List Word) := readDwords 0 s va k

/-- An instruction that has loaded doublewords from va in state `s` and stops before its end: it loads none of them again (03 R53). -/
def Stop.afterWords (s : State) (va : Word) (ws : List Word) (e : Stop) : Stop :=
  e.issued (ws.map (·.toNat)) (match checkAll s 8 .probe (dwAddrs va ws.length) with
    | .ok as => as.map (Access.seen false)
    | .error _ => [])

/-- A report to the control complex of a posted access that the far side lost or refused (21 R360, 03 R71). -/
def reportLost (s : State) (cause : BitVec 8) (va : Word) : State :=
  { s with out := { s.out with reports := s.out.reports ++ [(cause.toNat, va)] } }

/-- A write of the current core to the host or a peer is emitted on its link, and a host's link is noted for the task's next SYS release; a posted
atomic is an AtomicOp, and a release sets a peer write's release bit (03 R68, R70, R71). -/
def noteFarWrite (op : Option AtomicOp) (s : State) (h n : Nat) (relaxed : Bool) : State :=
  let t := emitAs op (!relaxed) s s.core.ctx true h n relaxed
  if isHost h then { t with core := { t.core with sched := { t.core.sched with wrote := t.core.sched.wrote ||| (1 <<< hostLink s h) } } } else t

/-- A write that is no atomic. -/
def noteHostWrite (s : State) (h n : Nat) (relaxed : Bool) : State := noteFarWrite none s h n relaxed

/-- A write performed at home bytes that no claim holds back. -/
def performWrite (s : State) (h n v : Nat) (through : Bool) : State := homeWrite (storeLine s h n through) h n v

/-- A store into the engine window (04 R74, R77; journaled in an ordered launch, 08 R138). -/
def portStore (s : State) (off : Nat) (v : Word) : Res State :=
  let p := s.core.port
  let put := fun (q : Port) => Except.ok { s with core := { s.core with port := q } }
  if off = 0 then put { p with ecw0 := v }
  else if off = 8 then put { p with ecw1 := v }
  else if off = 16 then put { p with ecw2 := v }
  else if off = 24 then put { p with ecw3 := v }
  else if isOrdered s then
    match jcommand s v with
    | some s1 => .ok s1
    | none => .error (.trap cJOURNAL egoAddr (BitVec.ofNat 64 (jcount s s.core.num)))
  else match acceptGo s v with
    | .ok s1 => .ok s1
    | .error (.fault c a x) => .error (.trap c a x)
    | .error .wait => .error (.stall (askRecord s (goCmd s v)))

/-- A store of a checked access; `through` for ST.NT, `rel` for a release (13 R221, 08 R138, 04 R80, 03 R68). -/
def storeWith (through rel : Bool) (s : State) (ac : Access) (v : Nat) : Res State :=
  match ac.place with
  | .port off => if storeRoom s then portStore s off (BitVec.ofNat 64 v) else .error (.stall s)
  | .home h =>
    if isOrdered s && isShared s h then
      match jstore s ac.va.toNat ac.n v with
      | some s1 => .ok (s1.touchTlb ac.va.toNat)
      | none => .error (.trap cJOURNAL ac.va (BitVec.ofNat 64 (jcount s s.core.num)))
    else match farFault s h with
      | some f => .ok (reportLost s f ac.va)
      | none =>
        if !storeRoom s then .error (.stall s)
        else
          let r := reach s h ac.n true
          if !r.2 then .error (.stall r.1)
          else .ok (awaitAckOf through s ((noteHostWrite (performWrite r.1 h ac.n v through) h ac.n (!rel)).touchTlb ac.va.toNat) h)

/-- An ordinary store. -/
def storeAt (s : State) (ac : Access) (v : Nat) : Res State := storeWith false false s ac v

/-- A read-modify-write at a home: the old value, and what `f` writes (03 R61); poison is for the caller. -/
def atomicAt (s : State) (ac : Access) (h : Nat) (f : Nat → Option Nat) : Res (State × Nat) :=
  let r := reach s h ac.n true
  if !r.2 then .error (.stall r.1)
  else
    let s0 := loadLine r.1 h ac.n true
    let old := homeRead s0 h ac.n
    let s1 := match f old with
      | some v => performWrite s0 h ac.n v false
      | none => s0
    .ok (s1.touchTlb ac.va.toNat, old)

/-! ## Trap frames (19 R324, R325) -/

/-- The home address of trap frame n of core g. -/
def frameHome (g n : Nat) : Nat := vaultHome g (128 * n)

/-- A frame of context cx's core g taken over for a trap or upcall: KIND, CAUSE, PC and XST (19 R320); `again` where the instruction that it parked at
has not completed, so that no BREAK of it is due (19 R331). -/
def takeOver (again : Bool) (s : State) (cx g n : Nat) (up : Bool) (cause : BitVec 8) (pc : Word) (xst : Nat) : State :=
  let h := ctxVault s cx g (128 * n)
  let w := homeRead s (h + 0x70) 8
  let y := homeRead s (h + 0x78) 8
  let w' := w - w / 2 ^ 24 % 256 * 2 ^ 24 - w / 2 ^ 13 % 4 * 2 ^ 13 + cause.toNat * 2 ^ 24 + (if up then 2 else 1) * 2 ^ 13
  let s1 := homeWrite (homeWrite (homeWrite s (h + 8) 8 pc.toNat) (h + 0x70) 8 w') (h + 0x78) 8 (y / 8 * 8 + xst)
  updTask s1 cx g (fun c => { c with sched := { c.sched with frames := c.sched.frames.map (fun e => if e.1 = n && again then (n, e.2.1, e.2.2.1, e.2.2.2.1, none) else e) } })

/-- KIND of frame n of core g. -/
def frameKind (s : State) (g n : Nat) : Nat := homeRead s (frameHome g n + 0x70) 8 / 2 ^ 13 % 4

/-- The lowest frame of core g whose KIND is 0, among those from n on. -/
def freeFrom (s : State) (g : Nat) : Nat → Nat → Option Nat
  | 0, _ => none
  | k + 1, n => if frameKind s g n = 0 then some n else freeFrom s g k (n + 1)

/-- The lowest-numbered free frame of core g. -/
def freeFrameOf (s : State) (g : Nat) : Option Nat := freeFrom s g 32 0

/-- The doubleword at 0x70 of a frame. -/
def frameWord70 (t : TaskState) (kind : BitVec 2) (cause : BitVec 8) : Word :=
  BitVec.ofNat 64 (t.id.tid.toNat * 2 ^ 32 + cause.toNat * 2 ^ 24 + t.regs.fflags.toNat * 2 ^ 19 + t.regs.frm.toNat * 2 ^ 17 +
    (if t.regs.c then 2 ^ 16 else 0) + (if t.regs.t then 2 ^ 15 else 0) + kind.toNat * 2 ^ 13 + t.regs.vl.toNat)

/-- The doubleword at 0x78 of a frame. -/
def frameWord78 (t : TaskState) (xst : BitVec 3) : Word :=
  BitVec.ofNat 64 (t.id.coord.toNat * 2 ^ 16 + t.id.stage.toNat * 2 ^ 12 + t.id.slot.toNat * 2 ^ 6 + xst.toNat)

/-- The 16 doublewords of a frame (19 R324). -/
def frameWords (t : TaskState) (kind : BitVec 2) (cause : BitVec 8) (xst : BitVec 3) : List Word :=
  let p := t.regs.p.toList
  [t.regs.a, t.regs.pc] ++ p.map (·.addr) ++
    (List.range 4).map (fun i => BitVec.ofNat 64 ((p.getD (2 * i) default).stride.toNat + (p.getD (2 * i + 1) default).stride.toNat * 2 ^ 32)) ++
    [frameWord70 t kind cause, frameWord78 t xst]

/-- The little-endian value of doublewords. -/
def wordsNat : List Word → Nat
  | [] => 0
  | w :: r => w.toNat + wordsNat r * 2 ^ 64

/-- A task's state written into frame n of core g, with the message frame it holds (19 R325, 10 R178). -/
def writeFrame (s : State) (g n : Nat) (t : TaskState) (kind : BitVec 2) (cause : BitVec 8) (xst : BitVec 3) : State :=
  let s1 := homeWrite s (frameHome g n) 128 (wordsNat (frameWords t kind cause xst))
  updCore s1 g (fun c => { c with sched := { c.sched with frames := (n, t.msg, t.owner, t.wrote, t.stepped) :: c.sched.frames.filter (fun e => e.1 != n) } })

/-- The launch sequence a frame's SLOT names: that of the live launch, 0 for slot 63 (19 R324). -/
def slotSeq (s : State) (cx slot : Nat) : BitVec 24 :=
  match launchOf s cx slot with
  | some l => l.seq
  | none => 0

/-- The state that frame n of core g holds (19 R324), with the message frame and number of its task. -/
def readFrame (s : State) (g n : Nat) : TaskState :=
  let h := frameHome g n
  let w := homeRead s (h + 0x70) 8
  let y := homeRead s (h + 0x78) 8
  let c := coreOf s g
  { regs := { a := homeWord s h, pc := homeWord s (h + 8),
              p := Vector.ofFn (fun i : Fin 8 => ⟨homeWord s (h + 0x10 + 8 * i.val), BitVec.ofNat 32 (homeRead s (h + 0x50 + 4 * i.val) 4)⟩),
              t := w.testBit 15, c := w.testBit 16, vl := BitVec.ofNat 13 w, frm := BitVec.ofNat 2 (w / 2 ^ 17),
              fflags := BitVec.ofNat 5 (w / 2 ^ 19) },
    id := { tid := BitVec.ofNat 32 (w / 2 ^ 32), coord := BitVec.ofNat 48 (y / 2 ^ 16), stage := BitVec.ofNat 4 (y / 2 ^ 12),
            slot := BitVec.ofNat 6 (y / 2 ^ 6), seq := slotSeq s c.ctx (y / 2 ^ 6 % 64) },
    msg := (c.sched.frames.find? (fun e => e.1 == n)).bind (·.2.1),
    owner := ((c.sched.frames.find? (fun e => e.1 == n)).map (·.2.2.1)).getD 0,
    wrote := ((c.sched.frames.find? (fun e => e.1 == n)).map (·.2.2.2.1)).getD 0,
    stepped := (c.sched.frames.find? (fun e => e.1 == n)).bind (·.2.2.2.2) }

/-- KIND := 0 in frame n of core g. -/
def releaseFrame (s : State) (g n : Nat) : State :=
  let w := homeRead s (frameHome g n + 0x70) 8
  let s1 := homeWrite s (frameHome g n + 0x70) 8 (w - w / 2 ^ 13 % 4 * 2 ^ 13)
  updCore s1 g (fun c => { c with sched := { c.sched with frames := c.sched.frames.filter (fun e => e.1 != n) } })

/-- The running task's state, to resume at an address. -/
def taskState (s : State) (pc : Word) : TaskState := ⟨{ s.core.regs with pc := pc }, s.core.id, s.core.sched.msg, s.core.port.owner, s.core.sched.wrote, s.core.sched.stepped⟩

/-- A STEP or table load whose effect is accepted counts as complete when its task leaves before it ran again (07 R135,
R136); one that still waits is given up. -/
def carryThrough (s : State) : State :=
  let s1 := updCtx s s.core.ctx (fun x => { x with stepReq := x.stepReq.filter (fun g => g != s.core.num) })
  let done := s.core.sched.stepDone || s.core.sched.tableDone == some none
  let s2 := if done then s1.advance else s1
  { s2 with core := { s2.core with sched := { s2.core.sched with stepDone := false, tableDone := none } } }

/-- Fills of core g that wait without a frame, for the task that runs there, are given up. -/
def dropStalledFills (s : State) : State :=
  updCtx s s.core.ctx (fun x => { x with fills := x.fills.filter (fun f => !(f.core == s.core.num && f.frame == .none && f.cmd.isNone)) })

/-- The current core runs no task (10 R176); answers and notices it waited for are dropped, and its place at a slice. -/
def leaveCore (s0 : State) : State :=
  let s := dropHolds (dropStalledFills s0) s0.core.num
  { s with core := { s.core with sched := { s.core.sched with running := false, msg := none, wrote := 0, stepped := none, taskEntry := false, returns := [], asked := false, askHome := none, checked := [], again := none, first := none },
                                 sluice := { s.core.sluice with win := [], pos := 0, plain := false } } }

/-- The instruction at PC completes as the task leaves its core; while the core steps a user task, its BREAK waits for the task's return: the
next boundary that the task reaches (19 R331; DEDUCED, log entry 28). -/
def leaveStepped (s : State) : State :=
  if s.core.sched.user && s.core.csr.dbgStep then { s with core := { s.core with sched := { s.core.sched with stepped := some s.core.regs.pc } } } else s

/-- The task's state put into the lowest free frame, or kept for the device-memory queue (10 R177, 19 R325). -/
def suspend (s : State) (pc : Word) (kind : BitVec 2) (cause : BitVec 8) (xst : BitVec 3) : State × FrameRef :=
  match freeFrameOf s s.core.num with
  | some n => (writeFrame s s.core.num n (taskState s pc) kind cause xst, .frame n)
  | none => (s, .away (taskState s pc) kind cause xst)

/-- TAKING AN EXCEPTION (19 R320, R321, R325): the running task's state goes into a frame that resumes at `resume`,
the task leaves its core, and the handler's record is queued: ahead of level 0 for a trap, at its tail for an
upcall. The handler starts when the core selects it. -/
def takeTrap (s : State) (up : Bool) (i : TrapInfo) (resume : Word) : State :=
  let xst : BitVec 3 := if i.cause = cTRANSL && bits i.x 7 0 = 5 then BitVec.ofNat 3 (bits i.x 13 11) else 0
  let (s1, f) := suspend s resume (if up then 2 else 1) i.cause xst
  let e : QEntry := { level := 0, work := .handler up i f, entered := 0, aged := false }
  let s2 := if up then enqueue s1 s.core.ctx s.core.num e else enqueueFront s1 s.core.ctx s.core.num e
  leaveCore s2

/-- The last attempt of the instruction at PC stalled. -/
def State.markStalled (s : State) : State := { s with core := { s.core with sched := { s.core.sched with stalled := true } } }

/-- The fill that core g waits for without a frame (06 R117). -/
def stalledFill (x : Ctx) (g : Nat) : Option Fill := x.fills.find? (fun f => f.core == g && f.frame == .none && f.cmd.isNone)

/-- A translation miss of the running task (06 R116, R117): an upcall with a frame and a request to the service
core; with no frame free the core stalls until its notice. -/
def takeMiss (s : State) (va x : Word) (write fetch : Bool) : State :=
  let g := s.core.num
  let cx := s.core.ctx
  let ask := fun (t : State) (f : FrameRef) =>
    let t1 := updCtx t cx (fun c => { c with fills := c.fills ++ [{ core := g, va := va, write := write, fetch := fetch, cow := x.getLsbD 10, frame := f,
                                                                    status := none, told := false, host := false, since := t.clock, cmd := none }] })
    { t1 with pending := t1.pending ++ [(g, .translationMissMessage)] }
  match freeFrameOf s g with
  | some n => takeTrap (ask s (.frame n)) true { cause := cTRANSL, addr := va, pc := s.core.regs.pc, x := x } s.core.regs.pc
  | none => (ask s .none).markStalled

/-- A core that stalls without a frame has its notice: the access is tried again, or TRANSL is raised with the status (06 R117, R119). -/
def takeNotice (s : State) (f : Fill) : State :=
  let st := f.status.getD 0
  if st = 0 then dropStalledFills s
  else takeTrap (dropStalledFills s) false { cause := cTRANSL, addr := f.va, pc := s.core.regs.pc, x := translX 5 f.write f.fetch f.cow st } s.core.regs.pc

/-- What executing an instruction or device step answers. -/
abbrev Out := Host.Outcome State Fault Refusal

/-- The step by which the far side of home h answers the current core with what its memory holds (03 R68, R70). DESIGN CHOICE: log entry 34. -/
def farReply (s : State) (h : Nat) : Instr :=
  let r : Resp := { core := s.core.num, ctx := s.core.ctx, owner := s.core.port.owner, value := none, refused := false, bad := false }
  if isHost h then .hostCompletion (hostLink s h) r else .peerAcknowledgement (peerLink h) r

/-- The current core waits for an answer of the far side of home h. -/
def awaitAnswer (s : State) (h : Nat) (load : Bool) : State :=
  { s with core := { s.core with sched := { s.core.sched with asked := true, askHome := if load then some h else none, stalled := true } },
           pending := s.pending ++ [(s.core.num, farReply s h)] }

/-- An instruction's result as an outcome: every stop acts on the state before the instruction, unless it carries
its own. -/
def finish (s : State) (r : Res State) : Out :=
  match r with
  | .ok s' => .next s'
  | .error (.trap c a x) => .next (takeTrap s false ⟨c, a, s.core.regs.pc, x⟩ s.core.regs.pc)
  | .error (.trapIn s' c a x resume) => .next (takeTrap s' false ⟨c, a, s.core.regs.pc, x⟩ resume)
  | .error (.miss va x w f) => .next (takeMiss s va x w f)
  | .error (.stall s') => .next s'.markStalled
  | .error (.ask s' h load) => .next (awaitAnswer s' h load)
  | .error (.refuse r) => .refused r

/-- A message frame given back (10 R178). -/
def releaseMsg (s : State) (m : Option Nat) : State :=
  match m with
  | some n => { s with core := { s.core with sched := { s.core.sched with msgHeld := s.core.sched.msgHeld &&& ~~~((1 : BitVec 64) <<< n) } } }
  | none => s

/-- A task's state loaded into the core (10 R171, 19 R327); the watchdog count starts and the own limit clears
(19 R336). -/
def loadTask (s : State) (t : TaskState) : State :=
  { s with core := { s.core with regs := t.regs, id := t.id, port := { s.core.port with owner := t.owner },
                                 sched := { s.core.sched with running := true, msg := t.msg, wrote := t.wrote, stepped := t.stepped, wdCount := 0, wdOwn := 0, mwaited := 0 } } }

/-- RETURNING FROM AN EXCEPTION (19 R327): the frame at a local-alias address is restored and freed; the state it
replaces is discarded, its message frame released. -/
def returnFrom (s : State) (addr : Word) : Res State :=
  if 4096 ≤ addr.toNat || addr.toNat % 128 != 0 then .error (operand addr 0x50)
  else
    let g := s.core.num
    let n := addr.toNat / 128
    let k := frameKind s g n
    if k != 1 && k != 2 then .error (operand addr 0x51)
    else
      let t := readFrame s g n
      let s1 := releaseMsg s s.core.sched.msg
      let s2 := releaseFrame s1 g n
      let s3 := loadTask s2 t
      .ok { s3 with core := { s3.core with sluice := { s3.core.sluice with armed := s3.core.sluice.skip, plain := false, win := [], pos := 0 },
                                           sched := { s3.core.sched with taskEntry := false } } }

/-- A firmware-only instruction (11 R196, 19 R332): PRIV with the word in user mode. -/
def privileged (s : State) (w : W32) (csr : BitVec 12) : Res Unit :=
  if s.core.sched.user then .error (.trap cPRIV 0 (BitVec.ofNat 64 (w.toNat * 2 ^ 32 + csr.toNat))) else .ok ()

end Sys2Proof.Machine
end

