-- ==== Sys2Proof/Machine/Operands.lean ====
section
/-! DEFINITION. The operand forms: the M-format effective address and pointer update, loaded operands, element
types of the V format, own-vault operands (11 R189, R190, 12 R201, R215). -/

namespace Sys2Proof.Machine

/-- Bytes of a size code (11 R189). -/
def sizeBytes (sz : BitVec 2) : Nat := 2 ^ sz.toNat

/-- The effective address (11 R190). -/
def effAddr (s : State) (m : MOp) : Word :=
  let p := s.ptr m.p
  match m.am.toNat with
  | 2 => p.addr - sx p.stride
  | 3 => p.addr + sx m.disp * BitVec.ofNat 64 (sizeBytes m.sz)
  | _ => p.addr

/-- The pointer's address after the access (11 R190). -/
def nextAddr (s : State) (m : MOp) : Word :=
  let p := s.ptr m.p
  match m.am.toNat with
  | 1 => p.addr + sx p.stride
  | 2 => p.addr - sx p.stride
  | _ => p.addr

/-- The pointer update of AM 01 and 10 (11 R190). -/
def movePtr (s : State) (m : MOp) (v : Word) : State := s.setAddr m.p v

/-- An M-format load: its checks, the loaded bytes, and the state with the pointer updated and PC advanced (11 R190,
12 R201, 13 R219). -/
def loadOperand (s : State) (m : MOp) (k : Kind) : Res (State × Nat) :=
  match checkAccess s (effAddr s m) (sizeBytes m.sz) k with
  | .error e => .error e
  | .ok ac =>
    match loadAt s ac with
    | .error e => .error e
    | .ok (s1, v) => .ok ((movePtr s1 m (nextAddr s m)).advance, v)

/-- The loaded bytes sign-extended (12 R202). -/
def operandS (m : MOp) (v : Nat) : Word := BitVec.ofInt 64 (intVal (8 * sizeBytes m.sz) v)
where
  /-- Two's complement value of w bits. -/
  intVal (w v : Nat) : Int := if v < 2 ^ (w - 1) then v else (v : Int) - 2 ^ w

/-- The loaded bytes zero-extended (12 R202). -/
def operandZ (v : Nat) : Word := BitVec.ofNat 64 v

/-- A floating operand: FP64, or FP32 converted exactly, with whether it is signalling in its own format (12 R204, R205). -/
def operandF (m : MOp) (v : Nat) : Num := if m.sz = 2 then fp32.decode v else fp64.decode v

/-- Bytes of an element type (12 R215). -/
def tyBytes (ty : BitVec 3) : Nat := if ty = 1 || ty = 4 then 8 else if ty = 2 then 2 else 4

/-- A pointer advanced by its stride when a bit is set (12 R215). -/
def bumpIf (b : Bool) (s : State) (i : BitVec 3) : State :=
  if b then s.setAddr i ((s.ptr i).addr + sx (s.ptr i).stride) else s

/-- Reads bytes of the own vault at an offset (16 R265), the claims on them settled first. -/
def vaultRead (s : State) (off n : Nat) : Nat := homeRead s (vaultHome s.core.num off) n

/-- Writes bytes of the own vault at an offset (16 R265). -/
def vaultWrite (s : State) (off n v : Nat) : State := homeWrite s (vaultHome s.core.num off) n v

/-- An own-vault range brought past every claim on it (04 R80, 16 R265); issue stalls while one must wait. -/
def vaultSettle (s : State) (off n : Nat) (write : Bool) : Res State :=
  if n = 0 then .ok s
  else
    let r := settle s (vaultHome s.core.num off) n write
    if r.2 then .ok r.1 else .error (.stall r.1)

/-- n bytes of the own vault named va, at an offset; a poisoned word raises ECC at its own address (02 R40). -/
def vaultFetch (s : State) (va : Word) (off n : Nat) : Res (State × Nat) :=
  match vaultSettle s off n false with
  | .error e => .error e
  | .ok t =>
    let h := vaultHome s.core.num off
    match poisonIn t.poison h n with
    | some w => .error (.trap cECC (wordAddr (va + BitVec.ofNat 64 (8 * w) - BitVec.ofNat 64 h)) 0)
    | none => .ok (t, homeRead t h n)

end Sys2Proof.Machine
end

