-- ==== Sys2Proof/Machine/Select.lean ====
section
/-! DEFINITION. Where waiting work returns to the run queues, which entry a free core selects, how each kind of work
starts, and what an unhandled trap does (10 R169-R181, 19 R320-R325). -/

namespace Sys2Proof.Machine

/-! ## Halting a context -/

/-- The home of an entry of a ring in a host's memory (01 R29): the function's link names the host where two are attached. -/
def hostRingHome (s : State) (link base i : Nat) : Nat :=
  Config.hostBase + (if bonded s then (base + 64 * i) % 2 ^ 45 else link * 2 ^ 44 + (base + 64 * i) % 2 ^ 44)

/-- Has a function's message queue no free entry: one stays unused between head and tail (21 R353; DESIGN CHOICE, log entry 44). -/
def HostFn.mqFull (f : HostFn) : Bool := f.mqSize == 0 || (f.mqHead + 1) % f.mqSize == f.mqTail

/-- Changes the function of a context. -/
def updFn (s : State) (cx : Nat) (f : HostFn → HostFn) : State :=
  { s with out := { s.out with fns := s.out.fns.map (fun (k : HostFn) => if k.ctx = cx then f k else k) } }

/-- The function bound to a context. -/
def fnOf (s : State) (cx : Nat) : Option HostFn := s.out.fns.find? (fun f => f.ctx == cx)

/-- A frame's doublewords as a number. -/
def frameNat (ws : List Word) : Nat := ws.foldr (fun w n => w.toNat + n * 2 ^ 64) 0

/-- A frame written into the function's message queue as a SYS release, and the head advanced (21 R353, 03 R68). On a link that is down it is
lost and reported (21 R360). -/
def writeMq (s : State) (f : HostFn) (ws : List Word) : State :=
  let h := hostRingHome s f.link f.mqBase f.mqHead
  let s1 := updFn s f.ctx (fun k => { k with mqHead := (k.mqHead + 1) % k.mqSize })
  match farFault s h with
  | some c => reportLost s1 c (BitVec.ofNat 64 h)
  | none => emit (homeWrite s1 h 64 (frameNat ws)) f.ctx true h 64 false

/-- A 64-byte frame from the control complex for the message queue of a context's function: HANDLER 0, SRC 0xFFFF,
then the payload's doublewords; it waits while the queue is full (21 R353, 10 R178). -/
def hostFrame (s : State) (cx : Nat) (payload : List Word) : State :=
  let words := [0, BitVec.ofNat 64 (Config.hostSrc * 2 ^ 32 + 48)] ++ (payload ++ List.replicate 6 0).take 6
  match fnOf s cx with
  | none => s
  | some f => if f.mqFull || !f.mqWaits.isEmpty then updFn s cx (fun k => { k with mqWaits := k.mqWaits ++ [words] }) else writeMq s f words

/-- A halt request to every core of a context's partition (10 R184 step 1). -/
def requestHalt (s : State) (cx : Nat) : State :=
  match ctxOf s cx with
  | none => s
  | some x =>
    if x.running then
      let s1 := updCtx s cx (fun x => { x with running := false })
      { s1 with pending := s1.pending ++ (partCores x).map (fun g => (g, Instr.coreHalt)) }
    else s

/-- The 48-byte record of an unhandled trap or upcall of core g (19 R323). -/
def unhandled (s : State) (g : Nat) (i : TrapInfo) : State :=
  let cx := (coreOf s g).ctx
  requestHalt (hostFrame s cx [BitVec.ofNat 64 (g * 2 ^ 32 + i.cause.toNat), i.addr, i.pc, i.x]) cx

/-! ## Return from the overflow ring and the device-memory queue (10 R173) -/

/-- The lowest free message frame of a core: which of the free ones takes a message the manual leaves open (10 R178; DESIGN CHOICE, log entry 44). -/
def freeMsgFrame (c : Core) : Option Nat := (List.range 64).find? (fun n => !c.sched.msgHeld.getLsbD n)

/-- Vault offset of message frame n (01 R22). -/
def msgOffset (n : Nat) : Nat := 0x1000 + 64 * n

/-- Little-endian value of a list of bytes. -/
def bytesNat : List Byte → Nat
  | [] => 0
  | b :: r => b.toNat + bytesNat r * 256

/-- A message written into frame n of core g, and the record of its handler (10 R171, R178). -/
def landMessage (s : State) (g n : Nat) (handler : Word) (src : Nat) (payload : List Byte) : State × Rec :=
  let full := (payload ++ List.replicate 48 (0 : Byte)).take 48
  let h := vaultHome g (msgOffset n)
  let v := handler.toNat + (src * 2 ^ 32 + payload.length) * 2 ^ 64 + bytesNat full * 2 ^ 128
  let s1 := homeWrite s h 64 v
  let s2 := updCore s1 g (fun c => { c with sched := { c.sched with msgHeld := c.sched.msgHeld ||| ((1 : BitVec 64) <<< n) } })
  let r := mkRec handler (BitVec.ofNat 64 (bytesNat (full.take 8))) (BitVec.ofNat 64 (msgOffset n)) (BitVec.ofNat 64 (63 * 2 ^ 6 + 1)) 0
  (s2, { r with msg := some n })

/-- Ring entries move to the on-core queue in the order they left, each level while it has room. -/
def ringToQueue : List QEntry → List QEntry → List QEntry × List QEntry
  | q, [] => (q, [])
  | q, e :: r =>
    if atLevel q e.level < 32 then ringToQueue (q ++ [{ e with slot := none }]) r
    else
      let t := ringToQueue q r
      (t.1, e :: t.2)

/-- An entry of the device-memory queue as the on-core queue takes it: a message needs a message frame. -/
def takeAway (s : State) (g : Nat) (e : QEntry) : Option (State × QEntry) :=
  match e.work with
  | .message h src p =>
    match freeMsgFrame (coreOf s g) with
    | none => none
    | some n =>
      let r := landMessage s g n h src p
      some (r.1, { e with work := .start r.2 })
  | _ => some (s, e)

/-- Entries of the device-memory queue for core g move to its queues in their order; a level that cannot take one
keeps those behind it (`shut`). What stays is given back. -/
def awayToCore (g : Nat) : State → List Nat → List (Nat × QEntry) → State × List (Nat × QEntry)
  | s, _, [] => (s, [])
  | s, shut, e :: r =>
    let keep := fun (_ : Unit) =>
      let t := awayToCore g s (e.2.level :: shut) r
      (t.1, e :: t.2)
    if e.1 != g then
      let t := awayToCore g s shut r
      (t.1, e :: t.2)
    else if shut.contains e.2.level then keep ()
    else
      let c := coreOf s g
      let onCore := atLevel c.sched.ring e.2.level = 0 && atLevel c.sched.queue e.2.level < 32
      if !onCore && 128 ≤ c.sched.ring.length then keep ()
      else match takeAway s g e.2 with
        | none => keep ()
        | some (s1, q) =>
          let s2 := if onCore then updCore s1 g (fun c => { c with sched := { c.sched with queue := c.sched.queue ++ [q] } }) else ringPush s1 g q
          awayToCore g s2 shut r

/-- Entries for cluster cl's shared queue return while it has room (10 R174). -/
def awayToShared (cl : Nat) : State → List (Nat × QEntry) → State × List (Nat × QEntry)
  | s, [] => (s, [])
  | s, e :: r =>
    if e.1 = sharedDst cl && (s.clusterQ.filter (fun q => q.1 == cl)).length < 64 then
      awayToShared cl { s with clusterQ := s.clusterQ ++ [(cl, e.2)] } r
    else
      let t := awayToShared cl s r
      (t.1, e :: t.2)

/-- Entries return from core g's ring and from its context's device-memory queue (10 R173); not while the context is
halted. -/
def refill (s : State) (g : Nat) : State :=
  let t := ringToQueue (coreOf s g).sched.queue ((coreOf s g).sched.ring.map (fromRing s g))
  let s1 := updCore s g (fun c => { c with sched := { c.sched with queue := t.1, ring := t.2 } })
  let cx := (coreOf s g).ctx
  match ctxOf s cx with
  | none => s1
  | some x =>
    if !x.running || !inPart x g then s
    else
      let r := awayToCore g s1 [] x.queue
      let r2 := awayToShared (clusterOf g) r.1 r.2
      updCtx r2.1 cx (fun x => { x with queue := r2.2 })

/-! ## Which entry a free core selects (10 R175) -/

/-- May an entry start now: a handler whose state waits outside a frame needs a free one (19 R325). -/
def entryReady (s : State) (g : Nat) (e : QEntry) : Bool :=
  match e.work with
  | .handler _ _ (.away _ _ _ _) => (freeFrameOf s g).isSome
  | .message _ _ _ => false
  | _ => true

/-- First entry at a level, own queue. -/
def ownAt (s : State) (g l : Nat) : Option QEntry := (coreOf s g).sched.queue.find? (fun e => e.level == l && entryReady s g e)
/-- The head entry of the cluster's shared queue, if it is of a level: no other may be taken (10 R174). -/
def sharedAt (s : State) (g l : Nat) : Option QEntry :=
  if isCompute g then ((s.clusterQ.find? (fun e => e.1 == clusterOf g)).map (·.2)).filter (fun e => e.level == l) else none

/-- The older of an own and a shared entry, the own one on a tie; true marks the shared queue. -/
def olderOf (own shared : Option QEntry) : Option (Bool × QEntry) :=
  match own, shared with
  | some a, some b => if b.entered < a.entered then some (true, b) else some (false, a)
  | some a, none => some (false, a)
  | none, some b => some (true, b)
  | none, none => none

/-- An entry of level 2 or 3 that has waited more than WAGE cycles of the core's quadrant and has its aging turn (00 R5, 10 R175). -/
def agedOf (s : State) (g : Nat) (e : Option QEntry) : Option QEntry :=
  e.filter (fun e => !e.aged && (coreOf s g).csr.wage.toNat * cycleLength s g < s.clock - e.entered)

/-- Of two choices, the older. -/
def olderChoice (a b : Option (Bool × QEntry)) : Option (Bool × QEntry) :=
  match a, b with
  | some x, some y => if y.2.entered < x.2.entered then some y else some x
  | some x, none => some x
  | none, y => y

/-- The entry a free core selects. DEDUCED: log entry 30. -/
def selectEntry (s : State) (g : Nat) : Option (Bool × QEntry) :=
  match ownAt s g 0 with
  | some e => some (false, e)
  | none =>
    match olderChoice (olderOf (agedOf s g (ownAt s g 2)) (agedOf s g (sharedAt s g 2)))
        (olderOf (agedOf s g (ownAt s g 3)) (agedOf s g (sharedAt s g 3))) with
    | some c => some c
    | none =>
      match olderOf (ownAt s g 1) (sharedAt s g 1) with
      | some c => some c
      | none =>
        match olderOf (ownAt s g 2) (sharedAt s g 2) with
        | some c => some c
        | none => olderOf (ownAt s g 3) (sharedAt s g 3)

/-- The chosen entry taken out of its queue. -/
def dropEntry (s : State) (g : Nat) (shared : Bool) (e : QEntry) : State :=
  if shared then { s with clusterQ := s.clusterQ.erase (clusterOf g, e) }
  else updCore s g (fun c => { c with sched := { c.sched with queue := c.sched.queue.erase e } })

/-! ## How work starts (10 R170, R171, R181, 19 R320) -/

/-- p7 addresses of the tasks of core g that are away in the context's device-memory queue (10 R170). -/
def awayStacks (x : Ctx) (c : Core) : List Nat :=
  let ofRef := fun (f : FrameRef) => match f with
    | .away ts _ _ _ => [(ts.regs.ptr 7).addr.toNat]
    | _ => []
  let ofEntry := fun (e : QEntry) => match e.work with
    | .resumeAway ts => [(ts.regs.ptr 7).addr.toNat]
    | .handler _ _ f => ofRef f
    | .notice _ f => ofRef f
    | _ => []
  (x.queue.filter (fun e => e.1 == c.num)).flatMap (fun e => ofEntry e.2) ++ c.sched.queue.flatMap ofEntry ++
    c.sched.ring.flatMap ofEntry ++ (x.parked.filter (fun p => p.core == c.num)).flatMap (fun p => ofRef p.frame)

/-- S of 10 R170: the stack of a new record on the current core. -/
def stackStart (s : State) : Word :=
  let g := s.core.num
  let framed := ((List.range 32).filter (fun n => frameKind s g n != 0)).map (fun n => homeRead s (frameHome g n + 0x10 + 56) 8)
  let away := match ctxOf s s.core.ctx with
    | some x => awayStacks x s.core
    | none => []
  match framed ++ away with
  | [] => 0x200000
  | a :: r => BitVec.ofNat 64 (r.foldl Nat.min a / 64 * 64)

/-- The registers of a new record (10 R170). -/
def startRegs (s : State) (pc a p6 : Word) : Regs :=
  let p : Vector Ptr 8 := ((Vector.replicate 8 (⟨0, 8⟩ : Ptr)).set 6 ⟨p6, 8⟩).set 7 ⟨stackStart s, 8⟩
  { a := a, p := p, t := false, c := false, vl := 4096, frm := 0, fflags := 0, pc := pc }

/-- The port's shadow set zero, and the next number given to a task that starts or arrives (04 R74, R78). -/
def newTask (s : State) : State :=
  let p := s.core.port
  { s with core := { s.core with port := { p with ecw0 := 0, ecw1 := 0, ecw2 := 0, ecw3 := 0, tasks := p.tasks + 1 } } }

/-- A new record on the current core: registers, a zero shadow set, no commands of its own (10 R170, 04 R74, R78). -/
def startTask (s : State) (pc a p6 : Word) (id : Ident) (msg : Option Nat) : State :=
  let s0 := newTask s
  loadTask s0 { regs := startRegs s pc a p6, id := id, msg := msg, owner := s0.core.port.tasks, wrote := 0 }

/-- The identity of a handler (19 R320). -/
def handlerIdent : Ident := { tid := 0xFFFFFFFF, coord := 0, stage := 0, slot := 63, seq := 0 }

/-- A record starts, or OPERAND is raised in its place (10 R169, R170). -/
def startRecord (s : State) (r : Rec) : State :=
  if bits r.word3 5 3 != 0 || r.code.toNat % 4 != 0 then
    raiseUpcall (releaseMsg s r.msg) s.core.ctx s.core.num { cause := cOPERAND, addr := r.src, pc := r.code, x := 8 }
  else
    let live := launchOf s s.core.ctx (recSlot r)
    let id : Ident := match live with
      | some l => { tid := r.tid, coord := BitVec.ofNat 48 (bits r.word3 63 16), stage := BitVec.ofNat 4 (bits r.word3 15 12),
                    slot := BitVec.ofNat 6 (recSlot r), seq := l.seq }
      | none => { tid := r.tid, coord := BitVec.ofNat 48 (bits r.word3 63 16), stage := BitVec.ofNat 4 (bits r.word3 15 12),
                  slot := 63, seq := 0 }
    startTask s r.code r.arg r.entp id r.msg

/-- A handler's vector: TRAPV or UPCV (19 R320). -/
def vectorOf (c : Core) (up : Bool) : Word := if up then c.csr.upcv else c.csr.trapv

/-- The frame a handler finds: one kept for it outside is written first (19 R325). -/
def placeFrame (s : State) (f : FrameRef) : State × FrameRef :=
  match f with
  | .away ts kind cause xst =>
    match freeFrameOf s s.core.num with
    | some n => (writeFrame s s.core.num n ts kind cause xst, .frame n)
    | none => (s, f)
  | _ => (s, f)

/-- p6 of a handler: the frame's local-alias address, or 0 (19 R320). -/
def framePtr (f : FrameRef) : Word :=
  match f with
  | .frame n => BitVec.ofNat 64 (128 * n)
  | _ => 0

/-- An entry put back at the head of core g's level 0, in the context's device-memory queue while it is halted (19 R323). -/
def putBack (s : State) (e : QEntry) : State := enqueueFront s s.core.ctx s.core.num e

/-- A trap or upcall handler starts on the current core (19 R320, R322, R323). -/
def startHandler (s : State) (e : QEntry) (up : Bool) (i : TrapInfo) (f : FrameRef) : State :=
  let (s1, f1) := placeFrame s f
  let e1 := { e with work := .handler up i f1 }
  if vectorOf s.core up = 0 then putBack (unhandled s1 s.core.num i) e1
  else
    let s2 := startTask s1 (vectorOf s.core up) (i.cause.zeroExtend 64) (framePtr f1) handlerIdent none
    { s2 with core := { s2.core with csr := { s2.core.csr with trap := i }, sched := { s2.core.sched with first := some e1 } } }

/-- A translation completion notice starts at UPCV (06 R117). -/
def startNotice (s : State) (e : QEntry) (status : Nat) (f : FrameRef) : State :=
  if s.core.csr.upcv = 0 then putBack (unhandled s s.core.num { cause := cTRANSL, addr := 0, pc := 0, x := 0 }) e
  else
    let s2 := startTask s s.core.csr.upcv (BitVec.ofNat 64 (2 ^ 63 + status)) (framePtr f) handlerIdent none
    { s2 with core := { s2.core with sched := { s2.core.sched with first := some e } } }

/-- A yielded or parked task resumes from its frame, which frees (10 R171, R177). -/
def resumeFrame (s : State) (n : Nat) : State :=
  let t := readFrame s s.core.num n
  loadTask (releaseFrame s s.core.num n) t

/-- A hop resumes: the carried frame lands at its offset, the landing frame is free again (10 R180, R181, 04 R74, R78). -/
def resumeHop (s : State) (ts : TaskState) (off : Nat) (data : List Byte) (landed : Bool) : State :=
  let s1 := if data.isEmpty then s else homeWrite s (vaultHome s.core.num off) data.length (bytesNat data)
  let s0 := newTask s1
  let s2 := loadTask s0 { ts with owner := s0.core.port.tasks }
  let c := s2.core
  { s2 with core := { c with watch := none,
                             sched := { c.sched with landing := if landed then false else c.sched.landing } } }

/-- A task of an ordered launch opens its part of the journal as it comes to run; one that resumes after YIELD, at level 3, with a TASK entry of
its own again (08 R140, 14 R237). -/
def openWork (s : State) (e : QEntry) : State :=
  match e.work with
  | .resume _ | .resumeAway _ => if e.level = 3 && s.core.sched.running && isOrdered s then (jappend s []).getD s else openJournal s
  | _ => openJournal s

/-- The selected work starts on the current core, in user mode where the context's records start (10 R171, 19 R332). -/
def startWork (s : State) (e : QEntry) : State :=
  openWork (match e.work with
  | .start r => startRecord s r
  | .resume n => resumeFrame s n
  | .resumeAway ts => loadTask s ts
  | .hop ts off data landed => resumeHop s ts off data landed
  | .handler up i f => startHandler s e up i f
  | .notice st f => startNotice s e st f
  | .message _ _ _ => s) e

/-- May a free core select: it runs no task, is not halted or idling, and belongs to a running context; a service core belongs to none, and
starts what stands in its own queue (10 R175, 19 R320, R335). -/
def mayStart (s : State) (g : Nat) : Bool :=
  let c := coreOf s g
  !c.sched.running && !c.sched.halted && !c.sched.idling &&
    (!isCompute g || match ctxOf s c.ctx with
    | some x => x.running && inPart x g
    | none => false)

/-- RECORD_SELECT on the current core (10 R175). -/
def selectStep (s : State) : State :=
  if mayStart s s.core.num then
    let s1 := refill s s.core.num
    match selectEntry s1 s.core.num with
    | none => s1
    | some (shared, e) => startWork (dropEntry s1 s.core.num shared e) e
  else s

/-- Has core g something to select. -/
def hasWork (s : State) (g : Nat) : Bool :=
  mayStart s g && (selectEntry (refill s g) g).isSome

end Sys2Proof.Machine
end

