-- ==== Sys2Proof/Machine/Deliver.lean ====
section
/-! DEFINITION. Lines delivered into vaults: TSEND and MREAD, the slices' multicast tables, and the packets they send
(02 R49-R52, 04 R93, 14 R240-R242, 23 R365). -/

namespace Sys2Proof.Machine

/-! ## One delivery (04 R93) -/

/-- A delivery performed at its vault: the write, then the bytes arrive at the barrier object (04 R84, R93); none while an
engine's claim holds the lines, for an MCAST's line one of lower key (04 R80, R81). -/
def deliver (s : State) (d : Delivery) : Option State :=
  let h := vaultHome d.vault d.off
  let r := match d.cmd with
    | some k => settleAmong (fun c => c.key < k) s h d.data.length true
    | none => settle s h d.data.length true
  if !r.2 then none
  else
    let s1 := if d.data.isEmpty then r.1 else homeWrite r.1 h d.data.length (bytesNat d.data)
    let s2 := { s1 with poison := d.bad.foldl (fun p i => insertNat (vaultHome d.vault 0 / 8 + i) p) s1.poison }
    match d.bobj with
    | none => some s2
    | some o => some (barrierArrive s2 d.ctx d.vault o d.data.length (windowAddr d.vault o) d.issuer)

/-! ## The descriptor (14 R240) -/

/-- A checked descriptor. -/
structure Desc where
  src  : Word
  bobj : Option Nat
  dst  : Nat
  qset : BitVec 16
  pos  : Word
  len  : Nat
  deriving DecidableEq, Repr

/-- The descriptor of four doublewords, none where 14 R240 rejects it; `most` is the greatest length. -/
def descOf (ws : List Word) (most : Nat) : Option Desc :=
  let src := ws.getD 0 0
  let bobj := bits (ws.getD 1 0) 63 32
  let dst := bits (ws.getD 1 0) 31 0
  let w3 := ws.getD 3 0
  let len := bits w3 31 0
  if bits w3 47 32 != 0 || len = 0 || len % 128 != 0 || most < len || src.toNat % 128 != 0 || dst % 128 != 0 ||
      Config.vaultBytes < dst + len || (bobj != 0xFFFFFFFF && (bobj % 16 != 0 || Config.vaultBytes < bobj + 16)) then none
  else some { src := src, bobj := if bobj = 0xFFFFFFFF then none else some bobj, dst := dst,
              qset := BitVec.ofNat 16 (bits w3 63 48), pos := ws.getD 2 0, len := len }

/-- The cores a descriptor names, rising (02 R49). -/
def Desc.cores (d : Desc) : List Nat := multicastCores d.qset d.pos

/-- The descriptor at a pointer: 32-aligned, read as ordinary loads, well formed, and naming cores of the partition
(14 R232, R240). ALIGN comes before the other checks of its address, a reserved one included (DESIGN CHOICE, log entry 44). -/
def readDesc (s : State) (p : BitVec 3) (most : Nat) : Res (State × List Word × Desc) :=
  let va := (s.ptr p).addr
  if va.toNat % 32 != 0 then .error (.trap cALIGN va 0)
  else match loadWords s va 4 with
    | .error e => .error e
    | .ok (t, ws) =>
      match descOf ws most with
      | none => .error (operand va 0x15)
      | some d =>
        match d.cores.find? (fun g => !(match myCtx s with | some x => inPart x g | none => false)) with
        | some g => .error (.trap cVAULT (windowAddr g 0) 0)
        | none => .ok (t, ws, d)

/-! ## TSEND (14 R241) -/

/-- The unit of the steps that send the lines of core g's TSENDs; those below 64 are the slices'. -/
def sendUnit (g : Nat) : Nat := 64 + g

/-- Lines of core g's TSENDs are due while it has any. -/
def dueSends (s : State) (g : Nat) : State :=
  if s.sends.any (fun d => d.core == g) && !s.pending.any (fun e => e.1 == sendUnit g && e.2 == .multicastLineSend) then
    { s with pending := s.pending ++ [(sendUnit g, .multicastLineSend)] }
  else s

/-- TSEND: the transfer is accepted, and runs to its end whatever the task does. -/
def execTsend (p : BitVec 3) (s : State) : Out :=
  finish s (match readDesc s p Config.vaultBytes with
    | .error e => .error e
    | .ok (t, ws, d) =>
      match checkOperand t d.src d.len with
      | .error e => .error e
      | .ok off =>
        if d.cores.isEmpty then .ok t.advance
        else if 255 ≤ tileOps t then .error ((Stop.stall t).afterWords s (s.ptr p).addr ws)
        else
          let x : Send := { id := t.sends.foldl (fun m d => max m d.id) 0 + 1, core := t.core.num, ctx := t.core.ctx, owner := t.core.port.owner, off := off, dst := d.dst, qset := d.qset, pos := d.pos,
                            bobj := d.bobj, count := d.len / 128, sent := 0 }
          .ok (dueSends { t with sends := t.sends ++ [x] } t.core.num).advance)

/-- The copies of a TSEND's next line (02 R49). -/
def Send.parts (s : State) (d : Send) : List Delivery :=
  let a := vaultHome d.core (d.off + 128 * d.sent)
  let off := d.dst + 128 * d.sent
  (multicastCores d.qset d.pos).map (fun g =>
    { issuer := d.core, ctx := d.ctx, vault := g, off := off, data := bytesAt s a 128, bad := badWords s a off 128, bobj := d.bobj, cmd := none, src := d.core })

/-- The oldest TSEND of core g reads and sends its next line, once its stop has room and no claim holds the line (04 R80, R93). -/
def sendLine (s : State) (g : Nat) : State :=
  match s.sends.find? (fun d => d.core == g) with
  | none => s
  | some d =>
    let p : Packet := { quad := quadrantOf g, place := coreStop g, src := g, cls := .req, way := none, parts := [] }
    let r := settle s (vaultHome g (d.off + 128 * d.sent)) 128 false
    if !(r.2 && sourceFree r.1 p) then dueSends r.1 g
    else
      let e := { d with sent := d.sent + 1 }
      let t := sendPacket r.1 { p with parts := d.parts r.1 }
      dueSends { t with sends := if e.sent < e.count then t.sends.map (fun k => if k = d then e else k) else t.sends.erase d } g

/-! ## MREAD (14 R242, 02 R52) -/

/-- The physical address of a line of device memory for MREAD: HBM4E and the second tier only. -/
def mreadPhys (s : State) (desc va : Word) : Res Nat :=
  match spaceOf va with
  | .reserved => .error (.trap cTRANSL va (translX 2 false false false 0))
  | .translated =>
    match checkTranslated s va false with
    | .error e => .error e
    | .ok pa => if isSliced pa then .ok pa else .error (.trap cPERM va 0)
  | _ => .error (operand desc 0x15)

/-- Physical addresses of the lines of a range. -/
def mreadLines (s : State) (desc : Word) : List Word → Res (List Nat)
  | [] => .ok []
  | va :: r =>
    match mreadPhys s desc va with
    | .error e => .error e
    | .ok a =>
      match mreadLines s desc r with
      | .error e => .error e
      | .ok as => .ok (a :: as)

/-- The requests of an MREAD, one to each slice that homes lines of its range (14 R242). -/
def mreadRequests (s : State) (d : Desc) (lines : List Nat) : List MReq :=
  let all := lines.zipIdx.map (fun e => (homeSlice s e.1, e.1 / 128, d.dst + 128 * e.2))
  (all.map (·.1)).eraseDups.map (fun n =>
    { src := s.core.num, id := s.core.csr.here, slice := n, lines := (all.filter (fun e => e.1 == n)).map (·.2), qset := d.qset, pos := d.pos,
      bobj := d.bobj, owner := s.core.port.owner })

/-- Does a request name the start line and the line count of an open entry (02 R52). -/
def joins (e : MEntry) (m : MReq) : Bool :=
  e.isOpen && e.req.slice == m.slice && e.req.lines.length == m.lines.length && (e.req.lines.headD (0, 0)).1 == (m.lines.headD (0, 0)).1

/-- Entries a slice's table holds. -/
def tableFull (s : State) (slice : Nat) : Bool := 16 ≤ (s.mcast.filter (fun e => e.req.slice == slice)).length

/-- A request opens an entry or joins one; none where the table is full (02 R52). A joiner before the first line is
served with the others from line 0; a later one gets the lines not yet sent, and the others afterwards. -/
def openEntry (s : State) (m : MReq) : Option State :=
  match s.mcast.find? (fun e => joins e m) with
  | some e => some { s with mcast := s.mcast.map (fun f => if f = e then { f with late := f.late ++ [(m, e.sent, 0)] } else f) }
  | none =>
    if tableFull s m.slice then none
    else some { s with mcast := s.mcast ++ [{ req := m, window := true, sent := 0, isOpen := true, late := [] }],
                       pending := s.pending ++ [(m.slice, .mergeWindowEnd)] }

/-- An MREAD's request as one that arrives at its slice, in the queue of its first line's bank while it waits (02 R52). -/
def mreadReq (m : MReq) : Req := { src := m.src, op := .mread m, addr := (m.lines.headD (0, 0)).1 * 128, size := 128, data := 0 }

/-- It is taken up, or waits: behind an earlier request of its source or for its first line, or while the table is full (02 R34, R52). -/
def arriveMread (s : State) (r : Req) (m : MReq) : State :=
  let waits : State := { s with waiting := s.waiting ++ [r] }
  if lineLocked s r.addr r.size || sourceWaits s r.src r.addr then waits else (openEntry s m).getD waits

/-- It comes to its slice's stop (02 R32). -/
def intakeMread (s : State) (m : MReq) : State :=
  let r := mreadReq m
  if intakeStopped s r.addr then { s with stop := s.stop ++ [r] } else arriveMread s r m

/-- MREAD: its requests leave; it counts as a load until every slice has taken its own up (14 R242). -/
def execMread (p : BitVec 3) (s : State) : Out :=
  finish s (match readDesc s p 8192 with
    | .error e => .error e
    | .ok (t, ws, d) =>
      match mreadLines t (s.ptr p).addr ((List.range (d.len / 128)).map (fun i => d.src + BitVec.ofNat 64 (128 * i))) with
      | .error e => .error e
      | .ok lines =>
        if d.cores.isEmpty then .ok t.advance
        else if !loadRoom t then .error ((Stop.stall t).afterWords s (s.ptr p).addr ws)
        else .ok ((mreadRequests t d lines).foldl intakeMread t).advance)

/-! ## Lines leave a slice (02 R50-R52, 23 R365) -/

/-- The copies of line i of some requests, each destination's once: one that two requests give the same place and object is named once. -/
def lineParts (s : State) (i : Nat) (served : List (Nat × Nat × Option Nat)) : List MReq → List Delivery
  | [] => []
  | m :: r =>
    let l := m.lines.getD i (0, 0)
    let a := l.1 * 128
    let gs := (multicastCores m.qset m.pos).filter (fun g => !served.contains (g, l.2, m.bobj))
    gs.map (fun g =>
      { issuer := m.src, ctx := (coreOf s m.src).ctx, vault := g, off := l.2, data := bytesAt s a 128, bad := badWords s a l.2 128, bobj := m.bobj, cmd := none,
        src := 2048 + m.slice }) ++
      lineParts s i (served ++ gs.map (fun g => (g, l.2, m.bobj))) r

/-- The packet that stands at a slice's stop with copies of a line, which the slice reads as a load does. -/
def slicePacket (slice : Nat) (parts : List Delivery) : Packet :=
  { quad := slice / 4, place := sliceStop slice, src := 2048 + slice, cls := .rsp, way := none, parts := parts }

/-- The first line still owed to a late joiner, and the entry after it is sent. -/
def lateLine (e : MEntry) : Option (MReq × Nat × MEntry) :=
  match e.late.find? (fun l => l.2.2 < l.2.1) with
  | none => none
  | some l => some (l.1, l.2.2, { e with late := e.late.map (fun k => if k = l then (k.1, k.2.1, k.2.2 + 1) else k) })

/-- The number of the line that an entry sends next. -/
def MEntry.nextLine (e : MEntry) : Nat :=
  (e.req.lines.getD (if e.sent < e.req.lines.length then e.sent else ((lateLine e).map (·.2.1)).getD 0) (0, 0)).1

/-- An entry's next line: an original one for every request whose line it is, else one appended for a late joiner with that joiner's mask; the entry
goes when nothing is owed, and closes with the last of its original lines. -/
def entryLine (s : State) (e : MEntry) : State :=
  let s1 := loadLine s (e.nextLine * 128) 128 true
  let put := fun (f : MEntry) (parts : List Delivery) =>
    let t := sendPacket s1 (slicePacket e.req.slice parts)
    if f.isOpen || (lateLine f).isSome then { t with mcast := t.mcast.map (fun k => if k = e then f else k) } else { t with mcast := t.mcast.erase e }
  if e.sent < e.req.lines.length then
    put { e with sent := e.sent + 1, isOpen := e.sent + 1 < e.req.lines.length }
      (lineParts s1 e.sent [] (e.req :: (e.late.filter (fun l => l.2.1 ≤ e.sent)).map (·.1)))
  else match lateLine e with
    | some (m, i, f) => put f (lineParts s1 i [] [m])
    | none => { s with mcast := s.mcast.erase e }

end Sys2Proof.Machine
end

