-- ==== Sys2Proof/Machine/Engine.lean ====
section
/-! DEFINITION. The copy engines: commands taken, moved piece by piece, completed or stopped (04 R73-R96), and the commands
of the control complex (05 R104, R109, 07 R132). -/

namespace Sys2Proof.Machine

/-! ## Engines -/

/-- Engine e. -/
def engineOf (s : State) (e : Nat) : Engine := s.engines.toList.getD e default

/-- Changes engine e. -/
def updEngine (s : State) (e : Nat) (f : Engine → Engine) : State :=
  { s with engines := s.engines.set! e (f (engineOf s e)) }

/-- A device step is due at unit u. -/
def due (s : State) (u : Nat) (i : Instr) : State := { s with pending := s.pending ++ [(u, i)] }

/-- It is due once. -/
def dueOnce (s : State) (u : Nat) (i : Instr) : State := if s.pending.any (fun e => e.1 == u && e.2 == i) then s else due s u i

/-- The step that moves a command: by its code, or RESUME for one that a RESUME continues (04 R88-R95). -/
def stepOf (c : Cmd) : Instr :=
  if c.resumed then .resume
  else match c.code with
    | 1 => .copy
    | 2 => .copy2d
    | 3 => .fill
    | 4 => .mcast
    | 5 => .gathert
    | 6 => .btwalk
    | 7 => .layerin
    | 8 => .sweep
    | 9 => .evict
    | 0xB => .ptload
    | _ => .engineResponse

/-- An acceptance key for a command of the control complex, after every core's of the same REFT (04 R77). -/
def ownKey (s : State) : Nat :=
  let base := s.clock / 21 * 2 ^ 40 + 2047 * 2 ^ 24
  let used := (allCmds s).map (·.key)
  base + ((List.range (used.length + 1)).find? (fun n => !used.contains (base + n))).getD used.length

/-- The engine that takes a command of the control complex: the first unfenced one from the context's first quadrant on. -/
def ownEngine (s : State) (x : Ctx) : Nat :=
  let e0 := 2 * quadrantOf ((partCores x).headD 0)
  let order := (List.range 32).map (fun i => (e0 + i) % 32)
  (order.find? (fun e => !(engineOf s e).fenced)).getD (e0 % 32)

/-- A command of the control complex accepted by an engine, whose queue takes it when it has room (04 R73). -/
def issueOwn (s : State) (x : Ctx) (c : Cmd) : State :=
  let e := ownEngine s x
  due (updEngine s e (fun k => { k with own := k.own ++ [{ c with on := e, key := ownKey s }] })) e .engineCommandStart

/-! ## Taking a command (04 R73, R77) -/

/-- Commands that wait in ports and at the control complex for engine e, lowest key first. -/
def portWaiting (s : State) (e : Nat) : List Cmd :=
  sortCmds ((s.core.port.waiting ++ s.others.flatMap (fun o => o.2.port.waiting)).filter (fun c => c.on == e) ++ (engineOf s e).own)

/-- The engine's queue of 64 takes a command from a port or from the control complex. -/
def takeFromPort (s : State) (e : Nat) : State :=
  match portWaiting s e with
  | [] => s
  | c :: _ =>
    if 64 ≤ (engineOf s e).queue.length then s
    else
      let s1 := updCore s c.core (fun k => { k with port := { k.port with waiting := k.port.waiting.filter (fun d => d.key != c.key) } })
      updEngine s1 e (fun k => { k with queue := k.queue ++ [c], own := k.own.filter (fun d => d.key != c.key) })

/-- ENGINE_COMMAND_START: the queue takes a command, and one starts when fewer than 8 run. -/
def execEngineCommandStart (s : State) : Out :=
  let e := s.unit
  let s1 := takeFromPort s e
  let k := engineOf s1 e
  .next (match k.queue with
    | [] => s1
    | c :: r =>
      if k.fenced || 8 ≤ k.running.length then s1
      else due (updEngine s1 e (fun k => { k with queue := r, running := k.running ++ [c] })) e (stepOf c))

/-! ## Moving (04 R80-R82) -/

/-- Is a command finished: all moved, or stopped. -/
def Cmd.finished (s : State) (c : Cmd) : Bool := c.fault.isSome || c.total s ≤ c.done

/-- One piece of a command, or of the command of lower key that it waits for, which the recall takes next (04 R80, R81). -/
def advanceCmd : Nat → State → Cmd → State
  | 0, s, _ => s
  | n + 1, s, c =>
    match c.heldBy s with
    | some d => advanceCmd n s d
    | none => setCmd (moveOne s c).1 (moveOne s c).2

/-- Completions and fault notices that are due at engine e. -/
def dueEnds (s : State) (e : Nat) : State :=
  let r := (engineOf s e).running
  let s1 := if r.any (fun c => c.fault.isNone && c.total s ≤ c.done) then dueOnce s e .engineCompletion else s
  if r.any (fun c => c.fault.isSome) then dueOnce s1 e .faultNotice else s1

/-- A command goes behind the others of its engine, which runs them line by line in turn (04 R73). -/
def rotate (s : State) (e : Nat) (d : Cmd) : State :=
  updEngine s e (fun k => { k with running := k.running.filter (fun c => c.key != d.key) ++ [d] })

/-- A step of engine s.unit on the first command in progress that `p` picks. -/
def engineStep (s : State) (p : Cmd → Bool) : State :=
  let e := s.unit
  match (engineOf s e).running.find? (fun c => p c && !c.finished s) with
  | none => dueEnds s e
  | some c =>
    let s1 := if (engineOf s e).fenced then s else advanceCmd (allCmds s).length s c
    match (engineOf s1 e).running.find? (fun d => d.key == c.key) with
    | some d => if d.finished s1 then dueEnds s1 e else due (rotate s1 e d) e (stepOf c)
    | none => s1

/-- The commands of one code that no RESUME continues. -/
def ofCode (n : Nat) (c : Cmd) : Bool := c.code == n && !c.resumed

/-- COPY. -/
def execCopy (s : State) : Out := .next (engineStep s (ofCode 1))
/-- COPY2D. -/
def execCopy2d (s : State) : Out := .next (engineStep s (ofCode 2))
/-- FILL. -/
def execFill (s : State) : Out := .next (engineStep s (ofCode 3))
/-- MCAST. -/
def execMcast (s : State) : Out := .next (engineStep s (ofCode 4))
/-- GATHERT. -/
def execGathert (s : State) : Out := .next (engineStep s (ofCode 5))
/-- BTWALK. -/
def execBtwalk (s : State) : Out := .next (engineStep s (ofCode 6))
/-- LAYERIN. -/
def execLayerin (s : State) : Out := .next (engineStep s (ofCode 7))
/-- SWEEP. -/
def execSweep (s : State) : Out := .next (engineStep s (ofCode 8))
/-- EVICT. -/
def execEvict (s : State) : Out := .next (engineStep s (ofCode 9))
/-- RESUME: the remainder of a command that a fault record describes. -/
def execResume (s : State) : Out := .next (engineStep s (·.resumed))
/-- PTLOAD. -/
def execPtload (s : State) : Out := .next (engineStep s (ofCode 0xB))
/-- ENGINE_RESPONSE: the engine's oldest command in progress goes on (04 R82). -/
def execEngineResponse (s : State) : Out := .next (engineStep s (fun _ => true))

/-- RECALL: what an access to a claimed line waits for is done (04 R80). -/
def execRecall (addr : Nat) (write : Bool) (s : State) : Out := .next (settle s addr 1 write).1

/-! ## Ends (04 R83, R85, R86) -/

/-- A command leaves its engine, which can start another. -/
def leaveEngine (s0 : State) (e key : Nat) : State :=
  let s := { s0 with ctxs := s0.ctxs.map (fun (x : Ctx) => { x with fills := x.fills.filter (fun f => f.cmd != some key) }) }
  due (updEngine s e (fun k => { k with running := k.running.filter (fun c => c.key != key), held := k.held.filter (fun c => c.key != key) }))
    e .engineCommandStart

/-- The layer that a LAYERIN or EVICT names by its entry's address (05 R104, R109). -/
def layerOfCmd (s : State) (c : Cmd) : Nat :=
  match ctxOf s c.param with
  | some x => (c.a1 - x.layerBase.toNat) / 64
  | none => 0

/-- ERR of a stream-in that stopped with a TRAPC value (05 R100, R105). -/
def layerErr (cause : BitVec 8) : Nat := if cause = 0x17 then 3 else if cause = 9 then 4 else 2

/-- ERR of a LAYERIN that has copied everything, 0 for a good one: POISON, or CRC where the entry's CHK is 1 (05 R100, R105). -/
def layerinErr (s : State) (c : Cmd) : Nat :=
  match engineHome s { c with ctx := c.param } c.a1 false with
  | .error _ => 2
  | .ok (_, h) =>
    if c.poison then 4
    else if (homeWord s (h + 0x18)).getLsbD 8 && homeRead s (h + 0x20) 4 != (c.crc ^^^ 0xFFFFFFFF).toNat then 1
    else 0

/-- The step at which the oldest sweep of context cx that is not finished started, without the sweep of key k (07 R133). -/
def oldestSweep (s : State) (cx k : Nat) : Option Word :=
  ((allCmds s).filter (fun c => c.code == 8 && !c.byPort && c.param == cx && c.key != k)).foldl
    (fun m c => match m, c.table.head? with
      | none, w => w
      | some a, some w => some (if w.toNat < a.toNat then w else a)
      | some a, none => some a) none

/-- What follows a completed LAYERIN or EVICT, and a SWEEP that a STEP started (05 R104, R105, R109, 07 R133). -/
def ownDone (s : State) (c : Cmd) : State :=
  match c.code with
  | 7 =>
    let err := layerinErr s c
    if err = 0 then due s c.param (.layerResidentStep c.param (layerOfCmd s c)) else due s c.param (.layerFaultStep c.param (layerOfCmd s c) err)
  | 8 => if c.byPort then s else due (updCtx s c.param (fun x =>
      { x with sweeps := x.sweeps - 1, sweepStart := (oldestSweep s c.param c.key).getD x.sweepStart })) c.param .stepIncrement
  | 9 => due s c.param (.layerEvictedStep c.param (layerOfCmd s c))
  | _ => s

/-- ENGINE_COMPLETION: a command whose writes are all performed acts on its target, or stops there (04 R83); a stream-in that met poison stops with
it (05 R105). -/
def execEngineCompletion (s : State) : Out :=
  let e := s.unit
  let finished := fun (c : Cmd) => c.fault.isNone && c.total s ≤ c.done
  .next (match (engineOf s e).running.find? (fun c => finished c && !c.inFlight s) with
    | none => dueEnds s e
    | some c =>
      let later := fun (t : State) => dueEnds (rotate t e c) e
      if c.code = 7 && c.entryWaits s then later s
      else if c.code = 7 && layerinErr s c = 4 then dueEnds (setCmd s { c with fault := some (9, c.table.headD 0, 0) }) e
      else match actOnTarget s c with
      | .ok s1 => dueEnds (leaveEngine (ownDone (if c.byPort then portDone s1 c else s1) c) e c.key) e
      | .error (f, sub) =>
        if f = 0 then later (if sub = 1 then askService s c (true, c.target.toNat, 8) else s)
        else dueEnds (setCmd s { c with fault := some (f, c.target, sub) }) e)

/-- A stopped command has given its notice. One of the control complex's whose engine was fenced is continued by RESUME on another
engine; any other stream-in fails (05 R105). -/
def noticed (s : State) (e : Nat) (c : Cmd) : State :=
  let s1 := leaveEngine s e c.key
  match c.fault, ctxOf s c.ctx with
  | some (f, _, _), some x =>
    if !c.byPort && f == 0x17 && (engineOf s e).fenced then issueOwn s1 x { c with resumed := true, fault := none }
    else if c.code = 7 then due s1 c.param (.layerFaultStep c.param (layerOfCmd s c) (layerErr f)) else s1
  | some (f, _, _), none => if c.code = 7 then due s1 c.param (.layerFaultStep c.param (layerOfCmd s c) (layerErr f)) else s1
  | none, _ => s1

/-- FAULT_NOTICE: a stopped command writes its record and sends its notice, or is held until a slot is free (04 R85, R86). -/
def execFaultNotice (s : State) : Out :=
  let e := s.unit
  .next (match (engineOf s e).running.find? (fun c => c.fault.isSome && !c.inFlight s) with
    | none => dueEnds s e
    | some c =>
      match noticeFault s c with
      | some s1 => dueEnds (noticed s1 e c) e
      | none => dueEnds (dueOnce (updEngine s e (fun k => { k with running := k.running.filter (fun d => d.key != c.key), held := k.held ++ [c] })) e .faultRingRetry) e)

/-- The first held fault whose context's ring has a free slot gives its notice. -/
def retryHeld (s : State) (e : Nat) : List Cmd → Option State
  | [] => none
  | c :: r =>
    match noticeFault s c with
    | some s1 => some (noticed s1 e c)
    | none => retryHeld s e r

/-- FAULT_RING_RETRY: held faults try their rings again, until none is held (04 R86). -/
def execFaultRingRetry (s : State) : Out :=
  let e := s.unit
  let t := (retryHeld s e (engineOf s e).held).getD s
  .next (if (engineOf t e).held.isEmpty then t else dueOnce t e .faultRingRetry)

/-- Does a command's next destination byte lie in the host window, or in a peer's (04 R87). -/
def Cmd.writesFar (s : State) (c : Cmd) (p : Nat → Bool) : Bool :=
  (c.nextHomes s).any (fun k => k.1 && p k.2.1)

/-- Where the command's next destination byte lies. -/
def Cmd.nextDst (s : State) (c : Cmd) : Word :=
  match (c.claims s).find? (·.1) with
  | some k => BitVec.ofNat 64 k.2.1
  | none => c.ecw2

/-- A command in progress stops with a TRAPC value at its next destination byte. -/
def stopCmd (s : State) (e : Nat) (c : Cmd) (f : BitVec 8) : State :=
  due (setCmd s { c with fault := some (f, c.nextDst s, 0) }) e .faultNotice

/-- HOST_CREDIT_TIMEOUT: a command that writes to the host stops with FULL (04 R87). -/
def execHostCreditTimeout (s : State) : Out :=
  let e := s.unit
  .next (match (engineOf s e).running.find? (fun c => !c.finished s && c.writesFar s isHost) with
    | none => s
    | some c => stopCmd s e c 0x18)

end Sys2Proof.Machine
end

