-- ==== Sys2Proof/Machine/Memory.lean ====
section
/-! DEFINITION. LD, ST, ATOM and ACAS (13 R219-R223). -/

namespace Sys2Proof.Machine

/-! ## LD (13 R220) -/

/-- A load whose loaded bytes `f` brings into a. -/
def loadInto (s : State) (m : MOp) (k : Kind) (f : State → Nat → State) : Out :=
  finish s (match loadOperand s m k with
    | .error e => .error e
    | .ok (t, v) => .ok (f t v))

/-- LD: sign-extended. -/
def execLd (m : MOp) (s : State) : Out := loadInto s m .load (fun t v => t.setA (operandS m v))
/-- LDU: zero-extended. -/
def execLdu (m : MOp) (s : State) : Out := loadInto s m .load (fun t v => t.setA (operandZ v))
/-- LD.ACQ.LOC: this model issues nothing before an earlier access is performed, so the acquire adds nothing. -/
def execLdAcqLoc (m : MOp) (s : State) : Out := loadInto s m .probe (fun t v => t.setA (operandS m v))
/-- LD.ACQ.DEV. -/
def execLdAcqDev (m : MOp) (s : State) : Out := loadInto s m .probe (fun t v => t.setA (operandS m v))
/-- LD.ACQ.SYS. -/
def execLdAcqSys (m : MOp) (s : State) : Out := loadInto s m .probe (fun t v => t.setA (operandS m v))

/-- LDA makes no access; the pointer moves. -/
def execLda (m : MOp) (s : State) : Out :=
  finish s (.ok ((movePtr s m (nextAddr s m)).advance.setA (effAddr s m)))

/-- LD.NT: the slice does not allocate. -/
def execLdNt (m : MOp) (s : State) : Out :=
  finish s (match checkAccess s (effAddr s m) (sizeBytes m.sz) .probe with
    | .error e => .error e
    | .ok ac =>
      match loadWith false s ac with
      | .error e => .error e
      | .ok (t, v) => .ok ((movePtr t m (nextAddr s m)).advance.setA (operandS m v)))

/-- LDF: FP32 is widened exactly, a signalling NaN raising invalid. -/
def execLdf (m : MOp) (s : State) : Out :=
  loadInto s m .probe (fun t v =>
    if m.sz = 2 then (t.addFlags (fp32.widen v).2).setA (fp32.widen v).1 else t.setA (operandZ v))

/-! ## ST (13 R221) -/

/-- A store of the low bytes of `v` at ea; `rel` for a release, before which `cover` does what its scope asks for. -/
def storeFor (cover : State → Access → Res State) (s : State) (m : MOp) (through rel : Bool) (v : Word) : Res State :=
  match checkAccess s (effAddr s m) (sizeBytes m.sz) .store with
  | .error e => .error e
  | .ok ac =>
    match cover s ac with
    | .error e => .error e
    | .ok s1 =>
      match storeWith through rel s1 ac (v.toNat % 2 ^ (8 * sizeBytes m.sz)) with
      | .error e => .error e
      | .ok t => .ok (movePtr t m (nextAddr s m)).advance

/-- A store that waits for nothing. -/
def storeOp (s : State) (m : MOp) (through : Bool) (v : Word) : Res State := storeFor (fun t _ => .ok t) s m through false v

/-! ### Zero-length reads (03 R68) -/

/-- A host window address on link l (01 R29). -/
def linkHome (s : State) (l : Nat) : Nat := Config.hostBase + (if bonded s then l * 2 ^ 12 else l * 2 ^ 44)

/-- Link l is noted as written no longer. -/
def State.clearWrote (s : State) (l : Nat) : State :=
  { s with core := { s.core with sched := { s.core.sched with wrote := s.core.sched.wrote &&& ~~~((1 : BitVec 2) <<< l) } } }

/-- After a SYS release no link has been written since. -/
def State.released (s : State) : State := { s with core := { s.core with sched := { s.core.sched with wrote := 0 } } }

/-- A zero-length read on link l, if the task has written there: the instruction waits for its completion; a link that is down has none. -/
def coverLink (l : Nat) (s : State) : Res State :=
  if !s.core.sched.wrote.getLsbD l || !s.out.hostUp.getLsbD l then .ok (s.clearWrote l)
  else match s.core.sched.returns with
    | [] => .error (.ask (emit s s.core.ctx false (linkHome s l) 0 false) (linkHome s l) false)
    | _ :: rest => .ok (({ s with core := { s.core with sched := { s.core.sched with returns := rest } } }).clearWrote l)

/-- The zero-length reads of FENCE.SYS and DRAIN, for every link the task has written since its last one or SYS release. -/
def coverHost (s : State) : Res State :=
  match coverLink 0 s with
  | .error e => .error e
  | .ok t => coverLink 1 t

/-- Before a SYS release leaves on one link, the zero-length read on the other. -/
def coverOther (s : State) (ac : Access) : Res State :=
  match ac.place with
  | .home h => if isHost h && !(isOrdered s && isShared s h) then coverLink (1 - hostLink s h) s else .ok s
  | .port _ => .ok s

/-- Does a release name the engine window, where it adds nothing (14 R248). -/
def intoPort (s : State) (m : MOp) : Bool := spaceOf (effAddr s m) == .engine

/-- A release store (03 R57, R68, R70): earlier accesses are performed already, so it waits for nothing but, at SYS scope, zero-length reads and
writes to peers. A store to the command port is the same in every form. -/
def releaseOp (s : State) (m : MOp) (sys : Bool) : Res State :=
  let sys := sys && !intoPort s m
  match storeFor (if sys then fun t ac => if peerOut t then .error (.stall t) else coverOther t ac else fun t _ => .ok t) s m false true s.core.regs.a with
  | .error e => .error e
  | .ok t => .ok (if sys then t.released else t)

/-- ST. -/
def execSt (m : MOp) (s : State) : Out := finish s (storeOp s m false s.core.regs.a)
/-- ST.REL.LOC. -/
def execStRelLoc (m : MOp) (s : State) : Out := finish s (releaseOp s m false)
/-- ST.REL.DEV. -/
def execStRelDev (m : MOp) (s : State) : Out := finish s (releaseOp s m false)
/-- ST.REL.SYS: the zero-length read of 03 R68 has returned before it leaves. -/
def execStRelSys (m : MOp) (s : State) : Out := finish s (releaseOp s m true)
/-- ST.NT writes through at a slice. -/
def execStNt (m : MOp) (s : State) : Out := finish s (storeOp s m true s.core.regs.a)

/-- STF: FP32 is rounded under FRM, as FCVT F64.F32 does. -/
def execStf (m : MOp) (s : State) : Out :=
  finish s (if m.sz = 2 then
      let x := num64 s.core.regs.a
      let r := fp32.pack s.core.regs.frm x
      match storeOp s m false (BitVec.ofNat 64 r.1) with
      | .error e => .error e
      | .ok t => .ok (t.addFlags (flagIf x.isSig flagNV ||| r.2))
    else storeOp s m false s.core.regs.a)

/-! ## ATOM (13 R222) -/

/-- Signed value of n bytes. -/
def signedVal (n v : Nat) : Int := intOf (8 * n) v

/-- AFADD at the home: rounded to nearest even (13 R222). -/
def floatAdd (n old o : Nat) : Nat :=
  if n = 4 then (add32 (BitVec.ofNat 32 old) (BitVec.ofNat 32 o)).toNat
  else (rn64 ((num64 (BitVec.ofNat 64 old)).addExact false (num64 (BitVec.ofNat 64 o))).1).toNat

/-- OP(old, o) of function FN on n bytes (13 R222). -/
def atomOp (fn n old o : Nat) : Nat :=
  match fn with
  | 0 => (old + o) % 2 ^ (8 * n)
  | 1 => old &&& o
  | 2 => old ||| o
  | 3 => old ^^^ o
  | 4 => if signedVal n o < signedVal n old then o else old
  | 5 => if signedVal n old < signedVal n o then o else old
  | 6 => min old o
  | 7 => max old o
  | 8 => o
  | _ => floatAdd n old o

/-- EXT(old): sign-extended for AADD, AMIN and AMAX (13 R222). -/
def atomExt (fn n old : Nat) : Word :=
  if fn = 0 || fn = 4 || fn = 5 then BitVec.ofInt 64 (signedVal n old) else BitVec.ofNat 64 old

/-- The functions that reach the host window (03 R71). -/
def hostAtomic (fn : Nat) : Bool := fn == 0 || fn == 8

/-- The AtomicOp of an atomic function on a host link (03 R71). -/
def atomicOpOf (h fn : Nat) : Option AtomicOp := if !isHost h then none else if fn = 0 then some .fetchAdd else if fn = 8 then some .swap else none

/-- A returning atomic: the state and the old value (13 R222, 03 R71, 08 R138). -/
def atomReturning (s : State) (ac : Access) (h fn o : Nat) : Res (State × Nat) :=
  if isOrdered s && isShared s h then
    match loadAt s ac with
    | .error e => .error e
    | .ok (t, v) =>
      match jatomic t 1 ac.va.toNat ac.n (BitVec.ofNat 64 o) fn with
      | some t1 => .ok (t1, v)
      | none => .error (.trap cJOURNAL ac.va (BitVec.ofNat 64 (jcount s s.core.num)))
  else if isFar h then
    match farAnswer false (atomicOpOf h fn) s ac.va h ac.n with
    | .error e => .error e
    | .ok (t, v) => .ok ((performWrite t h ac.n (atomOp fn ac.n v o) false).touchTlb ac.va.toNat, v)
  else if !loadRoom s then .error (.stall s)
  else
    let r := reach s h ac.n true
    if !r.2 then .error (.stall r.1)
    else match poisonIn r.1.poison h ac.n with
      | some _ => .error (.trap cECC (wordAddr ac.va) 0)
      | none => atomicAt r.1 ac h (fun old => some (atomOp fn ac.n old o))

/-- A posted atomic that finds poison writes nothing and raises ECC as an upcall (02 R40). -/
def postedPoison (s : State) (ac : Access) : State :=
  raiseUpcall s s.core.ctx s.core.num { cause := cECC, addr := wordAddr ac.va, pc := s.core.regs.pc, x := 0 }

/-- A posted atomic (13 R222, 02 R40, 03 R71, 08 R138). -/
def atomPosted (s : State) (ac : Access) (h fn o : Nat) : Res State :=
  if isOrdered s && isShared s h then
    match jatomic s 1 ac.va.toNat ac.n (BitVec.ofNat 64 o) (fn + 16) with
    | some t1 => .ok (t1.touchTlb ac.va.toNat)
    | none => .error (.trap cJOURNAL ac.va (BitVec.ofNat 64 (jcount s s.core.num)))
  else match farFault s h with
    | some f => .ok (reportLost s f ac.va)
    | none =>
      if !storeRoom s then .error (.stall s)
      else
        let r := reach s h ac.n true
        if !r.2 then .error (.stall r.1)
        else match poisonIn r.1.poison h ac.n with
          | some _ => .ok (postedPoison r.1 ac)
          | none =>
            match atomicAt r.1 ac h (fun old => some (atomOp fn ac.n old o)) with
            | .error e => .error e
            | .ok (t, _) => .ok (awaitAck s (noteFarWrite (atomicOpOf h fn) t h ac.n true) h)

/-- The checked home of an atomic; a function that the host window refuses raises PERM (03 R71). -/
def atomHome (s : State) (m : MOp) (fn : Nat) : Res (Access × Nat) :=
  match checkAccess s (effAddr s m) (sizeBytes m.sz) .atomic with
  | .error e => .error e
  | .ok ac =>
    match ac.place with
    | .port _ => .error (.trap cENGINE ac.va 0)
    | .home h => if isHost h && !hostAtomic fn then .error (.trap cPERM ac.va 0) else .ok (ac, h)

/-- The operand o: a's low bytes. -/
def atomOperand (s : State) (m : MOp) : Nat := s.core.regs.a.toNat % 2 ^ (8 * sizeBytes m.sz)

/-- A returning ATOM instruction of function FN. -/
def atomR (s : State) (m : MOp) (fn : Nat) : Out :=
  finish s (match atomHome s m fn with
    | .error e => .error e
    | .ok (ac, h) =>
      match atomReturning s ac h fn (atomOperand s m) with
      | .error e => .error e
      | .ok (t, v) => .ok ((movePtr t m (nextAddr s m)).advance.setA (atomExt fn ac.n v)))

/-- A posted ATOM instruction of function FN. -/
def atomN (s : State) (m : MOp) (fn : Nat) : Out :=
  finish s (match atomHome s m fn with
    | .error e => .error e
    | .ok (ac, h) =>
      match atomPosted s ac h fn (atomOperand s m) with
      | .error e => .error e
      | .ok t => .ok (movePtr t m (nextAddr s m)).advance)

/-- AADD. -/
def execAadd (m : MOp) (s : State) : Out := atomR s m 0
/-- AADD.N. -/
def execAaddN (m : MOp) (s : State) : Out := atomN s m 0
/-- AAND. -/
def execAand (m : MOp) (s : State) : Out := atomR s m 1
/-- AAND.N. -/
def execAandN (m : MOp) (s : State) : Out := atomN s m 1
/-- AOR. -/
def execAor (m : MOp) (s : State) : Out := atomR s m 2
/-- AOR.N. -/
def execAorN (m : MOp) (s : State) : Out := atomN s m 2
/-- AXOR. -/
def execAxor (m : MOp) (s : State) : Out := atomR s m 3
/-- AXOR.N. -/
def execAxorN (m : MOp) (s : State) : Out := atomN s m 3
/-- AMIN. -/
def execAmin (m : MOp) (s : State) : Out := atomR s m 4
/-- AMIN.N. -/
def execAminN (m : MOp) (s : State) : Out := atomN s m 4
/-- AMAX. -/
def execAmax (m : MOp) (s : State) : Out := atomR s m 5
/-- AMAX.N. -/
def execAmaxN (m : MOp) (s : State) : Out := atomN s m 5
/-- AMINU. -/
def execAminu (m : MOp) (s : State) : Out := atomR s m 6
/-- AMINU.N. -/
def execAminuN (m : MOp) (s : State) : Out := atomN s m 6
/-- AMAXU. -/
def execAmaxu (m : MOp) (s : State) : Out := atomR s m 7
/-- AMAXU.N. -/
def execAmaxuN (m : MOp) (s : State) : Out := atomN s m 7
/-- ASWP. -/
def execAswp (m : MOp) (s : State) : Out := atomR s m 8
/-- ASWP.N. -/
def execAswpN (m : MOp) (s : State) : Out := atomN s m 8
/-- AFADD. -/
def execAfadd (m : MOp) (s : State) : Out := atomR s m 9
/-- AFADD.N. -/
def execAfaddN (m : MOp) (s : State) : Out := atomN s m 9

/-! ## ACAS (13 R223) -/

/-- The compare and swap at the home of PA: the state and the old value. -/
def casAt (s : State) (ac : Access) (h : Nat) (cmp nv : Nat) : Res (State × Nat) :=
  if isFar h then
    match farAnswer false (if isHost h then some .cas else none) s ac.va h ac.n with
    | .error e => .error e
    | .ok (t, v) => .ok ((if v = cmp then performWrite t h ac.n nv false else t).touchTlb ac.va.toNat, v)
  else
    let r := reach s h ac.n true
    if !r.2 then .error (.stall r.1)
    else match poisonIn r.1.poison h ac.n with
      | some _ => .error (.trap cECC (wordAddr ac.va) 0)
      | none => atomicAt r.1 ac h (fun old => if old = cmp then some nv else none)

/-- ACAS: both accesses are checked, and the loads count has room for both, before either is issued; the new value is loaded first, and not again
where the atomic has to wait (03 R53). In an ordered launch the rule refuses it for every address, private space too (DESIGN CHOICE, log entry 44). -/
def execAcas (ty pa pb : BitVec 3) (s : State) : Out :=
  let n := tyBytes ty
  let cmp := s.core.regs.a.toNat % 2 ^ (8 * n)
  finish s (if isOrdered s then .error (operand 0 1)
    else match checkAccess s (s.ptr pa).addr n .atomic with
      | .error e => .error e
      | .ok a =>
        match checkAccess s (s.ptr pb).addr n .probe with
        | .error e => .error e
        | .ok b =>
          match a.place with
          | .port _ => .error (.trap cENGINE a.va 0)
          | .home h =>
            let seen := [a.seen true, b.seen false]
            if lacksRoom s 2 then .error (.stall s)
            else match loadAt s b with
            | .error e => .error (e.issued [] seen)
            | .ok (s1, nv) =>
              match casAt s1 a h cmp nv with
              | .error e => .error (e.issued [nv] seen)
              | .ok (t, old) => .ok ((t.setT (old == cmp)).setA (BitVec.ofNat 64 old)).advance)

end Sys2Proof.Machine
end

