-- ==== Sys2Proof/Machine/Stamped.lean ====
section
/-! DEFINITION. STMP, and the step count: stamped operations at their homes, STEP and the sweeps that a new base
starts (07 R122-R136, 13 R224). -/

namespace Sys2Proof.Machine

/-! ## Regions (07 R128) -/

/-- The region class for the current core, STAMP 0x01 outside every region (07 R129). -/
def stampRegion (s : State) (va : Word) (h : Nat) : Res (Ctx × Nat) :=
  match myCtx s with
  | none => .error (.trap cSTAMP va 1)
  | some x =>
    match regionClass x va.toNat h with
    | some c => .ok (x, c)
    | none => .error (.trap cSTAMP va 1)

/-! ## At the home (07 R129-R131) -/

/-- A stamped operation performed at home h: the state and the returned word, or its STAMP code. -/
def stampAt (s : State) (x : Ctx) (cls h fn : Nat) (o : Word) : Except Nat (State × Word) :=
  let w := homeWord s h
  match stampCheck x.decay cls (nowOf x.held) fn w o with
  | some c => .error c
  | none =>
    let r := stampEffect (x.decay.getD []) cls (nowOf x.held) (baseOf x.held) fn w o
    let s1 := loadLine s h 8 true
    match r.1 with
    | some v => .ok (performWrite s1 h 8 v.toNat false, r.2)
    | none => .ok (s1, r.2)

/-- The step count a stamped operation of the running task's ordered launch ages against (07 R134). -/
def launchHeld (s : State) : Word :=
  match launchOf s s.core.ctx s.core.id.slot.toNat with
  | some l => l.start
  | none => 0

/-- A stamped operation of an ordered launch on shared space: SLD and SAGE read the view, the rest is journaled; a
returning form gives the view's logical word (08 R138, 07 R134). The rule names the now and base of the launch's start for SLD and SAGE only; the
words that SADD, SMRG and SREBASE return are computed with the same (DESIGN CHOICE, log entry 44). -/
def stampOrdered (s : State) (x : Ctx) (ac : Access) (cls fn : Nat) (o : Word) : Res (State × Word) :=
  let full := fun (_ : Unit) => Except.error (Stop.trap cJOURNAL ac.va (BitVec.ofNat 64 (jcount s s.core.num)))
  let posted := fn == 1 || fn == 3
  let seen : Res (State × Word) :=
    if posted then .ok (s, 0)
    else match loadAt s ac with
      | .error e => .error e
      | .ok (t, v) =>
        let w := BitVec.ofNat 64 v
        let held := launchHeld s
        match stampCheck x.decay cls (nowOf held) (if fn = 4 then 4 else 0) w o with
        | some c => .error (.trap cSTAMP ac.va (BitVec.ofNat 64 c))
        | none =>
          if fn = 0 || fn = 5 then
            .ok (t, (stampEffect (x.decay.getD []) cls (nowOf held) (baseOf held) fn w o).2)
          else
            let l := logical (x.decay.getD []) (nowOf held) (baseOf held) w
            .ok (t, stampWord l.st l.cls l.val)
  match seen with
  | .error e => .error e
  | .ok (t, r) =>
    if fn = 0 || fn = 5 then .ok (t, r)
    else match jatomic t 2 ac.va.toNat 8 o fn with
      | some t1 => .ok (t1.touchTlb ac.va.toNat, r)
      | none => full ()

/-- STAMP of an operation that returns nothing: an upcall with TRAPPC at it (07 R129). -/
def stampUpcall (s : State) (cx g : Nat) (va pc : Word) (c : Nat) : State :=
  raiseUpcall s cx g { cause := cSTAMP, addr := va, pc := pc, x := BitVec.ofNat 64 c }

/-- A stamped operation of the current core on a checked access (07 R129, 13 R224, 02 R40, 03 R53). -/
def stampStep (s : State) (ac : Access) (h fn : Nat) : Res (State × Word) :=
  let posted := fn == 1 || fn == 3
  let fails := fun (t : State) (c : Nat) =>
    if posted then Except.ok (stampUpcall t s.core.ctx s.core.num ac.va s.core.regs.pc c, (0 : Word)) else .error (Stop.trap cSTAMP ac.va (BitVec.ofNat 64 c))
  if isFar h then .error (.trap cPERM ac.va 0)
  else match stampRegion s ac.va h with
    | .error _ => fails s 1
    | .ok (x, cls) =>
      if isOrdered s && isShared s h then stampOrdered s x ac cls fn s.core.regs.a
      else if !(if posted then storeRoom s else loadRoom s) then .error (.stall s)
      else
        let r := reach s h 8 true
        if !r.2 then .error (.stall r.1)
        else match poisonIn r.1.poison h 8 with
          | some _ => if posted then .ok (postedPoison r.1 ac, 0) else .error (.trap cECC (wordAddr ac.va) 0)
          | none =>
            match stampAt r.1 x cls h fn s.core.regs.a with
            | .ok (t, w) => .ok (if posted then awaitAck s (t.touchTlb ac.va.toNat) h else t.touchTlb ac.va.toNat, w)
            | .error c => fails r.1 c

/-- The checked home of a stamped operation. -/
def stampHome (s : State) (m : MOp) (k : Kind) : Res (Access × Nat) :=
  match checkAccess s (effAddr s m) 8 k with
  | .error e => .error e
  | .ok ac =>
    match ac.place with
    | .port _ => .error (.trap cENGINE ac.va 0)
    | .home h => .ok (ac, h)

/-- An STMP instruction that returns a word. -/
def stampR (s : State) (m : MOp) (k : Kind) (fn : Nat) : Out :=
  finish s (match stampHome s m k with
    | .error e => .error e
    | .ok (ac, h) =>
      match stampStep s ac h fn with
      | .error e => .error e
      | .ok (t, w) => .ok ((movePtr t m (nextAddr s m)).advance.setA w))

/-- An STMP instruction that returns nothing. -/
def stampN (s : State) (m : MOp) (fn : Nat) : Out :=
  finish s (match stampHome s m .atomic with
    | .error e => .error e
    | .ok (ac, h) =>
      match stampStep s ac h fn with
      | .error e => .error e
      | .ok (t, _) => .ok (movePtr t m (nextAddr s m)).advance)

/-- SLD. -/
def execSld (m : MOp) (s : State) : Out := stampR s m .probe 0
/-- SST. -/
def execSst (m : MOp) (s : State) : Out := stampN s m 1
/-- SADD. -/
def execSadd (m : MOp) (s : State) : Out := stampR s m .atomic 2
/-- SADD.N. -/
def execSaddN (m : MOp) (s : State) : Out := stampN s m 3
/-- SMRG. -/
def execSmrg (m : MOp) (s : State) : Out := stampR s m .atomic 4
/-- SAGE. -/
def execSage (m : MOp) (s : State) : Out := stampR s m .probe 5
/-- SREBASE. -/
def execSrebase (m : MOp) (s : State) : Out := stampR s m .atomic 6

/-! ## STEP (07 R124, R132, R133, R135) -/

/-- The SWEEP command for an entry of the region table; `table` keeps the step at which the sweep starts (07 R132, R133). -/
def sweepCmd (x : Ctx) (n : Nat) (r : Region) : Cmd :=
  { ecw0 := BitVec.ofNat 64 (8 + x.num * 2 ^ 16 + r.len * 2 ^ 32), ecw1 := BitVec.ofNat 64 r.base, ecw2 := 0,
    ecw3 := BitVec.ofNat 64 n, target := 0, core := (partCores x).headD 0, ctx := x.num, on := 0, key := 0, seq := n, done := 0,
    crc := 0xFFFFFFFF, poison := false, table := [x.gstep], fault := none, owner := 0, byPort := false, resumed := false }

/-- A new base: one SWEEP for each valid region (07 R132). -/
def issueSweeps (s : State) (x : Ctx) : State :=
  let rs := (x.regions.getD []).zipIdx.filterMap (fun e => e.1.map (fun r => (e.2, r)))
  let s1 := rs.foldl (fun t e => issueOwn t x (sweepCmd x e.1 e.2)) s
  if rs.isEmpty then s1
  else updCtx s1 x.num (fun c => { c with sweeps := c.sweeps + rs.length, sweepStart := if c.sweeps = 0 then c.gstep else c.sweepStart })

/-- May the step home take one more increment (07 R133). -/
def stepAllowed (x : Ctx) : Bool := x.sweeps == 0 || x.gstep.toNat + 1 < x.sweepStart.toNat + 2 ^ 22

/-- Every home and core takes the step home's count; a new base starts sweeps (07 R123, R124, R132). -/
def takeStep (s : State) (x : Ctx) : State :=
  let s1 := updCtx s x.num (fun c => { c with held := c.gstep })
  if x.held.toNat / 2 ^ 20 = x.gstep.toNat / 2 ^ 20 then s1 else issueSweeps s1 { x with held := x.gstep }

/-- The step home adds one (07 R124). -/
def addStep (s : State) (x : Ctx) : State := updCtx s x.num (fun c => { c with gstep := c.gstep + 1 })

/-- The running task's STEP is recorded as complete, or no longer. -/
def State.setStepDone (s : State) (b : Bool) : State := { s with core := { s.core with sched := { s.core.sched with stepDone := b } } }

/-- STEP: complete when its increment is, else the increment is sent; one that the step home cannot take yet waits there, and is counted once,
when the step home takes it (07 R124, R133, R135). -/
def execStep (s : State) : Out :=
  finish s (match myCtx s with
    | none => .ok s.advance
    | some x =>
      if s.core.sched.stepDone then
        if x.held = x.gstep then .ok (s.setStepDone false).advance else .error (.stall s)
      else if x.stepReq.contains s.core.num then .error (.stall s)
      else if stepAllowed x then .ok (takeStep (addStep s x) { x with gstep := x.gstep + 1 }).advance
      else .error (.stall (updCtx s x.num (fun c =>
        { c with stepReq := c.stepReq ++ [s.core.num] }))))

end Sys2Proof.Machine
end

