-- ==== Sys2Proof/Machine/Msys.lean ====
section
/-! DEFINITION. MSYS but for STEP: fences, waits, watches and cache control (13 R225-R229). -/

namespace Sys2Proof.Machine

/-- FENCE: every earlier access is performed already; a SYS fence covers the host links (03 R60, R68). -/
def execFence (scope : BitVec 2) (s : State) : Out :=
  finish s (if scope = 3 then .error (operand 0 0)
    else if scopeOut s scope then .error (.stall s)
    else if scope = 2 then (match coverHost s with
      | .error e => .error e
      | .ok t => .ok t.advance)
    else .ok s.advance)

/-- DRAIN (03 R65, R68). -/
def execDrain (s : State) : Out :=
  finish s (if storesOut s != 0 then .error (.stall s)
    else match coverHost s with
      | .error e => .error e
      | .ok t => .ok t.advance)

/-- The counts of CNTS: loads, stores, copies, tile operations (11 R197, 03 R53). A load's value has come when its instruction is over, so
only MREADs still count as loads. -/
def counts (s : State) : List Nat := [loadsOut s, storesOut s, copiesOf s, tileOps s]

/-- Is each count at or below its nibble, 15 being no limit (13 R226). -/
def countsWithin (s : State) (n : BitVec 16) : Bool :=
  (counts s).zipIdx.all (fun e => bits n (4 * e.2 + 3) (4 * e.2) == 15 || e.1 ≤ bits n (4 * e.2 + 3) (4 * e.2))

/-- WAITC. -/
def execWaitc (n : BitVec 16) (s : State) : Out :=
  finish s (if countsWithin s n then .ok s.advance else .error (.stall s))

/-- Watches of other cores held at vault g. -/
def vaultWatches (s : State) (g : Nat) : List (Nat × Watch) :=
  s.others.filterMap (fun e => e.2.watch.bind (fun w => if w.block * 128 / Config.vaultBytes = (vaultHome g 0) / Config.vaultBytes then some (e.1, w) else none))

/-- The core whose watch is the oldest. -/
def oldestWatch : List (Nat × Watch) → Option (Nat × Watch)
  | [] => none
  | e :: r =>
    match oldestWatch r with
    | none => some e
    | some f => if f.2.since < e.2.since then some f else some e

/-- A vault controller that holds more than 64 watches drops the oldest (03 R62). -/
def limitWatches (s : State) (h : Nat) : State :=
  if isVaultHome h then
    let ws := vaultWatches s ((h - Config.vaultKey) / Config.vaultBytes)
    if 64 ≤ ws.length then
      match oldestWatch ws with
      | some e => updCore s e.1 (fun c => { c with watch := none })
      | none => s
    else s
  else s

/-- The core's watch replaced. -/
def State.setWatch (s : State) (w : Option Watch) : State := { s with core := { s.core with watch := w } }

/-- A checked 1-byte access at a pointer (13 R227, R228). -/
def probeAt (s : State) (p : BitVec 3) : Res (Access × Nat) :=
  match checkAccess s (s.ptr p).addr 1 .probe with
  | .error e => .error e
  | .ok ac =>
    match ac.place with
    | .port _ => .error (.trap cENGINE ac.va 0)
    | .home h => .ok (ac, h)

/-- MWATCH: a host or peer address arms nothing; a slice watches a line that it holds (DEDUCED, log entry 43). -/
def execMwatch (p : BitVec 3) (s : State) : Out :=
  finish s (match probeAt s p with
    | .error e => .error e
    | .ok (ac, h) =>
      if isFar h then .ok ((s.setWatch none).touchTlb ac.va.toNat).advance
      else if !loadRoom s then .error (.stall s)
      else
        let r := reach s h 1 false
        if !r.2 then .error (.stall r.1)
        else
          let t := loadLine r.1 h 1 true
          .ok (((limitWatches t h).setWatch (some { block := h / 128, since := s.clock, seen := false })).touchTlb ac.va.toNat).advance)

/-- CYC, and one, when the MWAIT at PC began to wait; 0 while none waits. -/
def State.setWaited (s : State) (n : Nat) : State := { s with core := { s.core with sched := { s.core.sched with mwaited := n } } }

/-- The mark of a wait whose time is over (13 R227): no count of cycles reaches it. -/
def waitOver : Nat := 2 ^ 65

/-- Is a watch's line gone from the slice that watched it (03 R62; DEDUCED, log entry 43). -/
def watchGone (s : State) (w : Watch) : Bool := isSliced (w.block * 128) && (lineOf s.lines w.block).isNone

/-- MWAIT: an event of the watch, its loss, or no watch, ends it with T = 1, its timeout with T = 0. -/
def execMwait (n : BitVec 19) (s : State) : Out :=
  finish s (match s.core.watch with
    | none => .ok ((s.setWaited 0).setT true).advance
    | some w =>
      if w.seen then .ok (((s.setWatch (some { w with seen := false })).setWaited 0).setT true).advance
      else if watchGone s w then .ok (((s.setWatch none).setWaited 0).setT true).advance
      else if n != 0 && s.core.sched.mwaited != 0 && (s.core.sched.mwaited == waitOver || n.toNat * 64 + s.core.sched.mwaited ≤ s.core.csr.cyc.toNat + 1) then
        .ok ((s.setWaited 0).setT false).advance
      else .error (.stall (s.setWaited (if s.core.sched.mwaited = 0 then s.core.csr.cyc.toNat + 1 else s.core.sched.mwaited))))

/-- IFENCE empties the instruction cache (03 R72). -/
def execIfence (s : State) : Out := finish s (.ok { s with core := { s.core with icache := [] } }.advance)

/-! ## Cache control (13 R228, 02 R37, R39) -/

/-- A cache-control instruction: `f` acts on the line of a slice; elsewhere it is only acknowledged. A posted one counts as a store, CPIN as a load (13 R228). -/
def lineControl (s : State) (p : BitVec 3) (posted : Bool) (f : State → Nat → State) : Out :=
  finish s (match probeAt s p with
    | .error e => .error e
    | .ok (ac, h) =>
      let ack := fun (t : State) => if posted then awaitAck s t h else t
      if !(if posted then storeRoom s else loadRoom s) || (isSliced h && setBusy s (h / 128)) then .error (.stall s)
      else if isSliced h then
        let r := reach s (h / 128 * 128) 128 false
        if !r.2 then .error (.stall r.1) else .ok (ack ((f r.1 (h / 128)).touchTlb ac.va.toNat)).advance
      else .ok (ack (s.touchTlb ac.va.toNat)).advance)

/-- A line written back, and dropped unless pinned, its watches lost with it (02 R39, 03 R62). -/
def flushLine (s : State) (n : Nat) : State :=
  match lineOf s.lines n with
  | none => s
  | some l =>
    if l.pinned then { s with lines := putLine { l with dirty := 0, behind := [] } s.lines }
    else { loseWatch s n with lines := dropLine n s.lines }

/-- A line allocated, filled and pinned, or the refusal; the flag says which (02 R37). -/
def pinLine (s : State) (n : Nat) : State × Bool :=
  if canAllocate s n then
    ({ loseEvicted s n with lines := fillWith s n (fun l => { l with pinned := true }), trees := treesAfter s n false }, true)
  else (s, false)

/-- A line's pin bit cleared. -/
def unpinLine (s : State) (n : Nat) : State :=
  match lineOf s.lines n with
  | none => s
  | some l => { s with lines := putLine { l with pinned := false } s.lines }

/-- Requests that wait in the conflict queue of a line's bank (02 R31, R32). -/
def bankWaits (s : State) (n : Nat) : Nat :=
  (s.waiting.filter (fun r => homeSlice s r.addr == homeSlice s (n * 128) && bankOf s (r.addr / 128) == bankOf s n)).length

/-- A line filled where absent and a way can take it, next to go; dropped while more than 16 requests wait for its bank (02
R37, R39). -/
def prefetchLine (s : State) (n : Nat) : State :=
  if (lineOf s.lines n).isNone && canAllocate s n && bankWaits s n ≤ 16 then
    { loseEvicted s n with lines := fillWith s n id, trees := treesAfter s n true }
  else s

/-- CFLUSH. -/
def execCflush (p : BitVec 3) (s : State) : Out := lineControl s p true flushLine
/-- CPIN: T says whether the line is pinned. -/
def execCpin (p : BitVec 3) (s : State) : Out :=
  lineControl s p false (fun t n => (pinLine t n).1.setT (pinLine t n).2)
/-- CUNPIN. -/
def execCunpin (p : BitVec 3) (s : State) : Out := lineControl s p true unpinLine
/-- CPREF never faults; it counts as a store, and keeps its order at the slice as any request does (13 R228, 02 R32, R34). -/
def execCpref (p : BitVec 3) (s : State) : Out :=
  finish s (match probeAt s p with
    | .error _ => .ok s.advance
    | .ok (ac, h) =>
      if !storeRoom s then .error (.stall s)
      else if isSliced h then
        let r := reach s (h / 128 * 128) 128 false
        if !r.2 then .error (.stall r.1) else .ok (awaitAck s ((prefetchLine r.1 (h / 128)).touchTlb ac.va.toNat) h).advance
      else .ok (awaitAck s (s.touchTlb ac.va.toNat) h).advance)

end Sys2Proof.Machine
end

