-- ==== Sys2Proof/Machine/Homes.lean ====
section
/-! DEFINITION. Requests that ports and engines send to the homes, their fills and write-backs, the responses that reach a
core, watches that end, and the multicast steps of a slice (02 R21, R32-R40, R49-R52, 03 R53, R62, R67). A core's own
accesses are performed at their issue. -/

namespace Sys2Proof

/-- Is a request one that a home takes: 1, 2, 4 or 8 bytes, naturally aligned, and an operation that exists. -/
def Req.ok (r : Req) : Bool :=
  [1, 2, 4, 8].contains r.size && r.addr % r.size == 0 &&
    match r.op with
    | .atom fn => fn.toNat % 16 ≤ 9 && 4 ≤ r.size
    | .cas _ => 4 ≤ r.size
    | .stamp _ _ fn => fn ≤ 6 && r.size == 8
    | .mread _ => false
    | .hold => false
    | _ => true

/-- A plain response to a request. -/
def Req.answer (r : Req) (v : Option Word) : Resp := { core := r.src, ctx := 0, owner := 0, value := v, refused := false, bad := false }

/-- Does a request return a value that poison spoils (02 R40). -/
def Req.reads (r : Req) : Bool :=
  match r.op with
  | .load => true
  | .atom _ => true
  | .cas _ => true
  | .stamp _ _ _ => true
  | _ => false

/-- The low bytes of a request's data. -/
def Req.value (r : Req) : Nat := r.data.toNat % 2 ^ (8 * r.size)

/-- Is a request a posted atomic, which a poisoned word makes an upcall (02 R40). -/
def Req.posts (r : Req) : Bool :=
  match r.op with
  | .atom fn => 16 ≤ fn.toNat
  | .stamp _ _ fn => fn == 1 || fn == 3
  | _ => false

/-- Does a request of a core name 1 to 64 lines of device memory, each homed at the slice, and destinations that exist. -/
def MReq.ok (s : Machine.State) (m : MReq) : Bool :=
  m.src < Config.nCores && !m.lines.isEmpty && m.lines.length ≤ 64 &&
    m.lines.all (fun l => Machine.isSliced (l.1 * 128) && Machine.homeSlice s (l.1 * 128) == m.slice && l.2 % 128 == 0 && l.2 + 128 ≤ Config.vaultBytes) &&
    (match m.bobj with | some o => o % 16 == 0 && o + 16 ≤ Config.vaultBytes | none => true)

/-- Does a delivery lie in a vault that exists. -/
def Delivery.ok (d : Delivery) : Bool :=
  d.vault < Config.nCores && d.issuer < Config.nCores && (d.cmd.isSome || d.off % 128 == 0) && d.off + d.data.length ≤ Config.vaultBytes &&
    (match d.bobj with | some o => o % 16 == 0 && o + 16 ≤ Config.vaultBytes | none => true)

end Sys2Proof

namespace Sys2Proof.Machine

/-! ## A request performed (02 R34, 01 R21) -/

/-- A read-modify-write of a request: `f` gives what is written, if anything (03 R61). -/
def modifyAt (s : State) (r : Req) (f : Nat → Option Nat) : State × Nat :=
  let s0 := loadLine s r.addr r.size true
  let old := homeRead s0 r.addr r.size
  match f old with
  | some v => (performWrite s0 r.addr r.size v false, old)
  | none => (s0, old)

/-- A stamped operation of a request, refused where a check fails, with an upcall for a core's that returns nothing (07 R129-R131). -/
def stampReq (s : State) (r : Req) (ctx : Nat) (va : Word) (fn : Nat) : State × Resp :=
  let no := fun (c : Nat) => (if (fn = 1 || fn = 3) && r.src < Config.nVaults then stampUpcall s ctx r.src va r.pc c else s, { r.answer none with refused := true })
  match ctxOf s ctx with
  | none => no 1
  | some x =>
    match regionClass x va.toNat r.addr with
    | none => no 1
    | some cls =>
      match stampAt s x cls r.addr fn r.data with
      | .error c => no c
      | .ok (t, w) => (t, r.answer (if fn = 1 || fn = 3 then none else some w))

/-- A posted atomic of a core has found a poisoned word: an upcall on the issuing core, with TRAPA at the word that the instruction named and TRAPPC
at the instruction (02 R40). -/
def poisonUpcall (s : State) (r : Req) : State :=
  raiseUpcall s (coreOf s r.src).ctx r.src { cause := cECC, addr := wordAddr r.va, pc := r.pc, x := 0 }

/-- A request performed at its home. One that reads a poisoned word changes nothing and answers with the poison; a core's posted one raises
ECC there. -/
def performReq (s : State) (r : Req) : State × Resp :=
  if r.reads && (poisonIn s.poison r.addr r.size).isSome then
    (if r.posts && r.src < Config.nVaults then poisonUpcall s r else s,
     { r.answer (some (BitVec.ofNat 64 (homeRead s r.addr r.size))) with bad := true })
  else
    let onLine := fun (f : State → Nat → State) => if isSliced r.addr then f s (r.addr / 128) else s
    match r.op with
    | .load => (loadLine s r.addr r.size true, r.answer (some (BitVec.ofNat 64 (homeRead s r.addr r.size))))
    | .store => (performWrite s r.addr r.size r.value false, r.answer none)
    | .storeNt => (performWrite s r.addr r.size r.value true, r.answer none)
    | .cflush => (onLine flushLine, r.answer none)
    | .cpin => (onLine (fun t n => (pinLine t n).1), r.answer (some (if isSliced r.addr && canAllocate s (r.addr / 128) then 1 else 0)))
    | .cunpin => (onLine unpinLine, r.answer none)
    | .cpref => (onLine prefetchLine, r.answer none)
    | .hold => (s, r.answer none)
    | .watch => (loadLine s r.addr r.size true, r.answer none)
    | .atom fn =>
      let m := modifyAt s r (fun old => some (atomOp (fn.toNat % 16) r.size old r.value))
      (m.1, r.answer (if fn.toNat < 16 then some (atomExt (fn.toNat % 16) r.size m.2) else none))
    | .cas old =>
      let m := modifyAt s r (fun v => if v = old.toNat % 2 ^ (8 * r.size) then some r.value else none)
      (m.1, r.answer (some (BitVec.ofNat 64 m.2)))
    | .stamp ctx va fn => stampReq s r ctx va fn
    | .mread m => ((openEntry s m).getD s, r.answer none)

/-- The watch that a request of a core arms at its home (03 R62). -/
def armWatch (s : State) (r : Req) : State :=
  if r.op == .watch && r.src < Config.nVaults then
    updCore (limitWatches s r.addr) r.src (fun c => { c with watch := some { block := r.addr / 128, since := s.clock, seen := false } })
  else s

/-- The response of a port's or engine's request goes on its way. -/
def respond (s : State) (r : Resp) : State :=
  if r.core < Config.nVaults then s
  else { s with responses := s.responses ++ [r], pending := s.pending ++ [(r.core, .accessResponse)] }

/-- A request performed, with its response. -/
def serve (s : State) (r : Req) : State :=
  let p := performReq s r
  respond (armWatch p.1 r) p.2

/-! ## SLICE_REQUEST and its fills (02 R33-R38) -/

/-- Does an earlier request that waits hold this one back: its line's, its source's, or, for a peer's release, any of its source's anywhere (02 R34,
03 R70); or do locks in its set leave it no way (02 R37). DEDUCED: log entry 33. -/
def heldBack (s : State) (r : Req) : Bool :=
  lineLocked s r.addr r.size || setBusy s (r.addr / 128) || sourceWaits s r.src r.addr ||
    (r.rel && (s.waiting ++ s.stop).any (fun k => k.src == r.src && k.stamp ≤ r.stamp))

/-- The valid words of a line. -/
def validWords (s : State) (n : Nat) : BitVec 16 := ((lineOf s.lines n).map (·.valid)).getD 0

/-- Does a request need words that the line does not hold, so that a merging fill comes first (02 R35, R36); a bypassed
access needs none (02 R38). -/
def needsFill (s : State) (r : Req) : Bool :=
  let n := r.addr / 128
  let fills := match r.op with
    | .store => r.size < 8
    | .storeNt => r.size < 8
    | .cpin => true
    | _ => r.reads
  fills && canAllocate s n && (if r.op == .cpin then validWords s n != 0xFFFF else touchedWords r.addr r.size &&& ~~~(validWords s n) != 0)

/-- The line locked for a fill, which is due. -/
def startFill (s : State) (n : Nat) : State :=
  match wayFor s n with
  | none => s
  | some w =>
    { loseEvicted s n with lines := putLine { lineAt s n w with locked := true } (makeRoom s n w), trees := treesAfter s n false,
                           pending := s.pending ++ [(n, .mergingFill)] }

/-- A request arrives in its bank: it is performed, or waits behind others, for a fill, or for a claim that stood before it and that a recall frees
(04 R81). -/
def arriveOther (s : State) (r : Req) : State :=
  if heldBack s r then { s with waiting := s.waiting ++ [r] }
  else if needsFill s r then startFill { s with waiting := s.waiting ++ [r] } (r.addr / 128)
  else
    let t := settleAmong (fun c => c.key ≤ r.stamp) s r.addr r.size (r.op != .load)
    if t.2 then serve t.1 r
    else { t.1 with waiting := t.1.waiting ++ [r], pending := t.1.pending ++ [(r.addr / 128, .mergingFill)] }

/-- A request of any kind arrives in its bank. -/
def arrive (s : State) (r : Req) : State :=
  match r.op with
  | .mread m => arriveMread s r m
  | .hold => { s with waiting := s.waiting ++ [r] }
  | _ => arriveOther s r

/-- A request comes to its slice's stop: it waits there, behind others of any bank, while a conflict queue is full (02 R32). -/
def intake (s : State) (r : Req) : State := if intakeStopped s r.addr then { s with stop := s.stop ++ [r] } else arrive s r

/-- SLICE_REQUEST. -/
def execSliceRequest (r : Req) (s : State) : Out :=
  .next (if r.ok && isSliced r.addr then intake s { r with stamp := arrivalKey s }
    else match r.op with
      | .mread m => if m.ok s then intakeMread s m else s
      | _ => s)

/-- Waiting requests arrive anew in their order, and then those at the slices' stops. -/
def arriveAll (s : State) : State :=
  let t := s.waiting.foldl arrive { s with waiting := [] }
  t.stop.foldl intake { t with stop := [] }

/-- MERGING_FILL: the line is whole and unlocked, and what waited for it goes on (02 R36). -/
def execMergingFill (s : State) : Out :=
  .next (match lineOf s.lines s.unit with
    | some l =>
      if l.locked then arriveAll { s with lines := putLine { l with valid := 0xFFFF, locked := false } s.lines }
      else arriveAll s
    | none => arriveAll s)

/-- WRITE_BACK_COMPLETE: the line's dirty words are in DRAM; its lock goes unless requests wait for a fill (02 R39). -/
def execWriteBackComplete (s : State) : Out :=
  .next (match lineOf s.lines s.unit with
    | some l => { s with lines := putLine { l with dirty := 0, behind := [], locked := l.locked && s.waiting.any (fun r => r.addr / 128 == s.unit) } s.lines }
    | none => s)

/-! ## VAULT_ACCESS (01 R21) -/

/-- Does a request lie in a vault that exists. -/
def inSomeVault (r : Req) : Bool :=
  isVaultHome r.addr &&
    (let g := (r.addr - Config.vaultKey) / Config.vaultBytes
     g < Config.nVaults && (r.addr - Config.vaultKey) % Config.vaultBytes + r.size ≤ vaultSize g)

/-- VAULT_ACCESS: performed in its turn, once no claim holds it back (04 R80). -/
def execVaultAccess (r : Req) (s : State) : Out :=
  .next (if r.ok && inSomeVault r then
      let t := settle s r.addr r.size (r.op != .load)
      if t.2 then serve t.1 r else { t.1 with pending := t.1.pending ++ [(s.unit, .vaultAccess r)] }
    else s)

/-! ## Responses and watches (03 R53, R62, R67, 13 R227) -/

/-- The first response for a core, and the others. -/
def takeResponse (g : Nat) : List Resp → Option (Resp × List Resp)
  | [] => none
  | r :: rest =>
    if r.core = g then some (r, rest)
    else match takeResponse g rest with
      | some (k, l) => some (k, r :: l)
      | none => none

/-- Does a core wait for a response: its task asked for it. -/
def Core.awaits (c : Core) (r : Resp) : Bool := c.num == r.core && c.ctx == r.ctx && c.port.owner == r.owner && c.sched.asked

/-- The value of a response deposited in a core. -/
def Core.deposit (r : Resp) (c : Core) : Core :=
  { c with sched := { c.sched with returns := c.sched.returns ++ [r], asked := false, askHome := none } }

/-- The 32 slots of in-flight returns in a save area, 16 bytes each: valid, a destination (`a` where a value has come), a refusal and poison in the
first doubleword, and the value in the second (10 R185; DESIGN CHOICE, log entry 29). -/
def returnsNat : List Resp → Nat
  | [] => 0
  | r :: rest =>
    1 + (if r.value.isSome then 2 else 0) + (if r.refused then 4 else 0) + (if r.bad then 8 else 0) + (r.value.getD 0).toNat * 2 ^ 64 +
      returnsNat rest * 2 ^ 128

/-- Key in `State.saves` of a save area at a physical address, above those of a context's cores. DESIGN CHOICE: log entry 29. -/
def saveKey (pa : Nat) : Nat := 2 ^ 20 + pa

/-- The save area of a key in `State.saves`: the one assigned to a context's core, or the one that a CSAVE has named. -/
def areaOfKey (key : Nat) : Nat := if key < 2 ^ 20 then assignedArea (key / 2048) (key % 2048) else key - 2 ^ 20

/-- A value that reaches a halted core is deposited in its save area too (03 R67, 10 R186). -/
def depositSaved (s : State) (area : Nat) (returns : List Resp) : State := homeWrite s (area + 0x600) 512 (returnsNat returns)

/-- ACCESS_RESPONSE: the value reaches the core that waits for it, or the save area of a halted one (03 R67); the requests of ports and engines
wait for none. -/
def execAccessResponse (s : State) : Out :=
  .next (match takeResponse s.unit s.responses with
    | none => s
    | some (r, rest) =>
      let s1 := { s with responses := rest }
      if s.unit < Config.nVaults then
        let c := coreOf s s.unit
        if c.awaits r then
          let s2 := updCore s1 s.unit (Core.deposit r)
          if c.sched.halted then depositSaved s2 (assignedArea c.ctx s.unit) (c.deposit r).sched.returns else s2
        else
          let s2 := { s1 with saves := s1.saves.map (fun e => if e.2.awaits r then (e.1, e.2.deposit r) else e) }
          match s1.saves.find? (fun e => e.2.awaits r) with
          | some e => depositSaved s2 (areaOfKey e.1) (e.2.deposit r).sched.returns
          | none => s2
      else s1)

/-- MWAIT_WAKE: the watch has seen an event, or a spurious one. -/
def execMwaitWake (s : State) : Out :=
  .next (if s.unit < Config.nVaults && (coreOf s s.unit).watch.isSome then
      updCore s s.unit (fun c => { c with watch := c.watch.map (fun w => { w with seen := true }) })
    else s)

/-- MWAIT_TIMEOUT: a core that waits in MWAIT has waited its time. -/
def execMwaitTimeout (s : State) : Out :=
  .next (if s.unit < Config.nVaults && (coreOf s s.unit).sched.mwaited != 0 then
      updCore s s.unit (fun c => { c with sched := { c.sched with mwaited := waitOver } })
    else s)

/-! ## Multicast (02 R49-R52, 04 R93, 23 R365) -/

/-- MREAD_REQUEST: it opens an entry or joins one, or waits while the table is full. -/
def execMreadRequest (m : MReq) (s : State) : Out := .next (if m.ok s then intakeMread s m else s)

/-- MERGE_WINDOW_END: the slice's oldest entry that still holds its first line may send it. -/
def execMergeWindowEnd (s : State) : Out :=
  .next (match s.mcast.find? (fun e => e.req.slice == s.unit && e.window) with
    | none => s
    | some e =>
      { s with mcast := s.mcast.map (fun k => if k = e then { e with window := false } else k),
               pending := s.pending ++ [(s.unit, .multicastLineSend)] })

/-- A slice's entry reads and sends its next line, once no claim holds the line and its stop has room (04 R80, 02 R47); a table entry that
frees lets a waiting request in. -/
def sliceSends (s : State) : State :=
  match s.mcast.find? (fun e => e.req.slice == s.unit && !e.window) with
  | none => s
  | some e =>
    let t := settle s (e.nextLine * 128) 128 false
    let u := if t.2 && sourceFree t.1 (slicePacket s.unit []) then entryLine t.1 e else t.1
    let w := if u.mcast.length < s.mcast.length then arriveAll u else u
    if w.mcast.any (fun k => k.req.slice == s.unit && !k.window) then { w with pending := w.pending ++ [(s.unit, .multicastLineSend)] } else w

/-- MULTICAST_LINE_SEND: a slice's next line, or the next of a core's TSENDs. -/
def execMulticastLineSend (s : State) : Out := .next (if s.unit < 64 then sliceSends s else sendLine s (s.unit - 64))

/-- PARTIAL_FORK_RESIDUAL: what stands at the forks moves on where its branches have credit (02 R51). -/
def execPartialForkResidual (s : State) : Out := .next (dueForks (forkSweep s.forks [] s))

/-- VAULT_DELIVERY: the packet is written at its vault, once no claim holds it back. -/
def execVaultDelivery (d : Delivery) (s : State) : Out :=
  .next (if d.ok then
      match deliver s d with
      | some t => t
      | none => { s with pending := s.pending ++ [(s.unit, .vaultDelivery d)] }
    else s)

end Sys2Proof.Machine
end

