-- ==== Sys2Proof/Machine/Paging.lean ====
section
/-! DEFINITION. Misses answered by the service core, host-backed ranges, migration between tiers, and a band's change of
mode (06 R116-R121, 01 R24). -/

namespace Sys2Proof.Machine

/-! ## Fills (06 R116, R117) -/

/-- The first fill of core g that `p` picks, with its context's number. -/
def fillOf (s : State) (g : Nat) (p : Fill → Bool) : Option (Nat × Fill) :=
  s.ctxs.findSome? (fun x => (x.fills.find? (fun f => f.core == g && p f)).map (fun f => (x.num, f)))

/-- Changes one fill of a context. -/
def updFill (s : State) (cx : Nat) (f k : Fill) : State :=
  updCtx s cx (fun x => { x with fills := x.fills.map (fun e => if e = f then k else e) })

/-- A fill answered with a status; the notice is due where a core waits for it, not for an engine's (04 R85). -/
def answerFill (s : State) (cx : Nat) (f : Fill) (status : Nat) : State :=
  let s1 := updFill s cx f { f with status := some status }
  if f.cmd.isSome then s1 else due s1 f.core .completionNotice

/-- A fill that stays unanswered is looked at again. -/
def holdFill (s : State) (g : Nat) : State := dueOnce (dueOnce s g .fillTimeout) g .translationMissMessage

/-- The walk's page written into the cluster TLB and the fill answered, or the status of the walk; it waits where the walk does. -/
def resolveFill (s : State) (cx : Nat) (f : Fill) : State :=
  match walk s cx f.va.toNat f.write f.fetch with
  | .ok (t, p) => answerFill (insertPage t (clusterOf f.core) p) cx f 0
  | .error st => if st = 0 then holdFill s f.core else answerFill s cx f st

/-- Unanswered fills of a cluster for the same host-backed page: one request asks the driver for all of them (06 R116). -/
def sameGap (x : Ctx) (f g : Fill) : Bool :=
  clusterOf f.core == clusterOf g.core && g.status.isNone && x.hostGaps.any (fun p => p.has x.num f.va.toNat && p.has x.num g.va.toNat)

/-- The driver is asked, with a frame whose layout the manual does not give, unless another fill of the cluster has asked already (06 R116, R120;
DESIGN CHOICE, log entry 3). -/
def askDriver (s : State) (cx : Nat) (f : Fill) : State :=
  match ctxOf s cx with
  | none => s
  | some x =>
    let s1 := updFill s cx f { f with host := true }
    let s2 := if x.fills.any (fun g => sameGap x f g && g.host) then s1
      else
        let (w, t) := freeNext s1
        updCtx (hostFrame t cx [w]) cx (fun k => { k with hostAsks := k.hostAsks ++ [(f.core, f.va.toNat)] })
    dueOnce s2 f.core .fillTimeout

/-- A record for a cluster's service core is posted: it ends an IDLE (19 R335). -/
def wakeService (s : State) (g : Nat) : State :=
  updCore s (serviceCore (clusterOf g)) (fun c => { c with sched := { c.sched with idling := false } })

/-- One miss of context cx is looked at: a fill held by a migration stays unanswered, and one for a host-backed range asks the driver (06 R120,
R121). -/
def answerMiss (cx : Nat) (s : State) (f : Fill) : State :=
  if heldByMigration s cx f.va.toNat then holdFill s f.core
  else match walk s cx f.va.toNat f.write f.fetch with
    | .error 3 => askDriver s cx f
    | _ => resolveFill s cx f

/-- Fills of core g that the service core has still to answer. -/
def Ctx.missesOf (x : Ctx) (g : Nat) : List Fill := x.fills.filter (fun f => f.core == g && f.status.isNone && !f.host)

/-- TRANSLATION_MISS_MESSAGE: the service core walks, fills and answers, for every miss of the core that has reached it. -/
def execTranslationMissMessage (s : State) : Out :=
  let g := s.unit
  let xs := s.ctxs.filter (fun x => !(x.missesOf g).isEmpty)
  .next (if xs.isEmpty then s else xs.foldl (fun t x => (x.missesOf g).foldl (answerMiss x.num) t) (wakeService s g))

/-- COMPLETION_NOTICE: a level-0 continuation at UPCV on the core that holds the frame, or in the context's queue; a core that stalls without a frame
is told. -/
def execCompletionNotice (s : State) : Out :=
  .next (match fillOf s s.unit (fun f => f.status.isSome && f.cmd.isNone && !f.told) with
    | none => s
    | some (cx, f) =>
      if f.frame = .none then updFill s cx f { f with told := true }
      else
      let s1 := updCtx s cx (fun x => { x with fills := x.fills.erase f })
      enqueue s1 cx f.core { level := 0, work := .notice (f.status.getD 0) f.frame, entered := 0, aged := false })

/-- FILL_TIMEOUT: the fills of the core that have no answer within the context's limit get TIMEOUT. -/
def execFillTimeout (s : State) : Out :=
  let g := s.unit
  let late := fun (x : Ctx) => x.fills.filter (fun f => f.core == g && f.status.isNone && x.fillLimit * cycleLength s g ≤ s.clock - f.since)
  let t := s.ctxs.foldl (fun t x => (late x).foldl (fun t f => answerFill t x.num f 4) t) s
  .next (if (fillOf t g (fun f => f.status.isNone)).isSome then dueOnce t g .fillTimeout else t)

/-! ## Host-backed ranges (06 R120) -/

/-- Fills of the core's cluster that wait for the driver's answer about the address va (06 R116, R120). -/
def waitFor (x : Ctx) (g va : Nat) : List Fill :=
  let page := x.hostGaps.find? (fun p => p.has x.num va)
  x.fills.filter (fun f => f.status.isNone && f.host && clusterOf f.core == clusterOf g &&
    (f.va.toNat == va || page.any (fun p => p.has x.num f.va.toNat)))

/-- HOST_FAULT_IN_ANSWER: the driver has mapped the range that a core's oldest request asks for at a host-window address, or refuses; every fill of
the cluster for the page is answered, but those that have had TIMEOUT meanwhile. -/
def execHostFaultInAnswer (g : Nat) (pa : Option Nat) (s : State) : Out :=
  .next (match s.ctxs.findSome? (fun x => (x.hostAsks.find? (fun e => e.1 == g)).map (fun e => (x, e.2))) with
    | none => s
    | some (x, va) =>
      let s0 := updCtx s x.num (fun k => { k with hostAsks := k.hostAsks.erase (g, va) })
      match pa, x.hostGaps.find? (fun p => p.has x.num va) with
      | some a, some p =>
        let s1 := updCtx s0 x.num (fun k => { k with pages := k.pages ++ [{ p with pa := a }], hostGaps := k.hostGaps.erase p })
        (waitFor x g va).foldl (fun t k => resolveFill t x.num k) s1
      | none, _ => (waitFor x g va).foldl (fun t k => answerFill t x.num k 3) s0
      | some _, none => (waitFor x g va).foldl (fun t k => resolveFill t x.num k) s0)

/-- Is an access through a page still to be performed: one that the cores which `p` picks have issued, or the work of a command accepted for such
a core, which translates through the page (06 R115, R121). -/
def stillThrough (s : State) (p : Core → Bool) (e : Page) : Bool :=
  issuedThrough s p e.pa (pageBytes e.size) ||
    (allCmds s).any (fun c => p (coreOf s c.core) && c.inCtx.ctx == e.ctx && c.fault.isNone &&
      (c.claims s ++ c.next s).any (fun k => k.2.1 < e.va + pageBytes e.size && e.va < k.2.1 + k.2.2))

/-- HOST_UNMAP_REQUEST: the host-backed pages of a range leave every TLB and, once no access through them remains to be performed, the tables, with which
the driver's request is complete (06 R115, R120). -/
def execHostUnmapRequest (ctx : Nat) (va : Word) (pages : Nat) (s : State) : Out :=
  let hit := fun (p : Page) => p.ctx == ctx && isHost p.pa && p.va < va.toNat + 4096 * pages && va.toNat < p.va + pageBytes p.size
  let s1 := dropEverywhere s hit
  let gone := ((ctxOf s ctx).map (fun x => x.pages.filter hit)).getD []
  .next (if gone.any (stillThrough s1 (fun _ => true)) then due s1 s.unit (.hostUnmapRequest ctx va pages)
    else updCtx (gone.foldl (fun t p => rehome t p none) s1) ctx (fun x => { x with hostGaps := x.hostGaps ++ gone, pages := x.pages.filter (fun p => !hit p) }))

/-! ## Migration (06 R121) -/

/-- Slices that home lines of a page. -/
def pageSlices (s : State) (pa size : Nat) : List Nat :=
  ((List.range (pageBytes size / 512)).map (fun i => homeSlice s (pa + 512 * i))).eraseDups

/-- Is a page a layer's destination. -/
def inLayer (s : State) (x : Ctx) (p : Page) : Bool :=
  (List.range x.layerCount).any (fun l =>
    match layerHome x l with
    | some h => let d := homeRead s (h + 16) 8; p.va < d + homeRead s (h + 28) 4 && d < p.va + pageBytes p.size
    | none => false)

/-- Do n bytes from pa meet the frames that the control complex reserves for layers: the top of HBM4E (05 R102; DESIGN CHOICE, log entry 7). -/
def inPool (s : State) (pa n : Nat) : Bool := Config.areasBase - s.pool < pa + n && pa < Config.areasBase

/-- May the page move to the new frame: the second tier accepted, 64 KiB or 2 MiB, between HBM4E and the second tier, no layer destination, the frame
free and outside the layer pool, and room for one more page in the migration table of each of its home slices. -/
def mayMigrate (s : State) (x : Ctx) (p : Page) (newPa : Nat) : Bool :=
  let n := pageBytes p.size
  let other := fun (q : Page) => decide (q.pa < newPa + n ∧ newPa < q.pa + pageBytes q.size)
  featureOn s 1 && (p.size == 1 || p.size == 2) && !p.mig && newPa % n == 0 && !inPool s newPa n &&
    ((isHbm p.pa && isTier newPa) || (isTier p.pa && isHbm newPa)) && !inLayer s x p &&
    !(s.ctxs.flatMap (·.pages)).any other && !s.migrations.any (fun m => decide (m.newPa < newPa + n ∧ newPa < m.newPa + pageBytes m.page.size)) &&
    (pageSlices s p.pa p.size).all (fun h =>
      (s.migrations.filter (fun m => (pageSlices s m.page.pa m.page.size).contains h)).length < 8)

/-- MIG set in the tables and in every TLB, and the page registered (step 1). -/
def markPage (s : State) (p : Page) (newPa : Nat) : State :=
  let f := fun (q : Page) => if q = p then { q with mig := true } else q
  let k := fun (c : Core) => { c with tlb := c.tlb.map f, tlbWays := c.tlbWays.map (fun e => (e.1, f e.2)) }
  { updCtx s p.ctx (fun x => { x with pages := x.pages.map f }) with
    core := k s.core, others := s.others.map (fun e => (e.1, k e.2)), clusterTlb := s.clusterTlb.map (fun e => (e.1, f e.2)),
    clusterUse := s.clusterUse.map (fun e => (e.1, f e.2)),
    migrations := s.migrations ++ [{ page := { p with mig := true }, newPa := newPa, copied := [], dirty := [], held := false }] }

/-- Changes a migration, found by its page. -/
def updMigration (s : State) (p : Page) (f : Migration → Migration) : State :=
  { s with migrations := s.migrations.map (fun m => if m.page = p then f m else m) }

/-- 4 KiB of the page are copied, in ascending order (step 2), or the old translations go once no claim covers the page
(steps 3 and 4). DEDUCED: log entry 35. -/
def migrateMore (s : State) (ctx : Nat) (va : Word) (newPa : Nat) (m : Migration) : State :=
  let again := fun (t : State) => due t s.unit (.migration ctx va newPa)
  let n := pageBytes m.page.size
  let off := m.copied.length * 128
  if m.held then s
  else if off < n then
    let r := settle s (m.page.pa + off) 4096 false
    if !r.2 then again r.1
    else
      let lines := (List.range 32).map (fun i => (m.page.pa + off) / 128 + i)
      again (updMigration (moveBytes r.1 (m.page.pa + off) (m.newPa + off) 4096) m.page (fun k => { k with copied := k.copied ++ lines }))
  else
    let r := settle s m.page.pa n true
    if !r.2 || issuedThrough r.1 (fun _ => true) m.page.pa n then again r.1
    else due (updMigration (dropEverywhere r.1 (fun q => q.overlaps m.page)) m.page (fun k => { k with held := true })) ctx .migrationCommit

/-- MIGRATION: the page is marked, copied and invalidated. -/
def execMigration (ctx : Nat) (va : Word) (newpa : Nat) (s : State) : Out :=
  .next (match ctxOf s ctx with
    | none => s
    | some x =>
      match s.migrations.find? (fun m => m.newPa == newpa && m.page.has ctx va.toNat) with
      | some m => migrateMore s ctx va newpa m
      | none =>
        match x.pages.find? (fun p => p.has ctx va.toNat) with
        | none => s
        | some p => if mayMigrate s x p newpa then due (markPage s p newpa) s.unit (.migration ctx va newpa) else s)

/-- MIGRATION_COMMIT: lines written since they were copied are copied again, and the new entry takes the old one's place
(steps 5 and 6); the held fills then find it. -/
def execMigrationCommit (s : State) : Out :=
  .next (match s.migrations.find? (fun m => m.page.ctx == s.unit && m.held) with
    | none => s
    | some m =>
      let s1 := m.dirty.foldl (fun t l => moveBytes t (l * 128) (m.newPa + (l * 128 - m.page.pa)) 128) s
      let q : Page := { m.page with pa := m.newPa, tier := if isHbm m.newPa then 0 else 1, il := isHbm m.newPa && bandLocal s m.newPa, mig := false }
      updCtx (rehome { s1 with migrations := s1.migrations.filter (fun k => k.page != m.page) } m.page (some m.newPa)) m.page.ctx
        (fun x => { x with pages := x.pages.map (fun r => if r.va = m.page.va && r.size = m.page.size then q else r) }))

/-! ## A band's mode (01 R24) -/

/-- Does a physical address lie in band b. -/
def inBand (b a : Nat) : Bool := a / 2 ^ 33 == b

/-- The physical address that names, after the change, the DRAM byte that `a` names before it (01 R26, R27). DEDUCED: log entry 35. -/
def flippedAddr (s : State) (a : Nat) : Nat :=
  let b := a / 2 ^ 33
  let off := stackOffset s a - b * 2 ^ 30
  let stack := homeSlice s a / 8
  if bandLocal s a then
    let hi := off / 2 ^ 9 % 2 ^ 18
    let low := (stack * 8 + off / 2 ^ 27) ^^^ xorFields hi 3 ^^^ (b % 64)
    b * 2 ^ 33 + (hi * 64 + low) * 2 ^ 9 + off % 512
  else b * 2 ^ 33 + stack * 2 ^ 30 + off

/-- A cell put into memory by its address; one already there is replaced. -/
def insertCell (c : Host.Cell) : Memory → Memory
  | [] => [c]
  | d :: r => if c.1 < d.1 then c :: d :: r else if c.1 = d.1 then c :: r else d :: insertCell c r

/-- Memory after the band's change: its bytes stay in DRAM and so are found at other addresses. -/
def flipBytes (s : State) (b : Nat) : Memory :=
  (s.mem.filter (fun c => inBand b c.1)).foldl (fun m c => insertCell (flippedAddr s c.1, c.2) m) (s.mem.filter (fun c => !inBand b c.1))

/-- Poisoned words after the band's change. -/
def flipPoison (s : State) (b : Nat) : List Nat :=
  (s.poison.filter (fun w => inBand b (8 * w))).foldl (fun p w => insertNat (flippedAddr s (8 * w) / 8) p) (s.poison.filter (fun w => !inBand b (8 * w)))

/-- Does a page hold the layer table, or a layer's destination whose translations stand: one that is streaming, resident or being evicted (05 R97,
R101, R108). -/
def keptByLayer (s : State) (x : Ctx) (p : Page) : Bool :=
  (p.va < x.layerBase.toNat + 64 * x.layerCount && x.layerBase.toNat < p.va + pageBytes p.size) ||
    (List.range x.layerCount).any (fun l =>
      match layerHome x l with
      | some h =>
        let d := homeRead s (h + 16) 8
        [1, 2, 4].contains (layerState s x l) && p.va < d + homeRead s (h + 28) 4 && d < p.va + pageBytes p.size
      | none => false)

/-- BAND_MODE_CHANGE: translations to the band go, its lines are flushed, the mode flips; it waits for locked lines, claims, MREADs
and migrations in the band, and while a layer, or a layer table, keeps its pages there. -/
def execBandModeChange (band : Nat) (stackLocal : Bool) (s : State) : Out :=
  let again := fun (t : State) => due t s.unit (.bandModeChange band stackLocal)
  .next (if 64 ≤ band || s.bands.getLsbD band = stackLocal then s
    else if s.migrations.any (fun m => inBand band m.page.pa || inBand band m.newPa) || issuedThrough s (fun _ => true) (band * 2 ^ 33) (2 ^ 33) ||
        s.ctxs.any (fun x => x.pages.any (fun p => inBand band p.pa && isHbm p.pa && keptByLayer s x p)) then again s
    else
      let r := settle s (band * 2 ^ 33) (2 ^ 33) true
      if !r.2 then again r.1
      else
        let hit := fun (p : Page) => inBand band p.pa && isHbm p.pa
        let s0 := (s.ctxs.flatMap (fun x => x.pages.filter hit)).foldl (fun t p => rehome t p none) r.1
        let s1 := dropLines (dropEverywhere s0 hit) (fun l => inBand band (l.num * 128))
        let s2 := { s1 with ctxs := s1.ctxs.map (fun (x : Ctx) => { x with pages := x.pages.filter (fun p => !hit p) }) }
        { s2 with mem := flipBytes s2 band, poison := flipPoison s2 band,
                  bands := if stackLocal then s2.bands ||| ((1 : BitVec 64) <<< band) else s2.bands &&& ~~~((1 : BitVec 64) <<< band) })

end Sys2Proof.Machine
end

