-- ==== Sys2Proof/Machine/Grid.lean ====
section
/-! DEFINITION. Tile view records, the elements of a view in the own vault, and tiles as rectangles of words (16 R263,
R266, R267, 15 R251, R255). -/

namespace Sys2Proof.Machine

/-! ## Rectangles -/

/-- A rectangle as its rows. -/
abbrev Grid (α : Type) := List (List α)

/-- k pieces of n elements each. -/
def splitEvery {α : Type} (n : Nat) : Nat → List α → List (List α)
  | 0, _ => []
  | k + 1, l => l.take n :: splitEvery n k (l.drop n)

/-- The columns of a rectangle of n columns. -/
def flipGrid {α : Type} (n : Nat) (g : Grid α) : Grid α :=
  g.foldr (fun row acc => List.zipWith (fun x r => x :: r) row acc) (List.replicate n [])

/-- A function of row, column and element over a rectangle. -/
def mapGrid {α β : Type} (f : Nat → Nat → α → β) (g : Grid α) : Grid β :=
  g.zipIdx.map (fun r => r.1.zipIdx.map (fun x => f r.2 x.2 x.1))

/-- A list brought to length n with a filler. -/
def padTo {α : Type} (n : Nat) (d : α) (l : List α) : List α := l ++ List.replicate (n - l.length) d

/-- A list of words without its trailing zeros. -/
def trimZeros (l : List W32) : List W32 :=
  l.foldr (fun x acc => if acc.isEmpty && x == 0 then [] else x :: acc) []

/-! ## Tiles (16 R263) -/

/-- Tile n. -/
def Matrix.tile (m : Matrix) (n : BitVec 2) : Tile := m.tiles[n.toNat]'(n.isLt)
/-- Sets tile n. -/
def Matrix.setTile (m : Matrix) (n : BitVec 2) (t : Tile) : Matrix := { m with tiles := m.tiles.set n.toNat t n.isLt }

/-- Does AC belong to a pair. -/
def Matrix.paired (m : Matrix) (ac : BitVec 2) : Bool := 2 ≤ (m.tile ac).shape.toNat
/-- The tile or pair that AC names. -/
def Matrix.group (m : Matrix) (ac : BitVec 2) : List (BitVec 2) := if m.paired ac then [ac &&& 2, ac ||| 1] else [ac]
/-- Rows and columns of the tile or pair. -/
def Matrix.nr (m : Matrix) (ac : BitVec 2) : Nat := if (m.tile ac).shape = 1 then 64 else 128
def Matrix.nc (m : Matrix) (ac : BitVec 2) : Nat := if (m.tile ac).shape = 0 then 64 else 128
/-- Its accumulator format. -/
def Matrix.fmt (m : Matrix) (ac : BitVec 2) : BitVec 2 := (m.tile ac).fmt

/-- The words of one tile as rows. -/
def Tile.rows (t : Tile) (nr nc : Nat) : Grid W32 := splitEvery nc nr (padTo (nr * nc) 0 t.cells)

/-- The elements of the tile or pair that AC names: a pair's columns from 64 on lie in its member. -/
def Matrix.grid (m : Matrix) (ac : BitVec 2) : Grid W32 :=
  if m.paired ac then List.zipWith (· ++ ·) ((m.tile (ac &&& 2)).rows 128 64) ((m.tile (ac ||| 1)).rows 128 64)
  else (m.tile ac).rows (m.nr ac) (m.nc ac)

/-- The elements of the tile or pair written. -/
def Matrix.putGrid (m : Matrix) (ac : BitVec 2) (g : Grid W32) : Matrix :=
  if m.paired ac then
    let b := { m.tile (ac &&& 2) with cells := trimZeros (g.flatMap (fun r => r.take 64)) }
    let d := { m.tile (ac ||| 1) with cells := trimZeros (g.flatMap (fun r => r.drop 64)) }
    (m.setTile (ac &&& 2) b).setTile (ac ||| 1) d
  else m.setTile ac { m.tile ac with cells := trimZeros g.flatten }

/-- A change to each tile of a list. -/
def Matrix.onTiles (m : Matrix) (l : List (BitVec 2)) (f : Tile → Tile) : Matrix :=
  l.foldl (fun m n => m.setTile n (f (m.tile n))) m

/-- The live bit of the tile or pair set or cleared. -/
def Matrix.setLive (m : Matrix) (ac : BitVec 2) (b : Bool) : Matrix := m.onTiles (m.group ac) (fun t => { t with live := b })

/-- The tile or pair becomes +0. -/
def Matrix.clearGrid (m : Matrix) (ac : BitVec 2) : Matrix := m.onTiles (m.group ac) (fun t => { t with cells := [] })

/-- The current core's matrix engine set. -/
def State.setMx (s : State) (m : Matrix) : State := { s with core := { s.core with mx := m } }

/-! ## View records (16 R266, R267) -/

/-- The checks on an own-vault range, with its alignment (01 R18): the offset of its first byte; `write` for a destination. -/
def ownRangeAs (write : Bool) (s : State) (va : Word) (len algn : Nat) : Res Nat :=
  if spaceOf va = .reserved then .error (.trap cTRANSL va (translX 2 write false false 0))
  else if va.toNat % algn != 0 then .error (.trap cALIGN va 0)
  else checkOperandAs write s va len

/-- A range that is read. -/
def ownRange (s : State) (va : Word) (len algn : Nat) : Res Nat := ownRangeAs false s va len algn
/-- A range that is written. -/
def ownDest (s : State) (va : Word) (len algn : Nat) : Res Nat := ownRangeAs true s va len algn

/-- The record in 48 bytes. -/
def viewOf (r : Nat) : View :=
  let w := fun (i : Nat) => BitVec.ofNat 64 (r >>> (64 * i))
  { base := w 0, stride := bits (w 1) 63 32, rows := bits (w 1) 31 16, cols := bits (w 1) 15 0, fmt := bits (w 2) 15 8,
    cmp := (w 2).getLsbD 2, cpt := (w 2).getLsbD 1, cm := (w 2).getLsbD 0, scaleb := w 3, cptb := w 4 }

/-- The zero fields of a record are zero. -/
def viewZeros (r : Nat) : Bool :=
  let w := fun (i : Nat) => BitVec.ofNat 64 (r >>> (64 * i))
  bits (w 2) 63 16 == 0 && bits (w 2) 7 3 == 0 && w 5 == 0

/-- The rules of R266 on a record, and whole bytes in each row of INT4 or T6 (15 R251). -/
def View.ok (v : View) : Bool :=
  1 ≤ v.rows && v.rows ≤ 4096 && 1 ≤ v.cols && v.cols ≤ 4096 && fmtKnown v.fmt && !(v.cm && fmtBits v.fmt < 8) &&
    !(v.cpt && v.cmp) && fmtBits v.fmt * v.runLen % 8 == 0 && v.runBytes ≤ v.stride

/-- A view record read as an own-vault load (16 R264, R266): OPERAND 0x20 where it is malformed. -/
def readView (s : State) (va : Word) : Res (State × View) :=
  match ownRange s va 48 16 with
  | .error e => .error e
  | .ok off =>
    match vaultFetch s va off 48 with
    | .error e => .error e
    | .ok (t, r) => if viewZeros r && (viewOf r).ok then .ok (t, viewOf r) else .error (operand va 0x20)

/-- A view's elements lie in the own vault (01 R17): the offset of its first byte, or NONLOCAL at its first byte
outside; `write` for a view that is written. -/
def viewPlaceAs (write : Bool) (s : State) (v : View) : Res Nat :=
  match checkOperandAs write s v.base v.runBytes with
  | .error e => .error e
  | .ok off =>
    let size := vaultSize s.core.num
    match (List.range v.runs).find? (fun k => size < off + k * v.stride + v.runBytes) with
    | some k => .error (.trap cNONLOCAL (v.base + BitVec.ofNat 64 (max (k * v.stride) (size - off))) 0)
    | none => .ok off

/-- A view that is read. -/
def viewPlace (s : State) (v : View) : Res Nat := viewPlaceAs false s v
/-- A view that is written. -/
def viewDest (s : State) (v : View) : Res Nat := viewPlaceAs true s v

/-- Bytes from a view's first element to its last. -/
def View.hull (v : View) : Nat := (v.runs - 1) * v.stride + v.runBytes

/-- Own-vault ranges brought past the claims on them (16 R265). -/
def settleRanges (s : State) : List (Nat × Nat × Bool) → Res State
  | [] => .ok s
  | r :: rest =>
    match vaultSettle s r.1 r.2.1 r.2.2 with
    | .error e => .error e
    | .ok t => settleRanges t rest

/-! ## Elements of a view (15 R251, 16 R266) -/

/-- The codes of a view's elements, as its rows. -/
def viewCodes (s : State) (v : View) (off : Nat) : Grid Nat :=
  let w := fmtBits v.fmt
  let rs := (List.range v.runs).map (fun k =>
    let run := vaultRead s (off + k * v.stride) v.runBytes
    (List.range v.runLen).map (elemAt w run))
  if v.cm then flipGrid v.runLen rs else rs

/-- Where n lines of a view from line `lo` on lie, relative to its first byte: whole runs, or a stripe across them. -/
def lineSpans (v : View) (whole : Bool) (lo n : Nat) : List (Nat × Nat) :=
  let w := fmtBits v.fmt
  if whole then (List.range n).map (fun j => ((lo + j) * v.stride, v.runBytes))
  else (List.range v.runs).map (fun k => (k * v.stride + w * lo / 8, runBytes w n))

/-- The bytes that lines of a view from line `lo` on write, relative to its first byte. -/
def lineWrites (v : View) (whole : Bool) (lo : Nat) (ls : Grid Nat) : List (Nat × Nat × Nat) :=
  let w := fmtBits v.fmt
  if whole then ls.zipIdx.map (fun e => ((lo + e.2) * v.stride, runBytes w e.1.length, packElems w e.1))
  else (flipGrid v.runs ls).zipIdx.map (fun e => (e.2 * v.stride + w * lo / 8, runBytes w e.1.length, packElems w e.1))

/-! ## Poison met by the engine (16 R279) -/

/-- The address of a poisoned word, named as an operand at `va` and `off` names its bytes. -/
def poisonAddr (s : State) (va : Word) (off w : Nat) : Word :=
  wordAddr (va + BitVec.ofNat 64 (8 * w) - BitVec.ofNat 64 (vaultHome s.core.num off))

/-- The first poisoned word that ranges (address, offset, bytes) read. -/
def badRead (s : State) : List (Word × Nat × Nat) → Option Word
  | [] => none
  | r :: rest =>
    match poisonIn s.poison (vaultHome s.core.num r.2.1) r.2.2 with
    | some w => some (poisonAddr s r.1 r.2.1 w)
    | none => badRead s rest

/-- A poisoned word that a write of n bytes would cover in part (02 R40). -/
def partPoison (p : List Nat) (h n : Nat) : Option Nat := (wordsOf h n).find? (fun w => p.contains w && !wordInside h n w)

/-- The first poisoned word that writes (address, offset, bytes, value) would cover in part. -/
def badWrite (s : State) : List (Word × Nat × Nat × Nat) → Option Word
  | [] => none
  | r :: rest =>
    match partPoison s.poison (vaultHome s.core.num r.2.1) r.2.2.1 with
    | some w => some (poisonAddr s r.1 r.2.1 w)
    | none => badWrite s rest

/-- Writes in order, or none of them and the word that stops the engine. -/
def writePieces (s : State) (ps : List (Word × Nat × Nat × Nat)) : State × Option Word :=
  match badWrite s ps with
  | some w => (s, some w)
  | none => (ps.foldl (fun t r => vaultWrite t r.2.1 r.2.2.1 r.2.2.2) s, none)

/-- Blocks of 16 rows in order until one stops the engine. -/
def runBlocks (f : Nat → State → State × Option Word) : Nat → Nat → State → State × Option Word
  | 0, _, s => (s, none)
  | k + 1, b, s =>
    match f b s with
    | (t, none) => runBlocks f k (b + 1) t
    | (t, some w) => (t, some w)

/-- The first of k blocks whose reads meet poison, and the word. -/
def badBlock (s : State) (f : Nat → List (Word × Nat × Nat)) : Nat → Nat → Option (Nat × Word)
  | 0, _ => none
  | k + 1, b =>
    match badRead s (f b) with
    | some w => some (b, w)
    | none => badBlock s f k (b + 1)

end Sys2Proof.Machine
end

