-- ==== Sys2Proof/Machine/Vector.lean ====
section
/-! DEFINITION. The vector instructions (16 R282-R288). Each completes before the next instruction issues. -/

namespace Sys2Proof.Machine

/-! ## Element types and operations (16 R282, R283) -/

/-- An element type: a floating format or an integer width. -/
inductive VTy where
  | flt (f : FpFmt)
  | int (w : Nat)
  deriving DecidableEq, Repr

/-- The type that TY names. -/
def vty (ty : BitVec 3) : VTy :=
  match ty.toNat with
  | 0 => .flt fp32
  | 1 => .flt fp64
  | 2 => .flt bf16
  | 3 => .int 32
  | _ => .int 64

/-- The element-wise operations. -/
inductive VOp where
  | add | sub | mul | fma | max | min
  deriving DecidableEq, Repr

/-- An operation on values before its rounding: d is the destination's element. -/
def VOp.num (down : Bool) (d x y : Num) : VOp → Num × BitVec 5
  | .add => x.addExact down y
  | .sub => x.addExact down y.flip
  | .mul => x.mulExact y
  | .fma => d.fmaExact down x y
  | .max => Num.minMax true x y
  | .min => Num.minMax false x y

/-- An operation on integers. -/
def VOp.int (d x y : Int) : VOp → Int
  | .add => x + y
  | .sub => x - y
  | .mul => x * y
  | .fma => d + x * y
  | .max => Max.max x y
  | .min => Min.min x y

/-- The pattern of an integer in w bits. -/
def wrapInt (w : Nat) (v : Int) : Nat := (v % (2 ^ w : Nat)).toNat

/-- One element: rounded once under FRM with its flags, or wrapped. -/
def elemOp (rm : BitVec 2) (ty : VTy) (op : VOp) (d x y : Nat) : Nat × BitVec 5 :=
  match ty with
  | .flt f =>
    let r := op.num (rm == 3) (f.decode d) (f.decode x) (f.decode y)
    let o := f.pack rm r.1
    (o.1, r.2 ||| o.2)
  | .int w => (wrapInt w (op.int (intOf w d) (intOf w x) (intOf w y)), 0)

/-! ## Operand ranges (16 R282) -/

/-- The checks on n contiguous elements of sz bytes; no element, no check. -/
def vecRange (s : State) (va : Word) (n sz : Nat) : Res Nat := if n = 0 then .ok 0 else ownRange s va (n * sz) sz
/-- The same of a destination. -/
def vecDest (s : State) (va : Word) (n sz : Nat) : Res Nat := if n = 0 then .ok 0 else ownDest s va (n * sz) sz

/-- n elements of w bits read from an own-vault range; poison raises ECC precisely. -/
def vecRead (s : State) (va : Word) (off n w : Nat) : Res (State × List Nat) :=
  match vaultFetch s va off (runBytes w n) with
  | .error e => .error e
  | .ok (t, run) => .ok (t, (List.range n).map (elemAt w run))

/-- n elements of w bits written to an own-vault range past its claims. -/
def vecWriteN (s : State) (off w n : Nat) (l : List Nat) : Res State :=
  match vaultSettle s off (runBytes w n) true with
  | .error e => .error e
  | .ok t => .ok (if n = 0 then t else vaultWrite t off (runBytes w n) (packElems w l))

/-- A list's elements written so. -/
def vecWrite (s : State) (off w : Nat) (l : List Nat) : Res State := vecWriteN s off w l.length l

/-- `adv`: each pointer of a list advances once, by the largest of its amounts. -/
def advPtrs (adv : Bool) (ps : List (BitVec 3 × Nat)) (s : State) : State :=
  if adv then
    ([0, 1, 2, 3, 4, 5, 6, 7] : List (BitVec 3)).foldl (fun t i =>
      t.setAddr i ((t.ptr i).addr + BitVec.ofNat 64 ((ps.filter (fun e => e.1 == i)).foldl (fun m e => max m e.2) 0))) s
  else s

/-- VL. -/
def vlOf (s : State) : Nat := s.core.regs.vl.toNat

/-- An element-wise instruction of two sources: ranges, sources read wholly, the results written, flags, pointers. -/
def vecMap (op : VOp) (ty pd pa pb : BitVec 3) (x : BitVec 2) (s : State) : Res State := do
  let n := vlOf s
  let sz := tyBytes ty
  let bc := x.getLsbD 0
  let ny := if bc then min n 1 else n
  let oa ← vecRange s (s.ptr pa).addr n sz
  let ob ← vecRange s (s.ptr pb).addr ny sz
  let od ← vecDest s (s.ptr pd).addr n sz
  let (t, xs) ← vecRead s (s.ptr pa).addr oa n (8 * sz)
  let (t, ys) ← vecRead t (s.ptr pb).addr ob ny (8 * sz)
  let (t, ds) ← (if op = .fma then vecRead t (s.ptr pd).addr od n (8 * sz) else .ok (t, []))
  let rs := xs.zipIdx.map (fun e => elemOp s.core.regs.frm (vty ty) op (ds.getD e.2 0) e.1 (ys.getD (if bc then 0 else e.2) 0))
  let t ← vecWrite t od (8 * sz) (rs.map (·.1))
  let t := t.addFlags (rs.foldl (fun f r => f ||| r.2) 0)
  .ok (advPtrs (x.getLsbD 1) [(pd, n * sz), (pa, n * sz), (pb, if bc then 0 else n * sz)] t).advance

/-- VADD. -/
def execVadd (ty pd pa pb : BitVec 3) (x : BitVec 2) (s : State) : Out := finish s (vecMap .add ty pd pa pb x s)
/-- VSUB. -/
def execVsub (ty pd pa pb : BitVec 3) (x : BitVec 2) (s : State) : Out := finish s (vecMap .sub ty pd pa pb x s)
/-- VMUL. -/
def execVmul (ty pd pa pb : BitVec 3) (x : BitVec 2) (s : State) : Out := finish s (vecMap .mul ty pd pa pb x s)
/-- VFMA. -/
def execVfma (ty pd pa pb : BitVec 3) (x : BitVec 2) (s : State) : Out := finish s (vecMap .fma ty pd pa pb x s)
/-- VMAX. -/
def execVmax (ty pd pa pb : BitVec 3) (x : BitVec 2) (s : State) : Out := finish s (vecMap .max ty pd pa pb x s)
/-- VMIN. -/
def execVmin (ty pd pa pb : BitVec 3) (x : BitVec 2) (s : State) : Out := finish s (vecMap .min ty pd pa pb x s)

/-! ## VSCL and VEXP2 (16 R283) -/

/-- One value of an instruction of one source, rounded under FRM. -/
def fltOp (rm : BitVec 2) (ty : VTy) (f : Num → Num × BitVec 5) (x : Nat) : Nat × BitVec 5 :=
  match ty with
  | .flt fm =>
    let r := f (fm.decode x)
    let o := fm.pack rm r.1
    (o.1, r.2 ||| o.2)
  | .int w => (x % 2 ^ w, 0)

/-- VSCL. -/
def vsclRes (ty pd pa pb : BitVec 3) (x : BitVec 2) (s : State) : Res State := do
  let n := vlOf s
  let sz := tyBytes ty
  let bc := x.getLsbD 0
  let nb := if bc then min n 1 else (n + 127) / 128
  let oa ← vecRange s (s.ptr pa).addr n sz
  let ob ← vecRange s (s.ptr pb).addr nb 1
  let od ← vecDest s (s.ptr pd).addr n sz
  let (t, xs) ← vecRead s (s.ptr pa).addr oa n (8 * sz)
  let (t, bs) ← vecRead t (s.ptr pb).addr ob nb 8
  let rs := xs.zipIdx.map (fun e =>
    fltOp s.core.regs.frm (vty ty) (fun v => v.mulExact (scaleNum (bs.getD (if bc then 0 else e.2 / 128) 0))) e.1)
  let t ← vecWrite t od (8 * sz) (rs.map (·.1))
  let t := t.addFlags (rs.foldl (fun f r => f ||| r.2) 0)
  .ok (advPtrs (x.getLsbD 1) [(pd, n * sz), (pa, n * sz), (pb, if bc then 0 else nb)] t).advance

/-- VSCL. -/
def execVscl (ty pd pa pb : BitVec 3) (x : BitVec 2) (s : State) : Out := finish s (vsclRes ty pd pa pb x s)

/-- VEXP2. -/
def vexp2Res (ty pd pa : BitVec 3) (x : BitVec 2) (s : State) : Res State := do
  let n := vlOf s
  let sz := tyBytes ty
  let oa ← vecRange s (s.ptr pa).addr n sz
  let od ← vecDest s (s.ptr pd).addr n sz
  let (t, xs) ← vecRead s (s.ptr pa).addr oa n (8 * sz)
  let rs := xs.map (fltOp s.core.regs.frm (vty ty) exp2Num)
  let t ← vecWrite t od (8 * sz) (rs.map (·.1))
  let t := t.addFlags (rs.foldl (fun f r => f ||| r.2) 0)
  .ok (advPtrs (x.getLsbD 1) [(pd, n * sz), (pa, n * sz)] t).advance

/-- VEXP2. -/
def execVexp2 (ty pd pa : BitVec 3) (x : BitVec 2) (s : State) : Out := finish s (vexp2Res ty pd pa x s)

/-! ## VSUM and VDOT (16 R284) -/

/-- The type a reduction runs in: BF16 runs in FP32. -/
def sumTy (ty : BitVec 3) : VTy := if ty = 2 then .flt fp32 else vty ty
/-- Bytes of a reduction's result. -/
def sumBytes (ty : BitVec 3) : Nat := if ty = 2 then 4 else tyBytes ty
/-- An element as the reduction takes it: BF16 is the top half of an FP32. -/
def sumElem (ty : BitVec 3) (v : Nat) : Nat := if ty = 2 then v * 65536 else v

/-- One lane: its elements in order, from +0. -/
def laneSum (step : Nat → Nat × Nat → Nat × BitVec 5) (l : List (Nat × Nat)) : Nat × BitVec 5 :=
  l.foldl (fun acc e => let r := step acc.1 e; (r.1, acc.2 ||| r.2)) (0, 0)

/-- Adjacent pairs of a level summed. -/
def pairLevel (add : Nat → Nat → Nat × BitVec 5) : List (Nat × BitVec 5) → List (Nat × BitVec 5)
  | a :: b :: r => let s := add a.1 b.1; (s.1, a.2 ||| b.2 ||| s.2) :: pairLevel add r
  | l => l

/-- k levels of the tree. -/
def treeSum (add : Nat → Nat → Nat × BitVec 5) : Nat → List (Nat × BitVec 5) → List (Nat × BitVec 5)
  | 0, l => l
  | k + 1, l => treeSum add k (pairLevel add l)

/-- The reduction of pairs (x, y): 64 lanes, then six levels. -/
def vecReduce (rm : BitVec 2) (ty : VTy) (dot : Bool) (es : List (Nat × Nat)) : Nat × BitVec 5 :=
  let step := fun (acc : Nat) (e : Nat × Nat) => if dot then elemOp rm ty .fma acc e.1 e.2 else elemOp rm ty .add 0 acc e.1
  let lanes := (List.range 64).map (fun l => laneSum step ((es.zipIdx.filter (fun e => e.2 % 64 == l)).map (·.1)))
  (treeSum (fun a b => elemOp rm ty .add 0 a b) 6 lanes).headD (0, 0)

/-- The result as `a` receives it. -/
def sumToA (ty : BitVec 3) (v : Nat) : Word :=
  match sumTy ty with
  | .flt f => (f.widen v).1
  | .int w => BitVec.ofInt 64 (intOf w v)

/-- VSUM and VDOT: `pb` is none for VSUM. -/
def vecSum (ty pd pa : BitVec 3) (pb : Option (BitVec 3)) (x : BitVec 2) (s : State) : Res State := do
  let n := vlOf s
  let sz := tyBytes ty
  let rz := sumBytes ty
  let bc := x.getLsbD 0
  let ny := match pb with
    | none => 0
    | some _ => if bc then min n 1 else n
  let yb := (s.ptr (pb.getD 0)).addr
  let oa ← vecRange s (s.ptr pa).addr n sz
  let ob ← vecRange s yb ny sz
  let od ← ownDest s (s.ptr pd).addr rz rz
  let (t, xs) ← vecRead s (s.ptr pa).addr oa n (8 * sz)
  let (t, ys) ← vecRead t yb ob ny (8 * sz)
  let es := xs.zipIdx.map (fun e => (sumElem ty e.1, sumElem ty (ys.getD (if bc then 0 else e.2) 0)))
  let r := vecReduce s.core.regs.frm (sumTy ty) pb.isSome es
  let t ← vecWrite t od (8 * rz) [r.1]
  let t := (t.addFlags r.2).setA (sumToA ty r.1)
  let ps := match pb with
    | none => []
    | some b => [(b, if bc then 0 else n * sz)]
  .ok (advPtrs (x.getLsbD 1) ([(pd, rz), (pa, n * sz)] ++ ps) t).advance

/-- VSUM. -/
def execVsum (ty pd pa : BitVec 3) (x : BitVec 2) (s : State) : Out := finish s (vecSum ty pd pa none x s)
/-- VDOT. -/
def execVdot (ty pd pa pb : BitVec 3) (x : BitVec 2) (s : State) : Out := finish s (vecSum ty pd pa (some pb) x s)

/-! ## VCVT (16 R285) -/

/-- The pairs of TY and format code that VCVT permits. -/
def vcvtPair (ty : BitVec 3) (code : Nat) : Bool :=
  if ty = 0 then [1, 2, 3, 4, 7, 8].contains code else [5, 6].contains code

/-- One element converted: into the format by R254, or out of it exactly. -/
def vcvtElem (ty : BitVec 3) (code : Nat) (out : Bool) (v : Nat) : Nat :=
  let src := if out then fmtDecode code v else if ty = 0 then fp32.decode v else ofInt false (intOf 32 v) 0
  if out then narrow (if ty = 0 then 0 else 11) src else narrow code src

/-- VCVT. -/
def vcvtRes (ty pd pa : BitVec 3) (x : BitVec 8) (s : State) : Res State := do
  let n := vlOf s
  let code := bits x 7 4
  let out := x.getLsbD 3
  let w := fmtBits code
  if !vcvtPair ty code then .error (operand 0 0x21)
  else if (code == 6 && n % 2 != 0) || (code == 8 && n % 4 != 0) then .error (operand 0 0x22)
  else
    let wa := if out then w else 32
    let wd := if out then 32 else w
    let rng := fun (dest : Bool) (va : Word) (b : Nat) => if n = 0 then Except.ok 0 else ownRangeAs dest s va (runBytes b n) (max 1 (b / 8))
    let oa ← rng false (s.ptr pa).addr wa
    let od ← rng true (s.ptr pd).addr wd
    let (t, xs) ← vecRead s (s.ptr pa).addr oa n wa
    let t ← vecWrite t od wd (xs.map (vcvtElem ty code out))
    .ok (advPtrs (x.getLsbD 1) [(pd, runBytes wd n), (pa, runBytes wa n)] t).advance

/-- VCVT. -/
def execVcvt (ty pd pa : BitVec 3) (x : BitVec 8) (s : State) : Out := finish s (vcvtRes ty pd pa x s)

/-! ## VGATH and VSCAT (16 R286) -/

/-- The addresses that indices name. -/
def indexAddrs (base : Word) (sz : Nat) (ks : List Nat) : List Word :=
  ks.map (fun k => base + BitVec.ofInt 64 (intOf 32 k * (sz : Int)))

/-- The checks on each indexed element: offsets in the own vault; `write` where it is written. -/
def indexOffsets (write : Bool) (s : State) (sz : Nat) : List Word → Res (List Nat)
  | [] => .ok []
  | va :: r =>
    match ownRangeAs write s va sz sz with
    | .error e => .error e
    | .ok off =>
      match indexOffsets write s sz r with
      | .error e => .error e
      | .ok l => .ok (off :: l)

/-- The VL indices at PB, one broadcast under `bc`. -/
def indexList (s : State) (pb : BitVec 3) (bc : Bool) : Res (State × List Nat) := do
  let n := vlOf s
  let nk := if bc then min n 1 else n
  let ob ← vecRange s (s.ptr pb).addr nk 4
  let (t, ks) ← vecRead s (s.ptr pb).addr ob nk 32
  .ok (t, if bc then List.replicate n (ks.getD 0 0) else ks)

/-- Elements read one by one. -/
def gatherRead (s : State) (sz : Nat) : List (Word × Nat) → Res (State × List Nat)
  | [] => .ok (s, [])
  | e :: r =>
    match vaultFetch s e.1 e.2 sz with
    | .error x => .error x
    | .ok (t, v) =>
      match gatherRead t sz r with
      | .error x => .error x
      | .ok (u, vs) => .ok (u, v :: vs)

/-- VGATH. -/
def vgathRes (ty pd pa pb : BitVec 3) (x : BitVec 2) (s : State) : Res State := do
  let n := vlOf s
  let sz := tyBytes ty
  let bc := x.getLsbD 0
  let (t, ks) ← indexList s pb bc
  let od ← vecDest t (s.ptr pd).addr n sz
  let vas := indexAddrs (s.ptr pa).addr sz ks
  let offs ← indexOffsets false t sz vas
  let (t, vs) ← gatherRead t sz (vas.zip offs)
  let t ← vecWrite t od (8 * sz) vs
  .ok (advPtrs (x.getLsbD 1) [(pd, n * sz), (pa, 0), (pb, if bc then 0 else 4 * n)] t).advance

/-- VGATH. -/
def execVgath (ty pd pa pb : BitVec 3) (x : BitVec 2) (s : State) : Out := finish s (vgathRes ty pd pa pb x s)

/-- Claims on each indexed element settled for a write. -/
def settleEach (s : State) (sz : Nat) : List Nat → Res State
  | [] => .ok s
  | off :: r =>
    match vaultSettle s off sz true with
    | .error e => .error e
    | .ok t => settleEach t sz r

/-- VSCAT: in ascending i, each x[i] read when its turn comes. -/
def vscatRes (ty pd pa pb : BitVec 3) (x : BitVec 2) (s : State) : Res State := do
  let n := vlOf s
  let sz := tyBytes ty
  let bc := x.getLsbD 0
  let oa ← vecRange s (s.ptr pa).addr n sz
  let (t, ks) ← indexList s pb bc
  let offs ← indexOffsets true t sz (indexAddrs (s.ptr pd).addr sz ks)
  let (t, _) ← vecRead t (s.ptr pa).addr oa n (8 * sz)
  let t ← settleEach t sz offs
  let t := offs.zipIdx.foldl (fun u e => vaultWrite u e.1 sz (vaultRead u (oa + sz * e.2) sz)) t
  .ok (advPtrs (x.getLsbD 1) [(pd, 0), (pa, n * sz), (pb, if bc then 0 else 4 * n)] t).advance

/-- VSCAT. -/
def execVscat (ty pd pa pb : BitVec 3) (x : BitVec 2) (s : State) : Out := finish s (vscatRes ty pd pa pb x s)

/-! ## VSAD (16 R287) -/

/-- A fault met at element i: the elements below it stand. -/
def vecStop (s : State) (cause : BitVec 8) (addr : Word) (x : Nat) : Stop :=
  .trapIn s cause addr (BitVec.ofNat 64 x) s.core.regs.pc

/-- The first poisoned of the ranges (address, offset, bytes) of element i. -/
def elemPoison (s : State) (i : Nat) (rs : List (Word × Nat × Nat)) : Res Unit :=
  match badRead s rs with
  | some w => .error (vecStop s cECC w i)
  | none => .ok ()

/-- k elements of a VSAD from element i on; x lies at `xva`, one for all under `bc`. -/
def vsadGo (dva xva : Word) (od ox : Nat) (bc : Bool) : Nat → Nat → State → Res State
  | 0, _, s => .ok s
  | k + 1, i, s =>
    let va := dva + BitVec.ofNat 64 (8 * i)
    let off := od + 8 * i
    let xi := if bc then 0 else 4 * i
    match stampRegion s va (vaultHome s.core.num off) with
    | .error _ => .error (vecStop s cSTAMP va 1)
    | .ok (c, cls) =>
      match elemPoison s i [(va, off, 8), (xva + BitVec.ofNat 64 xi, ox + xi, 4)] with
      | .error e => .error e
      | .ok _ =>
        match stampAt s c cls (vaultHome s.core.num off) 2 (BitVec.ofNat 64 (vaultRead s (ox + xi) 4)) with
        | .error code => .error (vecStop s cSTAMP va code)
        | .ok (t, _) => vsadGo dva xva od ox bc k (i + 1) t

/-- VSAD. DEDUCED: log entry 24. -/
def vsadRes (pd pa : BitVec 3) (x : BitVec 2) (s : State) : Res State := do
  let n := vlOf s
  let bc := x.getLsbD 0
  let nx := if bc then min n 1 else n
  let ox ← vecRange s (s.ptr pa).addr nx 4
  let od ← vecDest s (s.ptr pd).addr n 8
  let t ← settleRanges s [(ox, 4 * nx, false), (od, 8 * n, true)]
  let t ← vsadGo (s.ptr pd).addr (s.ptr pa).addr od ox bc n 0 t
  .ok (advPtrs (x.getLsbD 1) [(pd, 8 * n), (pa, if bc then 0 else 4 * n)] t).advance

/-- VSAD. -/
def execVsad (pd pa : BitVec 3) (x : BitVec 2) (s : State) : Out := finish s (vsadRes pd pa x s)

/-! ## AWUPD (16 R288) -/

/-- The four parameters of the record at a. -/
structure AdamParams where
  c1  : W32
  c2  : W32
  lr  : W32
  eps : W32
  deriving DecidableEq, Repr

/-- Operand addresses and offsets of an AWUPD: weights, gradients, moments. -/
structure AdamOps where
  wva : Word
  gva : Word
  mva : Word
  wo  : Nat
  go  : Nat
  mo  : Nat
  deriving DecidableEq, Repr

/-- The check of R129 on a moment word at an address; a poisoned word is left to its element. -/
def momentFault (s : State) (va : Word) (off : Nat) : Option Nat :=
  match stampRegion s va (vaultHome s.core.num off) with
  | .error _ => some 1
  | .ok (x, cls) =>
    if (poisonIn s.poison (vaultHome s.core.num off) 8).isSome then none
    else storedFault x.decay cls (nowOf x.held) (homeWord s (vaultHome s.core.num off))

/-- The first moment word of k that fails, with its code. -/
def firstMoment (s : State) (mva : Word) (mo : Nat) : Nat → Nat → Option (Word × Nat)
  | 0, _ => none
  | k + 1, j =>
    match momentFault s (mva + BitVec.ofNat 64 (8 * j)) (mo + 8 * j) with
    | some c => some (mva + BitVec.ofNat 64 (8 * j), c)
    | none => firstMoment s mva mo k (j + 1)

/-- A moment after the decay of its own class and its new term. -/
def momentNext (tbl : List (List W32)) (l : Logical) (term : W32) : W32 := add32 (l.faded tbl) term

/-- One element of an AWUPD (16 R288). -/
def awupdElem (p : AdamParams) (o : AdamOps) (i : Nat) (s : State) : Res State :=
  let g := s.core.num
  let at4 := fun (b : Nat) => BitVec.ofNat 32 (vaultRead s (b + 4 * i) 4)
  let mOff := o.mo + 16 * i
  match elemPoison s i [(o.wva + BitVec.ofNat 64 (4 * i), o.wo + 4 * i, 4), (o.gva + BitVec.ofNat 64 (4 * i), o.go + 4 * i, 4),
      (o.mva + BitVec.ofNat 64 (16 * i), mOff, 16)] with
  | .error e => .error e
  | .ok _ =>
    match firstMoment s (o.mva + BitVec.ofNat 64 (16 * i)) mOff 2 0 with
    | some f => .error (vecStop s cSTAMP f.1 f.2)
    | none =>
      match myCtx s with
      | none => .error (vecStop s cSTAMP (o.mva + BitVec.ofNat 64 (16 * i)) 1)
      | some x =>
        let tbl := x.decay.getD []
        let now := nowOf x.held
        let lm := logical tbl now (baseOf x.held) (homeWord s (vaultHome g mOff))
        let lv := logical tbl now (baseOf x.held) (homeWord s (vaultHome g (mOff + 8)))
        let gr := at4 o.go
        let mv := momentNext tbl lm (mul32 p.c1 gr)
        let vv := momentNext tbl lv (mul32 p.c2 (mul32 gr gr))
        let t := mul32 p.lr (div32 mv (add32 (sqrt32 vv) p.eps))
        let w := sub32 (at4 o.wo) t
        let s1 := vaultWrite s mOff 8 (stampWord now lm.cls mv).toNat
        let s2 := vaultWrite s1 (mOff + 8) 8 (stampWord now lv.cls vv).toNat
        .ok (vaultWrite s2 (o.wo + 4 * i) 4 w.toNat)

/-- k elements of an AWUPD from element i on. -/
def awupdGo (p : AdamParams) (o : AdamOps) : Nat → Nat → State → Res State
  | 0, _, s => .ok s
  | k + 1, i, s =>
    match awupdElem p o i s with
    | .error e => .error e
    | .ok t => awupdGo p o k (i + 1) t

/-- AWUPD. -/
def awupdRes (pd pa pb : BitVec 3) (adv : BitVec 1) (s : State) : Res State := do
  let n := vlOf s
  let ro ← ownRange s s.core.regs.a 16 16
  let wo ← vecDest s (s.ptr pd).addr n 4
  let go ← vecRange s (s.ptr pa).addr n 4
  let mo ← vecDest s (s.ptr pb).addr n 16
  let (t, r) ← vaultFetch s s.core.regs.a ro 16
  let t ← settleRanges t [(wo, 4 * n, true), (go, 4 * n, false), (mo, 16 * n, true)]
  match firstMoment t (s.ptr pb).addr mo (2 * n) 0 with
  | some f => .error (.trap cSTAMP f.1 (BitVec.ofNat 64 f.2))
  | none =>
    let w := fun (i : Nat) => BitVec.ofNat 32 (elemAt 32 r i)
    let t ← awupdGo ⟨w 0, w 1, w 2, w 3⟩ ⟨(s.ptr pd).addr, (s.ptr pa).addr, (s.ptr pb).addr, wo, go, mo⟩ n 0 t
    .ok (advPtrs (adv == 1) [(pd, 4 * n), (pa, 4 * n), (pb, 16 * n)] t).advance

/-- AWUPD. -/
def execAwupd (pd pa pb : BitVec 3) (adv : BitVec 1) (s : State) : Out := finish s (awupdRes pd pa pb adv s)

end Sys2Proof.Machine
end

