-- ==== Sys2Proof/Machine/Order.lean ====
section
/-! DEFINITION. The sort/select unit: key order, OSORT, OTOPK, OMERGE and OBKT (17 R300-R306). -/

namespace Sys2Proof.Machine

/-! ## Key order (17 R301) -/

/-- A key as the order compares it. -/
def keyNum (ty : BitVec 3) (abs : Bool) (k : Nat) : Num :=
  let x := if ty = 3 then ofInt false (intOf 32 k) 0 else fp32.decode k
  if abs then x.abs else x

/-- Does a key come before another: a NaN is above every number and equal to another NaN. -/
def numBelow (x y : Num) : Bool := if x.isNan then false else if y.isNan then true else x.lt y

/-- Inserts an element before the first one it must precede. -/
def insertBy {α : Type} (before : α → α → Bool) (x : α) : List α → List α
  | [] => [x]
  | y :: r => if before x y then x :: y :: r else y :: insertBy before x r

/-- A list in order, elements that tie in the order they had. -/
def sortBy {α : Type} (before : α → α → Bool) (l : List α) : List α := l.foldl (fun acc x => insertBy before x acc) []

/-- A key with its index. -/
structure Entry where
  key : Nat
  idx : Nat
  deriving DecidableEq, Repr, Inhabited

/-- Does an entry precede another: by key, falling under `desc`, then by index. -/
def entryBefore (ty : BitVec 3) (desc abs : Bool) (a b : Entry) : Bool :=
  let x := keyNum ty abs a.key
  let y := keyNum ty abs b.key
  if numBelow x y then !desc else if numBelow y x then desc else a.idx < b.idx

/-- Keys with indices from IBASE on. DEDUCED: log entry 25. -/
def withIndex (ibase : Nat) (ks : List Nat) : List Entry := ks.zipIdx.map (fun e => ⟨e.1, (ibase + e.2) % 2 ^ 32⟩)

/-- An entry's 8 bytes. -/
def entryWord (e : Entry) : Nat := e.key + e.idx * 2 ^ 32

/-! ## OSORT (17 R302) -/

/-- OSORT's result. -/
def osortRes (ty pd pa : BitVec 3) (x : BitVec 2) (s : State) : Res State := do
  let n := vlOf s
  let a := s.core.regs.a
  if bits a 31 0 != 0 then .error (operand 0 0x37)
  else
    let oa ← vecRange s (s.ptr pa).addr n 4
    let od ← (if n = 0 then .ok 0 else ownDest s (s.ptr pd).addr (8 * n) 4)
    let (t, ks) ← vecRead s (s.ptr pa).addr oa n 32
    let es := sortBy (entryBefore ty (x.getLsbD 0) (x.getLsbD 1)) (withIndex (bits a 63 32) ks)
    let t ← vecWriteN t od 64 n (es.map entryWord)
    .ok t.advance

/-- OSORT. -/
def execOsort (ty pd pa : BitVec 3) (x : BitVec 2) (s : State) : Out := finish s (osortRes ty pd pa x s)

/-! ## Hands (17 R303, R304) -/

/-- A hand. -/
structure Hand where
  int   : Bool
  abs   : Bool
  low   : Bool
  cap   : Nat
  srest : W32
  ssel  : W32
  ents  : List Entry
  deriving DecidableEq, Repr

/-- A key as the sums add it. -/
def sumKey (int abs : Bool) (k : Nat) : W32 :=
  let w := BitVec.ofNat 32 k
  if !abs then w else if int then BitVec.ofInt 32 (w.toInt.natAbs : Int) else w &&& 0x7FFFFFFF

/-- One addition of a sum. -/
def handAdd (int : Bool) (x y : W32) : W32 := if int then x + y else add32 x y

/-- A sum of keys from +0, in order. -/
def handSum (int abs : Bool) (es : List Entry) : W32 := es.foldl (fun acc e => handAdd int acc (sumKey int abs e.key)) 0

/-- A hand's doublewords. -/
def Hand.words (h : Hand) : List Nat :=
  let hd := h.cap + h.ents.length * 2 ^ 16 + (if h.low then 2 ^ 32 else 0) + (if h.abs then 2 ^ 33 else 0) + (if h.int then 2 ^ 34 else 0)
  [hd, h.ssel.toNat + h.srest.toNat * 2 ^ 32] ++ padTo h.cap 0 (h.ents.map entryWord)

/-- OTOPK's hand over keys with their indices. -/
def topHand (int abs low : Bool) (ty : BitVec 3) (k : Nat) (es : List Entry) : Hand :=
  let best := (sortBy (entryBefore ty (!low) abs) es).take k
  { int := int, abs := abs, low := low, cap := k, ents := best, ssel := handSum int abs best,
    srest := handSum int abs (es.filter (fun e => !best.contains e)) }

/-- OTOPK's result. -/
def otopkRes (ty pd pa : BitVec 3) (x : BitVec 2) (s : State) : Res State := do
  let n := vlOf s
  let a := s.core.regs.a
  let k := bits a 8 0
  if k = 0 || 256 < k || bits a 31 9 != 0 then .error (operand 0 0x37)
  else
    let oa ← vecRange s (s.ptr pa).addr n 4
    let od ← ownDest s (s.ptr pd).addr (16 + 8 * k) 8
    let (t, ks) ← vecRead s (s.ptr pa).addr oa n 32
    let h := topHand (ty == 3) (x.getLsbD 1) (x.getLsbD 0) ty k (withIndex (bits a 63 32) ks)
    let t ← vecWrite t od 64 h.words
    .ok t.advance

/-- OTOPK. -/
def execOtopk (ty pd pa : BitVec 3) (x : BitVec 2) (s : State) : Out := finish s (otopkRes ty pd pa x s)

/-! ## OMERGE (17 R305) -/

/-- A hand read from the own vault; a malformed header raises OPERAND 0x37 there. -/
def readHand (ty : BitVec 3) (s : State) (va : Word) : Res (State × Hand) := do
  let off ← ownRange s va 16 8
  let (t, r) ← vaultFetch s va off 16
  let h := r % 2 ^ 64
  let k := h % 2 ^ 16
  let n := h / 2 ^ 16 % 2 ^ 16
  if h / 2 ^ 35 != 0 || k = 0 || 256 < k || k < n || (h.testBit 34 != (ty == 3)) then .error (operand va 0x37)
  else
    let off ← ownRange t va (16 + 8 * k) 8
    let (t, b) ← vaultFetch t va off (16 + 8 * n)
    let es := (List.range n).map (fun i => (⟨elemAt 32 b (4 + 2 * i), elemAt 32 b (5 + 2 * i)⟩ : Entry))
    .ok (t, { int := h.testBit 34, abs := h.testBit 33, low := h.testBit 32, cap := k,
              ssel := BitVec.ofNat 32 (elemAt 32 b 2), srest := BitVec.ofNat 32 (elemAt 32 b 3), ents := es })

/-- Two hands merged. -/
def mergeHands (ty : BitVec 3) (a b : Hand) : Hand :=
  let pool := sortBy (entryBefore ty (!a.low) a.abs) (a.ents ++ b.ents)
  let n := min a.cap (a.ents.length + b.ents.length)
  let d := handSum a.int a.abs (pool.drop n)
  { a with ents := pool.take n, ssel := handSum a.int a.abs (pool.take n),
           srest := handAdd a.int (handAdd a.int a.srest b.srest) d }

/-- OMERGE's result. -/
def omergeRes (ty pd pa pb : BitVec 3) (s : State) : Res State := do
  let (t, a) ← readHand ty s (s.ptr pa).addr
  let (t, b) ← readHand ty t (s.ptr pb).addr
  if a.cap != b.cap || a.int != b.int || a.abs != b.abs || a.low != b.low then .error (operand (s.ptr pb).addr 0x37)
  else
    let od ← ownDest t (s.ptr pd).addr (16 + 8 * a.cap) 8
    let t ← vecWrite t od 64 (mergeHands ty a b).words
    .ok t.advance

/-- OMERGE. -/
def execOmerge (ty pd pa pb : BitVec 3) (s : State) : Out := finish s (omergeRes ty pd pa pb s)

/-! ## OBKT (17 R306) -/

/-- The first boundary that lies below the one before it. -/
def firstFall (ty : BitVec 3) (abs : Bool) (bs : List Nat) : Option Nat :=
  (List.range (bs.length - 1)).find? (fun i => numBelow (keyNum ty abs (bs.getD (i + 1) 0)) (keyNum ty abs (bs.getD i 0)))

/-- The boundaries at or below a query, or below it under `lt`. -/
def bucketOf (lt : Bool) (q : Num) (bs : List Num) : Nat :=
  (bs.filter (fun b => if lt then numBelow b q else !numBelow q b)).length

/-- OBKT's result. -/
def obktRes (ty pd pa pb : BitVec 3) (x : BitVec 2) (s : State) : Res State := do
  let n := vlOf s
  let a := s.core.regs.a
  let m := bits a 12 0
  let abs := x.getLsbD 1
  if m = 0 || 4096 < m || bits a 63 13 != 0 then .error (operand 0 0x37)
  else
    let oa ← ownRange s (s.ptr pa).addr (4 * m) 4
    let ob ← vecRange s (s.ptr pb).addr n 4
    let od ← vecDest s (s.ptr pd).addr n 4
    let (t, bs) ← vecRead s (s.ptr pa).addr oa m 32
    match firstFall ty abs bs with
    | some i => .error (operand ((s.ptr pa).addr + BitVec.ofNat 64 (4 * (i + 1))) 0x38)
    | none =>
      let (t, qs) ← vecRead t (s.ptr pb).addr ob n 32
      let ks := bs.map (keyNum ty abs)
      let t ← vecWrite t od 32 (qs.map (fun q => bucketOf (x.getLsbD 0) (keyNum ty abs q) ks))
      .ok t.advance

/-- OBKT. -/
def execObkt (ty pd pa pb : BitVec 3) (x : BitVec 2) (s : State) : Out := finish s (obktRes ty pd pa pb x s)

end Sys2Proof.Machine
end

