-- ==== Sys2Proof/WellFormed.lean ====
section
/-! DEFINITION. Which instructions are well formed: the conditions under which a word of the opcode map
is an instruction (11 R190, R191, R195, R196). A device step has no word and is always well formed. -/

namespace Sys2Proof

/-- DISP is zero unless AM is 11 (11 R190). -/
def MOp.dispOk (m : MOp) : Bool := m.am == 3 || m.disp == 0
/-- SZ is 2 or 3 (11 R195: LDF, STF, FALU, ATOM). -/
def MOp.szWide (m : MOp) : Bool := m.sz == 2 || m.sz == 3
/-- SZ is 3 (11 R195: STMP). -/
def MOp.szDouble (m : MOp) : Bool := m.sz == 3

/-- CSR numbers 0x000-0x7FF that 11 R197 assigns; numbers from 0x800 belong to firmware. -/
def csrAssigned (n : BitVec 12) : Bool :=
  0x800 ≤ n.toNat ||
  [0x000, 0x001, 0x002, 0x003, 0x004, 0x005, 0x008, 0x009, 0x00A, 0x010, 0x018, 0x019, 0x020, 0x021,
   0x022, 0x028, 0x029, 0x030, 0x031, 0x032, 0x038, 0x039, 0x03A, 0x03B, 0x03C, 0x040, 0x050, 0x051,
   0x052, 0x053, 0x058, 0x059, 0x060, 0x061].contains n.toNat

/-- The SZ the major permits (11 R195). -/
def Instr.szOk : Instr → Bool
  | .ldf m
  | .stf m
  | .fadd m
  | .fsub m
  | .fmul m
  | .fdiv m
  | .fmin m
  | .fmax m
  | .fcmpeq m
  | .fcmplt m
  | .fcmple m
  | .aadd m
  | .aand m
  | .aor m
  | .axor m
  | .amin m
  | .amax m
  | .aminu m
  | .amaxu m
  | .aswp m
  | .afadd m
  | .aaddN m
  | .aandN m
  | .aorN m
  | .axorN m
  | .aminN m
  | .amaxN m
  | .aminuN m
  | .amaxuN m
  | .aswpN m
  | .afaddN m => m.szWide
  | .sld m
  | .sst m
  | .sadd m
  | .saddN m
  | .smrg m
  | .sage m
  | .srebase m => m.szDouble
  | _ => true

/-- DISP of an M-format word is zero unless AM is 11 (11 R190). -/
def Instr.dispOk : Instr → Bool
  | .ld m
  | .ldu m
  | .lda m
  | .ldAcqLoc m
  | .ldAcqDev m
  | .ldAcqSys m
  | .ldNt m
  | .ldf m
  | .st m
  | .stRelLoc m
  | .stRelDev m
  | .stRelSys m
  | .stNt m
  | .stf m
  | .add m
  | .sub m
  | .rsb m
  | .and m
  | .or m
  | .xor m
  | .mul m
  | .mulh m
  | .mulhu m
  | .div m
  | .divu m
  | .rem m
  | .remu m
  | .min m
  | .max m
  | .minu m
  | .maxu m
  | .shl m
  | .shr m
  | .sar m
  | .rol m
  | .cmpeq m
  | .cmplt m
  | .cmpltu m
  | .tst m
  | .addc m
  | .subc m
  | .fadd m
  | .fsub m
  | .fmul m
  | .fdiv m
  | .fmin m
  | .fmax m
  | .fcmpeq m
  | .fcmplt m
  | .fcmple m
  | .aadd m
  | .aand m
  | .aor m
  | .axor m
  | .amin m
  | .amax m
  | .aminu m
  | .amaxu m
  | .aswp m
  | .afadd m
  | .aaddN m
  | .aandN m
  | .aorN m
  | .axorN m
  | .aminN m
  | .amaxN m
  | .aminuN m
  | .amaxuN m
  | .aswpN m
  | .afaddN m
  | .sld m
  | .sst m
  | .sadd m
  | .saddN m
  | .smrg m
  | .sage m
  | .srebase m => m.dispOk
  | _ => true

/-- The TY the instruction lists (11 R195; 12 R215, 13 R223, 16 R283-R286, 17 R300). -/
def Instr.tyOk : Instr → Bool
  | .fmac ty _ _ _ => [0, 1].contains ty.toNat
  | .acas ty _ _
  | .imac ty _ _ _ => [3, 4].contains ty.toNat
  | .sel ty _ _ _
  | .movm ty _ _ _ _
  | .vadd ty _ _ _ _
  | .vsub ty _ _ _ _
  | .vmul ty _ _ _ _
  | .vfma ty _ _ _ _
  | .vmax ty _ _ _ _
  | .vmin ty _ _ _ _
  | .vsum ty _ _ _
  | .vdot ty _ _ _ _
  | .vgath ty _ _ _ _
  | .vscat ty _ _ _ _ => [0, 1, 2, 3, 4].contains ty.toNat
  | .vcvt ty _ _ _
  | .osort ty _ _ _
  | .otopk ty _ _ _
  | .omerge ty _ _ _
  | .obkt ty _ _ _ _ => [0, 3].contains ty.toNat
  | .vscl ty _ _ _ _ => [0, 1, 2].contains ty.toNat
  | .vexp2 ty _ _ _ => [0, 2].contains ty.toNat
  | _ => true

/-- CC is 0-8 (11 R191). -/
def Instr.ccOk : Instr → Bool
  | .bcc cc _ => cc.toNat ≤ 8
  | _ => true

/-- MFS and MTS name an assigned CSR (11 R196 reason 0x09). -/
def Instr.csrOk : Instr → Bool
  | .mfs csr
  | .mts csr => csrAssigned csr
  | _ => true

/-- With FROMA set the layer field is unused and zero (14 R243), and bit 2 of VCVT's X is unused (16 R282, R285). -/
def Instr.layerOk : Instr → Bool
  | .lwait l froma
  | .lrel l froma
  | .lhint l froma => froma == 0 || l == 0
  | .vcvt _ _ _ x => !x.getLsbD 2
  | _ => true

/-- A well-formed instruction: every check of 11 R196 passes. -/
def Instr.wf (i : Instr) : Bool :=
  i.ccOk && i.szOk && i.tyOk && i.dispOk && i.layerOk && i.csrOk

end Sys2Proof
end

