-- ==== Sys2Proof/Decode.lean ====
section
/-! DEFINITION. The decoder from instruction words to instructions, total, rejecting with the reasons of
11 R196, and after it the encoder from the same formats (11 R188). -/

namespace Sys2Proof

/-- Field of `k` bits at bit `lo` of a word (11 R188). -/
def fld (w : W32) (lo k : Nat) : BitVec k := BitVec.ofNat k (w.toNat / 2 ^ lo)

/-- The fields of an M-format word (11 R188). -/
def decM (w : W32) : MOp := { p := fld w 6 3, am := fld w 9 2, sz := fld w 11 2, disp := fld w 18 14 }

/-- Major 0x01: the candidate its function code names, none where the code is unassigned (11 R193). -/
def decLd (w : W32) : Option Instr :=
  match (fld w 13 5).toNat with
  | 0x00 => some (.ld (decM w))
  | 0x01 => some (.ldu (decM w))
  | 0x02 => some (.lda (decM w))
  | 0x03 => some (.ldAcqLoc (decM w))
  | 0x04 => some (.ldAcqDev (decM w))
  | 0x05 => some (.ldAcqSys (decM w))
  | 0x06 => some (.ldNt (decM w))
  | 0x07 => some (.ldf (decM w))
  | _ => none

/-- Major 0x02: the candidate its function code names, none where the code is unassigned (11 R193). -/
def decSt (w : W32) : Option Instr :=
  match (fld w 13 5).toNat with
  | 0x00 => some (.st (decM w))
  | 0x01 => some (.stRelLoc (decM w))
  | 0x02 => some (.stRelDev (decM w))
  | 0x03 => some (.stRelSys (decM w))
  | 0x04 => some (.stNt (decM w))
  | 0x05 => some (.stf (decM w))
  | _ => none

/-- Major 0x03: the candidate its function code names, none where the code is unassigned (11 R193). -/
def decIalu (w : W32) : Option Instr :=
  match (fld w 13 5).toNat with
  | 0x00 => some (.add (decM w))
  | 0x01 => some (.sub (decM w))
  | 0x02 => some (.rsb (decM w))
  | 0x03 => some (.and (decM w))
  | 0x04 => some (.or (decM w))
  | 0x05 => some (.xor (decM w))
  | 0x06 => some (.mul (decM w))
  | 0x07 => some (.mulh (decM w))
  | 0x08 => some (.mulhu (decM w))
  | 0x09 => some (.div (decM w))
  | 0x0A => some (.divu (decM w))
  | 0x0B => some (.rem (decM w))
  | 0x0C => some (.remu (decM w))
  | 0x0D => some (.min (decM w))
  | 0x0E => some (.max (decM w))
  | 0x0F => some (.minu (decM w))
  | 0x10 => some (.maxu (decM w))
  | 0x11 => some (.shl (decM w))
  | 0x12 => some (.shr (decM w))
  | 0x13 => some (.sar (decM w))
  | 0x14 => some (.rol (decM w))
  | 0x15 => some (.cmpeq (decM w))
  | 0x16 => some (.cmplt (decM w))
  | 0x17 => some (.cmpltu (decM w))
  | 0x18 => some (.tst (decM w))
  | 0x19 => some (.addc (decM w))
  | 0x1A => some (.subc (decM w))
  | _ => none

/-- Major 0x04: the candidate its function code names, none where the code is unassigned (11 R193). -/
def decFalu (w : W32) : Option Instr :=
  match (fld w 13 5).toNat with
  | 0x00 => some (.fadd (decM w))
  | 0x01 => some (.fsub (decM w))
  | 0x02 => some (.fmul (decM w))
  | 0x03 => some (.fdiv (decM w))
  | 0x04 => some (.fmin (decM w))
  | 0x05 => some (.fmax (decM w))
  | 0x06 => some (.fcmpeq (decM w))
  | 0x07 => some (.fcmplt (decM w))
  | 0x08 => some (.fcmple (decM w))
  | _ => none

/-- Major 0x05: the candidate its function code names, none where the code is unassigned (11 R193). -/
def decIimm (w : W32) : Option Instr :=
  match (fld w 6 5).toNat with
  | 0x00 => some (.li (fld w 11 21))
  | 0x01 => some (.lui (fld w 11 21))
  | 0x02 => some (.addi (fld w 11 21))
  | 0x03 => some (.andi (fld w 11 21))
  | 0x04 => some (.ori (fld w 11 21))
  | 0x05 => some (.xori (fld w 11 21))
  | 0x06 => some (.shli (fld w 11 6))
  | 0x07 => some (.shri (fld w 11 6))
  | 0x08 => some (.sari (fld w 11 6))
  | 0x09 => some (.cmpeqi (fld w 11 21))
  | 0x0A => some (.cmplti (fld w 11 21))
  | 0x0B => some (.cmpltui (fld w 11 21))
  | 0x0C => some (.tsti (fld w 11 21))
  | 0x0D => some (.muli (fld w 11 21))
  | _ => none

/-- Major 0x06: the candidate its function code names, none where the code is unassigned (11 R193). -/
def decUnf (w : W32) : Option Instr :=
  match (fld w 6 5).toNat with
  | 0x00 => some (.neg)
  | 0x01 => some (.not)
  | 0x02 => some (.clz)
  | 0x03 => some (.ctz)
  | 0x04 => some (.popc)
  | 0x05 => some (.bswap)
  | 0x06 => some (.sext (fld w 11 2))
  | 0x07 => some (.zext (fld w 11 2))
  | 0x08 => some (.sett)
  | 0x09 => some (.clrt)
  | 0x0A => some (.movt)
  | 0x0B => some (.movc)
  | 0x0C => some (.fabs)
  | 0x0D => some (.fneg)
  | 0x0E => some (.fsqrt)
  | 0x0F => some (.fcvt (fld w 11 5))
  | 0x10 => some (.fclass)
  | _ => none

/-- Major 0x07: the candidate its function code names, none where the code is unassigned (11 R193). -/
def decAtom (w : W32) : Option Instr :=
  match (fld w 13 5).toNat with
  | 0x00 => some (.aadd (decM w))
  | 0x01 => some (.aand (decM w))
  | 0x02 => some (.aor (decM w))
  | 0x03 => some (.axor (decM w))
  | 0x04 => some (.amin (decM w))
  | 0x05 => some (.amax (decM w))
  | 0x06 => some (.aminu (decM w))
  | 0x07 => some (.amaxu (decM w))
  | 0x08 => some (.aswp (decM w))
  | 0x09 => some (.afadd (decM w))
  | 0x10 => some (.aaddN (decM w))
  | 0x11 => some (.aandN (decM w))
  | 0x12 => some (.aorN (decM w))
  | 0x13 => some (.axorN (decM w))
  | 0x14 => some (.aminN (decM w))
  | 0x15 => some (.amaxN (decM w))
  | 0x16 => some (.aminuN (decM w))
  | 0x17 => some (.amaxuN (decM w))
  | 0x18 => some (.aswpN (decM w))
  | 0x19 => some (.afaddN (decM w))
  | _ => none

/-- Major 0x08: the candidate its function code names, none where the code is unassigned (11 R193). -/
def decStmp (w : W32) : Option Instr :=
  match (fld w 13 5).toNat with
  | 0x00 => some (.sld (decM w))
  | 0x01 => some (.sst (decM w))
  | 0x02 => some (.sadd (decM w))
  | 0x03 => some (.saddN (decM w))
  | 0x04 => some (.smrg (decM w))
  | 0x05 => some (.sage (decM w))
  | 0x06 => some (.srebase (decM w))
  | _ => none

/-- Major 0x09: the candidate its function code names, none where the code is unassigned (11 R193). -/
def decPtr (w : W32) : Option Instr :=
  match (fld w 12 4).toNat with
  | 0x00 => some (.pset (fld w 6 3) (fld w 16 16))
  | 0x01 => some (.pget (fld w 9 3) (fld w 16 16))
  | 0x02 => some (.padd (fld w 6 3) (fld w 9 3) (fld w 16 16))
  | 0x03 => some (.padda (fld w 6 3) (fld w 9 3))
  | 0x04 => some (.pstr (fld w 6 3) (fld w 16 16))
  | 0x05 => some (.pstra (fld w 6 3))
  | 0x06 => some (.pcmpeq (fld w 6 3) (fld w 9 3))
  | 0x07 => some (.pcmplt (fld w 6 3) (fld w 9 3))
  | 0x08 => some (.pgets (fld w 9 3))
  | _ => none

/-- Major 0x0C: the candidate its function code names, none where the code is unassigned (11 R193). -/
def decCtl (w : W32) : Option Instr :=
  match (fld w 6 6).toNat with
  | 0x00 => some (.nop)
  | 0x01 => some (.jmpa)
  | 0x02 => some (.calla)
  | 0x03 => some (.ret (fld w 12 20))
  | 0x04 => some (.brk (fld w 12 20))
  | _ => none

/-- Major 0x0D: the candidate its function code names, none where the code is unassigned (11 R193). -/
def decTrio (w : W32) : Option Instr :=
  match (fld w 18 6).toNat with
  | 0x00 => some (.fmac (fld w 15 3) (fld w 9 3) (fld w 12 3) (fld w 24 2))
  | 0x01 => some (.acas (fld w 15 3) (fld w 9 3) (fld w 12 3))
  | 0x02 => some (.sel (fld w 15 3) (fld w 9 3) (fld w 12 3) (fld w 24 2))
  | 0x03 => some (.imac (fld w 15 3) (fld w 9 3) (fld w 12 3) (fld w 24 2))
  | 0x04 => some (.movm (fld w 15 3) (fld w 6 3) (fld w 9 3) (fld w 24 1) (fld w 26 1))
  | _ => none

/-- Major 0x0E: the candidate its function code names, none where the code is unassigned (11 R193). -/
def decMsys (w : W32) : Option Instr :=
  match (fld w 6 4).toNat with
  | 0x00 => some (.fence (fld w 13 2))
  | 0x01 => some (.drain)
  | 0x02 => some (.waitc (fld w 13 16))
  | 0x03 => some (.mwatch (fld w 10 3))
  | 0x04 => some (.mwait (fld w 13 19))
  | 0x05 => some (.ifence)
  | 0x06 => some (.cflush (fld w 10 3))
  | 0x07 => some (.cpin (fld w 10 3))
  | 0x08 => some (.cunpin (fld w 10 3))
  | 0x09 => some (.cpref (fld w 10 3))
  | 0x0A => some (.step)
  | _ => none

/-- Major 0x0F: the candidate its function code names, none where the code is unassigned (11 R193). -/
def decSys (w : W32) : Option Instr :=
  match (fld w 6 6).toNat with
  | 0x00 => some (.mfs (fld w 12 12))
  | 0x01 => some (.mts (fld w 12 12))
  | 0x02 => some (.trap (fld w 12 20))
  | 0x03 => some (.rft)
  | 0x04 => some (.tlbw)
  | 0x05 => some (.tlbi (fld w 12 1))
  | 0x06 => some (.csave)
  | 0x07 => some (.crst (fld w 12 6))
  | 0x08 => some (.rwld)
  | 0x09 => some (.rwskip)
  | 0x0A => some (.idle)
  | 0x0B => some (.wdog (fld w 12 12))
  | _ => none

/-- Major 0x10: the candidate its function code names, none where the code is unassigned (11 R193). -/
def decLoop (w : W32) : Option Instr :=
  match (fld w 12 4).toNat with
  | 0x00 => some (.lnset (fld w 9 3) (fld w 16 16))
  | 0x01 => some (.lnext)
  | 0x02 => some (.lnidx (fld w 16 2))
  | 0x03 => some (.lnptr (fld w 6 3) (fld w 16 2))
  | _ => none

/-- Major 0x30: the candidate its function code names, none where the code is unassigned (11 R193). -/
def decTctl (w : W32) : Option Instr :=
  match (fld w 6 4).toNat with
  | 0x00 => some (.tcfg (fld w 10 2) (fld w 18 9))
  | 0x01 => some (.trel (fld w 10 2))
  | 0x02 => some (.tzero (fld w 10 2))
  | 0x03 => some (.tld (fld w 10 2) (fld w 12 3) (fld w 18 1))
  | 0x04 => some (.twr (fld w 10 2) (fld w 12 3) (fld w 18 1))
  | 0x05 => some (.tdrain (fld w 10 2) (fld w 12 3) (fld w 18 2))
  | 0x06 => some (.ttrn (fld w 10 2))
  | 0x07 => some (.tscl (fld w 10 2) (fld w 12 3))
  | _ => none

/-- Major 0x31: the candidate its function code names, none where the code is unassigned (11 R193). -/
def decTmma (w : W32) : Option Instr :=
  match (fld w 6 4).toNat with
  | 0x00 => some (.mma (fld w 10 2) (fld w 12 3) (fld w 15 3) (fld w 18 6))
  | 0x01 => some (.mmas (fld w 10 2) (fld w 12 3) (fld w 15 3) (fld w 18 6))
  | 0x02 => some (.tcmpr (fld w 12 3) (fld w 15 3) (fld w 18 1))
  | _ => none

/-- Major 0x32: the candidate its function code names, none where the code is unassigned (11 R193). -/
def decTvec (w : W32) : Option Instr :=
  match (fld w 6 4).toNat with
  | 0x00 => some (.tvop (fld w 10 2) (fld w 12 3) (fld w 18 7))
  | 0x01 => some (.tred (fld w 10 2) (fld w 12 3) (fld w 18 3))
  | 0x02 => some (.tcvt (fld w 10 2) (fld w 22 4))
  | 0x03 => some (.tqnt (fld w 10 2) (fld w 12 3) (fld w 18 2))
  | 0x04 => some (.tsmax (fld w 10 2))
  | _ => none

/-- Major 0x33: the candidate its function code names, none where the code is unassigned (11 R193). -/
def decVec (w : W32) : Option Instr :=
  match (fld w 18 6).toNat with
  | 0x00 => some (.vadd (fld w 15 3) (fld w 6 3) (fld w 9 3) (fld w 12 3) (fld w 24 2))
  | 0x01 => some (.vsub (fld w 15 3) (fld w 6 3) (fld w 9 3) (fld w 12 3) (fld w 24 2))
  | 0x02 => some (.vmul (fld w 15 3) (fld w 6 3) (fld w 9 3) (fld w 12 3) (fld w 24 2))
  | 0x03 => some (.vfma (fld w 15 3) (fld w 6 3) (fld w 9 3) (fld w 12 3) (fld w 24 2))
  | 0x04 => some (.vmax (fld w 15 3) (fld w 6 3) (fld w 9 3) (fld w 12 3) (fld w 24 2))
  | 0x05 => some (.vmin (fld w 15 3) (fld w 6 3) (fld w 9 3) (fld w 12 3) (fld w 24 2))
  | 0x06 => some (.vsum (fld w 15 3) (fld w 6 3) (fld w 9 3) (fld w 24 2))
  | 0x07 => some (.vdot (fld w 15 3) (fld w 6 3) (fld w 9 3) (fld w 12 3) (fld w 24 2))
  | 0x08 => some (.vcvt (fld w 15 3) (fld w 6 3) (fld w 9 3) (fld w 24 8))
  | 0x09 => some (.vgath (fld w 15 3) (fld w 6 3) (fld w 9 3) (fld w 12 3) (fld w 24 2))
  | 0x0A => some (.vscat (fld w 15 3) (fld w 6 3) (fld w 9 3) (fld w 12 3) (fld w 24 2))
  | 0x0B => some (.vscl (fld w 15 3) (fld w 6 3) (fld w 9 3) (fld w 12 3) (fld w 24 2))
  | 0x0C => some (.vexp2 (fld w 15 3) (fld w 6 3) (fld w 9 3) (fld w 24 2))
  | 0x0D => some (.vsad (fld w 6 3) (fld w 9 3) (fld w 24 2))
  | 0x0E => some (.awupd (fld w 6 3) (fld w 9 3) (fld w 12 3) (fld w 25 1))
  | _ => none

/-- Major 0x34: the candidate its function code names, none where the code is unassigned (11 R193). -/
def decRank (w : W32) : Option Instr :=
  match (fld w 6 4).toNat with
  | 0x00 => some (.rkcfg (fld w 10 3) (fld w 13 1))
  | 0x01 => some (.rkldg (fld w 10 3))
  | 0x02 => some (.rkemit (fld w 10 3) (fld w 13 4))
  | 0x03 => some (.rkrecv)
  | 0x04 => some (.rkres)
  | 0x05 => some (.rkstop)
  | 0x06 => some (.rkbwd (fld w 10 3))
  | 0x07 => some (.rkrd (fld w 10 3))
  | _ => none

/-- Major 0x35: the candidate its function code names, none where the code is unassigned (11 R193). -/
def decSort (w : W32) : Option Instr :=
  match (fld w 18 6).toNat with
  | 0x00 => some (.osort (fld w 15 3) (fld w 6 3) (fld w 9 3) (fld w 24 2))
  | 0x01 => some (.otopk (fld w 15 3) (fld w 6 3) (fld w 9 3) (fld w 24 2))
  | 0x02 => some (.omerge (fld w 15 3) (fld w 6 3) (fld w 9 3) (fld w 12 3))
  | 0x03 => some (.obkt (fld w 15 3) (fld w 6 3) (fld w 9 3) (fld w 12 3) (fld w 24 2))
  | _ => none

/-- Major 0x38: the candidate its function code names, none where the code is unassigned (11 R193). -/
def decTask (w : W32) : Option Instr :=
  match (fld w 6 4).toNat with
  | 0x00 => some (.spawn (fld w 10 3) (fld w 13 1))
  | 0x01 => some (.send (fld w 10 3) (fld w 13 6) (fld w 19 1))
  | 0x03 => some (.hop (fld w 10 3) (fld w 13 5))
  | 0x04 => some (.yield)
  | 0x05 => some (.endTask)
  | 0x06 => some (.launch (fld w 10 3))
  | _ => none

/-- Major 0x39: the candidate its function code names, none where the code is unassigned (11 R193). -/
def decLink (w : W32) : Option Instr :=
  match (fld w 6 4).toNat with
  | 0x00 => some (.lqput (fld w 13 2))
  | 0x01 => some (.lqget (fld w 13 2))
  | 0x02 => some (.lqtst (fld w 13 2) (fld w 15 1))
  | 0x03 => some (.tsend (fld w 10 3))
  | 0x04 => some (.mread (fld w 10 3))
  | _ => none

/-- Major 0x3A: the candidate its function code names, none where the code is unassigned (11 R193). -/
def decLayr (w : W32) : Option Instr :=
  match (fld w 6 4).toNat with
  | 0x00 => some (.lwait (if fld w 25 1 = 1 then 0 else fld w 13 12) (fld w 25 1))
  | 0x01 => some (.lrel (if fld w 25 1 = 1 then 0 else fld w 13 12) (fld w 25 1))
  | 0x02 => some (.lhint (if fld w 25 1 = 1 then 0 else fld w 13 12) (fld w 25 1))
  | _ => none

/-- Major 0x3C: the candidate its function code names, none where the code is unassigned (11 R193). -/
def decSync (w : W32) : Option Instr :=
  match (fld w 6 4).toNat with
  | 0x00 => some (.jdec (fld w 10 3))
  | 0x01 => some (.barm (fld w 10 3) (fld w 13 3))
  | 0x02 => some (.obar)
  | _ => none

/-- The candidate instruction of a word: reason 0x02 where the major is unassigned or reserved, 0x03 where
the function code is (11 R193, R196). -/
def candidate (w : W32) : Except (BitVec 8) Instr :=
  let fn (o : Option Instr) : Except (BitVec 8) Instr := match o with | some i => .ok i | none => .error 0x03
  match (fld w 0 6).toNat with
  | 0x01 => fn (decLd w)
  | 0x02 => fn (decSt w)
  | 0x03 => fn (decIalu w)
  | 0x04 => fn (decFalu w)
  | 0x05 => fn (decIimm w)
  | 0x06 => fn (decUnf w)
  | 0x07 => fn (decAtom w)
  | 0x08 => fn (decStmp w)
  | 0x09 => fn (decPtr w)
  | 0x0A => .ok (.bcc (fld w 6 4) (fld w 10 22))
  | 0x0B => .ok (.call (fld w 10 22))
  | 0x0C => fn (decCtl w)
  | 0x0D => fn (decTrio w)
  | 0x0E => fn (decMsys w)
  | 0x0F => fn (decSys w)
  | 0x10 => fn (decLoop w)
  | 0x30 => fn (decTctl w)
  | 0x31 => fn (decTmma w)
  | 0x32 => fn (decTvec w)
  | 0x33 => fn (decVec w)
  | 0x34 => fn (decRank w)
  | 0x35 => fn (decSort w)
  | 0x38 => fn (decTask w)
  | 0x39 => fn (decLink w)
  | 0x3A => fn (decLayr w)
  | 0x3C => fn (decSync w)
  | _ => .error 0x02

/-- The M-format word (11 R188). -/
def encM (maj fn : Nat) (m : MOp) : W32 :=
  BitVec.ofNat 32 (maj + m.p.toNat * 2 ^ 6 + m.am.toNat * 2 ^ 9 + m.sz.toNat * 2 ^ 11 + fn * 2 ^ 13 + m.disp.toNat * 2 ^ 18)

/-- A field's value placed at bit `lo` of a word whose bits there are zero (11 R188). -/
def put (lo v base : Nat) : Nat := base + v * 2 ^ lo

/-- The word of an instruction (11 R188, R193); none for a device step, which has no word. -/
def encode : Instr → Option W32
  | .ld m => some (encM 0x01 0x00 m)
  | .ldu m => some (encM 0x01 0x01 m)
  | .lda m => some (encM 0x01 0x02 m)
  | .ldAcqLoc m => some (encM 0x01 0x03 m)
  | .ldAcqDev m => some (encM 0x01 0x04 m)
  | .ldAcqSys m => some (encM 0x01 0x05 m)
  | .ldNt m => some (encM 0x01 0x06 m)
  | .ldf m => some (encM 0x01 0x07 m)
  | .st m => some (encM 0x02 0x00 m)
  | .stRelLoc m => some (encM 0x02 0x01 m)
  | .stRelDev m => some (encM 0x02 0x02 m)
  | .stRelSys m => some (encM 0x02 0x03 m)
  | .stNt m => some (encM 0x02 0x04 m)
  | .stf m => some (encM 0x02 0x05 m)
  | .add m => some (encM 0x03 0x00 m)
  | .sub m => some (encM 0x03 0x01 m)
  | .rsb m => some (encM 0x03 0x02 m)
  | .and m => some (encM 0x03 0x03 m)
  | .or m => some (encM 0x03 0x04 m)
  | .xor m => some (encM 0x03 0x05 m)
  | .mul m => some (encM 0x03 0x06 m)
  | .mulh m => some (encM 0x03 0x07 m)
  | .mulhu m => some (encM 0x03 0x08 m)
  | .div m => some (encM 0x03 0x09 m)
  | .divu m => some (encM 0x03 0x0A m)
  | .rem m => some (encM 0x03 0x0B m)
  | .remu m => some (encM 0x03 0x0C m)
  | .min m => some (encM 0x03 0x0D m)
  | .max m => some (encM 0x03 0x0E m)
  | .minu m => some (encM 0x03 0x0F m)
  | .maxu m => some (encM 0x03 0x10 m)
  | .shl m => some (encM 0x03 0x11 m)
  | .shr m => some (encM 0x03 0x12 m)
  | .sar m => some (encM 0x03 0x13 m)
  | .rol m => some (encM 0x03 0x14 m)
  | .cmpeq m => some (encM 0x03 0x15 m)
  | .cmplt m => some (encM 0x03 0x16 m)
  | .cmpltu m => some (encM 0x03 0x17 m)
  | .tst m => some (encM 0x03 0x18 m)
  | .addc m => some (encM 0x03 0x19 m)
  | .subc m => some (encM 0x03 0x1A m)
  | .fadd m => some (encM 0x04 0x00 m)
  | .fsub m => some (encM 0x04 0x01 m)
  | .fmul m => some (encM 0x04 0x02 m)
  | .fdiv m => some (encM 0x04 0x03 m)
  | .fmin m => some (encM 0x04 0x04 m)
  | .fmax m => some (encM 0x04 0x05 m)
  | .fcmpeq m => some (encM 0x04 0x06 m)
  | .fcmplt m => some (encM 0x04 0x07 m)
  | .fcmple m => some (encM 0x04 0x08 m)
  | .li imm => some (BitVec.ofNat 32 (put 11 imm.toNat 0x5))
  | .lui imm => some (BitVec.ofNat 32 (put 11 imm.toNat 0x45))
  | .addi imm => some (BitVec.ofNat 32 (put 11 imm.toNat 0x85))
  | .andi imm => some (BitVec.ofNat 32 (put 11 imm.toNat 0xC5))
  | .ori imm => some (BitVec.ofNat 32 (put 11 imm.toNat 0x105))
  | .xori imm => some (BitVec.ofNat 32 (put 11 imm.toNat 0x145))
  | .shli sh => some (BitVec.ofNat 32 (put 11 sh.toNat 0x185))
  | .shri sh => some (BitVec.ofNat 32 (put 11 sh.toNat 0x1C5))
  | .sari sh => some (BitVec.ofNat 32 (put 11 sh.toNat 0x205))
  | .cmpeqi imm => some (BitVec.ofNat 32 (put 11 imm.toNat 0x245))
  | .cmplti imm => some (BitVec.ofNat 32 (put 11 imm.toNat 0x285))
  | .cmpltui imm => some (BitVec.ofNat 32 (put 11 imm.toNat 0x2C5))
  | .tsti imm => some (BitVec.ofNat 32 (put 11 imm.toNat 0x305))
  | .muli imm => some (BitVec.ofNat 32 (put 11 imm.toNat 0x345))
  | .neg => some (BitVec.ofNat 32 0x6)
  | .not => some (BitVec.ofNat 32 0x46)
  | .clz => some (BitVec.ofNat 32 0x86)
  | .ctz => some (BitVec.ofNat 32 0xC6)
  | .popc => some (BitVec.ofNat 32 0x106)
  | .bswap => some (BitVec.ofNat 32 0x146)
  | .sext w => some (BitVec.ofNat 32 (put 11 w.toNat 0x186))
  | .zext w => some (BitVec.ofNat 32 (put 11 w.toNat 0x1C6))
  | .sett => some (BitVec.ofNat 32 0x206)
  | .clrt => some (BitVec.ofNat 32 0x246)
  | .movt => some (BitVec.ofNat 32 0x286)
  | .movc => some (BitVec.ofNat 32 0x2C6)
  | .fabs => some (BitVec.ofNat 32 0x306)
  | .fneg => some (BitVec.ofNat 32 0x346)
  | .fsqrt => some (BitVec.ofNat 32 0x386)
  | .fcvt code => some (BitVec.ofNat 32 (put 11 code.toNat 0x3C6))
  | .fclass => some (BitVec.ofNat 32 0x406)
  | .aadd m => some (encM 0x07 0x00 m)
  | .aand m => some (encM 0x07 0x01 m)
  | .aor m => some (encM 0x07 0x02 m)
  | .axor m => some (encM 0x07 0x03 m)
  | .amin m => some (encM 0x07 0x04 m)
  | .amax m => some (encM 0x07 0x05 m)
  | .aminu m => some (encM 0x07 0x06 m)
  | .amaxu m => some (encM 0x07 0x07 m)
  | .aswp m => some (encM 0x07 0x08 m)
  | .afadd m => some (encM 0x07 0x09 m)
  | .aaddN m => some (encM 0x07 0x10 m)
  | .aandN m => some (encM 0x07 0x11 m)
  | .aorN m => some (encM 0x07 0x12 m)
  | .axorN m => some (encM 0x07 0x13 m)
  | .aminN m => some (encM 0x07 0x14 m)
  | .amaxN m => some (encM 0x07 0x15 m)
  | .aminuN m => some (encM 0x07 0x16 m)
  | .amaxuN m => some (encM 0x07 0x17 m)
  | .aswpN m => some (encM 0x07 0x18 m)
  | .afaddN m => some (encM 0x07 0x19 m)
  | .sld m => some (encM 0x08 0x00 m)
  | .sst m => some (encM 0x08 0x01 m)
  | .sadd m => some (encM 0x08 0x02 m)
  | .saddN m => some (encM 0x08 0x03 m)
  | .smrg m => some (encM 0x08 0x04 m)
  | .sage m => some (encM 0x08 0x05 m)
  | .srebase m => some (encM 0x08 0x06 m)
  | .pset pd imm => some (BitVec.ofNat 32 (put 16 imm.toNat (put 6 pd.toNat 0x9)))
  | .pget ps imm => some (BitVec.ofNat 32 (put 16 imm.toNat (put 9 ps.toNat 0x1009)))
  | .padd pd ps imm => some (BitVec.ofNat 32 (put 16 imm.toNat (put 9 ps.toNat (put 6 pd.toNat 0x2009))))
  | .padda pd ps => some (BitVec.ofNat 32 (put 9 ps.toNat (put 6 pd.toNat 0x3009)))
  | .pstr pd imm => some (BitVec.ofNat 32 (put 16 imm.toNat (put 6 pd.toNat 0x4009)))
  | .pstra pd => some (BitVec.ofNat 32 (put 6 pd.toNat 0x5009))
  | .pcmpeq pd ps => some (BitVec.ofNat 32 (put 9 ps.toNat (put 6 pd.toNat 0x6009)))
  | .pcmplt pd ps => some (BitVec.ofNat 32 (put 9 ps.toNat (put 6 pd.toNat 0x7009)))
  | .pgets ps => some (BitVec.ofNat 32 (put 9 ps.toNat 0x8009))
  | .bcc cc off => some (BitVec.ofNat 32 (put 10 off.toNat (put 6 cc.toNat 0xA)))
  | .call off => some (BitVec.ofNat 32 (put 10 off.toNat 0xB))
  | .nop => some (BitVec.ofNat 32 0xC)
  | .jmpa => some (BitVec.ofNat 32 0x4C)
  | .calla => some (BitVec.ofNat 32 0x8C)
  | .ret n => some (BitVec.ofNat 32 (put 12 n.toNat 0xCC))
  | .brk n => some (BitVec.ofNat 32 (put 12 n.toNat 0x10C))
  | .fmac ty pa pb x => some (BitVec.ofNat 32 (put 24 x.toNat (put 12 pb.toNat (put 9 pa.toNat (put 15 ty.toNat 0xD)))))
  | .acas ty pa pb => some (BitVec.ofNat 32 (put 12 pb.toNat (put 9 pa.toNat (put 15 ty.toNat 0x4000D))))
  | .sel ty pa pb x => some (BitVec.ofNat 32 (put 24 x.toNat (put 12 pb.toNat (put 9 pa.toNat (put 15 ty.toNat 0x8000D)))))
  | .imac ty pa pb x => some (BitVec.ofNat 32 (put 24 x.toNat (put 12 pb.toNat (put 9 pa.toNat (put 15 ty.toNat 0xC000D)))))
  | .movm ty pd pa xa xd => some (BitVec.ofNat 32 (put 26 xd.toNat (put 24 xa.toNat (put 9 pa.toNat (put 6 pd.toNat (put 15 ty.toNat 0x10000D))))))
  | .fence scope => some (BitVec.ofNat 32 (put 13 scope.toNat 0xE))
  | .drain => some (BitVec.ofNat 32 0x4E)
  | .waitc n => some (BitVec.ofNat 32 (put 13 n.toNat 0x8E))
  | .mwatch p => some (BitVec.ofNat 32 (put 10 p.toNat 0xCE))
  | .mwait n => some (BitVec.ofNat 32 (put 13 n.toNat 0x10E))
  | .ifence => some (BitVec.ofNat 32 0x14E)
  | .cflush p => some (BitVec.ofNat 32 (put 10 p.toNat 0x18E))
  | .cpin p => some (BitVec.ofNat 32 (put 10 p.toNat 0x1CE))
  | .cunpin p => some (BitVec.ofNat 32 (put 10 p.toNat 0x20E))
  | .cpref p => some (BitVec.ofNat 32 (put 10 p.toNat 0x24E))
  | .step => some (BitVec.ofNat 32 0x28E)
  | .mfs csr => some (BitVec.ofNat 32 (put 12 csr.toNat 0xF))
  | .mts csr => some (BitVec.ofNat 32 (put 12 csr.toNat 0x4F))
  | .trap n => some (BitVec.ofNat 32 (put 12 n.toNat 0x8F))
  | .rft => some (BitVec.ofNat 32 0xCF)
  | .tlbw => some (BitVec.ofNat 32 0x10F)
  | .tlbi all => some (BitVec.ofNat 32 (put 12 all.toNat 0x14F))
  | .csave => some (BitVec.ofNat 32 0x18F)
  | .crst c => some (BitVec.ofNat 32 (put 12 c.toNat 0x1CF))
  | .rwld => some (BitVec.ofNat 32 0x20F)
  | .rwskip => some (BitVec.ofNat 32 0x24F)
  | .idle => some (BitVec.ofNat 32 0x28F)
  | .wdog n => some (BitVec.ofNat 32 (put 12 n.toNat 0x2CF))
  | .lnset ps imm => some (BitVec.ofNat 32 (put 16 imm.toNat (put 9 ps.toNat 0x10)))
  | .lnext => some (BitVec.ofNat 32 0x1010)
  | .lnidx j => some (BitVec.ofNat 32 (put 16 j.toNat 0x2010))
  | .lnptr pd s => some (BitVec.ofNat 32 (put 16 s.toNat (put 6 pd.toNat 0x3010)))
  | .tcfg ac fl => some (BitVec.ofNat 32 (put 18 fl.toNat (put 10 ac.toNat 0x30)))
  | .trel ac => some (BitVec.ofNat 32 (put 10 ac.toNat 0x70))
  | .tzero ac => some (BitVec.ofNat 32 (put 10 ac.toNat 0xB0))
  | .tld ac pa fl => some (BitVec.ofNat 32 (put 18 fl.toNat (put 12 pa.toNat (put 10 ac.toNat 0xF0))))
  | .twr ac pa fl => some (BitVec.ofNat 32 (put 18 fl.toNat (put 12 pa.toNat (put 10 ac.toNat 0x130))))
  | .tdrain ac pa fl => some (BitVec.ofNat 32 (put 18 fl.toNat (put 12 pa.toNat (put 10 ac.toNat 0x170))))
  | .ttrn ac => some (BitVec.ofNat 32 (put 10 ac.toNat 0x1B0))
  | .tscl ac pa => some (BitVec.ofNat 32 (put 12 pa.toNat (put 10 ac.toNat 0x1F0)))
  | .mma ac pa pb fl => some (BitVec.ofNat 32 (put 18 fl.toNat (put 15 pb.toNat (put 12 pa.toNat (put 10 ac.toNat 0x31)))))
  | .mmas ac pa pb fl => some (BitVec.ofNat 32 (put 18 fl.toNat (put 15 pb.toNat (put 12 pa.toNat (put 10 ac.toNat 0x71)))))
  | .tcmpr pa pb fl => some (BitVec.ofNat 32 (put 18 fl.toNat (put 15 pb.toNat (put 12 pa.toNat 0xB1))))
  | .tvop ac pa fl => some (BitVec.ofNat 32 (put 18 fl.toNat (put 12 pa.toNat (put 10 ac.toNat 0x32))))
  | .tred ac pa fl => some (BitVec.ofNat 32 (put 18 fl.toNat (put 12 pa.toNat (put 10 ac.toNat 0x72))))
  | .tcvt ac fl => some (BitVec.ofNat 32 (put 22 fl.toNat (put 10 ac.toNat 0xB2)))
  | .tqnt ac pa fl => some (BitVec.ofNat 32 (put 18 fl.toNat (put 12 pa.toNat (put 10 ac.toNat 0xF2))))
  | .tsmax ac => some (BitVec.ofNat 32 (put 10 ac.toNat 0x132))
  | .vadd ty pd pa pb x => some (BitVec.ofNat 32 (put 24 x.toNat (put 12 pb.toNat (put 9 pa.toNat (put 6 pd.toNat (put 15 ty.toNat 0x33))))))
  | .vsub ty pd pa pb x => some (BitVec.ofNat 32 (put 24 x.toNat (put 12 pb.toNat (put 9 pa.toNat (put 6 pd.toNat (put 15 ty.toNat 0x40033))))))
  | .vmul ty pd pa pb x => some (BitVec.ofNat 32 (put 24 x.toNat (put 12 pb.toNat (put 9 pa.toNat (put 6 pd.toNat (put 15 ty.toNat 0x80033))))))
  | .vfma ty pd pa pb x => some (BitVec.ofNat 32 (put 24 x.toNat (put 12 pb.toNat (put 9 pa.toNat (put 6 pd.toNat (put 15 ty.toNat 0xC0033))))))
  | .vmax ty pd pa pb x => some (BitVec.ofNat 32 (put 24 x.toNat (put 12 pb.toNat (put 9 pa.toNat (put 6 pd.toNat (put 15 ty.toNat 0x100033))))))
  | .vmin ty pd pa pb x => some (BitVec.ofNat 32 (put 24 x.toNat (put 12 pb.toNat (put 9 pa.toNat (put 6 pd.toNat (put 15 ty.toNat 0x140033))))))
  | .vsum ty pd pa x => some (BitVec.ofNat 32 (put 24 x.toNat (put 9 pa.toNat (put 6 pd.toNat (put 15 ty.toNat 0x180033)))))
  | .vdot ty pd pa pb x => some (BitVec.ofNat 32 (put 24 x.toNat (put 12 pb.toNat (put 9 pa.toNat (put 6 pd.toNat (put 15 ty.toNat 0x1C0033))))))
  | .vcvt ty pd pa x => some (BitVec.ofNat 32 (put 24 (x &&& 0xFB).toNat (put 9 pa.toNat (put 6 pd.toNat (put 15 ty.toNat 0x200033)))))
  | .vgath ty pd pa pb x => some (BitVec.ofNat 32 (put 24 x.toNat (put 12 pb.toNat (put 9 pa.toNat (put 6 pd.toNat (put 15 ty.toNat 0x240033))))))
  | .vscat ty pd pa pb x => some (BitVec.ofNat 32 (put 24 x.toNat (put 12 pb.toNat (put 9 pa.toNat (put 6 pd.toNat (put 15 ty.toNat 0x280033))))))
  | .vscl ty pd pa pb x => some (BitVec.ofNat 32 (put 24 x.toNat (put 12 pb.toNat (put 9 pa.toNat (put 6 pd.toNat (put 15 ty.toNat 0x2C0033))))))
  | .vexp2 ty pd pa x => some (BitVec.ofNat 32 (put 24 x.toNat (put 9 pa.toNat (put 6 pd.toNat (put 15 ty.toNat 0x300033)))))
  | .vsad pd pa x => some (BitVec.ofNat 32 (put 24 x.toNat (put 9 pa.toNat (put 6 pd.toNat 0x340033))))
  | .awupd pd pa pb adv => some (BitVec.ofNat 32 (put 25 adv.toNat (put 12 pb.toNat (put 9 pa.toNat (put 6 pd.toNat 0x380033)))))
  | .rkcfg p slot => some (BitVec.ofNat 32 (put 13 slot.toNat (put 10 p.toNat 0x34)))
  | .rkldg p => some (BitVec.ofNat 32 (put 10 p.toNat 0x74))
  | .rkemit p idx => some (BitVec.ofNat 32 (put 13 idx.toNat (put 10 p.toNat 0xB4)))
  | .rkrecv => some (BitVec.ofNat 32 0xF4)
  | .rkres => some (BitVec.ofNat 32 0x134)
  | .rkstop => some (BitVec.ofNat 32 0x174)
  | .rkbwd p => some (BitVec.ofNat 32 (put 10 p.toNat 0x1B4))
  | .rkrd p => some (BitVec.ofNat 32 (put 10 p.toNat 0x1F4))
  | .osort ty pd pa x => some (BitVec.ofNat 32 (put 24 x.toNat (put 9 pa.toNat (put 6 pd.toNat (put 15 ty.toNat 0x35)))))
  | .otopk ty pd pa x => some (BitVec.ofNat 32 (put 24 x.toNat (put 9 pa.toNat (put 6 pd.toNat (put 15 ty.toNat 0x40035)))))
  | .omerge ty pd pa pb => some (BitVec.ofNat 32 (put 12 pb.toNat (put 9 pa.toNat (put 6 pd.toNat (put 15 ty.toNat 0x80035)))))
  | .obkt ty pd pa pb x => some (BitVec.ofNat 32 (put 24 x.toNat (put 12 pb.toNat (put 9 pa.toNat (put 6 pd.toNat (put 15 ty.toNat 0xC0035))))))
  | .spawn p self => some (BitVec.ofNat 32 (put 13 self.toNat (put 10 p.toNat 0x38)))
  | .send p len host => some (BitVec.ofNat 32 (put 19 host.toNat (put 13 len.toNat (put 10 p.toNat 0x78))))
  | .hop p size => some (BitVec.ofNat 32 (put 13 size.toNat (put 10 p.toNat 0xF8)))
  | .yield => some (BitVec.ofNat 32 0x138)
  | .endTask => some (BitVec.ofNat 32 0x178)
  | .launch p => some (BitVec.ofNat 32 (put 10 p.toNat 0x1B8))
  | .lqput n => some (BitVec.ofNat 32 (put 13 n.toNat 0x39))
  | .lqget n => some (BitVec.ofNat 32 (put 13 n.toNat 0x79))
  | .lqtst n out => some (BitVec.ofNat 32 (put 15 out.toNat (put 13 n.toNat 0xB9)))
  | .tsend p => some (BitVec.ofNat 32 (put 10 p.toNat 0xF9))
  | .mread p => some (BitVec.ofNat 32 (put 10 p.toNat 0x139))
  | .lwait l froma => some (BitVec.ofNat 32 (put 25 froma.toNat (put 13 l.toNat 0x3A)))
  | .lrel l froma => some (BitVec.ofNat 32 (put 25 froma.toNat (put 13 l.toNat 0x7A)))
  | .lhint l froma => some (BitVec.ofNat 32 (put 25 froma.toNat (put 13 l.toNat 0xBA)))
  | .jdec p => some (BitVec.ofNat 32 (put 10 p.toNat 0x3C))
  | .barm p pc => some (BitVec.ofNat 32 (put 13 pc.toNat (put 10 p.toNat 0x7C)))
  | .obar => some (BitVec.ofNat 32 0xBC)
  | _ => none

/-- Bits of the word that its instruction fixes before the reserved bits are looked at: CC of CALL
(reason 0x04) and TY of VSAD and AWUPD, which list TY 0 alone (reason 0x06; 11 R196, 16 R282). -/
def rawTyOk (w : W32) : Instr → Bool
  | .vsad _ _ _ => fld w 15 3 == 0
  | .awupd _ _ _ _ => fld w 15 3 == 0
  | _ => true

/-- CC of CALL is 0 (11 R192, R196 reason 0x04). -/
def rawCcOk (w : W32) : Instr → Bool
  | .call _ => fld w 6 4 == 0
  | _ => true

/-- The decoder of a word: the instruction, or the first reason of 11 R196 that applies. -/
def decode (w : W32) : Except (BitVec 8) Instr :=
  if w = 0 ∨ w = 0xFFFFFFFF then .error 0x01
  else match candidate w with
    | .error r => .error r
    | .ok i =>
      if ¬ (i.ccOk ∧ rawCcOk w i) then .error 0x04
      else if ¬ i.szOk then .error 0x05
      else if ¬ (i.tyOk ∧ rawTyOk w i) then .error 0x06
      else if ¬ i.dispOk then .error 0x07
      else if encode i ≠ some w then .error 0x08
      else if ¬ i.csrOk then .error 0x09
      else .ok i

/-- A little-endian word from its four bytes (11 R187). -/
def wordOfBytes (b0 b1 b2 b3 : Byte) : W32 := b3 ++ b2 ++ b1 ++ b0

/-- Decoding a list of bytes: the instruction at its head and the bytes that follow. -/
def decodeBytes : List Byte → Except (BitVec 8) (Instr × List Byte)
  | b0 :: b1 :: b2 :: b3 :: rest =>
    match decode (wordOfBytes b0 b1 b2 b3) with
    | .ok i => .ok (i, rest)
    | .error r => .error r
  | _ => .error 0x01

/-- The bytes of an instruction's word, lowest address first (11 R187). -/
def bytesOfWord (w : W32) : List Byte :=
  [w.extractLsb' 0 8, w.extractLsb' 8 8, w.extractLsb' 16 8, w.extractLsb' 24 8]

/-- The instruction of an opcode-table row's word, numbered as the table numbers its bits. -/
def decodeTableWord (nbits w : Nat) : Option Instr :=
  if nbits ≤ 32 then
    match decodeBytes (bytesOfWord (BitVec.ofNat 32 (w % 2 ^ nbits))) with
    | .ok (i, _) => some i
    | .error _ => none
  else none

end Sys2Proof
end

