-- ==== Sys2Proof/Machine/Rules.lean ====
section
/-! DEFINITION. The tables that a context loads: rewrite rules (18 R310-R313), decay records and stamped regions (07
R125-R128), their checks and their installation. -/

namespace Sys2Proof.Machine

/-! ## Tile-class functions (11 R193, 18 R308) -/

/-- Major and function code of a tile-class word, the low ten bits. -/
def tileCode (w : W32) : Nat := bits w 9 0

/-- Is a low-ten-bit code that of an assigned tile-class function. -/
def tileCodeOk (c : Nat) : Bool :=
  (c % 64 == 0x30 && c / 64 ≤ 7) || (c % 64 == 0x31 && c / 64 ≤ 2) || (c % 64 == 0x32 && c / 64 ≤ 4)

/-- TSCL's code. -/
def codeTscl : Nat := 0x1F0
/-- MMA's and MMAS's codes. -/
def codeMma : Nat := 0x031
/-- TRED (16 R275). -/
def codeTred : Nat := 0x072
def codeMmas : Nat := 0x071
/-- A code of a memory-writing tile instruction: TWR, TDRAIN, TQNT, TCMPR, TRED. -/
def codeWrites (c : Nat) : Bool := [0x130, 0x170, 0x0F2, 0x0B1, 0x072].contains c

/-- Is a word an instruction of the tile class. -/
def tileWord (w : W32) : Bool :=
  tileCodeOk (tileCode w) && (match decode w with
    | .ok _ => true
    | .error _ => false)

/-! ## Rules (18 R311, R312) -/

/-- A template (18 R311). -/
structure Template where
  copy : Nat
  src  : Nat
  syn  : Nat
  zero : Bool
  base : W32
  deriving DecidableEq, Repr

/-- A rule's fields. -/
structure Rule where
  v    : Bool
  cls  : Nat
  ne   : Nat
  n    : Nat
  zero : Bool
  pats : List (W32 × W32)
  cons : List Nat
  tmpl : List Template
  deriving DecidableEq, Repr

/-- The rule of an entry's eight doublewords. -/
def ruleOf (ws : List Word) : Rule :=
  let w0 := ws.getD 0 0
  { v := w0.getLsbD 15, cls := bits w0 9 8, ne := bits w0 5 4, n := bits w0 2 0,
    zero := bits w0 63 16 == 0 && bits w0 14 10 == 0 && bits w0 7 6 == 0 && bits w0 3 3 == 0,
    pats := (List.range 4).map (fun i => (BitVec.ofNat 32 (bits (ws.getD (1 + i) 0) 63 32), BitVec.ofNat 32 (bits (ws.getD (1 + i) 0) 31 0))),
    cons := (List.range 4).map (fun q => bits (ws.getD 5 0) (16 * q + 15) (16 * q)),
    tmpl := (List.range 2).map (fun e =>
      let w := ws.getD (6 + e) 0
      { copy := bits w 63 60, src := bits w 59 58, syn := bits w 57 56, zero := bits w 55 32 == 0, base := BitVec.ofNat 32 (bits w 31 0) }) }

/-- A constraint's fields: instructions a and b, LO, W. -/
def conA (c : Nat) : Nat := c / 2 ^ 13 % 4
def conB (c : Nat) : Nat := c / 2 ^ 11 % 4
def conLo (c : Nat) : Nat := c / 2 ^ 6 % 32
def conW (c : Nat) : Nat := c / 2 ^ 2 % 16 + 1
def conValid (c : Nat) : Bool := 2 ^ 15 ≤ c

/-- A constraint that 18 R312 permits in a rule of n instructions. -/
def conOk (n c : Nat) : Bool :=
  if conValid c then c % 4 == 0 && conA c < n && conB c < n && conLo c + conW c ≤ 32 else c == 0

/-- Bits of the word that a template copies (18 R311). -/
def copyMask (copy : Nat) : W32 :=
  (if copy.testBit 3 then (0xC00 : W32) else 0) ||| (if copy.testBit 2 then 0x7000 else 0) |||
    (if copy.testBit 1 then 0x38000 else 0) ||| (if copy.testBit 0 then 0xFFFC0000 else 0)

/-- A template of a valid rule that 18 R311 permits; `last` says that it stands last. -/
def templateOk (r : Rule) (last : Bool) (t : Template) : Bool :=
  t.zero && tileWord t.base && t.base &&& copyMask t.copy == 0 && t.src < r.n && (last || !codeWrites (tileCode t.base)) &&
    (match t.syn with
     | 0 => true
     | 1 => tileCode t.base == codeTscl
     | 2 => tileCode t.base == codeMma || tileCode t.base == codeMmas
     | _ => false) &&
    (t.syn == 0 || (r.cls != 0 && (r.pats.take r.n).any (fun p => bits p.2 9 0 == codeTscl)))

/-- An entry that passes the check of 18 R311. -/
def ruleOk (ws : List Word) : Bool :=
  let r := ruleOf ws
  if !r.v then ws.all (· == 0)
  else
    r.zero && 1 ≤ r.n && r.n ≤ 4 && r.ne ≤ 2 && r.cls ≤ 2 && r.ne ≤ r.n &&
      (r.pats.take r.n).all (fun p => bits p.1 9 0 == 0x3FF && p.2 &&& ~~~p.1 == 0 && tileCodeOk (bits p.2 9 0)) &&
      (r.pats.take (r.n - 1)).all (fun p => !codeWrites (bits p.2 9 0)) &&
      (r.pats.drop r.n).all (fun p => p.1 == 0 && p.2 == 0) &&
      r.cons.all (conOk r.n) &&
      (r.tmpl.take r.ne).zipIdx.all (fun t => templateOk r (t.2 + 1 == r.ne) t.1) &&
      (List.range (2 - r.ne)).all (fun i => ws.getD (6 + r.ne + i) 0 == 0)

/-! ## Decay records (07 R125) -/

/-- The 23 powers of a record of 16 doublewords. -/
def decayPowers (ws : List Word) : List W32 :=
  (List.range 23).map (fun i => (ws.getD (i / 2) 0).extractLsb' (32 * (i % 2)) 32)

/-- A record that passes the check of 07 R127. -/
def decayOk (ws : List Word) : Bool :=
  decayRecordOk (decayPowers ws) && (ws.getD 11 0).extractLsb' 32 32 == 0 && (ws.drop 12).all (· == 0)

/-! ## Stamped regions (07 R128) -/

/-- The region of an entry's two doublewords. -/
def regionOf (ws : List Word) : Option Region :=
  let w1 := ws.getD 1 0
  if w1.getLsbD 0 then some { base := (ws.getD 0 0).toNat, len := bits w1 63 32, cls := bits w1 7 4 } else none

/-- Does a region lie wholly in one of its three places. -/
def regionPlaced (r : Region) : Bool :=
  match spaceOf (BitVec.ofNat 64 r.base) with
  | .ownVault => r.base + r.len ≤ Config.engineWindow
  | .window => windowOff (BitVec.ofNat 64 r.base) + r.len ≤ Config.vaultBytes
  | .translated => r.base + r.len ≤ 2 ^ 56
  | _ => false

/-- Do two ranges of numbers meet. -/
def rangesMeet (a m b n : Nat) : Bool := a < b + n && b < a + m

/-- Do two regions overlap, judged by the bytes reached in context x. -/
def regionsMeet (x : Ctx) (a b : Region) : Bool :=
  let sa := spaceOf (BitVec.ofNat 64 a.base)
  let sb := spaceOf (BitVec.ofNat 64 b.base)
  let mixed := fun (al wi : Region) =>
    inPart x (windowVault (BitVec.ofNat 64 wi.base)) && rangesMeet al.base al.len (windowOff (BitVec.ofNat 64 wi.base)) wi.len
  if sa = sb then rangesMeet a.base a.len b.base b.len
  else if sa = .ownVault && sb = .window then mixed a b
  else if sa = .window && sb = .ownVault then mixed b a
  else false

/-- The index of the first entry of a region table that fails the check of 07 R127. -/
def regionFails (x : Ctx) (es : List (List Word)) : Option Nat :=
  let rs := es.map regionOf
  (List.range es.length).find? (fun i =>
    let ws := es.getD i []
    match rs.getD i none with
    | none => !ws.all (· == 0)
    | some r =>
      let w1 := ws.getD 1 0
      bits w1 31 8 != 0 || bits w1 3 1 != 0 || r.base % 128 != 0 || r.len = 0 || r.len % 128 != 0 || !regionPlaced r ||
        (rs.take i).any (fun q => match q with
          | some k => regionsMeet x k r
          | none => false))

/-! ## Loading a table (07 R127, R136, 18 R310) -/

/-- A list cut into pieces of n, k of them. -/
def pieces (n : Nat) : Nat → List Word → List (List Word)
  | 0, _ => []
  | k + 1, l => l.take n :: pieces n k (l.drop n)

/-- The core's load is carried through (07 R136): the outcome waits for the task that asked. -/
def setTableDone (s : State) (cx g owner : Nat) (r : Option TrapInfo) : State :=
  updTask s cx g (fun c => if c.port.owner = owner then { c with sched := { c.sched with tableDone := some r } } else c)

/-- Every core of the partition takes a rule table and clears its RWHITS (18 R310). -/
def takeRules (s : State) (x : Ctx) (t : List (List Word)) : State :=
  let s1 := updCtx s x.num (fun c => { c with rules := t })
  (partCores x).foldl (fun s g => updTask s x.num g (fun c => { c with sluice := { c.sluice with table := t, hits := 0 } })) s1

/-- The codes of the tables in `Load.kind`. -/
def tableDecay : Nat := 0x021
def tableRegion : Nat := 0x022
def tableRules : Nat := 0x208

/-- A table's entry size in doublewords, and how many entries it has. -/
def tableShape (kind : Nat) : Nat × Nat := if kind = tableDecay then (16, 15) else if kind = tableRegion then (2, 64) else (8, 64)

/-- The index of the first entry that fails. -/
def tableFails (x : Ctx) (kind : Nat) (es : List (List Word)) : Option Nat :=
  if kind = tableDecay then es.findIdx? (fun e => !decayOk e)
  else if kind = tableRegion then regionFails x es
  else es.findIdx? (fun e => !ruleOk e)

/-- A checked table taken by every home or core. -/
def installTable (s : State) (x : Ctx) (kind : Nat) (addr : Word) (es : List (List Word)) : State :=
  if kind = tableDecay then updCtx s x.num (fun c => { c with decay := some (es.map decayPowers), decayb := addr })
  else if kind = tableRegion then updCtx s x.num (fun c => { c with regions := some (es.map regionOf), srtb := addr })
  else takeRules s x es

/-- TABLE_LOAD_COMPLETE: the oldest table being loaded in the context is taken or refused (07 R127, 18 R310). -/
def execTableLoadComplete (s : State) : Out :=
  .next (match ctxOf s s.unit with
    | none => s
    | some x =>
      match x.loading with
      | [] => s
      | l :: rest =>
        let es := pieces (tableShape l.kind).1 (tableShape l.kind).2 l.words
        let s1 := updCtx s x.num (fun c => { c with loading := rest })
        match tableFails x l.kind es with
        | none => setTableDone (installTable s1 x l.kind l.addr es) x.num l.core l.owner none
        | some i =>
          setTableDone s1 x.num l.core l.owner (some { cause := cTABLE, addr := l.addr + BitVec.ofNat 64 (8 * (tableShape l.kind).1 * i),
                                                       pc := 0, x := BitVec.ofNat 64 i }))

/-- Loads as the homes or the cores make them, past the running task's own journal (07 R127, R134). -/
def atHomes (s : State) (f : State → Res (State × List Word)) : Res (State × List Word) :=
  let own := fun (t : State) => { t with core := { t.core with id := s.core.id } }
  match f { s with core := { s.core with id := { s.core.id with slot := 63 } } } with
  | .ok (t, ws) => .ok (own t, ws)
  | .error (.stall t) => .error (.stall (own t))
  | .error (.ask t h l) => .error (.ask (own t) h l)
  | .error (.trapIn t c a x r) => .error (.trapIn (own t) c a x r)
  | .error e => .error e

/-- An instruction that loads a table: its image is read as ordinary loads and handed to the context's homes or cores;
issue stalls until they have taken or refused it. -/
def loadTable (s : State) (kind : Nat) (addr : Word) : Res State :=
  match s.core.sched.tableDone with
  | some r =>
    let s1 := { s with core := { s.core with sched := { s.core.sched with tableDone := none } } }
    match r with
    | none => .ok s1.advance
    | some i => .error (.trapIn s1 i.cause i.addr i.x s.core.regs.pc)
  | none =>
    match myCtx s with
    | none => .ok s.advance
    | some x =>
      if x.loading.any (fun l => l.core == s.core.num && l.owner == s.core.port.owner) then .error (.stall s)
      else
        let image := fun (t : State) => readImage t addr ((tableShape kind).1 * (tableShape kind).2)
        match (if kind = tableRules then image s else atHomes s image) with
        | .error e => .error e
        | .ok (t, ws) =>
          let l : Load := { kind := kind, core := s.core.num, owner := s.core.port.owner, addr := addr, words := ws }
          let t1 := updCtx t x.num (fun c => { c with loading := c.loading ++ [l] })
          .error (.stall { t1 with pending := t1.pending ++ [(x.num, .tableLoadComplete)] })

end Sys2Proof.Machine
end

