-- ==== Sys2Proof/Machine/Rank.lean ====
section
/-! DEFINITION. The rank unit: configuration, emission, the merge and its arrivals, how a stream ends, the backward pass, and
the steps of its traffic (09 R146-R161, 17 R290-R299). -/

namespace Sys2Proof.Machine

def cRKWATCH : BitVec 8 := 0x0B
def cRKSTOP : BitVec 8 := 0x0C

/-- The current core's rank unit changed. -/
def State.setRank (s : State) (f : Rank → Rank) : State := { s with core := { s.core with rank := f s.core.rank } }

/-! ## Configuration (17 R291, R292) -/

/-- The configuration of a record's 32 doublewords. -/
def rkCfgOf (ws : List Word) (src : Word) : RkCfg :=
  let w := fun (i : Nat) => ws.getD i 0
  let c := w 0
  let p := bits c 12 8
  { stream := bits c 7 0, p := p, eref := BitVec.ofNat 8 (bits c 23 16), slim := bits c 29 24, pol := c.getLsbD 40, j := bits c 38 32,
    mstop := c.getLsbD 41, mtrap := c.getLsbD 42, rcore := bits (w 1) 9 0, wbase := w 2, logb := w 3, dwb := w 4, gxb := w 5,
    goff := bits (w 6) 20 0, crCode := w 8, crArg := w 9, crEntp := w 10, crWord3 := w 11, src := src,
    prods := (List.range p).map (fun i => let e := w (16 + i); (bits e 41 32, bits e 31 16, bits e 15 0)) }

/-- N: the sum of the producers' channel counts. -/
def RkCfg.n (c : RkCfg) : Nat := (c.prods.map (fun e => e.2.2)).foldl (· + ·) 0

/-- The zero fields of a record are zero. -/
def rkZeros (ws : List Word) : Bool :=
  let w := fun (i : Nat) => ws.getD i 0
  bits (w 0) 63 43 == 0 && bits (w 0) 39 39 == 0 && bits (w 0) 31 30 == 0 && bits (w 0) 15 13 == 0 && bits (w 1) 63 10 == 0 &&
    bits (w 6) 63 21 == 0 && w 7 == 0 && [12, 13, 14, 15].all (fun i => w i == 0) &&
    (List.range 16).all (fun i => if i < bits (w 0) 12 8 then bits (w (16 + i)) 63 42 == 0 else w (16 + i) == 0)

/-- The ranges of R292 0x30. -/
def RkCfg.rangesOk (c : RkCfg) : Bool :=
  1 ≤ c.p && c.p ≤ 16 && 1 ≤ c.j && c.j ≤ 64 && c.eref != 0x80 && c.eref != 0x81 && c.goff % 4 == 0 && !c.crWord3.getLsbD 2 &&
    c.prods.all (fun e => 1 ≤ e.2.2 && e.2.2 ≤ 4096 && c.goff + 4 * e.2.2 ≤ Config.vaultBytes)

/-- The producers' ranges cover channels 0 to N − 1 once each (R292 0x31). -/
def RkCfg.covers (c : RkCfg) : Bool :=
  c.prods.all (fun e => e.2.1 + e.2.2 ≤ c.n) &&
    c.prods.zipIdx.all (fun e => c.prods.zipIdx.all (fun f => e.2 == f.2 || !rangesMeet e.1.2.1 e.1.2.2 f.1.2.1 f.1.2.2))

/-- The first core that a record names outside the context's partition. -/
def rkOutside (s : State) (c : RkCfg) : Option Nat :=
  (c.rcore :: c.prods.map (·.1)).find? (fun g => !(match myCtx s with
    | some x => inPart x g
    | none => false))

/-- Doublewords of an own-vault record that is aligned and read as ordinary loads. -/
def ownRecord (s : State) (va : Word) (len algn : Nat) : Res (State × List Word) :=
  match ownRange s va len algn with
  | .error e => .error e
  | .ok off =>
    match vaultFetch s va off len with
    | .error e => .error e
    | .ok (t, r) => .ok (t, (List.range (len / 8)).map (fun i => BitVec.ofNat 64 (elemAt 64 r i)))

/-- A record read and checked (R291, R292). -/
def readRkCfg (s : State) (va : Word) : Res (State × RkCfg) := do
  let (t, ws) ← ownRecord s va 256 64
  let c := rkCfgOf ws va
  if !rkZeros ws || !c.rangesOk then .error (operand va 0x30)
  else if !c.covers then .error (operand va 0x31)
  else match rkOutside t c with
    | some g => .error (.trap cVAULT (windowAddr g 0) 0)
    | none => .ok (t, c)

/-- Must an instruction for an idle receive slot stall or stop (R293); `addr` is the record that it names, 0 for none. -/
def needIdle (s : State) (addr : Word) : Res Unit :=
  match s.core.rank.state with
  | .idle => .ok ()
  | .paused => .error (operand addr 0x32)
  | _ => .error (.stall s)

/-- RKCFG. -/
def rkcfgRes (p : BitVec 3) (slot : BitVec 1) (s : State) : Res State := do
  if slot = 1 then
    if s.core.rank.emitting then .error (.stall s)
    else
      let (t, c) ← readRkCfg s (s.ptr p).addr
      .ok (t.setRank (fun k => { k with emit := some c, nan := false, sat := false, stray := false })).advance
  else
    let _ ← needIdle s (s.ptr p).addr
    let (t, c) ← readRkCfg s (s.ptr p).addr
    .ok (t.setRank (fun k => { k with recv := some c, nan := false, sat := false, stray := false })).advance

/-- RKCFG. -/
def execRkcfg (p : BitVec 3) (slot : BitVec 1) (s : State) : Out := finish s (rkcfgRes p slot s)

/-! ## RKLDG (17 R294) -/

/-- An entry of G or H that is finite and has its sign clear. -/
def rkEntryOk (w : W32) : Bool := w.toNat < 0x7F800000

/-- The first entry of the image that fails: not finite, negative, or above the one before it in its table. -/
def rkTableFails (es : List W32) : Option Nat :=
  (List.range 512).find? (fun i =>
    let e := es.getD i 0
    !rkEntryOk e || (i % 256 != 0 && (es.getD (i - 1) 0).toNat < e.toNat))

/-- RKLDG. -/
def rkldgRes (p : BitVec 3) (s : State) : Res State := do
  let va := (s.ptr p).addr
  if s.core.rank.state = .recv || s.core.rank.state = .paused then .error (operand 0 0x32)
  else
    let (t, ws) ← ownRecord s va 2048 64
    let es := ws.flatMap (fun w => [w.extractLsb' 0 32, w.extractLsb' 32 32])
    match rkTableFails es with
    | some i => .error (.trap cTABLE (va + BitVec.ofNat 64 (4 * i)) (BitVec.ofNat 64 i))
    | none => .ok (t.setRank (fun k => { k with loaded := true, g := es.take 256, h := es.drop 256 })).advance

/-- RKLDG. -/
def execRkldg (p : BitVec 3) (s : State) : Out := finish s (rkldgRes p s)

/-! ## Emission (09 R146-R149, 17 R295) -/

/-- A value's slot before its limits, none where it is not sent. -/
def slotOf (eref : BitVec 8) (pol : Bool) (x : W32) : Option Int :=
  let ex := bits x 30 23
  if ex = 0 then none
  else if ex = 255 && bits x 22 0 != 0 then none
  else if pol && x.getLsbD 31 then none
  else some ((eref.toInt - ((ex : Int) - 127)) * 4 + 3 - (bits x 22 21 : Nat))

/-- An event that a producer sends: slot, magnitude bits, channel. -/
structure RkEvent where
  slot : Nat
  mag  : Nat
  ch   : Nat
  deriving DecidableEq, Repr

/-- Events of a producer's values from its first channel on. -/
def rkEvents (c : RkCfg) (base : Nat) (vs : List W32) : List RkEvent :=
  vs.zipIdx.filterMap (fun e =>
    match slotOf c.eref c.pol e.1 with
    | none => none
    | some sl => if (c.slim : Int) < sl then none else some { slot := sl.toNat, mag := bits e.1 30 0, ch := base + e.2 })

/-- The order of R147. -/
def eventBefore (a b : RkEvent) : Bool :=
  if a.slot != b.slot then a.slot < b.slot else if a.mag != b.mag then b.mag < a.mag else a.ch < b.ch

/-- Stream entries (09 R148). -/
def entryEvent (e : RkEvent) : W32 := BitVec.ofNat 32 (e.slot * 2 ^ 16 + e.ch)
def entryMark (slot : Nat) : W32 := BitVec.ofNat 32 (2 ^ 30 + slot)
def entryEnd : W32 := 0x80000000
def entryStop : W32 := 0xC0000000
/-- Fields of an entry. -/
def entryKind (e : W32) : Nat := bits e 31 30
def entrySlot (e : W32) : Nat := if entryKind e = 1 then bits e 5 0 else bits e 21 16
def entryCh (e : W32) : Nat := bits e 15 0

/-- Entries of sorted events: a marker after the last of each slot, then the end marker. -/
def rkEntries : List RkEvent → List W32
  | [] => [entryEnd]
  | [e] => [entryEvent e, entryMark e.slot, entryEnd]
  | e :: f :: r => if e.slot = f.slot then entryEvent e :: rkEntries (f :: r) else entryEvent e :: entryMark e.slot :: rkEntries (f :: r)

/-- RKEMIT. -/
def rkemitRes (p : BitVec 3) (idx : BitVec 4) (s : State) : Res State := do
  let va := (s.ptr p).addr
  if s.core.rank.emitting then .error (.stall s)
  else match s.core.rank.emit with
    | none => .error (operand 0 0x33)
    | some c =>
      match c.prods[idx.toNat]? with
      | none => .error (operand 0 0x34)
      | some pr =>
        if pr.1 != s.core.num then .error (operand 0 0x34)
        else
          let off ← ownRange s va (4 * pr.2.2) 4
          let (t, vs) ← vecRead s va off pr.2.2 32
          let ws := vs.map (BitVec.ofNat 32)
          let nan := ws.any (fun x => bits x 30 23 == 255 && bits x 22 0 != 0)
          let sat := ws.any (fun x => match slotOf c.eref c.pol x with
            | some sl => decide (sl < 0)
            | none => false)
          let es := rkEntries (sortBy eventBefore (rkEvents c pr.2.1 ws))
          let t := t.setRank (fun k => { k with emitting := true, emitP := idx.toNat, unsent := es, nan := k.nan || nan, sat := k.sat || sat })
          .ok { t with pending := t.pending ++ [(t.core.num, Instr.rankPacketSend)] }.advance

/-- RKEMIT. -/
def execRkemit (p : BitVec 3) (idx : BitVec 4) (s : State) : Out := finish s (rkemitRes p idx s)

/-- The entries of the next packet: up to 32, ending at a MARK or an END. -/
def nextPacket : Nat → List W32 → List W32
  | 0, _ => []
  | _, [] => []
  | k + 1, e :: r => if entryKind e = 0 then e :: nextPacket k r else [e]

/-- Whether an END stands among packets. -/
def endsIn (q : List (List W32)) : Bool := q.any (fun p => p.any (fun e => entryKind e == 2))

/-- Packets of a producer on their way to a receiver. -/
def inFlight (s : State) (src dst : Nat) : List RkPacket :=
  s.rankNet.filter (fun k => k.src == src && k.dst == dst && k.entries != [entryStop])

/-- The queue of a stream's receiver that core g's credits are for: that of its index p where it is CORE(p), else another that is its own. -/
def queueOf (rc : RkCfg) (g p : Nat) : Option Nat :=
  if (rc.prods[p]?).map (·.1) = some g then some p else rc.prods.findIdx? (fun e => e.1 == g)

/-- Does producer core g hold a credit: RKRECV grants it 8 for its queue, less those that packets in flight or in the queue hold, until it has
sent the END of that stream; whether its packets match the receive slot is not asked (09 R149, R150, 17 R296). DEDUCED: log entry 26. -/
def hasCredit (s : State) (g : Nat) (c : RkCfg) (p : Nat) : Bool :=
  let r := (coreOf s c.rcore).rank
  match r.recv with
  | none => false
  | some rc =>
    match queueOf rc g p with
    | none => false
    | some q =>
      let out := inFlight s g c.rcore
      r.state != .idle && r.state != .bwd && (coreOf s c.rcore).ctx == (coreOf s g).ctx && !r.endSeen.getD q false &&
        !endsIn (r.queues.getD q []) && !endsIn ((out.filter (fun k => k.stream == r.stream && k.p == q)).map (·.entries)) &&
        (r.queues.getD q []).length + out.length < 8

/-- Is a core's context running. -/
def ctxRuns (s : State) (g : Nat) : Bool :=
  match ctxOf s (coreOf s g).ctx with
  | some x => x.running
  | none => false

/-- RANK_PACKET_SEND of core `unit`: its next packet leaves against a credit; without one the emission waits (09 R149). -/
def execRankPacketSend (s : State) : Out :=
  let g := s.unit
  let k := (coreOf s g).rank
  .next (match k.emit with
    | none => s
    | some c =>
      if !k.emitting || !ctxRuns s g then s
      else if hasCredit s g c k.emitP then
        let es := nextPacket 32 k.unsent
        let rest := k.unsent.drop es.length
        let s1 := updCore s g (fun x => { x with rank := { x.rank with unsent := rest, emitting := !rest.isEmpty } })
        let more := if rest.isEmpty then [] else [(g, Instr.rankPacketSend)]
        { s1 with rankNet := s1.rankNet ++ [{ ctx := (coreOf s g).ctx, src := g, dst := c.rcore, stream := c.stream, p := k.emitP, entries := es }],
                  pending := s1.pending ++ [(c.rcore, .rankPacketArrival)] ++ more }
      else { s with pending := s.pending ++ [(g, .rankPacketSend)] })

/-! ## How a stream ends (09 R154) -/

/-- The unit after a stream has ended: what is left is discarded, and it drains until every END has arrived. -/
def Rank.close (k : Rank) (how : BitVec 3) : Rank :=
  let seen := k.queues.zipIdx.map (fun e => k.endSeen.getD e.2 false || endsIn e.1)
  { k with endc := how, endSeen := seen, queues := k.queues.map (fun _ => []),
           state := if seen.all id then .idle else .drain }

/-- The stream-end continuation, at level 1 (17 R291). -/
def RkCfg.record (c : RkCfg) : Rec :=
  mkRec c.crCode c.crArg c.crEntp ((c.crWord3 &&& ~~~3) ||| 1) (c.src + 0x40)

/-- The first entry of a producer's queue. -/
def headEntry (q : List (List W32)) : Option W32 := q.flatten.head?

/-- Has the merge consumed producer p's END: nothing of its stream stands before it. DEDUCED: log entry 26. -/
def Rank.ended (k : Rank) (p : Nat) : Bool := k.endSeen.getD p false || (headEntry (k.queues.getD p [])).any (fun e => entryKind e == 2)

/-- The stream of core r ends: 1 completed, 2 margin stop, 3 RKSTOP; a stop reaches every producer whose END has not been
consumed; the continuation is posted, or a margin stop with MTRAP raises RKSTOP. -/
def endStream (s : State) (r : Nat) (how : BitVec 3) : State :=
  let k := (coreOf s r).rank
  let cx := (coreOf s r).ctx
  match k.recv with
  | none => s
  | some c =>
    let s1 := updCore s r (fun x => { x with rank := x.rank.close how })
    let told := if how = 1 then [] else c.prods.zipIdx.filter (fun e => !k.ended e.2)
    let stops := told.map (fun e => ({ ctx := cx, src := r, dst := e.1.1, stream := c.stream, p := e.2, entries := [entryStop] } : RkPacket))
    let s2 := { s1 with rankNet := s1.rankNet ++ stops, pending := s1.pending ++ told.map (fun e => (r, Instr.stopPacketArrival e.1.1 c.stream)) }
    if how = 2 && c.mtrap then raiseUpcall s2 cx r { cause := cRKSTOP, addr := 0, pc := 0, x := BitVec.ofNat 64 k.cnt }
    else enqueue s2 cx r { level := 1, work := .start c.record, entered := 0, aged := false }

/-- Does receiver r still wait for the END that producer g has not sent: an END on its way or seen, or another stream, is the end of what a STOP
was for (22 R363). -/
def endOwed (s : State) (r g : Nat) (stop : RkPacket) : Bool :=
  let k := (coreOf s r).rank
  k.state == .drain && k.stream == stop.stream && !k.endSeen.getD stop.p true &&
    !endsIn ((inFlight s g r).filter (fun e => e.stream == stop.stream && e.p == stop.p) |>.map (·.entries))

/-- STOP_PACKET_ARRIVAL: a producer of the stream sends END at once and drops the rest; a core that is not emitting it, or has sent the END of
the stream that the packet stops, discards the packet (09 R154, 22 R363). -/
def execStopPacketArrival (g stream : Nat) (s0 : State) : Out :=
  match s0.rankNet.find? (fun k => k.src == s0.unit && k.dst == g && k.stream == stream && k.entries == [entryStop]) with
  | none => .next s0
  | some pk =>
    let s := { s0 with rankNet := s0.rankNet.erase pk }
    let k := (coreOf s g).rank
    let mine := match k.emit with
      | some c => k.emitting && c.stream == stream && c.rcore == s.unit && k.emitP == pk.p
      | none => false
    .next (if mine && endOwed s s.unit g pk then updCore s g (fun x => { x with rank := { x.rank with unsent := [entryEnd] } }) else s)

/-! ## The merge and its arrivals (09 R150-R153, R155) -/

/-- What the merge finds next. -/
inductive MergeStep where
  | event (k : Rank) (ch p : Nat)
  | wait (k : Rank)
  | done (k : Rank)
  deriving DecidableEq, Repr

/-- The first entry taken, and a packet slot freed when its packet is empty (09 R150). -/
def popEntry : List (List W32) → List (List W32)
  | [] => []
  | [] :: r => popEntry r
  | (_ :: es) :: r => if es.isEmpty then r else es :: r

/-- Queue p changed. -/
def Rank.popQueue (k : Rank) (p : Nat) : Rank := { k with queues := k.queues.zipIdx.map (fun e => if e.2 = p then popEntry e.1 else e.1) }

/-- The merge moves to the next producer, or the next slot. -/
def Rank.nextProd (k : Rank) (n : Nat) : Rank :=
  if k.prod + 1 < n then { k with prod := k.prod + 1 } else { k with prod := 0, slot := k.slot + 1 }

/-- The merge of R151 until an event, an empty queue or the end. -/
def mergeScan (c : RkCfg) : Nat → Rank → MergeStep
  | 0, k => .wait k
  | f + 1, k =>
    if c.slim < k.slot || (c.p ≤ k.queues.length && k.queues.all (fun q => (headEntry q).any (fun e => entryKind e == 2))) then .done k
    else match headEntry (k.queues.getD k.prod []) with
      | none => .wait k
      | some e =>
        if entryKind e = 0 && entrySlot e = k.slot then .event k (entryCh e) k.prod
        else if entryKind e = 1 && entrySlot e = k.slot then mergeScan c f ((k.popQueue k.prod).nextProd c.p)
        else mergeScan c f (k.nextProd c.p)

/-- J words of row ch of a table in core r's vault; the manual lays no row beyond the vault, and a row there reads as free
values (DESIGN CHOICE, log entry 3). -/
def rowWords (s : State) (r : Nat) (base : Word) (j ch : Nat) : List W32 × State :=
  let off := ownOffset base + 4 * j * ch
  if off + 4 * j ≤ vaultSize r then
    let run := homeRead s (vaultHome r off) (4 * j)
    ((List.range j).map (fun i => BitVec.ofNat 32 (elemAt 32 run i)), s)
  else
    ((List.range j).map (fun i => (Config.freeWord (s.freeCtr + i)).extractLsb' 0 32), { s with freeCtr := s.freeCtr + j })

/-- The entry k of the falling sequence or the surrogate. -/
def falling (g : List W32) (k : Nat) : W32 := g.getD (min k 255) 0

/-- The largest value of a list in the key order, and the rest. -/
def takeLargest : List W32 → W32 × List W32
  | [] => (0, [])
  | x :: r =>
    let t := r.foldl (fun acc y => if numBelow (num32 acc.1) (num32 y) then (y, acc.1 :: acc.2) else (acc.1, y :: acc.2)) (x, [])
    t

/-- RKMARG: the largest output less the largest of the rest (09 R153). -/
def marginOf (racc : List W32) : W32 :=
  let t := takeLargest racc
  sub32 t.1 (takeLargest t.2).1

/-- Does the margin of arrival k stop the stream. -/
def marginStops (k : Rank) (marg : W32) (i : Nat) : Bool :=
  let bound := mul32 0x40000000 (mul32 (k.tails.getD i 0) k.wmaxL)
  (num32 bound).lt (num32 marg)

/-- A write of n bytes into core r's own vault. -/
def rankWrite (s : State) (r off n v : Nat) : State := if off + n ≤ vaultSize r then homeWrite s (vaultHome r off) n v else s

/-- The arrival of channel ch of producer p at core r, already taken from its queue, with its row (09 R152). -/
def applyArrival (s : State) (r : Nat) (c : RkCfg) (p ch : Nat) (row : List W32) : State :=
  let k := (coreOf s r).rank
  let gk := falling k.g k.cnt
  let sums := List.zipWith (fun a w => add32 a (mul32 gk w)) (padTo c.j 0 k.racc) row
  let watching := c.mstop && 2 ≤ c.j
  let marg := if watching then marginOf sums else 0
  let s1 := if k.cnt < c.n then rankWrite s r (ownOffset c.logb + 4 * k.cnt) 4 (p * 2 ^ 28 + ch) else s
  let s2 := updCore s1 r (fun x => { x with rank := { x.rank with racc := sums ++ k.racc.drop c.j, cnt := k.cnt + 1, marg := marg } })
  if watching && marginStops k marg k.cnt then endStream s2 r 2
  else if k.watch.toNat = k.cnt + 1 then
    raiseUpcall (updCore s2 r (fun x => { x with rank := { x.rank with watch := 0, state := .paused } })) (coreOf s r).ctx r
      { cause := cRKWATCH, addr := 0, pc := 0, x := BitVec.ofNat 64 (k.cnt + 1) }
  else s2

/-- The merge of core r goes on: one arrival, with more to come; or the end; or it waits. -/
def mergeOnce (s : State) (r : Nat) : State :=
  let k := (coreOf s r).rank
  match k.recv with
  | none => s
  | some c =>
    let put := fun (k' : Rank) => updCore s r (fun x => { x with rank := k' })
    match mergeScan c 4096 k with
    | .wait k' => put k'
    | .done k' => endStream (put k') r 1
    | .event k' ch p =>
      let s0 := put k'
      let off := ownOffset c.wbase + 4 * c.j * ch
      let q0 := settle s0 (vaultHome r off) (4 * c.j) false
      let lo := ownOffset c.logb + 4 * k.cnt
      let q1 := if k.cnt < c.n && lo + 4 ≤ vaultSize r then settle q0.1 (vaultHome r lo) 4 true else (q0.1, true)
      let q := (q1.1, q0.2 && q1.2)
      if !q.2 then { q.1 with pending := q.1.pending ++ [(r, .rankArrival)] }
      else match poisonIn q.1.poison (vaultHome r off) (4 * c.j) with
        | some w =>
          raiseUpcall (updCore q.1 r (fun x => { x with rank := { x.rank with state := .paused } })) (coreOf s r).ctx r
            { cause := cECC, addr := wordAddr (c.wbase + BitVec.ofNat 64 (8 * w) - BitVec.ofNat 64 (vaultHome r (ownOffset c.wbase))), pc := 0,
              x := BitVec.ofNat 64 k.cnt }
        | none =>
          let row := rowWords q.1 r c.wbase c.j ch
          let s1 := updCore row.2 r (fun x => { x with rank := x.rank.popQueue p })
          let s2 := applyArrival s1 r c p ch row.1
          { s2 with pending := s2.pending ++ [(r, .rankArrival)] }

/-- RANK_ARRIVAL of core `unit` (09 R151, R152). -/
def execRankArrival (s : State) : Out :=
  .next (if (coreOf s s.unit).rank.state = .recv && ctxRuns s s.unit then mergeOnce s s.unit else s)

/-- A packet meets the receive slot: it is discarded where it does not match, queued while the stream runs, and read for its
END while the unit drains (09 R150, R154). -/
def Rank.accept (k : Rank) (pk : RkPacket) : Rank :=
  let fits := match k.recv with
    | some c => k.state != .idle && k.stream == pk.stream && (c.prods[pk.p]?).map (·.1) == some pk.src
    | none => false
  if !fits then { k with stray := true }
  else if k.state = .drain then
    let seen := k.endSeen.zipIdx.map (fun e => e.1 || (e.2 == pk.p && pk.entries.any (fun e => entryKind e == 2)))
    { k with endSeen := seen, state := if seen.all id then .idle else .drain }
  else { k with queues := k.queues.zipIdx.map (fun e => if e.2 = pk.p then e.1 ++ [pk.entries] else e.1) }

/-- RANK_PACKET_ARRIVAL at core `unit`: the oldest packet on its way there, kept for a halted context too (09 R159). -/
def execRankPacketArrival (s : State) : Out :=
  .next (match s.rankNet.find? (fun k => k.dst == s.unit && k.entries != [entryStop]) with
    | none => s
    | some pk =>
      let s1 := updTask { s with rankNet := s.rankNet.erase pk } pk.ctx pk.dst (fun c => { c with rank := c.rank.accept pk })
      { s1 with pending := s1.pending ++ [(pk.dst, .rankArrival)] })

/-! ## RKRECV, RKRES, RKSTOP, RKRD (17 R296, R297) -/

/-- Tail sums from T[N − 2] down to T[0], in ascending order (09 R153). -/
def tailSums (g : List W32) : Nat → W32 → List W32 → List W32
  | 0, _, acc => acc
  | k + 1, t, acc =>
    let u := add32 t (falling g (k + 1))
    tailSums g k u (u :: acc)

/-- A table of the receiver in its own vault: n rows of J words (17 R296). -/
def rkTable (s : State) (va : Word) (c : RkCfg) : Res Nat := ownRange s va (c.n * c.j * 4) 4

/-- A table that the backward pass writes. -/
def rkDest (s : State) (va : Word) (len : Nat) : Res Nat := ownDest s va len 4

/-- RKRECV: a STOP of an earlier stream, whose ENDs have all arrived, goes (22 R363). DEDUCED: log entry 26. -/
def rkrecvRes (s : State) : Res State := do
  let _ ← needIdle s 0
  match s.core.rank.recv with
  | none => .error (operand 0 0x33)
  | some c =>
    if c.rcore != s.core.num then .error (operand 0 0x35)
    else if !s.core.rank.loaded then .error (operand 0 0x36)
    else
      let _ ← rkTable s c.wbase c
      let _ ← ownDest s c.logb (4 * c.n) 4
      .ok ({ s with rankNet := s.rankNet.filter (fun k => !(k.src == s.core.num && k.ctx == s.core.ctx && k.entries == [entryStop])) }.setRank (fun k =>
        { k with racc := List.replicate c.j 0 ++ k.racc.drop c.j, cnt := 0, state := .recv, wmaxL := k.wmax, endc := 0, stream := c.stream, prod := 0, slot := 0,
                 marg := if c.mstop && 2 ≤ c.j then k.marg else 0, tails := tailSums k.g (c.n - 1) 0 [],
                 queues := List.replicate c.p [], endSeen := List.replicate c.p false })).advance

/-- RKRECV. -/
def execRkrecv (s : State) : Out := finish s (rkrecvRes s)

/-- RKRES. -/
def execRkres (s : State) : Out :=
  finish s (if s.core.rank.state = .paused then
      let t := s.setRank (fun k => { k with state := .recv })
      .ok { t with pending := t.pending ++ [(t.core.num, Instr.rankArrival)] }.advance
    else .error (operand 0 0x33))

/-- RKSTOP. -/
def execRkstop (s : State) : Out :=
  finish s (.ok (if s.core.rank.state = .recv || s.core.rank.state = .paused then (endStream s s.core.num 3).advance else s.advance))

/-- RKRD: RACC as one instant between arrivals holds it. -/
def rkrdRes (p : BitVec 3) (s : State) : Res State := do
  match s.core.rank.recv with
  | none => .error (operand 0 0x33)
  | some c =>
    let off ← ownDest s (s.ptr p).addr (4 * c.j) 4
    let t ← vecWrite s off 32 ((padTo c.j 0 s.core.rank.racc).take c.j |>.map BitVec.toNat)
    .ok (t.setA (BitVec.ofNat 64 s.core.rank.cnt)).advance

/-- RKRD. -/
def execRkrd (p : BitVec 3) (s : State) : Out := finish s (rkrdRes p s)

/-! ## RKBWD (09 R157, 17 R298) -/

/-- The windows that the scatter stores to are ones the context may reach. -/
def gradientAllowed (s : State) (c : RkCfg) : Option Word :=
  ((c.prods.map (fun e => windowAddr e.1 c.goff)).find? (fun va => !windowAllowed s va))

/-- The index of the first log entry that does not fit the stream's record. -/
def badLog (c : RkCfg) (es : List Nat) : Option Nat :=
  es.findIdx? (fun e =>
    let p := e / 2 ^ 28
    let ch := e % 2 ^ 16
    e / 2 ^ 16 % 2 ^ 12 != 0 || c.n ≤ ch || !(match c.prods[p]? with
      | some r => r.2.1 ≤ ch && ch < r.2.1 + r.2.2
      | none => false))

/-- Arrival k of the backward pass, of channel ch. -/
def bwdArrival (b : RkBwd) (s : State) (k ch : Nat) : State :=
  let j := b.cfg.j
  let run := vaultRead s (b.w + 4 * j * ch) (4 * j)
  let row := (List.range j).map (fun i => BitVec.ofNat 32 (elemAt 32 run i))
  let dot := (List.zip row b.dy).foldl (fun acc e => add32 acc (mul32 e.1 e.2)) 0
  let s1 := vaultWrite s (b.gx + 4 * ch) 4 (mul32 (falling s.core.rank.h k) dot).toNat
  let run2 := vaultRead s1 (b.dw + 4 * j * ch) (4 * j)
  let gk := falling s.core.rank.g k
  let dws := b.dy.zipIdx.map (fun e => (add32 (BitVec.ofNat 32 (elemAt 32 run2 e.2)) (mul32 gk e.1)).toNat)
  vaultWrite s1 (b.dw + 4 * j * ch) (4 * j) (packElems 32 dws)

/-- The scatter's stores in order: address, and the word of the gradient buffer. -/
def RkBwd.stores (b : RkBwd) : List (Word × Nat) :=
  b.cfg.prods.flatMap (fun e => (List.range e.2.2).map (fun i => (windowAddr e.1 (b.cfg.goff + 4 * i), e.2.1 + i)))

/-- One step of the backward pass: a word of the gradient buffer cleared, an arrival applied, or a store issued (17 R298, R299). -/
def bwdUnit (b : RkBwd) (s : State) : Res State :=
  let n := b.cfg.n
  let j := b.cfg.j
  if b.pos < n then
    match vaultSettle s (b.gx + 4 * b.pos) 4 true with
    | .error e => .error e
    | .ok t => .ok (vaultWrite t (b.gx + 4 * b.pos) 4 0)
  else if b.pos < n + b.chs.length then
    let ch := b.chs.getD (b.pos - n) 0
    match settleRanges s [(b.w + 4 * j * ch, 4 * j, false), (b.dw + 4 * j * ch, 4 * j, true), (b.gx + 4 * ch, 4, true)] with
    | .error e => .error e
    | .ok t => .ok (bwdArrival b t (b.pos - n) ch)
  else
    let e := b.stores.getD (b.pos - n - b.chs.length) (0, 0)
    match checkAccess s e.1 4 .store with
    | .error x => .error x
    | .ok ac => storeAt s ac (vaultRead s (b.gx + 4 * e.2) 4)

/-- The steps that a pass has left. -/
def RkBwd.left (b : RkBwd) : Nat := b.cfg.n + b.chs.length + b.stores.length - b.pos

/-- The steps of the pass's next turn: the words that a cycle clears, an arrival, or a store (17 R298). -/
def RkBwd.burst (b : RkBwd) : Nat := if b.pos < b.cfg.n then min 64 (b.cfg.n - b.pos) else 1

/-- The cycles of that turn (17 R298). -/
def RkBwd.cycles (b : RkBwd) : Nat := if b.cfg.n ≤ b.pos && b.pos < b.cfg.n + b.chs.length then (b.cfg.j + 15) / 16 + 2 else 1

/-- `k` steps of the pass from its position on; the position is held until the last of all steps is done, and nothing is done twice (17
R299, 03 R67). -/
def bwdRun : Nat → RkBwd → State → Res State
  | 0, b, s =>
    .ok (if b.left = 0 then (s.setRank (fun k => { k with state := .idle, bwd := none })).advance
      else s.setRank (fun k => { k with state := .bwd, bwd := some b }))
  | f + 1, b, s =>
    match bwdUnit b s with
    | .ok t => bwdRun f { b with pos := b.pos + 1 } t
    | .error (.stall t) => .error (.stall (t.setRank (fun k => { k with state := .bwd, bwd := some b })))
    | .error e => .error e

/-- What RKBWD checks and reads at its issue; RKSTAT.END tells whether any stream has ended (17 R292, R298). -/
def bwdPlan (p : BitVec 3) (s : State) : Res (State × RkBwd) := do
  let _ ← needIdle s 0
  if !s.core.rank.loaded then .error (operand 0 0x36)
  else match s.core.rank.recv with
    | none => .error (operand 0 0x33)
    | some c =>
      if s.core.rank.endc = 0 then .error (operand 0 0x33) else
      let cnt := s.core.rank.cnt
      let dva := (s.ptr p).addr
      let ow ← rkTable s c.wbase c
      let od ← rkDest s c.dwb (c.n * c.j * 4)
      let ol ← ownRange s c.logb (4 * max c.n cnt) 4
      let og ← rkDest s c.gxb (4 * c.n)
      let oy ← ownRange s dva (4 * c.j) 4
      match gradientAllowed s c with
      | some va => .error (.trap cVAULT va 0)
      | none =>
        let (t, dys) ← vecRead s dva oy c.j 32
        let (t, log) ← (if cnt = 0 then .ok (t, []) else vecRead t c.logb ol cnt 32)
        match badLog c log with
        | some i => .error (operand (c.logb + BitVec.ofNat 64 (4 * i)) 0x39)
        | none =>
          let chs := log.map (fun e => e % 2 ^ 16)
          let rows := chs.flatMap (fun ch =>
            let d := 4 * c.j * ch
            [(c.wbase + BitVec.ofNat 64 d, ow + d, 4 * c.j), (c.dwb + BitVec.ofNat 64 d, od + d, 4 * c.j)])
          match badRead t rows with
          | some w => .error (.trap cECC w 0)
          | none => .ok (t, { cfg := c, dy := dys.map (BitVec.ofNat 32), chs := chs, w := ow, dw := od, gx := og, pos := 0 })

/-- A turn of RKBWD, after which a halt may strike: from its checks on, or from where it stands (17 R299). -/
def rkbwdRes (p : BitVec 3) (s : State) : Res State :=
  match s.core.rank.bwd with
  | some b => bwdRun b.burst b s
  | none =>
    match bwdPlan p s with
    | .error e => .error e
    | .ok (t, b) => bwdRun b.burst b t

/-- RKBWD. -/
def execRkbwd (p : BitVec 3) (s : State) : Out := finish s (rkbwdRes p s)

end Sys2Proof.Machine
end

