-- ==== Sys2Proof/Machine/Launch.lean ====
section
/-! DEFINITION. Launches: the record's checks, placement, the generation of tasks, and completion (10 R163-R168, 14 R236). -/

namespace Sys2Proof.Machine

/-! ## The record (10 R163, R164) -/

/-- A launch record's fields. -/
structure LRec where
  entry  : Word
  arg    : Word
  x      : Nat
  y      : Nat
  z      : Nat
  stages : Nat
  level  : Nat
  ord    : Bool
  place  : Nat
  pbase  : Word
  join   : Word
  deriving DecidableEq, Repr

/-- The fields of eight doublewords. -/
def lrecOf (ws : List Word) : LRec :=
  let w2 := ws.getD 2 0
  let w3 := ws.getD 3 0
  { entry := ws.getD 0 0, arg := ws.getD 1 0, x := bits w2 15 0, y := bits w2 31 16, z := bits w2 47 32,
    stages := bits w3 23 16, level := bits w3 9 8, ord := w3.getLsbD 4, place := bits w3 1 0, pbase := ws.getD 4 0, join := ws.getD 5 0 }

/-- M of 10 R165. -/
def LRec.items (r : LRec) : Nat := r.x * r.y * r.z
/-- Tasks of a launch. -/
def LRec.total (r : LRec) : Nat := r.items * (if r.stages = 0 then 1 else r.stages)

/-- Reason 0x01 of 10 R164, a launch with ORD where the driver has not accepted ORD included (21 R357). -/
def lrecMalformed (s : State) (ws : List Word) (r : LRec) : Bool :=
  let w3 := ws.getD 3 0
  bits (ws.getD 2 0) 63 48 != 0 || bits w3 63 24 != 0 || bits w3 15 10 != 0 || bits w3 7 5 != 0 || bits w3 3 2 != 0 ||
    ws.getD 6 0 != 0 || ws.getD 7 0 != 0 || r.place == 3 || r.level < 2 || 16 < r.stages ||
    (r.ord && !((s.out.accept.getD 0).getLsbD 3))

/-! ## Placement (10 R166, R167) -/

/-- The core of stage s of a packed pipeline launch (10 R167). -/
def stageCore (g0 s : Nat) : Nat := if s < 8 then g0 + s else g0 + 15 - s % 8

/-- Destinations of a launch: a core, or `sharedDst` of a cluster. -/
def destinations (r : LRec) (table : List Nat) : List Nat :=
  if r.place = 0 then
    if r.stages = 0 then (List.range (bits r.pbase 26 16)).map (· + bits r.pbase 9 0)
    else (List.range r.stages).map (stageCore (bits r.pbase 9 0))
  else if r.place = 1 then table.eraseDups
  else (List.range (bits r.pbase 23 16)).map (fun i => sharedDst ((bits r.pbase 6 0 + i) % 128))

/-- Task ids placed on destination number `j` (its `k`-th there), by the rule of 10 R166. -/
def taskAt (r : LRec) (table : List Nat) (j k : Nat) : Option Nat :=
  let n := r.total
  if r.place = 1 then
    let d := table.eraseDups.getD j 0
    ((table.zipIdx.filter (fun e => e.1 == d)).map (·.2))[k]?
  else
    let t :=
      if r.place = 0 then
        if r.stages = 0 then j + k * bits r.pbase 26 16 else j * r.items + (if k < r.items then k else n)
      else j + k * bits r.pbase 23 16
    if t < n then some t else none

/-- Is a destination within the partition. -/
def destAllowed (x : Ctx) (d : Nat) : Bool := if d < 2048 then inPart x d else x.part.getLsbD (d - 2048)

/-- Does the table keep one core for each stage, and stages on cores of their own (10 R166). -/
def stagesApart (r : LRec) (table : List Nat) : Bool :=
  r.stages == 0 || r.items == 0 ||
    (let cores := (List.range r.stages).map (fun s => table.getD (s * r.items) 0)
     (table.zipIdx.all (fun e => e.1 == cores.getD (e.2 / r.items) 0)) && cores.eraseDups.length == r.stages)

/-- Reason 0x04 of 10 R164. -/
def placementOk (x : Ctx) (r : LRec) (table : List Nat) : Bool :=
  let b := r.pbase
  let form :=
    if r.place = 0 then
      if r.stages = 0 then
        bits b 63 27 == 0 && bits b 15 10 == 0 && 1 ≤ bits b 26 16 && bits b 26 16 ≤ 1024 && bits b 9 0 + bits b 26 16 ≤ 1024
      else bits b 63 10 == 0 && bits b 9 0 % 8 == 0 && (r.stages ≤ 8 || bits b 9 0 / 8 % 8 ≤ 6)
    else if r.place = 1 then stagesApart r table && table.all (inPart x)
    else bits b 63 24 == 0 && bits b 15 7 == 0 && 1 ≤ bits b 23 16 && bits b 23 16 ≤ 128
  form && (destinations r table).all (destAllowed x)

/-- The checks of a placement table's entries, as loads of 2 bytes. -/
def checkTable (s : State) (r : LRec) : Res (List Access) := checkAll s 2 .probe ((List.range r.total).map (fun i => r.pbase + BitVec.ofNat 64 (2 * i)))

/-- The table of a launch placed by table, its 2-byte entries read as ordinary loads (10 R164, R166). -/
def readTable (s : State) (r : LRec) : Res (State × List Nat) :=
  if r.place != 1 then .ok (s, [])
  else match checkTable s r with
    | .error e => .error e
    | .ok as =>
      match loadList s as with
      | .error e => .error (e.issued [] (as.map (Access.seen false)))
      | .ok (t, ws) => .ok (t, ws.map (·.toNat))

/-! ## Generation (10 R165) -/

/-- The record of a live launch. -/
def Launch.lrec (l : Launch) : LRec :=
  { entry := l.entry, arg := l.arg, x := l.x, y := l.y, z := l.z, stages := l.stages, level := l.level, ord := l.ordered,
    place := l.place, pbase := l.pbase, join := l.join }

/-- Tasks generated so far for a destination. -/
def madeFor (l : Launch) (d : Nat) : Nat := ((l.made.find? (fun e => e.1 == d)).map (·.2)).getD 0

/-- Has a destination's level a free on-core entry, with nothing of that level behind it. -/
def queueRoom (s : State) (x : Ctx) (l d : Nat) : Bool :=
  if d < 2048 then
    let c := coreOf s d
    atLevel c.sched.queue l < 32 && atLevel c.sched.ring l == 0 && !awayHas x d l
  else (s.clusterQ.filter (fun q => q.1 == d - 2048)).length < 64 && !awayHas x d l

/-- The destination, by its number, whose generator can add a task now, and the task. -/
def nextTask (s : State) (x : Ctx) (l : Launch) : Option (Nat × Nat) :=
  ((destinations l.lrec l.table).zipIdx.findSome? (fun e =>
    match taskAt l.lrec l.table e.2 (madeFor l e.1) with
    | some t => if queueRoom s x l.level e.1 then some (e.1, t) else none
    | none => none))

/-- The record of task t (10 R165, R171). -/
def taskRecord (l : Launch) (t : Nat) : Rec :=
  let m := l.x * l.y * l.z
  let i := t % m
  let stage := if l.stages = 0 then 0 else t / m
  { code := l.entry, arg := l.arg, entp := l.src,
    word3 := BitVec.ofNat 64 (i / (l.x * l.y) * 2 ^ 48 + i / l.x % l.y * 2 ^ 32 + i % l.x * 2 ^ 16 + stage * 2 ^ 12 + l.slot * 2 ^ 6 + l.level),
    src := l.src, tid := BitVec.ofNat 32 t, seq := l.seq, msg := none }

/-- One more task is generated, where a generator can (10 R165). -/
def generateOne (s : State) (cx slot : Nat) : State :=
  match ctxOf s cx, launchOf s cx slot with
  | some x, some l =>
    if !x.running then s
    else match nextTask s x l with
      | none => s
      | some (d, t) =>
        let e : QEntry := { level := l.level, work := .start (taskRecord l t), entered := 0, aged := false }
        let s1 := if d < 2048 then enqueue s cx d e else enqueueShared s cx (d - 2048) e
        updLaunch s1 cx slot (fun l => { l with made := (d, madeFor l d + 1) :: l.made.filter (fun k => k.1 != d) })
  | _, _ => s

/-- Can a generator of the launch add a task. -/
def canGenerate (s : State) (cx slot : Nat) : Bool :=
  match ctxOf s cx, launchOf s cx slot with
  | some x, some l => x.running && (nextTask s x l).isSome
  | _, _ => false

/-- Generators of a context that can go on are due. -/
def dueGenerators (s : State) (cx : Nat) : State :=
  match ctxOf s cx with
  | none => s
  | some x =>
    let due := x.launches.filter (fun l => canGenerate s cx l.slot && !s.pending.any (fun e => e.2 == .launchTaskGenerate cx l.slot))
    { s with pending := s.pending ++ due.map (fun l => (cx, .launchTaskGenerate cx l.slot)) }

/-! ## Completion (10 R168) -/

/-- The join of a completed launch is decremented through the translation current now; a join that cannot be reached
raises OPERAND 0x09 on the launching core; false while it waits, for a claim, for a migration, or for the service core's fill (10 R168, 06 R121). -/
def joinLaunch (s : State) (cx core : Nat) (join : Word) (slot : Nat) : State × Bool :=
  if join = 0 then (s, true)
  else
    let c : Cmd := { ecw0 := 1, ecw1 := 0, ecw2 := 0, ecw3 := 0, target := join, core := core, ctx := cx, on := 0, key := joinKey slot, seq := 0,
                     done := 0, crc := 0, poison := false, table := [], fault := none, owner := 0, byPort := false, resumed := false }
    let done := fun (t : State) => (dropAsks t cx (joinKey slot), true)
    let lost := fun (t : State) (f : BitVec 8) =>
      done (raiseUpcall t cx core { cause := cOPERAND, addr := join, pc := 0, x := BitVec.ofNat 64 (f.toNat * 256 + 9) })
    match engineHome s c join.toNat true with
    | .error (f, _) => if f = 0 then (askGap s c join.toNat true, false) else lost s f
    | .ok (t, h) =>
      if isFar h then lost t cPERM
      else
        let r := settle t h 16 true
        if r.2 then done (joinDec r.1 cx h join core 0) else r

/-- The zero-length reads of the SYS release at a launch's completion, or at the end of its merge, on the host links that it has written (03 R68, 08
R143, 10 R168); the step that follows stands for their completions (DEDUCED, log entry 12). -/
def releaseLaunch (s : State) (cx slot : Nat) : State :=
  match launchOf s cx slot with
  | none => s
  | some l =>
    let t := [0, 1].foldl (fun t k => if l.wrote.getLsbD k then emit t cx false (Config.hostBase + (if bonded s then k * 2 ^ 12 else k * 2 ^ 44)) 0 false else t) s
    if l.wrote = 0 then s else updLaunch t cx slot (fun k => { k with wrote := 0 })

/-- The launch completes: its slot frees and its join is decremented. -/
def completeLaunch (s : State) (cx : Nat) (l : Launch) : State × Bool :=
  let r := joinLaunch (releaseLaunch s cx l.slot) cx l.core l.join l.slot
  if r.2 then (updCtx r.1 cx (fun x => { x with launches := x.launches.filter (fun k => k.slot != l.slot) }), true) else r

/-- A launch whose tasks have all ended, or are all at OBAR or ended, goes on (10 R168, 08 R143). -/
def launchAdvanced (s : State) (cx slot : Nat) : State :=
  match launchOf s cx slot with
  | none => s
  | some l =>
    if l.ordered then
      if l.ended + l.atObar = l.total then { s with pending := s.pending ++ [(cx, .orderedMerge cx slot)] } else s
    else if l.ended = l.total then { s with pending := s.pending ++ [(cx, .launchCompletion cx slot)] } else s

/-- A task of a launch has ended, with the host links that it has written since its last SYS release (14 R237, 03 R68). -/
def taskEnded (s : State) (cx : Nat) (id : Ident) (wrote : BitVec 2) : State :=
  match launchOf s cx id.slot.toNat with
  | some l =>
    if id.tid = 0xFFFFFFFF || l.seq != id.seq then s
    else launchAdvanced (updLaunch s cx l.slot (fun k => { k with ended := k.ended + 1, wrote := k.wrote ||| wrote })) cx l.slot
  | none => s

/-! ## Acceptance (10 R164, R168, 14 R236) -/

/-- The lowest free slot of a context, 0 to 62. -/
def freeSlot (x : Ctx) : Option Nat := (List.range 63).find? (fun n => !x.launches.any (fun l => l.slot == n))

/-- The live launch that a checked record becomes. -/
def launchFrom (x : Ctx) (r : LRec) (table : List Nat) (slot : Nat) (src : Word) (core : Nat) : Launch :=
  { slot := slot, seq := x.launchSeq, ordered := r.ord, level := r.level, entry := r.entry, arg := r.arg, src := src, x := r.x,
    y := r.y, z := r.z, stages := r.stages, place := r.place, pbase := r.pbase, table := table, join := r.join, total := r.total,
    made := [], ended := 0, atObar := 0, core := core, merging := none, start := x.held }

/-- Cores that may run tasks of a launch. -/
def launchCores (r : LRec) (table : List Nat) : List Nat :=
  (destinations r table).flatMap (fun d => if d < 2048 then [d] else clusterCores (d - 2048))

/-- A checked record accepted in a slot for core `core`: the sequence rises; a launch of no tasks completes at once; an
ordered one begins its region with empty journals (10 R164, R168, 08 R140). False where the completion must wait. -/
def acceptLaunch (s : State) (x : Ctx) (r : LRec) (table : List Nat) (slot : Nat) (src : Word) (core : Nat) : State × Bool :=
  let next := fun (t : State) => updCtx t x.num (fun c => { c with launchSeq := c.launchSeq + 1 })
  let s1 := next s
  if r.total = 0 then
    let j := joinLaunch s x.num core r.join slot
    if j.2 then (next j.1, true) else j
  else
    let s2 := updCtx s1 x.num (fun c => { c with launches := c.launches ++ [launchFrom x r table slot src core] })
    let s3 := if r.ord then (launchCores r table).foldl jclear s2 else s2
    ({ s3 with pending := s3.pending ++ [(x.num, .launchTaskGenerate x.num slot)] }, true)

/-- The checks of 10 R164 on a record that has been read, `fail` at the first that it breaks. -/
def lrecReason (s : State) (x : Ctx) (ws : List Word) (r : LRec) (table : List Nat) : Option Nat :=
  if lrecMalformed s ws r then some 1
  else if r.entry.toNat % 4 != 0 || r.join.toNat % 16 != 0 then some 2
  else if 0xFFFFFFFF < r.total then some 3
  else if !placementOk x r table then some 4
  else if r.place == 2 && r.stages != 0 then some 5
  else none

/-- The table is read only for a record whose first three checks hold. -/
def tableFor (s : State) (ws : List Word) (r : LRec) : Res (State × List Nat) :=
  if lrecMalformed s ws r || r.entry.toNat % 4 != 0 || r.join.toNat % 16 != 0 || 0xFFFFFFFF < r.total then .ok (s, []) else readTable s r

/-- JOIN checked as an 8-byte store (10 R168). -/
def checkJoin (s : State) (join : Word) : Res Unit :=
  if join = 0 then .ok ()
  else match checkAccess s join 8 .store with
    | .error e => .error e
    | .ok _ => .ok ()

/-- LAUNCHID's value (10 R162). -/
def launchId (seq : BitVec 24) (slot : Nat) : Word := BitVec.ofNat 64 (seq.toNat * 256 + slot)

/-- A LAUNCH that has read its record and table and must wait keeps them (03 R53). -/
def Stop.afterRecord (s : State) (va : Word) (ws : List Word) (r : LRec) (table : List Nat) (e : Stop) : Stop :=
  (e.issued table (match checkTable s r with
    | .ok as => if table.isEmpty then [] else as.map (Access.seen false)
    | .error _ => [])).afterWords s va ws

/-- LAUNCH. -/
def execLaunch (p : BitVec 3) (s : State) : Out :=
  let va := (s.ptr p).addr
  finish s (if va.toNat % 64 != 0 then .error (.trap cALIGN va 0)
    else match loadWords s va 8 with
      | .error e => .error e
      | .ok (t, ws) =>
        let r := lrecOf ws
        match tableFor t ws r with
        | .error e => .error (e.afterWords s va ws)
        | .ok (t1, table) =>
          match myCtx t1 with
          | none => .error (operand va 4)
          | some x =>
            match lrecReason t1 x ws r table with
            | some n => .error (operand va n)
            | none =>
              match checkJoin t1 r.join with
              | .error e => .error e
              | .ok _ =>
                match freeSlot x with
                | none => .error ((Stop.stall t1).afterRecord s va ws r table)
                | some slot =>
                  let u := acceptLaunch t1 x r table slot va s.core.num
                  if u.2 then .ok (u.1.setA (launchId x.launchSeq slot)).advance else .error ((Stop.stall u.1).afterRecord s va ws r table))

/-- LAUNCH_TASK_GENERATE (10 R165). -/
def execLaunchTaskGenerate (ctx slot : Nat) (s : State) : Out := .next (dueGenerators (generateOne s ctx slot) ctx)

/-- LAUNCH_COMPLETION (10 R168). -/
def execLaunchCompletion (ctx slot : Nat) (s : State) : Out :=
  .next (match launchOf s ctx slot with
    | none => s
    | some l =>
      if l.ended = l.total && !(l.ordered && l.merging.isSome) then
        let t := completeLaunch s ctx l
        if t.2 then t.1 else { t.1 with pending := t.1.pending ++ [(ctx, .launchCompletion ctx slot)] }
      else s)

end Sys2Proof.Machine
end

