-- ==== Sys2Proof/Machine/Tasks.lean ====
section
/-! DEFINITION. TASK but for LAUNCH, the flumes, and SYNC: SPAWN, SEND, HOP, YIELD, END, LQPUT, LQGET, LQTST, JDEC, BARM,
OBAR; and the arrival of what they send (14 R231-R247, 10 R171-R182). -/

namespace Sys2Proof.Machine

/-! ## Targets (14 R232) -/

/-- Is core g within the running context's partition. -/
def mine (s : State) (g : Nat) : Bool :=
  match myCtx s with
  | some x => inPart x g
  | none => false

/-- The target that a names. -/
def targetCore (s : State) : Res Nat :=
  if bits s.core.regs.a 63 10 != 0 then .error (operand 0 0x10)
  else
    let g := bits s.core.regs.a 9 0
    if mine s g then .ok g else .error (.trap cVAULT (windowAddr g 0) 0)

/-- Has the context's device-memory queue no credit left, what is on its way counted: a sender's issue stalls (02 R48, 10 R173). -/
def senderStalls (s : State) : Bool :=
  match myCtx s with
  | some x => x.queueCap ≤ x.queue.length + (s.net.filter (fun f => f.ctx == x.num)).length
  | none => true

/-- A packet sent to core g as MSG traffic (02 R43), arriving by the step `i`. -/
def sendTo (s : State) (g : Nat) (e : QEntry) (i : Instr) : State :=
  { s with net := s.net ++ [{ dst := g, ctx := s.core.ctx, ent := e }], pending := s.pending ++ [(g, i)] }

/-! ## SPAWN and SEND (14 R234, R235) -/

/-- Is the record's slot that of a live ordered launch (10 R169). -/
def namesOrdered (s : State) (r : Rec) : Bool :=
  match launchOf s s.core.ctx (recSlot r) with
  | some l => l.ordered
  | none => false

/-- SPAWN. With SELF the record goes to the issuing core whatever CL holds. DEDUCED: log entry 18. -/
def execSpawn (p : BitVec 3) (self : BitVec 1) (s : State) : Out :=
  let va := (s.ptr p).addr
  finish s (if va.toNat % 32 != 0 then .error (.trap cALIGN va 0)
    else match (if self = 1 then Except.ok s.core.num else targetCore s) with
      | .error e => .error e
      | .ok g =>
        match loadWords s va 4 with
        | .error e => .error e
        | .ok (t, ws) =>
          let r0 := mkRec (ws.getD 0 0) (ws.getD 1 0) (ws.getD 2 0) (ws.getD 3 0) va
          let r := if self = 1 then { r0 with word3 := r0.word3 &&& ~~~4 } else r0
          if namesOrdered t r then .error (operand va 3)
          else if senderStalls t then .error ((Stop.stall t).afterWords s va ws)
          else .ok (sendRec t s.core.ctx g r).advance)

/-- Bytes of doublewords, lowest first. -/
def wordBytes (ws : List Word) : List Byte := ws.flatMap (fun w => (List.range 8).map (fun i => w.extractLsb' (8 * i) 8))

/-- The doublewords of a list of bytes. -/
def byteWords : Nat → List Byte → List Word
  | 0, _ => []
  | k + 1, l => BitVec.ofNat 64 (bytesNat (l.take 8)) :: byteWords k (l.drop 8)

/-- The 64-byte frame of a message as doublewords (10 R178). -/
def messageWords (handler : Word) (src : Nat) (payload : List Byte) : List Word :=
  [handler, BitVec.ofNat 64 (src * 2 ^ 32 + payload.length)] ++ byteWords 6 (payload ++ List.replicate 48 0)

/-- A frame written into the message queue of the running context's function as a SYS release, after the zero-length read on the other link; it
stalls while the queue is full (21 R353, 03 R68). -/
def toHost (s : State) (ws : List Word) : Res State :=
  match fnOf s s.core.ctx with
  | none => .error (.stall s)
  | some f =>
    if f.mqFull || !f.mqWaits.isEmpty then .error (.stall s)
    else match coverLink (1 - hostLink s (hostRingHome s f.link f.mqBase f.mqHead)) s with
      | .error e => .error e
      | .ok t => .ok (writeMq t f ws).released

/-- SEND. -/
def execSend (p : BitVec 3) (len : BitVec 6) (host : BitVec 1) (s : State) : Out :=
  let va := (s.ptr p).addr
  let n := len.toNat
  finish s (if 48 < n then .error (operand 0 0x15)
    else if va.toNat % 8 != 0 then .error (.trap cALIGN va 0)
    else match (if host = 1 then Except.ok 0 else targetCore s) with
      | .error e => .error e
      | .ok g =>
        match loadWords s va (1 + (n + 7) / 8) with
        | .error e => .error e
        | .ok (t, ws) =>
          let handler := ws.getD 0 0
          let payload := (wordBytes (ws.drop 1)).take n
          if host = 1 then
            match toHost t (messageWords handler s.core.num payload) with
            | .ok u => .ok u.advance
            | .error e => .error (e.afterWords s va ws)
          else if handler.toNat % 4 != 0 then .error (operand va 0x15)
          else if senderStalls t then .error ((Stop.stall t).afterWords s va ws)
          else .ok (sendTo t g { level := 1, work := .message handler s.core.num payload, entered := 0, aged := false } .messageArrival).advance)

/-! ## Leaving the core (14 R237, R238) -/

/-- A state that left its core waits at a level of core g's queue, or in the device-memory queue (10 R177). -/
def requeueAt (s : State) (cx g level : Nat) (f : FrameRef) : State :=
  match f with
  | .frame n => enqueue s cx g { level := level, work := .resume n, entered := 0, aged := false }
  | .away ts _ _ _ =>
    updCtx s cx (fun x => { x with queue := x.queue ++ [(g, { level := level, work := .resumeAway ts, entered := s.clock, aged := false })] })
  | .none => s

/-- YIELD. -/
def execYield (s : State) : Out :=
  let (s1, f) := suspend (leaveStepped s) (s.core.regs.pc + 4) 3 0 0
  finish s (.ok (leaveCore (requeueAt s1 s.core.ctx s.core.num 3 f)))

/-- END. -/
def execEndTask (s : State) : Out :=
  finish s (.ok (leaveCore (taskEnded (releaseMsg s s.core.sched.msg) s.core.ctx s.core.id s.core.sched.wrote)))

/-- The carried frame's offset, none where it breaks 14 R238. -/
def hopFrame (s : State) (p : BitVec 3) (size : Nat) : Option Nat :=
  let va := (s.ptr p).addr
  if size = 0 then some 0
  else if 16 < size || spaceOf va != .ownVault || va.toNat % 64 != 0 || va.toNat < 0x4000 || Config.vaultBytes < va.toNat + 64 * size then none
  else some va.toNat

/-- HOP. -/
def execHop (p : BitVec 3) (size : BitVec 5) (s : State) : Out :=
  let n := 64 * size.toNat
  finish s (if isOrdered s then .error (operand 0 2)
    else match hopFrame s p size.toNat with
      | none => .error (operand (s.ptr p).addr 0x14)
      | some off =>
        match targetCore s with
        | .error e => .error e
        | .ok g =>
          let h := vaultHome s.core.num off
          match vaultSettle s off n false with
          | .error e => .error e
          | .ok t =>
            match poisonIn t.poison h n with
            | some w => .error (.trap cECC (BitVec.ofNat 64 (8 * w - vaultHome s.core.num 0)) 0)
            | none =>
              if senderStalls t then .error (.stall t)
              else
                let ts : TaskState := { taskState (leaveStepped t) (s.core.regs.pc + 4) with msg := none }
                let data := (List.range n).map (fun i => readByte t.mem (h + i))
                let t1 := sendTo t g { level := 2, work := .hop ts off data false, entered := 0, aged := false } .hopArrival
                .ok (leaveCore ((releaseMsg t1 s.core.sched.msg).setWatch none)))

/-! ## Flumes (10 R182, 14 R239) -/

/-- The neighbour that outbound flume n of core g leads to. -/
def flumeNext (g n : Nat) : Nat :=
  let k := g % 8
  let c := g / 8 % 8
  let q := g / 64
  if n = 0 then q * 64 + c * 8 + (k + 1) % 8
  else if n = 1 then q * 64 + c * 8 + (k + 7) % 8
  else if n = 2 then q * 64 + (c + 1) % 8 * 8 + k
  else q * 64 + (c + 7) % 8 * 8 + k

/-- The neighbour whose outbound flume n is inbound flume n of core g. -/
def flumePrev (g n : Nat) : Nat := flumeNext g (if n = 0 then 1 else if n = 1 then 0 else if n = 2 then 3 else 2)

/-- Outbound flume n of core g. -/
def flumeOf (s : State) (g n : Nat) : Flume :=
  (s.flumes.find? (fun f => f.core == g && f.n == n)).getD { core := g, n := n, present := [], moving := [], returning := 0 }

/-- Sets a flume; an empty one is not listed. -/
def setFlume (s : State) (f : Flume) : State :=
  let rest := s.flumes.filter (fun k => !(k.core == f.core && k.n == f.n))
  { s with flumes := if f.present.isEmpty && f.moving.isEmpty && f.returning = 0 then rest else f :: rest }

/-- Slots of a flume in use: entries, and slots on their way back to the sender. -/
def flumeUsed (f : Flume) : Nat := f.present.length + f.moving.length + f.returning

/-- LQPUT. -/
def execLqput (n : BitVec 2) (s : State) : Out :=
  let g := s.core.num
  let f := flumeOf s g n.toNat
  finish s (if !mine s (flumeNext g n.toNat) then .error (.trap cVAULT (windowAddr (flumeNext g n.toNat) 0) 0)
    else if 16 ≤ flumeUsed f then .error (.stall s)
    else
      let t := setFlume s { f with moving := f.moving ++ [s.core.regs.a] }
      .ok { t with pending := t.pending ++ [(g, Instr.flumeTransfer g n.toNat)] }.advance)

/-- LQGET. -/
def execLqget (n : BitVec 2) (s : State) : Out :=
  let g := flumePrev s.core.num n.toNat
  let f := flumeOf s g n.toNat
  finish s (if !mine s g then .error (.stall s)
    else match f.present with
      | [] => .error (.stall s)
      | v :: r =>
        let t := setFlume s { f with present := r, returning := f.returning + 1 }
        .ok ({ t with pending := t.pending ++ [(g, Instr.flumeSlotReturn g n.toNat)] }.setA v).advance)

/-- LQTST. -/
def execLqtst (n : BitVec 2) (out : BitVec 1) (s : State) : Out :=
  finish s (.ok (s.setT (if out = 1 then flumeUsed (flumeOf s s.core.num n.toNat) < 16
    else !(flumeOf s (flumePrev s.core.num n.toNat) n.toNat).present.isEmpty)).advance)

/-- FLUME_TRANSFER: the oldest entry on the way becomes present. -/
def execFlumeTransfer (g n : Nat) (s : State) : Out :=
  let f := flumeOf s g n
  .next (match f.moving with
    | [] => s
    | v :: r => setFlume s { f with present := f.present ++ [v], moving := r })

/-- FLUME_SLOT_RETURN: a freed slot reaches the sender. -/
def execFlumeSlotReturn (g n : Nat) (s : State) : Out :=
  let f := flumeOf s g n
  .next (if f.returning = 0 then s else setFlume s { f with returning := f.returning - 1 })

/-! ## Counting arrivals (14 R245-R247) -/

/-- JDEC. -/
def execJdec (p : BitVec 3) (s : State) : Out :=
  let va := (s.ptr p).addr
  finish s (if spaceOf va != .reserved && va.toNat % 16 != 0 then .error (.trap cALIGN va 0)
    else match checkAccess s va 8 .atomic with
      | .error e => .error e
      | .ok ac =>
        match ac.place with
        | .port _ => .error (.trap cENGINE va 0)
        | .home h =>
          if isFar h then .error (.trap cPERM va 0)
          else if isOrdered s && isShared s h then
            match jatomic s 1 va.toNat 8 0 0x40 with
            | some t => .ok (t.touchTlb va.toNat).advance
            | none => .error (.trap cJOURNAL va (BitVec.ofNat 64 (jcount s s.core.num)))
          else
            if !storeRoom s then .error (.stall s)
            else
              let r := reach s h 16 true
              if !r.2 then .error (.stall r.1)
              else .ok (awaitAck s ((joinDec r.1 s.core.ctx h va s.core.num s.core.regs.pc).touchTlb va.toNat) h).advance)

/-- Does an address name a vault by the alias or a granted window (14 R246). -/
def inVault (s : State) (va : Word) : Bool :=
  match spaceOf va with
  | .ownVault => aliasAllowed s va
  | .window => windowAllowed s va
  | _ => false

/-- The vault and offset of such an address. -/
def vaultPlace (s : State) (va : Word) : Nat × Nat :=
  if spaceOf va = .ownVault then (s.core.num, va.toNat) else (windowVault va, windowOff va)

/-- BARM. -/
def execBarm (p : BitVec 3) (pc : BitVec 3) (s : State) : Out :=
  let va := (s.ptr p).addr
  let g := (vaultPlace s va).1
  let off := (vaultPlace s va).2
  let h := vaultHome g off
  finish s (if va.toNat % 16 != 0 then .error (.trap cALIGN va 0)
    else if !inVault s va then .error (operand va 6)
    else if bits s.core.regs.a 63 32 != 0 || bits s.core.regs.a 31 0 = 0 then .error (operand va 0x16)
    else if isOrdered s && isShared s h then .error (operand va 0x18)
    else if !storeRoom s then .error (.stall s)
    else
      let r := reach s h 16 true
      if !r.2 then .error (.stall r.1)
      else match poisonIn r.1.poison h 16 with
        | some w => .ok (awaitAck s (raiseUpcall r.1 s.core.ctx s.core.num
            { cause := cECC, addr := va + BitVec.ofNat 64 (8 * w - h), pc := s.core.regs.pc, x := 0 }) h).advance
        | none => .ok (awaitAck s (barrierArm r.1 s.core.ctx g off (bits s.core.regs.a 31 0) (s.ptr pc).addr va s.core.num) h).advance)

/-- OBAR: the task parks until the merge. -/
def execObar (s : State) : Out :=
  finish s (if !isOrdered s then .error (operand 0 0x11)
    else
      let (s1, f) := suspend (leaveStepped s) (s.core.regs.pc + 4) 3 0 0
      let slot := s.core.id.slot.toNat
      let s2 := updCtx s1 s.core.ctx (fun x =>
        { x with parked := x.parked ++ [{ core := s.core.num, layer := none, frame := f, pc := s.core.regs.pc, slot := slot }] })
      let s3 := updLaunch s2 s.core.ctx slot (fun l => { l with atObar := l.atObar + 1 })
      .ok (leaveCore (launchAdvanced s3 s.core.ctx slot)))

/-! ## Arrivals (10 R171, R173, R178, R181) -/

/-- The oldest flight to core g where it is of a kind, and the others: none passes an earlier one (02 R48). -/
def takeFlight (p : Work → Bool) (g : Nat) (net : List Flight) : Option (Flight × List Flight) :=
  match net.find? (fun f => f.dst == g) with
  | some f => if p f.ent.work then some (f, net.erase f) else none
  | none => none

/-- No flight of a kind stands first; the step comes again while one is on its way behind others. -/
def flightBehind (p : Work → Bool) (s : State) (i : Instr) : State :=
  if s.net.any (fun f => f.dst == s.unit && p f.ent.work) then { s with pending := s.pending ++ [(s.unit, i)] } else s

/-- RECORD_ARRIVAL: a record joins its core's or its cluster's queue (10 R171, R173, R174). -/
def execRecordArrival (s : State) : Out :=
  let isRec := fun (w : Work) => match w with
    | .start _ => true
    | _ => false
  .next (match takeFlight isRec s.unit s.net with
    | none => flightBehind isRec s .recordArrival
    | some (f, r) =>
      let s1 := { s with net := r }
      match f.ent.work with
      | .start k => if recShared k then enqueueShared s1 f.ctx (clusterOf f.dst) f.ent else enqueue s1 f.ctx f.dst f.ent
      | _ => s1)

/-- MESSAGE_ARRIVAL: the message lands in a frame, or waits for one behind those of its level (10 R178). -/
def execMessageArrival (s : State) : Out :=
  let isMsg := fun (w : Work) => match w with
    | .message _ _ _ => true
    | _ => false
  .next (match takeFlight isMsg s.unit s.net with
    | none => flightBehind isMsg s .messageArrival
    | some (f, r) =>
      let s1 := { s with net := r }
      match f.ent.work, ctxOf s f.ctx with
      | .message h src p, some x =>
        let away := updCtx s1 f.ctx (fun x => { x with queue := x.queue ++ [(f.dst, { f.ent with entered := s.clock })] })
        if !x.running || awayHas x f.dst 1 then away
        else match freeMsgFrame (coreOf s f.dst) with
          | none => away
          | some n =>
            let t := landMessage s1 f.dst n h src p
            enqueue t.1 f.ctx f.dst { f.ent with work := .start t.2 }
      | _, _ => s1)

/-- The frame and state of a hop written into core g's landing frame: what its 1,024 bytes hold is open, so they are free values (01 R22, 10 R181;
DESIGN CHOICE, log entry 3). -/
def landHop (s : State) (g : Nat) : State :=
  let (v, t) := freeSpan s 128
  updCore (homeWrite t (vaultHome g 0x2000) 1024 v) g (fun c => { c with sched := { c.sched with landing := true } })

/-- HOP_ARRIVAL: the hop lands in the landing frame or the device-memory queue, at level 2 (10 R181). -/
def execHopArrival (s : State) : Out :=
  let isHop := fun (w : Work) => match w with
    | .hop _ _ _ _ => true
    | _ => false
  .next (match takeFlight isHop s.unit s.net with
    | none => flightBehind isHop s .hopArrival
    | some (f, r) =>
      let s1 := { s with net := r }
      match f.ent.work, ctxOf s f.ctx with
      | .hop ts off data _, some x =>
        if x.running && !(coreOf s f.dst).sched.landing && !awayHas x f.dst 2 then
          enqueue (landHop s1 f.dst) f.ctx f.dst { f.ent with work := .hop ts off data true }
        else updCtx s1 f.ctx (fun x => { x with queue := x.queue ++ [(f.dst, { f.ent with entered := s.clock })] })
      | _, _ => s1)

/-- QUEUE_REFILL (10 R173). -/
def execQueueRefill (s : State) : Out := .next (refill s s.unit)

/-- RECORD_SELECT (10 R175); the places it frees let launches generate more tasks. -/
def execRecordSelect (s : State) : Out :=
  let t := selectStep s
  .next (dueGenerators t t.core.ctx)

/-- JOIN_DECREMENT: another agent's decrement of a join word (10 R179). -/
def execJoinDecrement (j : JoinReq) (s : State) : Out :=
  let t := joinLaunch s j.ctx j.core j.name 63
  .next (if t.2 then t.1 else { t.1 with pending := t.1.pending ++ [(s.unit, .joinDecrement j)] })

/-- BARM_AT_HOME: an arming is performed at its home (14 R246). -/
def execBarmAtHome (g : Nat) (off expected : Nat) (cr : Word) (issuer : Nat) (s : State) : Out :=
  .next (if g < Config.nVaults && off % 16 = 0 && off + 16 ≤ vaultSize g && expected != 0 && expected < 2 ^ 32 then
      barrierArm s (coreOf s issuer).ctx g off expected cr (windowAddr g off) issuer
    else s)

end Sys2Proof.Machine
end

