-- ==== Sys2Proof/Machine/Flags.lean ====
section
/-! DEFINITION. The integer results and flags: C of additions and subtractions, comparisons, division (12 R202, R203,
R208, 11 R191). -/

namespace Sys2Proof.Machine

/-- Carry out of bit 63 of a + b + c (12 R202). -/
def carryOut (a b : Word) (c : Bool) : Bool := 2 ^ 64 ≤ a.toNat + b.toNat + c.toNat
/-- Borrow of a − b − c: a < b + c, taken exactly (12 R202). -/
def borrowOut (a b : Word) (c : Bool) : Bool := a.toNat < b.toNat + c.toNat
/-- A flag as a doubleword. -/
def flagWord (c : Bool) : Word := if c then 1 else 0
/-- a + b + C (12 R202). -/
def addWith (a b : Word) (c : Bool) : Word := a + b + flagWord c
/-- a − b − C (12 R202). -/
def subWith (a b : Word) (c : Bool) : Word := a - b - flagWord c

/-- High 64 bits of the signed product (12 R202). -/
def mulHigh (a b : Word) : Word := BitVec.ofInt 64 ((a.toInt * b.toInt) / 2 ^ 64)
/-- High 64 bits of the unsigned product (12 R202). -/
def mulHighU (a b : Word) : Word := BitVec.ofNat 64 ((a.toNat * b.toNat) / 2 ^ 64)

/-- Signed quotient truncated toward zero; m = 0 gives all ones, and −2^63 ÷ −1 gives −2^63 (12 R203). -/
def divS (a m : Word) : Word := if m = 0 then BitVec.allOnes 64 else BitVec.ofInt 64 (Int.tdiv a.toInt m.toInt)
/-- Unsigned quotient (12 R203). -/
def divU (a m : Word) : Word := if m = 0 then BitVec.allOnes 64 else BitVec.ofNat 64 (a.toNat / m.toNat)
/-- Signed remainder, its sign that of a (12 R203). -/
def remS (a m : Word) : Word := if m = 0 then a else BitVec.ofInt 64 (Int.tmod a.toInt m.toInt)
/-- Unsigned remainder (12 R203). -/
def remU (a m : Word) : Word := if m = 0 then a else BitVec.ofNat 64 (a.toNat % m.toNat)

/-- Shift count m[5:0] (12 R202). -/
def shiftCount (m : Word) : Nat := m.toNat % 64
/-- Leading zero bits of the n low bits of a. -/
def leadZeros (a : Word) : Nat → Nat
  | 0 => 0
  | n + 1 => if a.getLsbD n then 0 else leadZeros a n + 1
/-- Trailing zero bits from bit 64 − n up. -/
def trailZeros (a : Word) : Nat → Nat
  | 0 => 0
  | n + 1 => if a.getLsbD (63 - n) then 0 else trailZeros a n + 1
/-- One bits among the n low bits. -/
def onesBelow (a : Word) : Nat → Nat
  | 0 => 0
  | n + 1 => onesBelow a n + (if a.getLsbD n then 1 else 0)
/-- The eight bytes in reverse order (12 R208). -/
def byteSwap (a : Word) : Word :=
  (List.range 8).foldl (fun v i => v ||| ((a.extractLsb' (8 * i) 8).zeroExtend 64 <<< (56 - 8 * i))) 0

/-- The condition codes (11 R191). -/
def condHolds (cc : BitVec 4) (a : Word) (t c : Bool) : Bool :=
  match cc.toNat with
  | 0 => true
  | 1 => t
  | 2 => !t
  | 3 => a == 0
  | 4 => a != 0
  | 5 => a.slt 0
  | 6 => !a.slt 0
  | 7 => c
  | 8 => !c
  | _ => false

end Sys2Proof.Machine
end

