-- ==== Sys2Proof/Machine/Tile.lean ====
section
/-! DEFINITION. Tile configuration, in-place operations, moves between tiles and views, element operations and reductions
(16 R268-R270, R273-R277). Each is performed when it issues; its completion is a device step. -/

namespace Sys2Proof.Machine

/-- What a tile instruction's work answers: the state, and the poisoned word that stopped the engine (16 R279). -/
abbrev TileRes := Res (State × Option Word)

/-! ## Issue (16 R264, R279) -/

/-- The issued instruction counts until it completes; its tiles are pending; a word that stopped the engine is a fault for
the task's next boundary. -/
def tileCommit (used : List (BitVec 2)) (pc : Word) (t : State) (bad : Option Word) : State :=
  let m := t.core.mx
  let f := match bad with
    | some w => [(t.core.port.owner, ({ cause := cECC, addr := w, pc := 0, x := pc } : TrapInfo))]
    | none => []
  let m1 := (m.onTiles [0, 1, 2, 3] (fun k => { k with pend := false })).onTiles used (fun k => { k with pend := true })
  { t.setMx { m1 with ops := 1, rsdWord := 0, run := none, owner := t.core.port.owner, faults := m.faults ++ f } with
      pending := t.pending ++ [(t.core.num, .tileInstructionComplete)] }

/-- A tile instruction issues: it stalls while the engine is busy, then its checks and its work. DESIGN CHOICE: log entry 21. -/
def tileIssue (s : State) (used : List (BitVec 2)) (work : State → TileRes) : Res State :=
  if s.core.mx.ops != 0 then .error (.stall s)
  else match work s with
    | .error e => .error e
    | .ok (t, bad) => .ok (tileCommit used s.core.regs.pc t bad).advance

/-- What the current core's tile instruction finds at its issue: `t` is the state in which the engine commands that claim its operands have done
their part (04 R80). -/
def runOf (s t : State) : TileRun :=
  let g := s.core.num
  let h := vaultHome g 0
  { num := g, since := s.core.csr.here, pos := 0, regs := s.core.regs, tiles := s.core.mx.tiles, key := s.core.csr.dgkey, ctr := s.core.csr.dgctr,
    vault := t.mem.filter (inSpan h Config.vaultBytes), poison := t.poison.filter (fun w => h ≤ 8 * w && 8 * w < h + Config.vaultBytes),
    bypass := t.core.mx.bypass, free := s.freeCtr }

/-- The state in which none of an instruction's units is done. -/
def beforeUnits (none_ : State → TileRes) (s : State) : State :=
  match none_ s with
  | .ok t => t.1
  | .error _ => s

/-- A tile instruction that a halt can stop inside: the engine keeps its word, and what it found, while it runs (16 R278); `none_` is its work
with none of its units. -/
def tileLong (i : Instr) (s : State) (used : List (BitVec 2)) (work none_ : State → TileRes) : Res State :=
  match tileIssue s used work with
  | .error e => .error e
  | .ok t => .ok (t.setMx { t.core.mx with rsdWord := (encode i).getD 0, run := some (runOf s (beforeUnits none_ s)) })

/-- As many units of work, K groups of 16 or blocks of 16 rows, as any instruction has. Each work below that a halt can stop inside takes the
number of its units that it performs, `lim` (16 R278). -/
def allUnits : Nat := 4096

/-- Work on the tile or pair that needs no operand in memory. -/
def inPlace (s : State) (f : Matrix → Matrix) : TileRes := .ok (s.setMx (f s.core.mx), none)

/-! ## TCFG (16 R268) -/

/-- The tile that can form a pair with AC. -/
def partner (ac : BitVec 2) : BitVec 2 := ac ^^^ 1

/-- The tiles that a new shape of AC affects. -/
def affected (m : Matrix) (ac : BitVec 2) (shape : Nat) : List (BitVec 2) :=
  if shape = 2 || m.paired ac then [ac, partner ac] else [ac]

/-- Bit n for each tile of a list that is live. -/
def liveMask (m : Matrix) (l : List (BitVec 2)) : Nat := l.foldl (fun k n => if (m.tile n).live then k + 2 ^ n.toNat else k) 0

/-- TCFG's work. -/
def tcfgWork (ac : BitVec 2) (fl : BitVec 9) (s : State) : TileRes :=
  let shape := bits fl 3 0
  let fmt := bits fl 7 4
  let m := s.core.mx
  let aff := affected m ac shape
  if 3 ≤ shape || 3 ≤ fmt then .error (operand 0 0)
  else if shape = 2 && ac.getLsbD 0 then .error (operand 0 0x23)
  else if liveMask m aff != 0 && !fl.getLsbD 8 then .error (.trap cTILELIVE 0 (BitVec.ofNat 64 (liveMask m aff)))
  else
    let m1 := m.onTiles aff (fun t => { t with cells := [], live := false })
    let m2 := if shape != 2 && m.paired ac then m1.onTiles [partner ac] (fun t => { t with shape := 0 }) else m1
    let m3 := m2.onTiles [ac] (fun t => { t with shape := BitVec.ofNat 2 shape, fmt := BitVec.ofNat 2 fmt })
    let m4 := if shape = 2 then m3.onTiles [partner ac] (fun t => { t with shape := 3, fmt := BitVec.ofNat 2 fmt }) else m3
    .ok (s.setMx m4, none)

/-- TCFG. -/
def execTcfg (ac : BitVec 2) (fl : BitVec 9) (s : State) : Out :=
  finish s (tileIssue s (affected s.core.mx ac (bits fl 3 0)) (tcfgWork ac fl))

/-! ## In-place operations (16 R269) -/

def trelWork (ac : BitVec 2) (s : State) : TileRes := inPlace s (fun m => (m.clearGrid ac).setLive ac false)
def tzeroWork (ac : BitVec 2) (s : State) : TileRes := inPlace s (fun m => (m.clearGrid ac).setLive ac true)

/-- A tile transposed: a single tile's shape swaps between 128x64 and 64x128. -/
def ttrnWork (ac : BitVec 2) (s : State) : TileRes :=
  inPlace s (fun m =>
    let g := flipGrid (m.nc ac) (m.grid ac)
    let m1 := if m.paired ac then m else m.onTiles [ac] (fun t => { t with shape := t.shape ^^^ 1 })
    m1.putGrid ac g)

/-- TSCL's product, rounded into the tile's format. -/
def scaleCell (fmt : BitVec 2) (f : Num) (w : W32) : W32 := accRound fmt ((accVal fmt w).mulExact f).1

/-- The FP32 scale word at p[PA], read at issue (16 R269, 18 R318). -/
def scaleWord (s : State) (pa : BitVec 3) : Res (State × W32) :=
  match ownRange s (s.ptr pa).addr 4 4 with
  | .error e => .error e
  | .ok off =>
    match vaultFetch s (s.ptr pa).addr off 4 with
    | .error e => .error e
    | .ok (t, v) => .ok (t, BitVec.ofNat 32 v)

/-- Every element of the tile or pair multiplied by an FP32 word. -/
def scaleTile (s : State) (ac : BitVec 2) (w : W32) : State :=
  let m := s.core.mx
  s.setMx ((m.putGrid ac (mapGrid (fun _ _ x => scaleCell (m.fmt ac) (num32 w) x) (m.grid ac))).setLive ac true)

def tsclWork (ac : BitVec 2) (pa : BitVec 3) (s : State) : TileRes :=
  if s.core.mx.fmt ac = 2 then .error (operand 0 0x24)
  else match scaleWord s pa with
    | .error e => .error e
    | .ok (t, w) => .ok (scaleTile t ac w, none)

/-- TCVT: the tile's own format changes nothing but that the tile is live. -/
def tcvtWork (ac : BitVec 2) (fl : BitVec 4) (s : State) : TileRes :=
  if 3 ≤ fl.toNat then .error (operand 0 0)
  else
    let aim := BitVec.ofNat 2 fl.toNat
    inPlace s (fun m =>
      let m1 := if m.fmt ac = aim then m else m.putGrid ac (mapGrid (fun _ _ x => accRound aim (accVal (m.fmt ac) x)) (m.grid ac))
      (m1.onTiles (m.group ac) (fun t => { t with fmt := aim })).setLive ac true)

/-- TREL. -/
def execTrel (ac : BitVec 2) (s : State) : Out := finish s (tileIssue s (s.core.mx.group ac) (trelWork ac))
/-- TZERO. -/
def execTzero (ac : BitVec 2) (s : State) : Out := finish s (tileIssue s (s.core.mx.group ac) (tzeroWork ac))
/-- TTRN. -/
def execTtrn (ac : BitVec 2) (s : State) : Out := finish s (tileIssue s (s.core.mx.group ac) (ttrnWork ac))
/-- TSCL. -/
def execTscl (ac : BitVec 2) (pa : BitVec 3) (s : State) : Out := finish s (tileIssue s (s.core.mx.group ac) (tsclWork ac pa))
/-- TCVT. -/
def execTcvt (ac : BitVec 2) (fl : BitVec 4) (s : State) : Out := finish s (tileIssue s (s.core.mx.group ac) (tcvtWork ac fl))

/-! ## Views and tiles together (16 R270) -/

/-- Strips or squares of 128 that n positions make (15 R255). -/
def scaleCols (n : Nat) : Nat := (n + 127) / 128

/-- The view's dimensions, after any transpose, are the tile's. -/
def sizesAgree (m : Matrix) (ac : BitVec 2) (v : View) (tr : Bool) : Bool :=
  if tr then v.cols == m.nr ac && v.rows == m.nc ac else v.rows == m.nr ac && v.cols == m.nc ac

/-- Bytes of a view's strip scales. -/
def View.stripBytes (v : View) : Nat := v.rows * scaleCols v.cols

/-- An own-vault range of len bytes that exists only where `want` holds. -/
def rangeIf (s : State) (want : Bool) (va : Word) (len : Nat) : Res Nat := if want then checkOperand s va len else .ok 0
/-- The same of a range that is written where `dest` holds. -/
def rangeAs (dest : Bool) (s : State) (want : Bool) (va : Word) (len : Nat) : Res Nat := if want then checkOperandAs dest s va len else .ok 0

/-- A view that TLD or TVOP reads: its formats, dimensions and ranges (16 R267, R270). DEDUCED: log entry 20. -/
def sourceView (s : State) (ac : BitVec 2) (va : Word) (v : View) (tr : Bool) : Res (State × Nat × Nat) := do
  let m := s.core.mx
  if 8 < v.fmt || v.cmp || fmtIsInt v.fmt != (m.fmt ac == 2) then .error (operand va 0x21)
  else if fmtIsInt v.fmt && v.scaleb != 0 then .error (operand va 0x24)
  else if !sizesAgree m ac v tr then .error (operand va 0x22)
  else
    let off ← viewPlace s v
    let so ← rangeIf s (v.scaleb != 0) v.scaleb v.stripBytes
    let t ← settleRanges s [(off, v.hull, false), (so, if v.scaleb = 0 then 0 else v.stripBytes, false)]
    .ok (t, off, so)

/-- What the engine reads of a view's rows 16b and on (16 R278). -/
def rowReads (v : View) (off so b : Nat) : List (Word × Nat × Nat) :=
  let n := min 16 (v.rows - 16 * b)
  let k := scaleCols v.cols
  (lineSpans v (!v.cm) (16 * b) n).map (fun r => (v.base + BitVec.ofNat 64 r.1, off + r.1, r.2)) ++
    (if v.scaleb = 0 then [] else [(v.scaleb + BitVec.ofNat 64 (16 * b * k), so + 16 * b * k, n * k)])

/-- A view's element brought into an accumulator format, with its strip scale (16 R270). -/
def widenCell (fmt : BitVec 2) (v : View) (scales r c x : Nat) : W32 :=
  let y := fmtDecode v.fmt x
  accRound fmt (if v.scaleb = 0 then y else (y.mulExact (scaleNum (elemAt 8 scales (r * scaleCols v.cols + c / 128)))).1)

/-- The strip scale bytes of a view, as one number. -/
def stripScales (s : State) (v : View) (so : Nat) : Nat := if v.scaleb = 0 then 0 else vaultRead s so v.stripBytes

/-- A view's elements brought into an accumulator format. -/
def widenView (s : State) (fmt : BitVec 2) (v : View) (off so : Nat) : Grid W32 :=
  let scales := stripScales s v so
  mapGrid (fun r c x => widenCell fmt v scales r c x) (viewCodes s v off)

/-- TLD's work: the view's rows before the one that met poison reach the tile. -/
def tldPart (lim : Nat) (ac : BitVec 2) (pa : BitVec 3) (fl : BitVec 1) (s : State) : TileRes := do
  let va := (s.ptr pa).addr
  let tr := fl == 1
  let (s1, v) ← readView s va
  let (t, off, so) ← sourceView s1 ac va v tr
  let m := t.core.mx
  let bad := badBlock t (rowReads v off so) ((v.rows + 15) / 16) 0
  let k := min (16 * lim) (match bad with
    | some b => 16 * b.1
    | none => v.rows)
  let new := widenView t (m.fmt ac) v off so
  let old := m.grid ac
  let g := if tr then flipGrid (m.nr ac) (new.take k ++ (flipGrid (m.nc ac) old).drop k) else new.take k ++ old.drop k
  let m1 := m.putGrid ac g
  .ok (t.setMx (if k = 0 then m1 else m1.setLive ac true), bad.map (·.2))

/-- TLD's whole work. -/
def tldWork (ac : BitVec 2) (pa : BitVec 3) (fl : BitVec 1) (s : State) : TileRes := tldPart allUnits ac pa fl s

/-- A view that TWR, TDRAIN or TQNT writes: dimensions and ranges. -/
def sinkView (s : State) (ac : BitVec 2) (va : Word) (v : View) (tr writeScales : Bool) : Res (State × Nat × Nat) := do
  if !sizesAgree s.core.mx ac v tr then .error (operand va 0x22)
  else
    let off ← viewDest s v
    let so ← rangeAs writeScales s (v.scaleb != 0) v.scaleb v.stripBytes
    let t ← settleRanges s [(off, v.hull, true), (so, if v.scaleb = 0 then 0 else v.stripBytes, writeScales)]
    .ok (t, off, so)

/-- The writes of 16 rows of the tile from row 16b, whose codes are given, into a view. -/
def rowWrites (v : View) (off : Nat) (tr : Bool) (b : Nat) (codes : Grid Nat) : List (Word × Nat × Nat × Nat) :=
  (lineWrites v (v.cm == tr) (16 * b) ((codes.drop (16 * b)).take 16)).map
    (fun r => (v.base + BitVec.ofNat 64 r.1, off + r.1, r.2.1, r.2.2))

/-- TWR's work: the words as they are. -/
def twrPart (lim : Nat) (ac : BitVec 2) (pa : BitVec 3) (fl : BitVec 1) (s : State) : TileRes := do
  let va := (s.ptr pa).addr
  let tr := fl == 1
  let (s1, v) ← readView s va
  if v.fmt != accCode (s1.core.mx.fmt ac) || v.cmp || v.scaleb != 0 then .error (operand va 0x21)
  else
    let (t, off, _) ← sinkView s1 ac va v tr false
    let codes := mapGrid (fun _ _ (w : W32) => w.toNat) (t.core.mx.grid ac)
    .ok (runBlocks (fun b u => writePieces u (rowWrites v off tr b codes)) (min lim (t.core.mx.nr ac / 16)) 0 t)

/-- TWR's whole work. -/
def twrWork (ac : BitVec 2) (pa : BitVec 3) (fl : BitVec 1) (s : State) : TileRes := twrPart allUnits ac pa fl s

/-- The strip scale bytes that a drain of the tile's rows 16b and on reads. -/
def drainReads (v : View) (so : Nat) (tr : Bool) (b : Nat) : List (Word × Nat × Nat) :=
  let k := scaleCols v.cols
  if v.scaleb = 0 then []
  else if tr then (List.range v.rows).map (fun r => (v.scaleb + BitVec.ofNat 64 (r * k + b / 8), so + r * k + b / 8, 1))
  else [(v.scaleb + BitVec.ofNat 64 (16 * b * k), so + 16 * b * k, 16 * k)]

/-- TDRAIN's conversion of tile element (i, j): once, from the exact product (16 R270). -/
def drainCell (fmt : BitVec 2) (v : View) (scales : Nat) (tr : Bool) (i j : Nat) (w : W32) : Nat :=
  let r := if tr then j else i
  let c := if tr then i else j
  let y := accVal fmt w
  narrow v.fmt (if v.scaleb = 0 then y else (y.mulExact (scaleInv (elemAt 8 scales (r * scaleCols v.cols + c / 128)))).1)

/-- After a drain without a fault: the tile is +0 and not live, and `byp` keeps the drain of up to 32 KiB. -/
def afterDrain (ac : BitVec 2) (v : View) (byp : Bool) (r : State × Option Word) : State × Option Word :=
  match r.2 with
  | some _ => r
  | none =>
    let m := (r.1.core.mx.clearGrid ac).setLive ac false
    (r.1.setMx (if byp then { m with bypass := if v.runs * v.runBytes ≤ 32768 then some v else none } else m), none)

/-- Blocks of a drain of the tile up to `lim`: after the last of them the drain is over. -/
def drainBlocks (lim : Nat) (ac : BitVec 2) (v : View) (byp : Bool) (block : Nat → State → State × Option Word) (t : State) : State × Option Word :=
  let n := t.core.mx.nr ac / 16
  if lim < n then runBlocks block lim 0 t else afterDrain ac v byp (runBlocks block n 0 t)

/-- TDRAIN's work. -/
def tdrainPart (lim : Nat) (ac : BitVec 2) (pa : BitVec 3) (fl : BitVec 2) (s : State) : TileRes := do
  let va := (s.ptr pa).addr
  let tr := fl.getLsbD 0
  let (s1, v) ← readView s va
  if 8 < v.fmt || v.cmp || fmtIsInt v.fmt != (s1.core.mx.fmt ac == 2) then .error (operand va 0x21)
  else
    let (t, off, so) ← sinkView s1 ac va v tr false
    let m := t.core.mx
    let block := fun (b : Nat) (u : State) =>
      match badRead u (drainReads v so tr b) with
      | some w => (u, some w)
      | none =>
        let scales := stripScales u v so
        writePieces u (rowWrites v off tr b (mapGrid (fun i j w => drainCell (m.fmt ac) v scales tr i j w) (m.grid ac)))
    .ok (drainBlocks lim ac v (fl.getLsbD 1) block t)

/-- TDRAIN's whole work. -/
def tdrainWork (ac : BitVec 2) (pa : BitVec 3) (fl : BitVec 2) (s : State) : TileRes := tdrainPart allUnits ac pa fl s

/-- TLD. -/
def execTld (ac : BitVec 2) (pa : BitVec 3) (fl : BitVec 1) (s : State) : Out :=
  finish s (tileLong (.tld ac pa fl) s (s.core.mx.group ac) (tldWork ac pa fl) (tldPart 0 ac pa fl))
/-- TWR. -/
def execTwr (ac : BitVec 2) (pa : BitVec 3) (fl : BitVec 1) (s : State) : Out :=
  finish s (tileLong (.twr ac pa fl) s (s.core.mx.group ac) (twrWork ac pa fl) (twrPart 0 ac pa fl))
/-- TDRAIN. -/
def execTdrain (ac : BitVec 2) (pa : BitVec 3) (fl : BitVec 2) (s : State) : Out :=
  finish s (tileLong (.tdrain ac pa fl) s (s.core.mx.group ac) (tdrainWork ac pa fl) (tdrainPart 0 ac pa fl))

/-! ## TQNT (16 R276) -/

/-- Does a magnitude rank above another, NaN first. -/
def magAbove (a b : Num) : Bool := if a.isNan then !b.isNan else if b.isNan then false else b.lt a

/-- The greater of two magnitudes. -/
def magMax (a b : Num) : Num := if magAbove b a then b else a

/-- The largest magnitude of a list. -/
def amaxOf (l : List Num) : Num := l.foldl (fun m x => magMax m x.abs) (.fin false 0 0)

/-- Inserts a column behind those of at least its magnitude. -/
def insertCol (x : Num × Nat) : List (Num × Nat) → List (Num × Nat)
  | [] => [x]
  | y :: r => if magAbove x.1 y.1 then x :: y :: r else y :: insertCol x r

/-- Columns by falling magnitude, ties to the lower column. -/
def colOrder (cols : Grid Num) : List Nat :=
  ((cols.zipIdx.map (fun e => (amaxOf e.1, e.2))).foldl (fun l x => insertCol x l) []).map (·.2)

/-- TGT of a format. -/
def quantTarget (fmt : Nat) : Int :=
  match fmt with
  | 3 => 7 | 4 => 14 | 5 => 5 | 6 => 1 | _ => 0

/-- The scale byte of a strip. DEDUCED: log entry 23. -/
def quantByte (fmt : Nat) (strip : List Num) : Nat :=
  match amaxOf strip with
  | .nan _ => 0xFF
  | .inf _ => 254
  | .fin _ m e => if m = 0 then 127 else (max 0 (min 254 (127 + floorLog m e - quantTarget fmt))).toNat

/-- A row's strips: each with its scale byte and codes. -/
def quantRow (fmt : Nat) (row : List Num) : List (Nat × List Nat) :=
  (splitEvery 128 (scaleCols row.length) row).map (fun st =>
    let b := quantByte fmt st
    (b, st.map (fun x => narrow fmt (x.mulExact (quantFactor b)).1)))

/-- TQNT's work. -/
def tqntPart (lim : Nat) (ac : BitVec 2) (pa : BitVec 3) (fl : BitVec 2) (s : State) : TileRes := do
  let va := (s.ptr pa).addr
  let (s1, v) ← readView s va
  let build := fl.getLsbD 1
  if v.fmt < 3 || 8 < v.fmt || v.cmp || v.scaleb = 0 || (build && !v.cpt) || fmtIsInt v.fmt != (s1.core.mx.fmt ac == 2) then
    .error (operand va 0x21)
  else
    let co ← rangeAs true s1 build v.cptb (2 * v.cols)
    let (t, off, so) ← sinkView s1 ac va v false true
    let t ← settleRanges t [(co, if build then 2 * v.cols else 0, true)]
    let m := t.core.mx
    let g := mapGrid (fun _ _ w => accVal (m.fmt ac) w) (m.grid ac)
    let order := if build then colOrder (flipGrid (m.nc ac) g) else List.range (m.nc ac)
    let rows := g.map (fun r => quantRow v.fmt (order.map (fun c => r.getD c (.fin false 0 0))))
    let codes := rows.map (fun r => r.flatMap (·.2))
    let bytes := rows.map (fun r => r.map (·.1))
    let k := scaleCols v.cols
    let block := fun (b : Nat) (u : State) =>
      writePieces u (rowWrites v off false b codes ++
        [(v.scaleb + BitVec.ofNat 64 (16 * b * k), so + 16 * b * k, 16 * k, packElems 8 ((bytes.drop (16 * b)).take 16).flatten)])
    let first := if build then writePieces t [(v.cptb, co, 2 * v.cols, packElems 16 order)] else (t, none)
    match first.2 with
    | some w => .ok (first.1, some w)
    | none => .ok (drainBlocks lim ac v (fl.getLsbD 0) block first.1)

/-- TQNT's whole work. -/
def tqntWork (ac : BitVec 2) (pa : BitVec 3) (fl : BitVec 2) (s : State) : TileRes := tqntPart allUnits ac pa fl s

/-- TQNT. -/
def execTqnt (ac : BitVec 2) (pa : BitVec 3) (fl : BitVec 2) (s : State) : Out :=
  finish s (tileLong (.tqnt ac pa fl) s (s.core.mx.group ac) (tqntWork ac pa fl) (tqntPart 0 ac pa fl))

/-! ## TCMPR (16 R273) -/

/-- Does element x of a group rank above element y: larger magnitude, or the same at a lower position. -/
def keepAbove (x y : Num × Nat) : Bool := magAbove x.1 y.1 || (!magAbove y.1 x.1 && x.2 < y.2)

/-- A group of 4 codes compressed: the two kept codes in ascending position, and the nibble. -/
def compressGroup (fmt : Nat) (g : List Nat) : List Nat × Nat :=
  let ms := g.zipIdx.map (fun e => ((fmtDecode fmt e.1).abs, e.2))
  let kept := (ms.filter (fun x => (ms.filter (fun y => keepAbove y x)).length < 2)).map (·.2)
  (kept.map (fun p => g.getD p 0), kept.headD 0 + 4 * kept.getD 1 0)

/-- A line of codes compressed: its stored codes and its nibbles. -/
def compressLine (fmt : Nat) (l : List Nat) : List Nat × List Nat :=
  let gs := (splitEvery 4 (l.length / 4) l).map (compressGroup fmt)
  (gs.flatMap (·.1), gs.map (·.2))

/-- One metadata nibble written at an own-vault byte. -/
def putNibble (s : State) (co n v : Nat) : State :=
  let b := vaultRead s (co + n / 2) 1
  vaultWrite s (co + n / 2) 1 (if n % 2 = 0 then b / 16 * 16 + v else b % 16 + v * 16)

/-- Bytes of the metadata of n lines of K logical positions. -/
def metaBytes (n k : Nat) : Nat := (n * (k / 4) + 1) / 2

/-- 16 source rows from row 16b compressed into the view at PB: codes, then the nibbles of each line from group `g0` on. -/
def compressBlock (w : View) (off co k : Nat) (alongRows : Bool) (src : Grid Nat) (b : Nat) (u : State) : State × Option Word :=
  let rows := (src.drop (16 * b)).take 16
  let lines := (if alongRows then rows else flipGrid w.cols rows).map (compressLine w.fmt)
  let stored := lines.map (·.1)
  let n0 := if alongRows then 16 * b else 0
  let g0 := if alongRows then 0 else 4 * b
  let nibs := lines.zipIdx.flatMap (fun e => e.1.2.zipIdx.map (fun f => ((n0 + e.2) * (k / 4) + g0 + f.2, f.1)))
  let data := (if alongRows then lineWrites w (!w.cm) (16 * b) stored
    else lineWrites w (!w.cm) (8 * b) (flipGrid (rows.length / 2) stored)).map
      (fun r => (w.base + BitVec.ofNat 64 r.1, off + r.1, r.2.1, r.2.2))
  let nibPieces := nibs.map (fun e => (w.cptb + BitVec.ofNat 64 (e.1 / 2), co + e.1 / 2, 1, 0))
  match badWrite u (data ++ nibPieces) with
  | some x => (u, some x)
  | none => (nibs.foldl (fun t e => putNibble t co e.1 e.2) (writePieces u data).1, none)

/-- TCMPR's work. -/
def tcmprPart (lim : Nat) (pa pb : BitVec 3) (fl : BitVec 1) (s : State) : TileRes := do
  let va := (s.ptr pa).addr
  let vb := (s.ptr pb).addr
  let (s1, v) ← readView s va
  let (s2, w) ← readView s1 vb
  let alongRows := fl == 0
  let k := if alongRows then v.cols else v.rows
  let n := if alongRows then v.rows else v.cols
  if v.cmp || 8 < v.fmt then .error (operand va 0x21)
  else if !w.cmp || w.fmt != v.fmt then .error (operand vb 0x21)
  else if k % 4 != 0 || (if alongRows then w.rows != n || 2 * w.cols != k else w.cols != n || 2 * w.rows != k) then
    .error (operand va 0x22)
  else
    let off ← viewPlace s2 v
    let wo ← viewDest s2 w
    let co ← checkDest s2 w.cptb (metaBytes n k)
    let t ← settleRanges s2 [(off, v.hull, false), (wo, w.hull, true), (co, metaBytes n k, true)]
    let src := viewCodes t v off
    let block := fun (b : Nat) (u : State) =>
      match badRead u (rowReads { v with scaleb := 0 } off 0 b) with
      | some x => (u, some x)
      | none => compressBlock w wo co k alongRows src b u
    .ok (runBlocks block (min lim ((v.rows + 15) / 16)) 0 t)

/-- TCMPR's whole work. -/
def tcmprWork (pa pb : BitVec 3) (fl : BitVec 1) (s : State) : TileRes := tcmprPart allUnits pa pb fl s

/-- TCMPR. -/
def execTcmpr (pa pb : BitVec 3) (fl : BitVec 1) (s : State) : Out := 
  finish s (tileLong (.tcmpr pa pb fl) s [] (tcmprWork pa pb fl) (tcmprPart 0 pa pb fl))

/-! ## TVOP (16 R274) -/

/-- An operation on two values of an integer tile. -/
def intOp (op : Nat) (x y : Int) : Int :=
  match op with
  | 0 => x + y
  | 1 => x * y
  | 2 => max x y
  | _ => min x y

/-- An operation on two values, before its rounding. -/
def numOp (op : Nat) (x y : Num) : Num :=
  match op with
  | 0 => (x.addExact false y).1
  | 1 => (x.mulExact y).1
  | 2 => (Num.minMax true x y).1
  | _ => (Num.minMax false x y).1

/-- TVOP on one element: the tile's word and the operand's, an FP32 pattern or an INT32. -/
def tvopCell (fmt : BitVec 2) (op : Nat) (relu : Bool) (w o : W32) : W32 :=
  if fmt = 2 then
    let r := BitVec.ofInt 32 (intOp op w.toInt o.toInt)
    if relu && r.slt 0 then 0 else r
  else
    let r := accRound fmt (numOp op (accVal fmt w) (num32 o))
    if relu && (num32 r).lt (.fin false 0 0) then 0 else r

/-- The operand words that a vector form reads: nc, nr or one. -/
def tvopLen (m : Matrix) (ac : BitVec 2) (form : Nat) : Nat := if form = 1 then m.nc ac else if form = 2 then m.nr ac else 1

/-- TVOP's vector or scalar operand: the operand word of each element, and the first rows before poison. -/
def tvopVector (s : State) (ac : BitVec 2) (va : Word) (form : Nat) : Res (State × (Nat → Nat → W32) × Option (Nat × Word)) := do
  let n := tvopLen s.core.mx ac form
  let off ← ownRange s va (4 * n) 1
  let t ← settleRanges s [(off, 4 * n, false)]
  let run := vaultRead t off (4 * n)
  let word := fun (i : Nat) => BitVec.ofNat 32 (elemAt 32 run i)
  if form = 2 then
    .ok (t, fun r _ => word r, badBlock t (fun b => [(va + BitVec.ofNat 64 (64 * b), off + 64 * b, 64)]) (n / 16) 0)
  else .ok (t, fun _ c => word (if form = 1 then c else 0), (badRead t [(va, off, 4 * n)]).map (fun w => (0, w)))

/-- TVOP's view operand, widened as TLD does. -/
def tvopView (s : State) (ac : BitVec 2) (va : Word) : Res (State × (Nat → Nat → W32) × Option (Nat × Word)) := do
  let (s1, v) ← readView s va
  let (t, off, so) ← sourceView s1 ac va v false
  let g := widenView t (t.core.mx.fmt ac) v off so
  .ok (t, fun r c => (g.getD r []).getD c 0, badBlock t (rowReads v off so) ((v.rows + 15) / 16) 0)

/-- TVOP's work. -/
def tvopWork (ac : BitVec 2) (pa : BitVec 3) (fl : BitVec 7) (s : State) : TileRes := do
  let op := bits fl 3 0
  let form := bits fl 5 4
  if 4 ≤ op then .error (operand 0 0)
  else
    let va := (s.ptr pa).addr
    let (t, o, bad) ← (if form = 0 then tvopView s ac va else tvopVector s ac va form)
    let m := t.core.mx
    let k := match bad with
      | some b => 16 * b.1
      | none => m.nr ac
    let g := m.grid ac
    let new := mapGrid (fun r c w => tvopCell (m.fmt ac) op (fl.getLsbD 6) w (o r c)) g
    let m1 := m.putGrid ac (new.take k ++ g.drop k)
    .ok (t.setMx (if k = 0 then m1 else m1.setLive ac true), bad.map (·.2))

/-- TVOP. -/
def execTvop (ac : BitVec 2) (pa : BitVec 3) (fl : BitVec 7) (s : State) : Out :=
  finish s (tileIssue s (s.core.mx.group ac) (tvopWork ac pa fl))

/-! ## TRED (16 R275) -/

/-- A line of a tile reduced in ascending index: the value's word. -/
def reduceLine (fmt : BitVec 2) (op : Nat) (l : List W32) : W32 :=
  if fmt = 2 then
    match l.map BitVec.toInt with
    | [] => 0
    | x :: r => BitVec.ofInt 32 (r.foldl (fun a y => if op = 0 then a + y else if op = 1 then max a y else min a y) x)
  else if op = 0 then l.foldl (fun a w => rn32 ((num32 a).addExact false (accVal fmt w)).1) 0
  else
    match l with
    | [] => 0
    | x :: r => r.foldl (fun a w => rn32 (Num.minMax (op == 1) (num32 a) (accVal fmt w)).1) (rn32 (accVal fmt x))

/-- TRED's work; column sums of the rows before `lim` go to the residue tile (16 R278). -/
def tredPart (lim : Nat) (ac : BitVec 2) (pa : BitVec 3) (fl : BitVec 3) (s : State) : TileRes := do
  let cols := fl.getLsbD 0
  let op := bits fl 2 1
  if op = 3 then .error (operand 0 0)
  else
    let va := (s.ptr pa).addr
    let m := s.core.mx
    let n := if cols then m.nc ac else m.nr ac
    let off ← ownDest s va (4 * n) 4
    let t ← settleRanges s [(off, 4 * n, true)]
    let sums := fun (g : Grid W32) => g.map (reduceLine (m.fmt ac) op)
    let vals := (sums (if cols then flipGrid n (m.grid ac) else m.grid ac)).map (·.toNat)
    if !cols then .ok (runBlocks (fun b u => writePieces u [(va + BitVec.ofNat 64 (64 * b), off + 64 * b, 64,
      packElems 32 ((vals.drop (16 * b)).take 16))]) (min lim (n / 16)) 0 t)
    else if lim < m.nr ac / 16 then .ok (t.setMx { m with rsd := trimZeros (sums (flipGrid n ((m.grid ac).take (16 * lim)))) }, none)
    else .ok (writePieces t [(va, off, 4 * n, packElems 32 vals)])

/-- TRED's whole work. -/
def tredWork (ac : BitVec 2) (pa : BitVec 3) (fl : BitVec 3) (s : State) : TileRes := tredPart allUnits ac pa fl s

/-- TRED. -/
def execTred (ac : BitVec 2) (pa : BitVec 3) (fl : BitVec 3) (s : State) : Out :=
  finish s (tileLong (.tred ac pa fl) s (s.core.mx.group ac) (tredWork ac pa fl) (tredPart 0 ac pa fl))

/-! ## TSMAX (16 R277) -/

/-- The softmax of a row. -/
def softmaxRow (fmt : BitVec 2) (row : List W32) : List W32 :=
  let xs := row.map (accVal fmt)
  let m := xs.foldl (fun a x => if a.lt x then x else a) (xs.headD (.fin false 0 0))
  if xs.any Num.isNan || m.isInf then row.map (fun _ => 0x7FC00000)
  else
    let es := xs.map (fun x => exp32 (x.addExact false m.flip).1)
    let sum := es.foldl (fun a e => rn32 ((num32 a).addExact false (num32 e)).1) 0
    es.map (fun e => accRound fmt ((num32 e).divSticky (num32 sum)).1)

/-- TSMAX's work. -/
def tsmaxPart (lim : Nat) (ac : BitVec 2) (s : State) : TileRes :=
  if s.core.mx.fmt ac = 2 then .error (operand 0 0x24)
  else inPlace s (fun m =>
    (m.putGrid ac (((m.grid ac).take (16 * lim)).map (softmaxRow (m.fmt ac)) ++ (m.grid ac).drop (16 * lim))).setLive ac true)

/-- TSMAX's whole work. -/
def tsmaxWork (ac : BitVec 2) (s : State) : TileRes := tsmaxPart allUnits ac s

/-- TSMAX. -/
def execTsmax (ac : BitVec 2) (s : State) : Out := 
  finish s (tileLong (.tsmax ac) s (s.core.mx.group ac) (tsmaxWork ac) (tsmaxPart 0 ac))

end Sys2Proof.Machine
end

