-- ==== Sys2Proof/Machine/Mma.lean ====
section
/-! DEFINITION. MMA and MMAS: the checks at issue, the operands in their stored order, the chunks in the fixed
accumulation order, and the engine's stop at a poisoned word (16 R271-R273, R279, R280, 15 R255-R262). -/

namespace Sys2Proof.Machine

/-- What an MMA latches at its issue: the operands' records and offsets, K, B's row for each stored position, and the draw
counter. -/
structure MmaPlan where
  ac   : BitVec 2
  fl   : BitVec 6
  a    : View
  b    : View
  k    : Nat
  cpt  : List Nat
  aOff : Nat
  bOff : Nat
  aSc  : Nat
  bSc  : Nat
  aMet : Nat
  bMet : Nat
  key  : Word
  ctr  : Word
  byp  : Bool
  deriving DecidableEq, Repr

/-- The flags of FL (16 R271). -/
def MmaPlan.sr (p : MmaPlan) : Bool := p.fl.getLsbD 0
def MmaPlan.bt (p : MmaPlan) : Bool := p.fl.getLsbD 2
def MmaPlan.wide (p : MmaPlan) : Bool := p.fl.getLsbD 4
def MmaPlan.ow (p : MmaPlan) : Bool := p.fl.getLsbD 5
/-- Chunks of 128 stored positions. -/
def MmaPlan.chunks (p : MmaPlan) : Nat := scaleCols p.k
/-- Units of work: the groups of 16 positions of each half. -/
def MmaPlan.units (p : MmaPlan) : Nat := (if p.wide then 2 else 1) * (p.k / 16)
/-- Are the operands integers. -/
def MmaPlan.int (p : MmaPlan) : Bool := fmtIsInt p.a.fmt

/-! ## Checks at issue (16 R267, R271) -/

/-- A and B take formats 0x01-0x08. -/
def mmaFmt (f : Nat) : Bool := 1 ≤ f && f ≤ 8

/-- K positions that the stored ones stand for (16 R271, R273). -/
def logicalK (cmp : Bool) (n : Nat) : Nat := if cmp then 2 * n else n

/-- The reason code and record of the first rule that the records break, none when all hold (16 R267). -/
def mmaFault (m : Matrix) (sparse : Bool) (ac : BitVec 2) (fl : BitVec 6) (va vb : Word) (a b : View) : Option (Word × Nat) :=
  let bt := fl.getLsbD 2
  let wide := fl.getLsbD 4
  let acc := m.fmt ac
  let k := logicalK a.cmp a.cols
  let kb := logicalK b.cmp (if bt then b.cols else b.rows)
  let n := if bt then b.rows else b.cols
  if !mmaFmt a.fmt || (a.cmp && !sparse) || (fl.getLsbD 1 && !a.cpt) then some (va, 0x21)
  else if !mmaFmt b.fmt || (b.cmp && !sparse) then some (vb, 0x21)
  else if sparse && a.cmp == b.cmp then some (va, 0x21)
  else if (fl.getLsbD 0 && acc != 1) || fmtIsInt a.fmt != fmtIsInt b.fmt || fmtIsInt a.fmt != (acc == 2) ||
      (fmtIsInt a.fmt && (a.scaleb != 0 || b.scaleb != 0)) then some (va, 0x24)
  else if wide != m.paired ac || (wide && ac.getLsbD 0) then some (0, 0x23)
  else if a.rows != m.nr ac || n != m.nc ac || k != kb || k % 16 != 0 || k < 16 || 4096 < k then some (va, 0x22)
  else none

/-- A's CPT when `cpt` is set: its entries, each below B's row count and B's scale bytes alike (16 R267 0x25). -/
def mmaCpt (s : State) (fl : BitVec 6) (vb : Word) (a b : View) (k sb : Nat) : Res (State × List Nat) := do
  if !fl.getLsbD 1 then .ok (s, List.range k)
  else
    let co ← checkOperand s a.cptb (2 * k)
    let (t, run) ← vaultFetch s a.cptb co (2 * k)
    let es := (List.range k).map (elemAt 16 run)
    if es.any (fun q => k ≤ q) then .error (operand vb 0x25)
    else if b.scaleb = 0 then .ok (t, es)
    else
      let (t, sc) ← vaultFetch t b.scaleb sb (scaleCols k)
      let bytes := (List.range (scaleCols k)).map (elemAt 8 sc)
      if bytes.any (fun x => x != bytes.headD 0) then .error (operand vb 0x25) else .ok (t, es)

/-- Does the bypass buffer hold the drain of a view with the same record (26 R371). -/
def Matrix.buffers (m : Matrix) (v : View) : Bool :=
  match m.bypass with
  | some w => w.base == v.base && w.stride == v.stride && w.rows == v.rows && w.cols == v.cols && w.fmt == v.fmt && w.cmp == v.cmp && w.cpt == v.cpt &&
      w.cm == v.cm && w.scaleb == v.scaleb
  | none => false

/-- Everything that an MMA checks and latches at its issue. DEDUCED: log entry 20. -/
def mmaPlan (sparse : Bool) (ac : BitVec 2) (pa pb : BitVec 3) (fl : BitVec 6) (s : State) : Res (State × MmaPlan) := do
  let va := (s.ptr pa).addr
  let vb := (s.ptr pb).addr
  let (s1, a) ← readView s va
  let (s2, b) ← readView s1 vb
  let m := s2.core.mx
  match mmaFault m sparse ac fl va vb a b with
  | some f => .error (operand f.1 f.2)
  | none =>
    let k := logicalK a.cmp a.cols
    let aOff ← viewPlace s2 a
    let aSc ← rangeIf s2 (a.scaleb != 0) a.scaleb (m.nr ac * scaleCols k)
    let aMet ← rangeIf s2 a.cmp a.cptb (metaBytes (m.nr ac) k)
    let bOff ← viewPlace s2 b
    let bSc ← rangeIf s2 (b.scaleb != 0) b.scaleb (scaleCols k)
    let bMet ← rangeIf s2 b.cmp b.cptb (metaBytes (m.nc ac) k)
    let (s3, cpt) ← mmaCpt s2 fl vb a b k bSc
    let len := fun (want : Bool) (n : Nat) => if want then n else 0
    let byp := fl.getLsbD 3 && m.buffers a
    let t ← settleRanges s3 [(aOff, len (!byp) a.hull, false), (bOff, b.hull, false), (aSc, len (a.scaleb != 0) (m.nr ac * scaleCols k), false),
      (bSc, len (b.scaleb != 0) (scaleCols k), false), (aMet, len a.cmp (metaBytes (m.nr ac) k), false),
      (bMet, len b.cmp (metaBytes (m.nc ac) k), false)]
    .ok (t, { ac := ac, fl := fl, a := a, b := b, k := k, cpt := cpt, aOff := aOff, bOff := bOff, aSc := aSc, bSc := bSc,
              aMet := aMet, bMet := bMet, key := t.core.csr.dgkey, ctr := t.core.csr.dgctr, byp := byp })

/-! ## Operands in stored order (15 R256, R257, 16 R273) -/

/-- A group of 4 logical positions from its nibble and two kept codes; where the nibble does not rise the manual gives no
positions, and a free word's bits stand for the four (DESIGN CHOICE, log entry 3). -/
def expandGroup (w nib x0 x1 : Nat) (free : Word) : List Nat :=
  let lo := nib % 4
  let hi := nib / 4
  if lo < hi then (List.range 4).map (fun p => if p = lo then x0 else if p = hi then x1 else 0)
  else (List.range 4).map (fun p => elemAt w free.toNat p)

/-- Line n of a compressed operand expanded to K positions. -/
def expandLine (w met k ctr n : Nat) (line : List Nat) : List Nat :=
  ((splitEvery 2 (k / 4) line).zipIdx).flatMap (fun e =>
    let i := n * (k / 4) + e.2
    expandGroup w (elemAt 4 met i) (e.1.getD 0 0) (e.1.getD 1 0) (Config.freeWord (ctr + i)))

/-- The lines of an operand along K: A's rows, or B's columns. -/
def operandLines (s : State) (v : View) (off met k : Nat) (alongRows : Bool) : Grid Nat :=
  let codes := viewCodes s v off
  let ls := if alongRows then codes else flipGrid v.cols codes
  if v.cmp then
    let run := vaultRead s met (metaBytes ls.length k)
    ls.zipIdx.map (fun e => expandLine (fmtBits v.fmt) run k s.freeCtr e.2 e.1)
  else ls

/-- A line of values as its chunks of groups of 16. -/
def lineChunks (k : Nat) (l : List Num) : Array (List (List Num)) :=
  ((splitEvery 8 (scaleCols k) (splitEvery 16 (k / 16) l)).map (fun c => c.filter (fun g => !g.isEmpty))).toArray

/-- A's rows as chunks. -/
def mmaRows (s : State) (p : MmaPlan) : Array (Array (List (List Num))) :=
  ((operandLines s p.a p.aOff p.aMet p.k true).map (fun l => lineChunks p.k (l.map (fmtDecode p.a.fmt)))).toArray

/-- B's columns as chunks, its rows in the order that A's stored positions name. -/
def mmaCols (s : State) (p : MmaPlan) : Array (Array (List (List Num))) :=
  ((operandLines s p.b p.bOff p.bMet p.k p.bt).map (fun l =>
    let v := (l.map (fmtDecode p.b.fmt)).toArray
    lineChunks p.k (p.cpt.map (fun q => v.getD q (.fin false 0 0))))).toArray

/-! ## Chunks (16 R272) -/

/-- The products of two groups. -/
def products (x y : List Num) : List Num := List.zipWith (fun a b => (a.mulExact b).1) x y

/-- A chunk's value before its scales: chained in RN32, or an exact integer sum (15 R259). -/
def chunkValue (int : Bool) (x y : List (List Num)) : Num :=
  if int then ofInt false (groupSum 0 (products x.flatten y.flatten)) 0
  else (chunkChain none (List.zipWith (fun a b => groupValue (products a b)) x y)).getD (.fin false 0 0)

/-- The factors of chunk h: SA of each row, SB, and a sluice's POST factor (15 R255, R259, 18 R313); and the number of the first free value. -/
structure MmaScales where
  sa   : Nat → Nat → Num
  sb   : Nat → Num
  post : Option Num
  free : Nat

/-- The scales that an MMA reads. -/
def mmaScales (s : State) (p : MmaPlan) (post : Option Num) : MmaScales :=
  let ra := if p.a.scaleb = 0 then 0 else vaultRead s p.aSc (p.a.rows * p.chunks)
  let rb := if p.b.scaleb = 0 then 0 else vaultRead s p.bSc p.chunks
  { sa := fun i h => if p.a.scaleb = 0 then .fin false 1 0 else scaleNum (elemAt 8 ra (i * p.chunks + h)),
    sb := fun h => if p.b.scaleb = 0 then .fin false 1 0 else scaleNum (elemAt 8 rb (p.cpt.getD (128 * h) 0 / 128)),
    post := post, free := s.freeCtr + 128 * (p.k / 4) }

/-- y of a chunk: exact (16 R272). -/
def scaledChunk (f : MmaScales) (i h : Nat) (c : Num) : Num :=
  let y := ((c.mulExact (f.sa i h)).1.mulExact (f.sb h)).1
  match f.post with
  | none => y
  | some q => (y.mulExact q).1

/-- Is a value an integer. -/
def Num.isInteger : Num → Bool
  | .fin _ m e => m = 0 || 0 ≤ e || m % 2 ^ e.natAbs = 0
  | _ => false

/-- One element after chunk h. A chunk of integers whose product with POST's factor is none has no sum that the manual states: a free
value (15 R260, 18 R313; DESIGN CHOICE, log entry 3). -/
def mmaCell (fmt : BitVec 2) (p : MmaPlan) (nr nc : Nat) (f : MmaScales) (as bs : Array (Array (List (List Num)))) (h i j : Nat) (w : W32) : W32 :=
  let c := chunkValue p.int ((as.getD i #[]).getD h []) ((bs.getD j #[]).getD h [])
  let prior := if p.ow && h = 0 then .fin false 0 0 else accVal fmt w
  let y := if p.int && f.post.isNone then c else scaledChunk f i h c
  if p.int && !y.isInteger then BitVec.ofNat 32 (Config.freeWord (f.free + h * nr * nc + i * nc + j)).toNat
  else step5 fmt p.sr prior y (draw p.key p.ctr (h * nr * nc + i * nc + j))

/-- k chunks from h on, column j as far as `lim j`. -/
def mmaChunks (cell : Nat → Nat → Nat → W32 → W32) (lim : Nat → Nat) : Nat → Nat → Grid W32 → Grid W32
  | 0, _, g => g
  | k + 1, h, g => mmaChunks cell lim k (h + 1) (mapGrid (fun i j w => if h < lim j then cell h i j w else w) g)

/-! ## Poison met by the engine (16 R278, R279) -/

/-- Where element (r, c) of a view lies, relative to its first byte. -/
def elemSpan (v : View) (r c : Nat) : Nat × Nat :=
  let w := fmtBits v.fmt
  if v.cm then (c * v.stride + r * (w / 8), w / 8) else (r * v.stride + w * c / 8, (w * c % 8 + w + 7) / 8)

/-- Stored places of logical position q. -/
def storedAt (cmp : Bool) (q : Nat) : List Nat := if cmp then [2 * (q / 4), 2 * (q / 4) + 1] else [q]

/-- What the engine reads for group g of columns `cols`: A's elements, unless the bypass buffer holds them (26 R371: its words are the vault's, which no
write has changed since), then B's, with metadata. -/
def groupReads (p : MmaPlan) (cols : List Nat) (g : Nat) : List (Word × Nat × Nat) :=
  let at_ := fun (v : View) (off : Nat) (e : Nat × Nat) => (v.base + BitVec.ofNat 64 e.1, off + e.1, e.2)
  let nib := fun (v : View) (off n q : Nat) =>
    if v.cmp then
      let i := (n * (p.k / 4) + q / 4) / 2
      [(v.cptb + BitVec.ofNat 64 i, off + i, 1)]
    else []
  let ps := (List.range 16).map (· + 16 * g)
  let ra := (List.range p.a.rows).flatMap (fun i => ps.flatMap (fun q =>
    (if p.byp then [] else (storedAt p.a.cmp q).map (fun c => at_ p.a p.aOff (elemSpan p.a i c))) ++ nib p.a p.aMet i q))
  let rb := ps.flatMap (fun q0 =>
    let q := p.cpt.getD q0 0
    cols.flatMap (fun j =>
      (storedAt p.b.cmp q).map (fun c => at_ p.b p.bOff (if p.bt then elemSpan p.b j c else elemSpan p.b c j)) ++ nib p.b p.bMet j q))
  ra ++ rb

/-- The scale bytes of chunk h. -/
def scaleReads (p : MmaPlan) (h : Nat) : List (Word × Nat × Nat) :=
  let byte := fun (base : Word) (off i : Nat) => (base + BitVec.ofNat 64 i, off + i, 1)
  (if p.a.scaleb = 0 then [] else (List.range p.a.rows).map (fun i => byte p.a.scaleb p.aSc (i * p.chunks + h))) ++
    (if p.b.scaleb = 0 then [] else [byte p.b.scaleb p.bSc (p.cpt.getD (128 * h) 0 / 128)])

/-- The halves of a wide MMA, base first; one part otherwise. -/
def mmaParts (p : MmaPlan) (nc : Nat) : List (List Nat) :=
  if p.wide then [List.range 64, (List.range 64).map (· + 64)] else [List.range nc]

/-- The first chunk that meets poison: its half, chunk, and the word. -/
def mmaBad (s : State) (p : MmaPlan) (nc : Nat) : Option (Nat × Nat × Word) :=
  if (poisonIn s.poison (vaultHome s.core.num 0) (vaultSize s.core.num)).isNone then none
  else
    let tries := (mmaParts p nc).zipIdx.flatMap (fun c => (List.range p.chunks).map (fun h => (c.2, h, c.1)))
    tries.findSome? (fun t =>
      let gs := (List.range (min 8 (p.k / 16 - 8 * t.2.1))).map (· + 8 * t.2.1)
      (badRead s (scaleReads p t.2.1 ++ gs.flatMap (groupReads p t.2.2))).map (fun w => (t.1, t.2.1, w)))

/-- How many chunks column j takes. -/
def mmaLimit (p : MmaPlan) (bad : Option (Nat × Nat × Word)) (j : Nat) : Nat :=
  match bad with
  | none => p.chunks
  | some (t, h, _) =>
    let half := if p.wide then j / 64 else 0
    if half < t then p.chunks else if half = t then h else 0

/-! ## The instruction (16 R272) -/

/-- How many of its chunks' groups column j has when `lim` groups of the instruction are done, base half first (16 R278). -/
def mmaGroups (p : MmaPlan) (lim j : Nat) : Nat := min (p.k / 16) (lim - (if p.wide then j / 64 else 0) * (p.k / 16))

/-- The residue of an MMA that stops after `lim` groups: each element's chain in the half and chunk in progress (15 R259, 16 R278). -/
def mmaResidue (p : MmaPlan) (lim nc : Nat) (as bs : Array (Array (List (List Num)))) : List W32 :=
  let half := lim / (p.k / 16)
  let done := lim % (p.k / 16)
  let cols := (mmaParts p nc).getD half []
  let word := fun (c : Num) => if p.int then step5 2 false (.fin false 0 0) c 0 else rn32 c
  trimZeros ((List.range as.size).flatMap (fun i => cols.map (fun j =>
    word (chunkValue p.int (((as.getD i #[]).getD (done / 8) []).take (done % 8)) (((bs.getD j #[]).getD (done / 8) []).take (done % 8))))))

/-- The first `lim` groups of an MMA whose checks have passed. -/
def mmaRun (lim : Nat) (p : MmaPlan) (post : Option Num) (t : State) : State × Option Word :=
  let m := t.core.mx
  let nr := m.nr p.ac
  let nc := m.nc p.ac
  let bad := mmaBad t p nc
  let as := mmaRows t p
  let bs := mmaCols t p
  let cell := mmaCell (m.fmt p.ac) p nr nc (mmaScales t p post) as bs
  let whole := fun (j : Nat) => if mmaGroups p lim j = p.k / 16 then p.chunks else mmaGroups p lim j / 8
  let upTo := fun (j : Nat) => min (whole j) (mmaLimit p bad j)
  let m1 := m.putGrid p.ac (mmaChunks cell upTo p.chunks 0 (m.grid p.ac))
  let m2 := if bad.isNone || 0 < upTo 0 then m1.setLive p.ac true else m1
  let m2 := if lim < p.units then { m2 with rsd := mmaResidue p lim nc as bs } else m2
  let c := t.core
  let csr := if p.sr then { c.csr with dgctr := c.csr.dgctr + BitVec.ofNat 64 (p.chunks * nr * nc) } else c.csr
  let used := if p.a.cmp || p.b.cmp || (p.int && post.isSome) then 128 * (p.k / 4) + p.chunks * nr * nc else 0
  ({ t with core := { c with mx := m2, csr := csr }, freeCtr := t.freeCtr + used }, bad.map (fun b => b.2.2))

/-- The work of MMA and MMAS; `post` is a sluice's factor. -/
def mmaPart (lim : Nat) (sparse : Bool) (post : Option Num) (ac : BitVec 2) (pa pb : BitVec 3) (fl : BitVec 6) (s : State) : TileRes :=
  match mmaPlan sparse ac pa pb fl s with
  | .error e => .error e
  | .ok (t, p) => .ok (mmaRun lim p post t)

/-- The whole work of MMA and MMAS. -/
def mmaWork (sparse : Bool) (post : Option Num) (ac : BitVec 2) (pa pb : BitVec 3) (fl : BitVec 6) (s : State) : TileRes :=
  mmaPart allUnits sparse post ac pa pb fl s

/-- Under a power alarm an MMA runs narrowed in a context of priority 7 and waits for budget in any other; NARROW says
which the last one did (16 R280). `t` is the state after its work. -/
def powerGate (s t : State) : Res State :=
  let put := fun (u : State) (b : Bool) => u.setMx { u.core.mx with narrow := b }
  let g := s.core.num
  if !s.out.alarm then .ok (put t false)
  else if ((myCtx s).map (·.priority)) = some 7 then .ok (put t true)
  else if s.out.budgetGiven.contains g then
    .ok (put { t with out := { t.out with budgetGiven := t.out.budgetGiven.erase g } } false)
  else if s.out.budgetWait.contains g then .error (.stall s)
  else .error (.stall { s with out := { s.out with budgetWait := s.out.budgetWait ++ [g] }, pending := s.pending ++ [(g, .powerBudgetGrant)] })

/-- MMA's or MMAS's work behind the power gate. -/
def gatedMma (sparse : Bool) (ac : BitVec 2) (pa pb : BitVec 3) (fl : BitVec 6) (s : State) : TileRes :=
  match mmaWork sparse none ac pa pb fl s with
  | .error e => .error e
  | .ok (t, bad) =>
    match powerGate s t with
    | .error e => .error e
    | .ok u => .ok (u, bad)

/-- MMA. -/
def execMma (ac : BitVec 2) (pa pb : BitVec 3) (fl : BitVec 6) (s : State) : Out :=
  finish s (tileLong (.mma ac pa pb fl) s (s.core.mx.group ac) (gatedMma false ac pa pb fl) (mmaPart 0 false none ac pa pb fl))
/-- MMAS. -/
def execMmas (ac : BitVec 2) (pa pb : BitVec 3) (fl : BitVec 6) (s : State) : Out :=
  finish s (tileLong (.mmas ac pa pb fl) s (s.core.mx.group ac) (gatedMma true ac pa pb fl) (mmaPart 0 true none ac pa pb fl))

end Sys2Proof.Machine
end

