-- ==== Sys2Proof/Machine/Costs.lean ====
section
/-! DEFINITION. How many cycles an instruction takes, unloaded, and the passing of that time (01 R19, 02 R32, 12 R218, 13
R229, R230, 14 R249, 16 R271, R281, R289, 17 R292-R298, R307; DESIGN CHOICE, log entry 9). -/

namespace Sys2Proof.Machine

/-- The latency of an access of n bytes at a virtual address; an engine window word takes one cycle. -/
def accessLatency (s : State) (va : Word) (n : Nat) (k : Kind) : Span :=
  match checkAccess s va n k with
  | .ok ac =>
    match ac.place with
    | .home h => homeLatency s h
    | .port _ => exactly 1
  | .error _ => exactly 0

/-- The latency of a load of n bytes at a virtual address. -/
def addrLatency (s : State) (va : Word) (n : Nat) : Span := accessLatency s va n .probe

/-- The latency of a memory operand. -/
def operandLatency (s : State) (m : MOp) : Span := addrLatency s (effAddr s m) (sizeBytes m.sz)

/-! ## Scalar and memory instructions (12 R218, 13 R230) -/

/-- An atomic's span: a slice holds the line for two cycles more (13 R230). -/
def atomicLatency (s : State) (va : Word) (n : Nat) : Span :=
  let l := accessLatency s va n .atomic
  match checkAccess s va n .atomic with
  | .ok ac =>
    match ac.place with
    | .home h => if isSliced h then l.then (exactly 2) else l
    | .port _ => l
  | .error _ => l

/-- Pointer latency of an operand of a trio instruction. -/
def ptrLatency (s : State) (p : BitVec 3) (ty : BitVec 3) : Span := addrLatency s (s.ptr p).addr (tyBytes ty)

/-- Memory, atomic and stamped instructions that return a value; none for others. -/
def memorySpan (s : State) (i : Instr) : Option Span :=
  match i with
  | .ld m | .ldu m | .ldAcqLoc m | .ldAcqDev m | .ldAcqSys m | .ldNt m | .ldf m => some (operandLatency s m)
  | .aadd m | .aand m | .aor m | .axor m | .amin m | .amax m | .aminu m | .amaxu m | .aswp m | .afadd m =>
    some (atomicLatency s (effAddr s m) (sizeBytes m.sz))
  | .acas ty pa pb => some ((atomicLatency s (s.ptr pa).addr (tyBytes ty)).then (ptrLatency s pb ty))
  | .sld m | .sage m => some ((operandLatency s m).then (exactly 8))
  | .sadd m | .smrg m | .srebase m => some ((accessLatency s (effAddr s m) 8 .atomic).then (exactly 8))
  | .step => some (exactly 700)
  | .mwait _ => if s.core.sched.mwaited = 0 then none else s.core.watch.bind (fun w =>
      if w.seen then some ⟨20 + (homeLatency s (w.block * 128)).lo / 2, 20 + (homeLatency s (w.block * 128)).hi / 2⟩ else none)
  | .mwatch p | .cpin p => some (addrLatency s (s.ptr p).addr 1)
  | .lwait l froma =>
    match myCtx s with
    | some x =>
      match layerHome x (if froma = 1 then s.core.regs.a.toNat else l.toNat) with
      | some h => some ((homeLatency s h).then (exactly 2))
      | none => none
    | none => none
  | _ => none

/-- Arithmetic with a memory operand: the operand's latency and the operation's own cycles. -/
def arithSpan (s : State) (i : Instr) : Option Span :=
  let with_ := fun (m : MOp) (c : Span) => some ((operandLatency s m).then c)
  match i with
  | .add m | .sub m | .rsb m | .and m | .or m | .xor m | .min m | .max m | .minu m | .maxu m | .shl m | .shr m | .sar m | .rol m
  | .cmpeq m | .cmplt m | .cmpltu m | .tst m | .addc m | .subc m => with_ m (exactly 1)
  | .mul m | .mulh m | .mulhu m => with_ m (exactly 3)
  | .div m | .divu m | .rem m | .remu m => with_ m ⟨12, 36⟩
  | .fadd m | .fsub m | .fmin m | .fmax m | .fcmpeq m | .fcmplt m | .fcmple m => with_ m (exactly 4)
  | .fmul m => with_ m (exactly 5)
  | .fdiv m => with_ m (exactly 22)
  | .sel ty pa pb _ => some ((ptrLatency s pa ty).then ((ptrLatency s pb ty).then (exactly 1)))
  | .movm ty _ pa _ _ => some ((ptrLatency s pa ty).then (exactly 1))
  | .lnset ps imm => some (addrLatency s ((s.ptr ps).addr + sx imm) 8)
  | .fmac ty pa pb _ => some ((ptrLatency s pa ty).then ((ptrLatency s pb ty).then (exactly 5)))
  | .imac ty pa pb _ => some ((ptrLatency s pa ty).then ((ptrLatency s pb ty).then (exactly 3)))
  | .muli _ => some (exactly 3)
  | .fcvt _ | .fclass => some (exactly 4)
  | .fsqrt => some (exactly 26)
  | _ => none

/-- Branches that are taken, and calls (12 R218). -/
def controlSpan (s : State) (i : Instr) : Option Span :=
  match i with
  | .bcc cc _ => some (exactly (if condHolds cc s.core.regs.a s.core.regs.t s.core.regs.c then 2 else 1))
  | .call _ | .jmpa | .calla => some (exactly 2)
  | .ret _ => some ((addrLatency s (s.ptr 7).addr 8).then (exactly 2))
  | .ifence => some (exactly 8)
  | _ => none

/-! ## Vector, rank and sort instructions (16 R289, 17 R292-R298, R307) -/

/-- The least k with n ≤ 2^k. -/
def ceilLog2 (n : Nat) : Nat := if n ≤ 1 then 0 else (n - 1).log2 + 1

/-- n items at m a cycle. -/
def perCycle (n m : Nat) : Nat := (n + m - 1) / m

/-- A vector instruction: 64 elements a cycle, 32 of eight bytes, and up to five cycles of latency. -/
def vectorSpan (s : State) (i : Instr) : Option Span :=
  let n := vlOf s
  let ty_ := fun (ty : BitVec 3) => some (Span.then (exactly (perCycle n (if tyBytes ty = 8 then 32 else 64))) ⟨0, 5⟩)
  match i with
  | .vadd ty _ _ _ _ | .vsub ty _ _ _ _ | .vmul ty _ _ _ _ | .vfma ty _ _ _ _ | .vmax ty _ _ _ _ | .vmin ty _ _ _ _ => ty_ ty
  | .vsum ty _ _ _ | .vcvt ty _ _ _ | .vexp2 ty _ _ _ => ty_ ty
  | .vdot ty _ _ _ _ | .vgath ty _ _ _ _ | .vscat ty _ _ _ _ | .vscl ty _ _ _ _ => ty_ ty
  | .vsad _ _ _ | .awupd _ _ _ _ => ty_ 4
  | _ => none

/-- A rank instruction's cycles in the state before it; RKBWD's are those of a turn of its pass. -/
def rankSpan (s t : State) (i : Instr) : Option Span :=
  let c := t.core.rank.recv.getD default
  match i with
  | .rkcfg _ _ => some (exactly 12)
  | .rkldg _ => some (exactly 16)
  | .rkemit _ idx =>
    let chn := (((s.core.rank.emit.getD default).prods.getD idx.toNat (0, 0, 0)).2.2)
    some (exactly (16 + perCycle chn 64 * ceilLog2 (chn + 1)))
  | .rkrecv => some (exactly 8)
  | .rkres | .rkstop => some (exactly 4)
  | .rkrd _ => some (exactly (4 + perCycle (4 * (s.core.rank.recv.getD c).j) 256))
  | .rkbwd _ => some (exactly ((s.core.rank.bwd.map RkBwd.cycles).getD 1))
  | _ => none

/-- COUNT of a hand at an own-vault address (17 R303). -/
def handCount (s : State) (va : Word) : Nat :=
  match checkOperand s va 8 with
  | .ok off => vaultRead s off 8 / 2 ^ 16 % 2 ^ 16
  | .error _ => 0

/-- K of a hand. -/
def handCap (s : State) (va : Word) : Nat :=
  match checkOperand s va 8 with
  | .ok off => vaultRead s off 8 % 2 ^ 16
  | .error _ => 0

/-- A sort or select instruction (17 R307). -/
def sortSpan (s : State) (i : Instr) : Option Span :=
  let n := vlOf s
  let a := s.core.regs.a
  match i with
  | .osort _ _ _ _ => some (exactly (16 + perCycle n 64 * ceilLog2 (n + 1) + perCycle (8 * n) 256))
  | .otopk _ _ _ _ => some (exactly (16 + perCycle n 64 * 8 + perCycle (16 + 8 * bits a 8 0) 256))
  | .omerge _ _ pa pb =>
    some (exactly (16 + perCycle (handCount s (s.ptr pa).addr + handCount s (s.ptr pb).addr) 32 +
      perCycle (16 + 8 * handCap s (s.ptr pa).addr) 256))
  | .obkt _ _ _ _ _ =>
    let m := bits a 12 0
    some (exactly (8 + perCycle m 64 + perCycle n 8 * ceilLog2 (m + 1) + perCycle (4 * n) 256))
  | _ => none

/-- Task instructions (14 R249). -/
def taskSpan (s : State) (i : Instr) : Option Span :=
  match i with
  | .launch p => some ((addrLatency s (s.ptr p).addr 8).then (exactly 8))
  | .tsend p | .mread p => some ((addrLatency s (s.ptr p).addr 8).then (exactly 4))
  | .yield | .endTask => some (exactly 4)
  | .hop _ size => some (exactly (1 + 2 * size.toNat))
  | _ => none

/-- The cycles from an instruction's issue to its result, at least one; what no table of the manual lists takes one. DESIGN CHOICE: log entry 9. -/
def spanOf (s t : State) (i : Instr) : Span :=
  let p := ((memorySpan s i).orElse fun _ => (arithSpan s i).orElse fun _ => (controlSpan s i).orElse fun _ =>
    (vectorSpan s i).orElse fun _ => (rankSpan s t i).orElse fun _ => (sortSpan s i).orElse fun _ => taskSpan s i).getD (exactly 1)
  ⟨max 1 p.lo, max 1 p.hi⟩

/-! ## The matrix engine (16 R271, R281) -/

/-- Elements of the tile or pair of AC. -/
def tileElements (m : Matrix) (ac : BitVec 2) : Nat := m.nr ac * m.nc ac

/-- The view at a pointer, as it reads now. -/
def viewAt (s : State) (p : BitVec 3) : View :=
  match readView s (s.ptr p).addr with
  | .ok (_, v) => v
  | .error _ => default

/-- Bytes of a view's elements. -/
def View.bytes (v : View) : Nat := v.rows * v.cols * fmtBits v.fmt / 8

/-- MACs a cycle (16 R271). -/
def macRate (a b : Nat) : Nat := if a = 1 || a = 2 || b = 1 || b = 2 then 4096 else if (a = 8 || a = 6) && (b = 8 || b = 6) then 16384 else 8192

/-- The cycles of a multiply: MMAS counts its dense K at twice the rate; a narrowed one takes twice as long (16 R271, R280). -/
def mmaCycles (s : State) (sparse : Bool) (ac : BitVec 2) (pa pb : BitVec 3) : Nat :=
  let a := viewAt s pa
  let k := if a.cmp then 2 * a.cols else a.cols
  let rate := macRate a.fmt (viewAt s pb).fmt * (if sparse then 2 else 1)
  let n := perCycle (tileElements s.core.mx ac * k) rate
  if s.out.alarm && (myCtx s).map (·.priority) = some 7 then 2 * n else n

/-- The cycles that the engine takes for a tile instruction from its start (16 R281). -/
def tileCycles (s : State) (i : Instr) : Nat :=
  let m := s.core.mx
  let each := fun (ac : BitVec 2) (n : Nat) => perCycle (tileElements m ac * n) 8192
  match i with
  | .tcfg _ _ | .trel _ | .tzero _ => 4
  | .ttrn ac | .tscl ac _ | .tcvt ac _ | .tvop ac _ _ => each ac 64
  | .tsmax ac => each ac 192
  | .tred ac _ _ => each ac 64 + 8
  | .tld _ pa _ => perCycle (viewAt s pa).bytes 512 + 4
  | .twr _ pa _ | .tdrain _ pa _ => perCycle (viewAt s pa).bytes 256 + 8
  | .tqnt _ pa fl => perCycle (viewAt s pa).bytes 256 + 8 + 64 + (if fl.getLsbD 1 then 64 else 0)
  | .tcmpr pa _ _ => perCycle (viewAt s pa).bytes 512 + 8
  | .mma ac pa pb _ => mmaCycles s false ac pa pb
  | .mmas ac pa pb _ => mmaCycles s true ac pa pb
  | _ => 0

/-! ## Time that passes -/

/-- n cycles of length l pass on a core: CYC, its own time, and the watchdog count of a running task, but not while it is halted (11 R197, 19 R336). -/
def Core.pass (n l : Nat) (c : Core) : Core :=
  { c with csr := { c.csr with cyc := c.csr.cyc + BitVec.ofNat 64 n, here := c.csr.here + n * l },
           sched := { c.sched with wdCount := if c.sched.running && !c.sched.halted then c.sched.wdCount + n else c.sched.wdCount } }

/-- n cycles pass on the current core, and `u` is the clock at which its matrix engine is done; the foremost core leads the device's clock. -/
def passCycles (s : State) (n u : Nat) : State :=
  let c := s.core.pass n (cycleLength s s.core.num)
  { s with clock := max s.clock c.csr.here, core := { c with mx := { c.mx with doneAt := u } } }

/-- Does a core wait: the time on the device passes it at its next turn. -/
def Core.waits (c : Core) : Bool := c.sched.stalled || c.sched.idling || c.sched.halted || !c.sched.running

/-! ### A quadrant's clock changes (00 R5, 21 R362) -/

/-- Time t after a change of the cycle's length from l to k at `now`: as many cycles lie between them as before, to the whole unit (DEDUCED, log entry
32). -/
def rescaled (l k now t : Nat) : Nat := if now ≤ t then now + (t - now) * k / l else now - (now - t) * k / l

/-- A core when its cycle's length changes: the cycles that it has waited for are counted at the old length, and what it still waits for keeps its
count of cycles. A halted core's engine keeps durations and no times (16 R278). -/
def Core.retime (l k clock : Nat) (c : Core) : Core :=
  let c := if c.waits then c.pass ((clock - c.csr.here) / l) l else c
  let at_ := if c.sched.halted && c.mx.run.isSome then fun t => t * k / l else rescaled l k c.csr.here
  let es := fun (q : List QEntry) => q.map (fun (e : QEntry) => { e with entered := rescaled l k clock e.entered })
  { c with mx := { c.mx with doneAt := at_ c.mx.doneAt, run := c.mx.run.map (fun (r : TileRun) => { r with since := at_ r.since }) },
           sched := { c.sched with acks := c.sched.acks.map (fun (a : Ack) => { a with due := rescaled l k c.csr.here a.due }),
                                   queue := es c.sched.queue, ring := es c.sched.ring } }

/-- The cores of a quadrant, its service cores among them. -/
def quadrantCores (q : Nat) : List Nat := (List.range 8).flatMap (fun c => clusterCores (8 * q + c) ++ [serviceCore (8 * q + c)])

/-- A quadrant's cores, its clusters' queues, and the waits of contexts that its cores count, when the length of its cycle changes. -/
def retimeQuadrant (l k : Nat) (s : State) (q : Nat) : State :=
  let ago := rescaled l k s.clock
  let here := fun (d : Nat) => if d < 2048 then quadrantOf d == q else (d - 2048) / 8 == q
  let s1 := (quadrantCores q).foldl (fun t g => updCore t g (Core.retime l k s.clock)) s
  { s1 with saves := s1.saves.map (fun (e : Nat × Core) => if e.1 < 2 ^ 20 && here (e.1 % 2048) then (e.1, e.2.retime l k s.clock) else e),
            clusterQ := s1.clusterQ.map (fun (e : Nat × QEntry) => if e.1 / 8 = q then (e.1, { e.2 with entered := ago e.2.entered }) else e),
            ctxs := s1.ctxs.map (fun (x : Ctx) =>
              { x with fills := x.fills.map (fun (f : Fill) => if here f.core then { f with since := ago f.since } else f),
                       queue := x.queue.map (fun (e : Nat × QEntry) => if here e.1 then (e.1, { e.2 with entered := ago e.2.entered }) else e),
                       demands := if here ((partCores x).headD 0) then x.demands.map (fun (d : Demand) => { d with since := ago d.since }) else x.demands }) }

/-- Clock steps and stack limits set by `f`: where that changes the length of a quadrant's cycle, counts of cycles stay as they are. -/
def reclock (f : Outside → Outside) (s : State) : State :=
  let t := { s with out := f s.out }
  (List.range 16).foldl (fun u q => if cycleLength s (64 * q) = cycleLength t (64 * q) then u else retimeQuadrant (cycleLength s (64 * q)) (cycleLength t (64 * q)) u q) t

end Sys2Proof.Machine
end

