-- ==== Sys2Proof/Machine/Fetch.lean ====
section
/-! DEFINITION. How a core fetches an instruction word (01 R30), and what a step does. -/

namespace Sys2Proof.Machine

/-! ## Fetching (01 R30) -/

/-- Why there is no word. -/
inductive FetchStop where
  | fault (f : FetchFault)
  | miss
  | wait (s : State)

/-- A line in the core's instruction cache. -/
def icacheLine (c : Core) (line : Nat) : Option (BitVec 1024) := (c.icache.find? (fun e => e.1 == line)).map (·.2)

/-- A word of a 128-byte line. -/
def lineWord (l : BitVec 1024) (a : Nat) : W32 := l.extractLsb' (8 * (a % 128)) 32

/-- The instruction cache with a line filled: 128 sets of 4 ways, in which the line filled longest ago makes room (01 R30; PRESUMED, log
entry 6); a set and its tags are of the physical line number (DESIGN CHOICE, log entry 44). -/
def keepLine (n : Nat) (l : BitVec 1024) (ic : List (Nat × BitVec 1024)) : List (Nat × BitVec 1024) :=
  let rest := ic.filter (fun e => e.1 != n)
  let set := rest.filter (fun e => e.1 % 128 == n % 128)
  (n, l) :: rest.filter (fun e => e.1 % 128 != n % 128 || (set.take 3).contains e)

/-- The line of a physical address filled by an ordinary read, which a host or peer port emits (01 R30, 21 R352); a line with a poisoned word is
not kept. -/
def fillIcache (s : State) (pa : Nat) : State × BitVec 1024 :=
  let a := pa / 128 * 128
  let l := BitVec.ofNat 1024 (homeRead s a 128)
  let s1 := readBy s s.core.ctx a 128
  if (poisonIn s.poison a 128).isSome then (s1, l)
  else ({ s1 with core := { s1.core with icache := keepLine (pa / 128) l s1.core.icache } }, l)

/-- The word at a physical address: from the instruction cache, or the line is filled. -/
def fetchPhys (s : State) (pa : Nat) : Except FetchStop (State × W32) :=
  match icacheLine s.core (pa / 128) with
  | some l => .ok (s, lineWord l pa)
  | none =>
    match farFault s pa with
    | some f => .error (.fault (if f = cPERM then .perm else .link))
    | none =>
      let r := reach s (pa / 128 * 128) 128 false
      if !r.2 then .error (.wait r.1)
      else if (poisonIn r.1.poison pa 4).isSome then .error (.fault .ecc)
      else
        let f := fillIcache r.1 pa
        .ok (f.1, lineWord f.2 pa)

/-- The instruction word at a virtual address for the current core (01 R30, 06 R119). -/
def fetchWord (s : State) (va : Word) : Except FetchStop (State × W32) :=
  match spaceOf va with
  | .reserved => .error (.fault (.transl 2 false))
  | .ownVault => .error (.fault (.transl 6 false))
  | .engine => .error (.fault (.transl 6 false))
  | .window => .error (.fault (.transl 6 false))
  | .translated =>
    match lookupPage s va.toNat with
    | none => .error .miss
    | some p =>
      if !p.x then .error (.fault .perm)
      else if !isPopulated (p.phys va.toNat) then .error (.fault (.transl 3 p.cow))
      else if isHbm (p.phys va.toNat) && p.il != bandLocal s (p.phys va.toNat) then .error (.fault (.transl 4 p.cow))
      else fetchPhys (s.touchTlb va.toNat) (p.phys va.toNat)

/-- What a step does: an instruction of the current core (`own`) or a device step executed in a state, or a state
without either, or no such core. -/
inductive Choice where
  | run (own : Bool) (i : Instr) (s : State)
  | rest (s : State)
  | noCore

end Sys2Proof.Machine
end

