-- ==== Sys2Proof/Machine/Sluice.lean ====
section
/-! DEFINITION. The sluice: windows, which rule fires, running a group on the shadow accumulator, rolling it back and
committing it (18 R308-R319). -/

namespace Sys2Proof.Machine

/-! ## Windows (18 R308) -/

/-- Up to k tile-class words from an address, to the end of the window; a fetch that has to wait delays the window. -/
def peekWindow : Nat → State → Word → Except State (State × List W32)
  | 0, s, _ => .ok (s, [])
  | k + 1, s, va =>
    match fetchWord s va with
    | .error (.wait s1) => .error s1
    | .error _ => .ok (s, [])
    | .ok (s1, w) =>
      if !tileWord w then .ok (s, [])
      else if codeWrites (tileCode w) then .ok (s1, [w])
      else
        match peekWindow k s1 (va + 4) with
        | .error t => .error t
        | .ok (t, ws) => .ok (t, w :: ws)

/-- The current core's sluice changed. -/
def State.setSluice (s : State) (f : Sluice → Sluice) : State := { s with core := { s.core with sluice := f s.core.sluice } }

/-- The window that starts with word w at PC forms: it takes the core's table, and the first one after an RFT that followed an
RWSKIP runs unrewritten and clears SKIP (18 R308, R310, R318). DEDUCED: log entry 27. -/
def formWindow (s : State) (w : W32) : Except State State :=
  let take := fun (t : State) (ws : List W32) =>
    t.setSluice (fun u => { u with win := w :: ws, pos := 0, plain := u.armed, wtab := u.table, skip := u.skip && !u.armed, armed := false })
  if codeWrites (tileCode w) then .ok (take s [])
  else match peekWindow 7 s (s.core.regs.pc + 4) with
    | .error t => .error t
    | .ok (t, ws) => .ok (take t ws)

/-- The window word just run leaves its window. -/
def nextInWindow (s : State) : State := s.setSluice (fun u => { u with win := u.win.drop 1, pos := u.pos + 1 })

/-! ## Tile instructions as work (18 R313) -/

/-- The synthetic operand of an emission: the factor P of SPROD or POST, and whether the group counts as exact. -/
inductive Syn where
  | none
  | sprod (p : W32) (exact : Bool)
  | post (p : W32)
  deriving DecidableEq, Repr

/-- TSCL by P in place of the word at its PA; P = 1.0 of an exact group only marks the tile live. -/
def sprodWork (ac : BitVec 2) (pa : BitVec 3) (p : W32) (exact : Bool) (s : State) : TileRes :=
  if s.core.mx.fmt ac = 2 then .error (operand 0 0x24)
  else match scaleWord s pa with
    | .error e => .error e
    | .ok (t, _) => .ok (if exact && p == 0x3F800000 then t.setMx (t.core.mx.setLive ac true) else scaleTile t ac p, none)

/-- POST's factor. -/
def Syn.factor : Syn → Option Num
  | .post p => some (num32 p)
  | _ => Option.none

/-- The work of a tile-class instruction. -/
def tileWork (syn : Syn) (i : Instr) : Option (State → TileRes) :=
  match i with
  | .tcfg ac fl => some (tcfgWork ac fl)
  | .trel ac => some (trelWork ac)
  | .tzero ac => some (tzeroWork ac)
  | .tld ac pa fl => some (tldWork ac pa fl)
  | .twr ac pa fl => some (twrWork ac pa fl)
  | .tdrain ac pa fl => some (tdrainWork ac pa fl)
  | .ttrn ac => some (ttrnWork ac)
  | .tscl ac pa =>
    match syn with
    | .sprod p exact => some (sprodWork ac pa p exact)
    | _ => some (tsclWork ac pa)
  | .mma ac pa pb fl => some (mmaWork false syn.factor ac pa pb fl)
  | .mmas ac pa pb fl => some (mmaWork true syn.factor ac pa pb fl)
  | .tcmpr pa pb fl => some (tcmprWork pa pb fl)
  | .tvop ac pa fl => some (tvopWork ac pa fl)
  | .tred ac pa fl => some (tredWork ac pa fl)
  | .tcvt ac fl => some (tcvtWork ac fl)
  | .tqnt ac pa fl => some (tqntWork ac pa fl)
  | .tsmax ac => some (tsmaxWork ac)
  | _ => none

/-- ILLEGAL's TRAPX: the word and the first reason that applies (11 R196). -/
def illegalX (w : W32) (reason : BitVec 8) : Word := BitVec.ofNat 64 (w.toNat * 2 ^ 32 + reason.toNat)

/-- The work of a tile-class word with a synthetic operand; a word that is no instruction raises ILLEGAL, written or emitted (16 R264, 18
R313). -/
def wordWork (e : W32 × Syn) (s : State) : TileRes :=
  match decode e.1 with
  | .error r => .error (.trap cILLEGAL 0 (illegalX e.1 r))
  | .ok i =>
    match tileWork e.2 i with
    | none => .ok (s, none)
    | some f => f s

/-- Is an instruction of the tile class. -/
def isTile (i : Instr) : Bool := (tileWork .none i).isSome

/-! ## Which rule fires (18 R312, R314, R315) -/

/-- Does a constraint hold between words of the group. -/
def conHolds (ws : List W32) (c : Nat) : Bool :=
  !conValid c || (ws.getD (conA c) 0).toNat >>> conLo c % 2 ^ conW c == (ws.getD (conB c) 0).toNat >>> conLo c % 2 ^ conW c

/-- Does a rule match at the start of the words that are left in the window. -/
def ruleMatches (r : Rule) (ws : List W32) : Bool :=
  r.v && r.n ≤ ws.length && (List.zip (ws.take r.n) r.pats).all (fun e => e.1 &&& e.2.1 == e.2.2) && r.cons.all (conHolds ws)

/-- The AC and PA fields of a TSCL word. -/
def tsclFields (w : W32) : BitVec 2 × BitVec 3 := (w.extractLsb' 10 2, w.extractLsb' 12 3)

/-- The TSCLs of a group. -/
def tsclsOf (ws : List W32) : List (BitVec 2 × BitVec 3) := (ws.filter (fun w => tileCode w == codeTscl)).map tsclFields

/-- The scale words of a group's TSCLs, in program order. -/
def groupScales (s : State) : List (BitVec 2 × BitVec 3) → Res (State × List W32)
  | [] => .ok (s, [])
  | e :: r =>
    match scaleWord s e.2 with
    | .error x => .error x
    | .ok (t, w) =>
      match groupScales t r with
      | .error x => .error x
      | .ok (u, ws) => .ok (u, w :: ws)

/-- n of a scale ±2^n. -/
def powerOf (w : W32) : Option Int :=
  match num32 w with
  | .fin _ m e => if m != 0 && m == 2 ^ m.log2 then some (floorLog m e) else none
  | _ => none

/-- What the engine keeps of a tile: whether every element is finite, and the exponents of the non-zero ones. -/
def tileExponents (m : Matrix) (n : BitVec 2) : Bool × List Int :=
  let vs := (m.tile n).cells.map (accVal (m.fmt n))
  (vs.all (fun v => !v.isNan && !v.isInf),
   vs.filterMap (fun v => match v with
    | .fin _ k e => if k = 0 then none else some (floorLog k e)
    | _ => none))

/-- The exponents of every tile shifted by each TSCL in turn stay from −126 to 127. -/
def scalesStay (m : Matrix) : List ((BitVec 2 × BitVec 3) × Int) → (BitVec 2 → Int) → Bool
  | [], _ => true
  | e :: r, sh =>
    let ts := m.group e.1.1
    let sh' := fun (n : BitVec 2) => if ts.contains n then sh n + e.2 else sh n
    ts.all (fun n => (tileExponents m n).2.all (fun x => decide (-126 ≤ x + sh' n) && decide (x + sh' n ≤ 127))) && scalesStay m r sh'

/-- The power-of-two check (18 R315). -/
def powerCheck (m : Matrix) (ts : List (BitVec 2 × BitVec 3)) (ws : List W32) : Bool :=
  let ps := ws.map powerOf
  !ts.isEmpty && ps.all Option.isSome && ts.all (fun e => (m.group e.1).all (fun n => (tileExponents m n).1)) &&
    scalesStay m (ts.zip (ps.map (fun p => p.getD 0))) (fun _ => 0)

/-- Is a matching rule legal, and does its group count as exact; a scale that cannot be read counts as a check that has
passed, since the group then rolls back. -/
def ruleLegal (s : State) (r : Rule) (ws : List W32) : Bool × Bool :=
  let ord := isOrdered s
  let ts := tsclsOf (ws.take r.n)
  match r.cls with
  | 0 => (true, false)
  | 1 =>
    let ok := match groupScales s ts with
      | .error _ => true
      | .ok (t, sc) => powerCheck t.core.mx ts sc
    (ok || (s.core.sluice.s && !ord), ok)
  | 2 => (s.core.sluice.a && !ord, false)
  | _ => (false, false)

/-- The first rule of a table, from number n on, that matches and is legal: its number, the rule, and exactness. -/
def firingRule (s : State) (ws : List W32) : List (List Word) → Nat → Option (Nat × Rule × Bool)
  | [], _ => none
  | e :: rest, n =>
    let r := ruleOf e
    if ruleMatches r ws && (ruleLegal s r ws).1 then some (n, r, (ruleLegal s r ws).2) else firingRule s ws rest (n + 1)

/-! ## Running a group (18 R313, R316, R317) -/

/-- P: the product of the scales, each step RN32. -/
def scaleProduct : List W32 → W32
  | [] => 0x3F800000
  | w :: r => r.foldl (fun p x => mul32 p x) w

/-- The words that a rule emits, with their synthetic operands. -/
def emissions (r : Rule) (ws : List W32) (p : W32) (exact : Bool) : List (W32 × Syn) :=
  (r.tmpl.take r.ne).map (fun t =>
    (t.base ||| (ws.getD t.src 0 &&& copyMask t.copy),
     match t.syn with
     | 1 => .sprod p exact
     | 2 => .post p
     | _ => .none))

/-- The works of a list in order; the first poisoned word that stops one stops the rest where `stopAtPoison`. -/
def runWorks (stopAtPoison : Bool) : List (W32 × Syn) → State → TileRes
  | [], s => .ok (s, none)
  | e :: r, s =>
    match wordWork e s with
    | .error x => .error x
    | .ok (t, bad) => if stopAtPoison && bad.isSome then .ok (t, bad) else runWorks stopAtPoison r t

/-- A group that has formed: how many originals, its rule, the mask of its window positions. -/
structure Group where
  n    : Nat
  rule : Nat
  mask : Nat
  deriving DecidableEq, Repr

/-- RWREC of a group that rolled back (18 R317). -/
def rwrecOf (g : Group) : Word := BitVec.ofNat 64 (g.mask * 2 ^ 16 + g.n * 2 ^ 8 + 2 ^ 7 + g.rule)

/-- The matrix engine and DGCTR of `s`, with everything else of `t`. -/
def keepAccumulator (s t : State) : State :=
  { t with core := { t.core with mx := s.core.mx, csr := { t.core.csr with dgctr := s.core.csr.dgctr } } }

/-- A group rolled back to its anchor by a fault: a precise trap at the anchor. -/
def rollBack (s : State) (g : Group) (cause : BitVec 8) (addr x : Word) : State :=
  takeTrap (s.setSluice (fun u => { u with rwrec := rwrecOf g })) false { cause := cause, addr := addr, pc := s.core.regs.pc, x := x } s.core.regs.pc

/-- A stop of a group's work: it stalls, or it rolls back. -/
def groupStop (s : State) (g : Group) (e : Stop) : State :=
  match e with
  | .trap c a x => rollBack s g c a x
  | .trapIn _ c a x _ => rollBack s g c a x
  | _ => s.markStalled

/-- The engine's cycles for an emission: a product of scales that is exactly 1.0 in an exact group only marks its tile (18 R313). -/
def emissionCycles (s : State) (e : W32 × Syn) : Nat :=
  match e.2, decode e.1 with
  | .sprod p true, .ok i => if p = 0x3F800000 then 4 else tileCycles s i
  | _, .ok i => tileCycles s i
  | _, .error _ => 0

/-- A group that has run waits on the shadow accumulator for its commit; `t` is the state after its emissions. -/
def shadowGroup (s t : State) (g : Group) (es : List (W32 × Syn)) : State :=
  let k := keepAccumulator s t
  let n := (es.map (emissionCycles s)).foldl (· + ·) 0
  let k1 := k.setMx { k.core.mx with ops := max 1 es.length, owner := k.core.port.owner, doneAt := s.core.csr.here + n * cycleLength s s.core.num }
  { k1.setSluice (fun u => { u with shadow := some { mx := t.core.mx, dgctr := t.core.csr.dgctr, n := g.n, rule := g.rule, mask := g.mask } }) with
      pending := k1.pending ++ [(k1.core.num, .sluiceGroupCommit)] }

/-- Does an emission multiply matrices. -/
def emitsMma (es : List (W32 × Syn)) : Bool := es.any (fun e => tileCode e.1 == codeMma || tileCode e.1 == codeMmas)

/-- A group's emissions run. -/
def runEmissions (s : State) (g : Group) (es : List (W32 × Syn)) : State :=
  match runWorks true es s with
  | .error e => groupStop s g e
  | .ok (t, some w) => rollBack (keepAccumulator s t) g cECC w s.core.regs.pc
  | .ok (t, none) =>
    if emitsMma es then
      match powerGate s t with
      | .error (.stall u) => u.markStalled
      | .error _ => s.markStalled
      | .ok u => shadowGroup s u g es
    else shadowGroup s t g es

/-- A group runs: the originals' checks, the scale words, the emissions. -/
def runGroup (s : State) (g : Group) (r : Rule) (exact : Bool) (ws : List W32) : State :=
  let os := ws.take g.n
  match runWorks false (os.map (fun w => (w, Syn.none))) s with
  | .error e => groupStop s g e
  | .ok _ =>
    if (r.tmpl.take r.ne).all (fun t => t.syn == 0) then runEmissions s g (emissions r ws 0 exact)
    else match groupScales s (tsclsOf os) with
      | .error e => groupStop s g e
      | .ok (t, sc) => runEmissions t g (emissions r ws (scaleProduct sc) exact)

/-- The sluice at a tile-class instruction of the current core, whose word at PC is w (18 R308, R314). -/
def sluiceStep (s : State) (w : W32) (i : Instr) : Choice :=
  let u := s.core.sluice
  if s.core.mx.ops != 0 then .rest s.markStalled
  else if !u.en || s.core.csr.dbgStep then
    .run true i (s.setSluice (fun u => { u with win := [], pos := 0, plain := false, skip := u.skip && !u.armed, armed := false }))
  else match (if u.win.isEmpty then formWindow s w else .ok s) with
    | .error t => .rest t.markStalled
    | .ok t =>
      let v := t.core.sluice
      if v.plain then .run true i t
      else match firingRule t v.win v.wtab 0 with
        | none => .run true i t
        | some (n, r, exact) =>
          .rest (runGroup t { n := r.n, rule := n, mask := (2 ^ r.n - 1) * 2 ^ v.pos } r exact v.win)

/-- The instruction in a word that the current core has fetched: an instruction of the tile class passes the sluice, any
other closes the window. -/
def chooseWord (s : State) (w : W32) : Choice :=
  match decode w with
  | .error _ => .run false (.illegalInstruction w) (s.setSluice (fun u => { u with win := [] }))
  | .ok i => if isTile i then sluiceStep s w i else .run true i (s.setSluice (fun u => { u with win := [] }))

/-! ## Committing and dropping a group (18 R316, R317, R319) -/

/-- A core's group becomes visible: its accumulator, DGCTR, RWHITS, and PC behind the originals. -/
def Core.commitGroup (c : Core) : Core :=
  match c.sluice.shadow with
  | none => c
  | some sh =>
    { c with mx := { sh.mx with ops := 0, owner := c.mx.owner }, csr := { c.csr with dgctr := sh.dgctr },
             regs := { c.regs with pc := c.regs.pc + BitVec.ofNat 64 (4 * sh.n) },
             sluice := { c.sluice with hits := c.sluice.hits + 1, shadow := none, win := c.sluice.win.drop sh.n, pos := c.sluice.pos + sh.n } }

/-- SLUICE_GROUP_COMMIT of core `unit`, when the engine's cycles for the group have passed. -/
def execSluiceGroupCommit (s : State) : Out :=
  .next (if s.clock < (coreOf s s.unit).mx.doneAt then due s s.unit .sluiceGroupCommit else updCore s s.unit Core.commitGroup)

/-- A halt rolls a core's group back (18 R317). -/
def Core.dropGroup (c : Core) : Core :=
  match c.sluice.shadow with
  | none => c
  | some sh =>
    { c with mx := { c.mx with ops := 0 },
             sluice := { c.sluice with shadow := none, rwrec := rwrecOf { n := sh.n, rule := sh.rule, mask := sh.mask } } }

/-- TILE_INSTRUCTION_COMPLETE: the matrix engine of core `unit` finishes (16 R264). -/
def Core.tileDone (c : Core) : Core :=
  if c.sluice.shadow.isSome then c
  else if c.sched.halted then c
  else { c with mx := { (c.mx.onTiles [0, 1, 2, 3] (fun t => { t with pend := false })) with ops := 0, rsdWord := 0, rsdpos := 0, run := none } }

/-- TILE_INSTRUCTION_COMPLETE, when the engine's cycles have passed. -/
def execTileInstructionComplete (s : State) : Out :=
  .next (if s.clock < (coreOf s s.unit).mx.doneAt then due s s.unit .tileInstructionComplete else updCore s s.unit Core.tileDone)

end Sys2Proof.Machine
end

