-- ==== Sys2Proof/Machine/Traps.lean ====
section
/-! DEFINITION. The exceptions that a core takes at an instruction boundary without executing an instruction: ILLEGAL, fetch
faults, the watchdog, a deferred tile fault; and single-stepping switched by its owner (11 R196, 01 R30, 19 R323, R331,
R336, R337, 16 R279). -/

namespace Sys2Proof.Machine

/-- Does a task run on the current core. -/
def taskRuns (s : State) : Bool := s.core.sched.running && !s.core.sched.halted

/-- ILLEGAL_INSTRUCTION: a precise trap at the word. -/
def execIllegalInstruction (w : W32) (s : State) : Out :=
  match decode w with
  | .ok _ => .next s
  | .error r => if taskRuns s then finish s (.error (.trap cILLEGAL 0 (illegalX w r))) else .next s

/-- What a fetch fault reports (01 R30, 06 R119). -/
def fetchInfo (addr : Word) (f : FetchFault) : TrapInfo :=
  match f with
  | .transl r cow => { cause := cTRANSL, addr := addr, pc := addr, x := translX r.toNat false true cow 0 }
  | .perm => { cause := cPERM, addr := addr, pc := addr, x := 0 }
  | .ecc => { cause := cECC, addr := wordAddr addr, pc := addr, x := 0 }
  | .link => { cause := cLINK, addr := addr, pc := addr, x := 0 }

/-- What the record of an unhandled handler reports (19 R323). -/
def entryInfo (e : QEntry) : TrapInfo :=
  match e.work with
  | .handler _ i _ => i
  | _ => { cause := cTRANSL, addr := 0, pc := 0, x := 0 }

/-- FETCH_FAULT: a precise trap at the fetch address; of a handler's first fetch, the trap is unhandled: its record is put
back and the context halts (19 R323). -/
def execFetchFault (addr : Word) (f : FetchFault) (s : State) : Out :=
  .next (if !taskRuns s then s
    else match s.core.sched.first with
      | some e => putBack (unhandled (leaveCore s) s.core.num (entryInfo e)) e
      | none => takeTrap s false (fetchInfo addr f) s.core.regs.pc)

/-- The watchdog's limit: WDOGL, or the task's own limit when smaller and not zero (19 R336). -/
def watchdogLimit (c : Core) : Nat :=
  if c.sched.wdOwn != 0 && c.sched.wdOwn < c.csr.wdogl.toNat then c.sched.wdOwn else c.csr.wdogl.toNat

/-- WDOG at the current boundary; TRAPX says whether the task's own limit fired (19 R336). -/
def watchdogTrap (s : State) : State :=
  let own := s.core.sched.wdOwn != 0 && s.core.sched.wdOwn < s.core.csr.wdogl.toNat
  let t := carryThrough s
  takeTrap t false { cause := cWDOG, addr := 0, pc := t.core.regs.pc, x := if own then 1 else 0 } t.core.regs.pc

/-- WATCHDOG_FIRE. -/
def execWatchdogFire (s : State) : Out := .next (if taskRuns s then watchdogTrap s else s)

/-- A deferred tile fault raised at the running task's boundary (16 R279); a STEP or table load that waits there counts as the watchdog finds it (07
R135, R136). -/
def tileTrap (s : State) (f : Nat × TrapInfo) : State :=
  let t := carryThrough (s.setMx { s.core.mx with faults := s.core.mx.faults.erase f })
  takeTrap t false { f.2 with pc := t.core.regs.pc } t.core.regs.pc

/-- DEFERRED_TILE_FAULT on core g: ECC at the running task's boundary. -/
def execDeferredTileFault (g : Nat) (addr : Word) (s : State) : Out :=
  .next (if !taskRuns s || s.core.num != g then s
    else match s.core.mx.faults.find? (fun f => f.1 == s.core.port.owner && f.2.addr == addr) with
      | none => s
      | some f => tileTrap s f)

/-- BREAK after the instruction at pc of a user task that is stepped (19 R331). -/
def takeBreak (s : State) (pc : Word) : State := takeTrap s false { cause := cBREAK, addr := 0, pc := pc, x := 0x100000000 } s.core.regs.pc

/-- The BREAK of an instruction that the running task left its core by. -/
def lateBreak (s : State) (pc : Word) : State := takeBreak { s with core := { s.core with sched := { s.core.sched with stepped := none } } } pc

/-- The trap that is due at the running task's boundary before anything else: the BREAK of an instruction that it left its core by, a deferred tile
fault, once the engine has ended, the watchdog's, or the TRANSL of a fill that the core has been told of (06 R117, 16 R279, 19 R331, R336). -/
def boundaryTrap (s : State) : State :=
  let c := s.core
  if !taskRuns s then s
  else match c.sched.stepped with
  | some pc => lateBreak s pc
  | none =>
  match (if c.mx.ops = 0 then c.mx.faults else []).find? (fun f => f.1 == c.port.owner) with
    | some f => tileTrap s f
    | none =>
      if watchdogLimit c ≤ c.sched.wdCount then watchdogTrap s
      else match (ctxOf s c.ctx).bind (fun x => stalledFill x c.num) with
        | some f => if f.told then takeNotice s f else s
        | none => s

/-- DBGCTL_WRITE: the control complex writes DBGCTL of core g for the owner (21 R356). -/
def execDbgctlWrite (g : Nat) (v : Word) (s : State) : Out :=
  .next (if g < Config.nVaults && s.out.owner.isSome && s.out.fwGood then updCore s g (fun c => { c with csr := { c.csr with dbgStep := v.getLsbD 0 } }) else s)

end Sys2Proof.Machine
end

