-- ==== Sys2Proof/Machine/Turns.lean ====
section
/-! DEFINITION. What stands around an instruction's execution: the cycle, the watchdog, the fetch, single-stepping (19 R331, R336). -/

namespace Sys2Proof.Machine

/-! ## One cycle of a core -/

/-- The time that a core's turn takes before anything else: one cycle, or, for a core that waits, all that has passed on the device
since its last turn. -/
def onTurn (s : State) : State :=
  let c := s.core
  let n := if c.waits then max 1 ((s.clock - c.csr.here) / cycleLength s c.num) else 1
  passCycles s n c.mx.doneAt

/-- The current core's last attempt has not stalled. -/
def State.clearStalled (s : State) : State := { s with core := { s.core with sched := { s.core.sched with stalled := false } } }

/-- The handler's first fetch has succeeded (19 R323). -/
def State.clearFirst (s : State) : State := { s with core := { s.core with sched := { s.core.sched with first := none } } }

/-- The running task's next instruction: one that has issued an access already goes on without a new fetch (03 R53, R67, 12 R201), another is fetched.
DEDUCED: log entry 28. -/
def chooseFetch (s : State) : Choice :=
  match s.core.sched.again with
  | some i => .run true i s
  | none =>
  match fetchWord s s.core.regs.pc with
  | .ok (s1, w) => chooseWord s1.clearFirst w
  | .error (.fault f) => .run false (.fetchFault s.core.regs.pc f) s
  | .error .miss => .rest (takeMiss s s.core.regs.pc (translX 1 false true false 0) false true)
  | .error (.wait s1) => .rest s1.markStalled

/-- What the current core does in a cycle. -/
def coreTurn (s0 : State) : Choice :=
  let s := (onTurn s0).clearStalled
  let c := s.core
  if c.sched.halted then .rest s
  else if !c.sched.running then
    if hasWork s c.num then .run false .recordSelect s else .rest s
  else if c.sched.idling && c.sched.queue.isEmpty then .rest s
  else
    let s := { s with core := { c with sched := { c.sched with idling := false } } }
    if c.sluice.shadow.isSome then .rest s.markStalled
    else if c.sched.stepped.isSome then .rest (lateBreak s (c.sched.stepped.getD 0))
    else match (if c.mx.ops = 0 && c.rank.state != .bwd then c.mx.faults else []).find? (fun f => f.1 == c.port.owner) with
      | some f => .run false (.deferredTileFault c.num f.2.addr) s
      | none =>
        if watchdogLimit c ≤ c.sched.wdCount && c.rank.state != .bwd then .run false .watchdogFire s
        else if c.sched.asked then .rest s.markStalled
        else match (ctxOf s c.ctx).bind (fun x => stalledFill x c.num) with
          | some f => if f.told then .rest (takeNotice s f) else .rest s.markStalled
          | none => chooseFetch s

/-! ## After an instruction -/

/-- Has the current core's instruction, between `s` and `t`, run to its end: neither stalled, nor trapped, nor ended its task but by
YIELD and END. -/
def ranThrough (i : Instr) (s t : State) : Bool :=
  t.core.num == s.core.num && !t.core.sched.stalled &&
    (t.core.sched.running || i == .yield || i == .endTask)

/-- The cycles that an instruction takes beyond its first pass, and its engine's end is laid down; between two counts the manual
leaves open which it takes (12 R218, 16 R281; DESIGN CHOICE, log entries 3 and 9). DESIGN CHOICE: log entry 9. -/
def spend (i : Instr) (s t : State) : State :=
  let p := spanOf s t i
  let u := if !isTile i then t.core.mx.doneAt else t.core.csr.here + (if t.core.mx.faults = s.core.mx.faults then tileCycles s i * cycleLength s s.core.num else 0)
  if p.lo < p.hi then
    let (v, t1) := freeNext t
    passCycles t1 (p.lo - 1 + v.toNat % (p.hi - p.lo + 1)) u
  else passCycles t (p.lo - 1) u

/-- An instruction that waits with an access issued, or whose pass goes on (17 R299), is the one that goes on; the values and homes of one that has ended go (03 R53, R67). -/
def keepGoing (i : Instr) (t : State) : State :=
  let c := t.core.sched
  { t with core := { t.core with sched := if t.core.rank.bwd.isSome || c.stalled && (c.asked || !c.returns.isEmpty) then { c with again := some i }
    else { c with returns := [], checked := [], again := none } } }

/-- After an instruction of the current core: its time passes, a completed one leaves its window, and BREAK follows it in a user task
that is stepped (19 R331). -/
def afterRun (i : Instr) (s t : State) : State :=
  let t := if ranThrough i s t then spend i s t else t
  let t := if t.core.num = s.core.num then keepGoing i t else t
  let done := t.core.num == s.core.num && t.core.sched.running && !t.core.sched.stalled && t.core.rank.bwd.isNone
  if !done then t
  else
    let u := if t.core.sluice.win.isEmpty then t else nextInWindow t
    if s.core.sched.user && s.core.csr.dbgStep && i != .rft then
      takeBreak u s.core.regs.pc
    else u

end Sys2Proof.Machine
end

