-- ==== Sys2Proof/Machine/Layers.lean ====
section
/-! DEFINITION. The headrace: LWAIT, LREL, LHINT, and the life of a layer (05 R97-R111, 14 R243, R244). -/

namespace Sys2Proof.Machine

/-! ## The layer table (05 R97-R100) -/

/-- Virtual address of a layer's flag word. -/
def flagAddr (x : Ctx) (l : Nat) : Word := x.layerBase + BitVec.ofNat 64 (64 * l)

/-- A layer table entry (05 R98). -/
structure Layer where
  home : Nat
  flag : Nat
  srca : Nat
  dsta : Nat
  len  : Nat
  next : Nat
  srck : Nat
  zero : Bool
  deriving DecidableEq, Repr

/-- The entry of layer l: `zero` says that every field that must be zero is. -/
def layerOf (s : State) (x : Ctx) (l : Nat) : Option Layer :=
  (layerHome x l).map (fun h =>
    let w3 := homeWord s (h + 0x18)
    { home := h, flag := homeRead s h 8, srca := homeRead s (h + 8) 8, dsta := homeRead s (h + 0x10) 8, len := bits w3 63 32,
      next := bits w3 31 16, srck := bits w3 1 0,
      zero := bits w3 15 9 == 0 && bits w3 7 2 == 0 && homeRead s (h + 0x24) 4 == 0 && homeRead s (h + 0x2C) 4 == 0 && homeRead s (h + 0x30) 16 == 0 })

/-- Fields of a flag word (05 R99). -/
def flagState (f : Nat) : Nat := f % 8
def flagErr (f : Nat) : Nat := f / 8 % 32
def flagGen (f : Nat) : Nat := f / 2 ^ 8 % 2 ^ 24
def flagPin (f : Nat) : Nat := f / 2 ^ 32
/-- A flag word of its fields. -/
def flagWordOf (pin gen err st : Nat) : Nat := pin * 2 ^ 32 + gen % 2 ^ 24 * 2 ^ 8 + err * 8 + st

/-- Writes the flag word at its home. -/
def setFlag (s : State) (e : Layer) (f : Nat) : State := performWrite s e.home 8 f false
/-- WAITERS of an entry (05 R98). -/
def waitersOf (s : State) (e : Layer) : Nat := homeRead s (e.home + 0x28) 4
def setWaiters (s : State) (e : Layer) (n : Nat) : State := performWrite s (e.home + 0x28) 4 n false

/-- Is an entry malformed (05 R98): an SRCA outside translated space lies in none of SRCK's spaces. -/
def malformed (x : Ctx) (e : Layer) : Bool :=
  !e.zero || e.len == 0 || e.len % 128 != 0 || e.dsta % 2 ^ 16 != 0 || e.srck == 3 || !(e.next == 0xFFFF || e.next < x.layerCount) ||
    spaceOf (BitVec.ofNat 64 e.srca) != .translated ||
    (match x.pages.find? (fun p => p.has x.num e.srca) with
     | some p => tierOf (p.phys e.srca) != some (e.srck + 1)
     | none => false)

/-- Layers of a context with their entries. -/
def layersOf (s : State) (x : Ctx) : List (Nat × Layer) :=
  (List.range x.layerCount).filterMap (fun l => (layerOf s x l).map (fun e => (l, e)))

/-- Is a layer in STREAMING, RESIDENT or EVICTING. -/
def held (e : Layer) : Bool := flagState e.flag == 1 || flagState e.flag == 2 || flagState e.flag == 4

/-- Layer bytes that count against a context's budget (05 R102). -/
def heldBytes (s : State) (x : Ctx) (p : Layer → Bool) : Nat :=
  (layersOf s x).foldl (fun t e => if held e.2 && p e.2 then t + e.2.len else t) 0

/-- Bytes of the 64 KiB frames that a layer takes from the pool. -/
def frameBytes (e : Layer) : Nat := (e.len + 0xFFFF) / 2 ^ 16 * 2 ^ 16

/-- Pool bytes in use (05 R102). -/
def poolUsed (s : State) (p : Layer → Bool) : Nat :=
  s.ctxs.foldl (fun t x => (layersOf s x).foldl (fun t e => if held e.2 && p e.2 then t + frameBytes e.2 else t) t) 0

/-- Every context with layers gets its headrace's turn. -/
def kickHeadrace (s : State) : State :=
  (s.ctxs.filter (fun x => x.layerCount != 0 && !s.pending.any (fun e => e == (x.num, Instr.streamInStart)))).foldl
    (fun t x => due t x.num .streamInStart) s

/-! ## Distances (05 R102) -/

/-- The layers on the chain from l on, each once. -/
def chainFrom (s : State) (x : Ctx) : Nat → Nat → List Nat → List Nat
  | 0, _, seen => seen
  | k + 1, l, seen =>
    if seen.contains l || x.layerCount ≤ l then seen
    else match layerOf s x l with
      | some e => chainFrom s x k e.next (seen ++ [l])
      | none => seen ++ [l]

/-- The context's chain: LAST first. -/
def chain (s : State) (x : Ctx) : List Nat := chainFrom s x 4096 x.last []

/-- Distance of a layer; one off the chain is farther than any. -/
def distance (s : State) (x : Ctx) (l : Nat) : Nat := ((chain s x).findIdx? (· == l)).getD 4096

/-! ## Eviction (05 R109) -/

/-- Comes candidate a before candidate b: priority, distance, number; of contexts of equal priority the manual says nothing, and their distances and
numbers are compared as they are (05 R109; DESIGN CHOICE, log entry 44). -/
def evictsBefore (a b : Nat × Nat × Nat × Nat) : Bool :=
  a.1 < b.1 || (a.1 == b.1 && (b.2.1 < a.2.1 || (b.2.1 == a.2.1 && a.2.2.1 < b.2.2.1)))

/-- The first of a list of candidates. -/
def firstCandidate : List (Nat × Nat × Nat × Nat) → Option (Nat × Nat × Nat × Nat)
  | [] => none
  | a :: r =>
    match firstCandidate r with
    | none => some a
    | some b => some (if evictsBefore b a then b else a)

/-- Candidates for a stream of layer l of context x: priority, distance, layer, context. An ahead stream takes its own
farther layers and layers of contexts of lower priority. -/
def candidates (s : State) (x : Ctx) (l : Nat) (demand own : Bool) : List (Nat × Nat × Nat × Nat) :=
  (s.ctxs.filter (fun y => y.num == x.num || !own)).flatMap (fun y =>
    (layersOf s y).filterMap (fun e =>
      let ok := flagState e.2.flag == 2 && flagPin e.2.flag == 0 &&
        (demand || (if y.num = x.num then distance s x l < distance s x e.1 else y.priority < x.priority))
      if ok then some (y.priority, distance s y e.1, e.1, y.num) else none))

/-- Is a page one of those that a layer's destination has (05 R103). -/
def ofLayer (x : Ctx) (e : Layer) (p : Page) : Bool :=
  p.ctx == x.num && p.size == 1 && e.dsta ≤ p.va && p.va < e.dsta + frameBytes e && p.va % 2 ^ 16 == e.dsta % 2 ^ 16

/-- The RESIDENT-to-EVICTING step, which leaves the destination without a translation, and the EVICT command (05 R101, R103, R109). -/
def startEvict (s : State) (x : Ctx) (l : Nat) : State :=
  match layerOf s x l with
  | none => s
  | some e =>
    if flagState e.flag = 2 && flagPin e.flag = 0 then
      let s1 := dropEverywhere (setFlag s e (flagWordOf 0 (flagGen e.flag) 0 4)) (ofLayer x e)
      issueOwn s1 x { ecw0 := BitVec.ofNat 64 (e.len * 2 ^ 32 + x.num * 2 ^ 16 + 9), ecw1 := flagAddr x l, ecw2 := 0, ecw3 := 0,
                      target := 0, core := (partCores x).headD 0, ctx := x.num, on := 0, key := 0, seq := 0, done := 0, crc := 0xFFFFFFFF,
                      poison := false, table := [], fault := none, owner := 0, byPort := false, resumed := false }
    else s

/-! ## Starting a stream-in (05 R102-R105) -/

/-- Do two destination spans overlap. -/
def spansMeet (a b : Layer) : Bool := a.dsta < b.dsta + b.len && b.dsta < a.dsta + a.len

/-- The first k frames of 64 KiB from a on that are not taken, among n. -/
def takeFrames (taken : Nat → Bool) : Nat → Nat → Nat → List Nat
  | 0, _, _ => []
  | _ + 1, _, 0 => []
  | n + 1, a, k + 1 => if taken a then takeFrames taken n (a + 2 ^ 16) (k + 1) else a :: takeFrames taken n (a + 2 ^ 16) k

/-- The lowest free frames of the layer pool, as many as a layer needs; the pool is the top of HBM4E (05 R102, R103; DESIGN CHOICE, log entry 7). -/
def poolFrames (s : State) (e : Layer) : Option (List Nat) :=
  let base := (Config.areasBase - s.pool + 0xFFFF) / 2 ^ 16 * 2 ^ 16
  let pages := (s.ctxs.flatMap (·.pages)).map (fun p => (p.pa, p.pa + pageBytes p.size)) ++
    s.migrations.map (fun m => (m.newPa, m.newPa + pageBytes m.page.size))
  let k := frameBytes e / 2 ^ 16
  let fs := takeFrames (fun a => pages.any (fun p => p.1 < a + 2 ^ 16 && a < p.2)) ((Config.areasBase - base) / 2 ^ 16) base k
  if fs.length = k then some fs else none

/-- The pages of a layer in STREAMING or RESIDENT, one on each frame: R, neither W nor X (05 R103). -/
def layerPages (s : State) (x : Ctx) (e : Layer) (fs : List Nat) : List Page :=
  fs.zipIdx.map (fun k =>
    { va := e.dsta + k.2 * 2 ^ 16, size := 1, ctx := x.num, pa := k.1, cow := false, tier := 0, il := bandLocal s k.1, mig := false, x := false, w := false, r := true })

/-- The step to STREAMING, the destination's frames, and the LAYERIN; a malformed entry fails with TABLE (05 R101, R103-R105). DEDUCED: log entry 37. -/
def startStream (s : State) (x : Ctx) (l : Nat) (e : Layer) (fs : List Nat) : State :=
  let s1 := setFlag s e (flagWordOf (flagPin e.flag) (flagGen e.flag + 1) 0 1)
  let ps := if malformed x e then [] else layerPages s x e fs
  let s2 := updCtx s1 x.num (fun c => { c with pages := c.pages ++ ps, demands := c.demands.filter (fun d => d.layer != l) })
  if malformed x e then due s2 x.num (.layerFaultStep x.num l 5)
  else
    issueOwn s2 x { ecw0 := BitVec.ofNat 64 (e.len * 2 ^ 32 + x.num * 2 ^ 16 + 7), ecw1 := flagAddr x l, ecw2 := 0, ecw3 := 0,
                    target := 0, core := (partCores x).headD 0, ctx := x.num, on := 0, key := 0, seq := 0, done := 0, crc := 0xFFFFFFFF,
                    poison := false, table := [], fault := none, owner := 0, byPort := false, resumed := false }

/-- Frame bytes that waiting demand stream-ins need: an eviction frees them for those, and no ahead stream takes them (05 R109;
DEDUCED, log entry 14). -/
def demandBytes (s : State) : Nat :=
  s.ctxs.foldl (fun t x => x.demands.foldl (fun t d => match layerOf s x d.layer with
    | some e => t + frameBytes e
    | none => t) t) 0

/-- One move towards the stream of layer l, from ABSENT or FAULTED (05 R101): it fails with TOOBIG, evicts a layer, starts, or waits (none). DEDUCED: log entry 37. -/
def tryStream (s : State) (x : Ctx) (l : Nat) (demand : Bool) : Option State :=
  match layerOf s x l with
  | none => none
  | some e =>
    if !(flagState e.flag == 0 || flagState e.flag == 3) then none
    else if x.budget < e.len || s.pool < frameBytes e then
      if demand then some (due (updCtx s x.num (fun c => { c with demands := c.demands.filter (fun d => d.layer != l) })) x.num (.layerFaultStep x.num l 6))
      else none
    else
      let meets := (layersOf s x).filter (fun o => o.1 != l && held o.2 && spansMeet e o.2)
      let evict := fun (c : Option (Nat × Nat × Nat × Nat)) =>
        match c with
        | none => none
        | some c => (ctxOf s c.2.2.2).map (fun y => startEvict s y c.2.2.1)
      if !meets.isEmpty then
        evict (firstCandidate ((candidates s x l demand true).filter (fun c => meets.any (fun o => o.1 == c.2.2.1))))
      else if x.budget < heldBytes s x (fun _ => true) + e.len then
        if x.budget < heldBytes s x (fun o => flagState o.flag != 4) + e.len then evict (firstCandidate (candidates s x l demand true)) else none
      else if !demand && demandBytes s != 0 && s.pool < poolUsed s (fun _ => true) + frameBytes e + demandBytes s then none
      else if s.pool < poolUsed s (fun _ => true) + frameBytes e then
        if s.pool < poolUsed s (fun o => flagState o.flag != 4) + frameBytes e then evict (firstCandidate (candidates s x l demand false)) else none
      else (poolFrames s e).map (startStream s x l e)

/-- LAYERIN commands of a context in flight. -/
def streamsOf (s : State) (cx : Nat) : Nat := ((allCmds s).filter (fun c => c.code == 7 && c.param == cx)).length

/-- The layer that an ahead stream takes: the nearest ABSENT one on the chain. -/
def aheadLayer (s : State) (x : Ctx) : Option Nat :=
  (chain s x).find? (fun l => match layerOf s x l with
    | some e => flagState e.flag == 0
    | none => false)

/-- STREAM_IN_START: a demand stream-in before any ahead stream; at most two LAYERINs at once (05 R102). -/
def execStreamInStart (s : State) : Out :=
  .next (match ctxOf s s.unit with
    | none => s
    | some x =>
      if 2 ≤ streamsOf s x.num then s
      else
        let r := if x.demands.isEmpty then (aheadLayer s x).bind (fun l => tryStream s x l false)
          else x.demands.findSome? (fun d => tryStream s x d.layer true)
        match r with
        | some t => due t x.num .streamInStart
        | none => s)

/-- Can a demand for a layer fail now: it is ABSENT or FAULTED; one that is EVICTING becomes ABSENT first (05 R101). -/
def mayFail (s : State) (x : Ctx) (l : Nat) : Bool :=
  match layerOf s x l with
  | some e => flagState e.flag == 0 || flagState e.flag == 3
  | none => false

/-- LAYER_WAIT_LIMIT: the oldest demand that has waited longer than the context's limit, in cycles of its cores, fails with STALL (05 R103); whose cycles those are where
its cores' clocks differ, or it holds none, the manual leaves open: its first core's, else core 0's (00 R5; DESIGN CHOICE, log entry 44). -/
def execLayerWaitLimit (s : State) : Out :=
  .next (match ctxOf s s.unit with
    | none => s
    | some x =>
      match x.demands.find? (fun d => x.layerWait * cycleLength s ((partCores x).headD 0) < s.clock - d.since && mayFail s x d.layer) with
      | some d => due (updCtx s x.num (fun c => { c with demands := c.demands.filter (fun k => k != d) })) x.num (.layerFaultStep x.num d.layer 7)
      | none => if x.demands.isEmpty then s else due s x.num .layerWaitLimit)

/-- A demand stream-in queued, unless one is queued or running (05 R106, R107). -/
def demandLayer (s : State) (x : Ctx) (l : Nat) (e : Layer) : State :=
  if x.demands.any (fun d => d.layer == l) || flagState e.flag == 1 then s
  else kickHeadrace (due (updCtx s x.num (fun c => { c with demands := c.demands ++ [{ layer := l, since := s.clock }] })) x.num .layerWaitLimit)

/-! ## At the flag's home (05 R104-R107, R110) -/

/-- A parked waiter of a layer becomes ready on its core at level 1, its a holding the flag word (05 R104, 14 R244). -/
def releaseWaiter (flag : Word) (cx : Nat) (s : State) (p : Parked) : State :=
  match p.frame with
  | .frame n => enqueue (homeWrite s (ctxVault s cx p.core (128 * n)) 8 flag.toNat) cx p.core { level := 1, work := .resume n, entered := 0, aged := false }
  | .away ts _ _ _ =>
    updCtx s cx (fun x => { x with queue := x.queue ++
      [(p.core, { level := 1, work := .resumeAway { ts with regs := { ts.regs with a := flag } }, entered := s.clock, aged := false })] })
  | .none => s

/-- The upcall of a parked waiter of a layer that has failed (05 R110). -/
def faultWaiter (addr x : Word) (cx : Nat) (s : State) (p : Parked) : State :=
  let i : TrapInfo := { cause := cLAYER, addr := addr, pc := p.pc, x := x }
  match p.frame with
  | .frame n =>
    enqueue (takeOver true s cx p.core n true cLAYER p.pc 0) cx p.core { level := 0, work := .handler true i (.frame n), entered := 0, aged := false }
  | .away ts _ _ _ =>
    let f : FrameRef := .away { ts with regs := { ts.regs with pc := p.pc }, stepped := none } 2 cLAYER 0
    updCtx s cx (fun c => { c with queue := c.queue ++ [(p.core, { level := 0, work := .handler true i f, entered := s.clock, aged := false })] })
  | .none => s

/-- The tasks parked on a layer leave the list. -/
def unpark (s : State) (cx l : Nat) : State × List Parked :=
  match ctxOf s cx with
  | none => (s, [])
  | some x => (updCtx s cx (fun c => { c with parked := c.parked.filter (fun p => p.layer != some l) }), x.parked.filter (fun p => p.layer == some l))

/-- LAYER_RESIDENT_STEP (05 R104). -/
def execLayerResidentStep (ctx layer : Nat) (s : State) : Out :=
  .next (match ctxOf s ctx with
    | none => s
    | some x =>
      match layerOf s x layer with
      | none => s
      | some e =>
        if flagState e.flag != 1 then s
        else
          let w := waitersOf s e
          let f := flagWordOf (flagPin e.flag + w) (flagGen e.flag) 0 2
          let s1 := setWaiters (setFlag s e f) e 0
          let s2 := if w = 0 then s1 else updCtx s1 ctx (fun c => { c with last := layer })
          let (s3, ps) := unpark s2 ctx layer
          kickHeadrace (ps.foldl (releaseWaiter (BitVec.ofNat 64 f) ctx) s3))

/-- The destination of a layer loses its translations, and its frames return (05 R103). -/
def unmapLayer (s : State) (x : Ctx) (e : Layer) : State :=
  updCtx (dropEverywhere s (ofLayer x e)) x.num (fun c => { c with pages := c.pages.filter (fun p => !ofLayer x e p) })

/-- LAYER_FAULT_STEP: a stream-in fails, from STREAMING, or with TOOBIG or STALL before it starts (05 R101, R105, R110);
a malformed entry, which fails with TABLE, has no pages to lose (05 R111). No demand for the layer stands after it: FAULTED becomes STREAMING by a retry
request only. -/
def execLayerFaultStep (ctx layer err : Nat) (s : State) : Out :=
  .next (match ctxOf s ctx with
    | none => s
    | some x =>
      match layerOf s x layer with
      | none => s
      | some e =>
        let st := flagState e.flag
        let early := err = 6 || err = 7
        if (st = 1 && !early) || ((st = 0 || st = 3) && early) then
          let s0 := updCtx s ctx (fun c => { c with demands := c.demands.filter (fun d => d.layer != layer) })
          let s1 := setWaiters (setFlag s0 e (flagWordOf (flagPin e.flag) (flagGen e.flag) (err % 32) 3)) e 0
          let s2 := if st = 1 && err != 5 then unmapLayer s1 x e else s1
          let (s3, ps) := unpark s2 ctx layer
          kickHeadrace (ps.foldl (faultWaiter (flagAddr x layer) (BitVec.ofNat 64 (err % 32 + layer * 2 ^ 8)) ctx) s3)
        else s)

/-- LAYER_EVICTED_STEP (05 R101, R109). -/
def execLayerEvictedStep (ctx layer : Nat) (s : State) : Out :=
  .next (match ctxOf s ctx with
    | none => s
    | some x =>
      match layerOf s x layer with
      | none => s
      | some e =>
        if flagState e.flag = 4 then kickHeadrace (unmapLayer (setFlag s e (flagWordOf (flagPin e.flag) (flagGen e.flag) 0 0)) x e) else s)

/-! ## LWAIT, LREL, LHINT (14 R243, R244, 05 R106, R107) -/

/-- The layer that an instruction names, its context and entry. -/
def namedLayer (s : State) (l : BitVec 12) (froma : BitVec 1) : Res (Ctx × Nat × Layer) :=
  let n := if froma = 1 then s.core.regs.a.toNat else l.toNat
  match myCtx s with
  | none => .error (operand 0 0x13)
  | some x =>
    if x.layerCount = 0 then .error (operand 0 0x13)
    else if 2 ^ 12 ≤ n || x.layerCount ≤ n then .error (operand 0 0x12)
    else match layerOf s x n with
      | none => .error (operand 0 0x13)
      | some e => .ok (x, n, e)

/-- What an LWAIT finds: pinned with the new flag word, or parked, or one of its faults. -/
def lwaitHome (s : State) (x : Ctx) (l : Nat) (e : Layer) : Res (State × Option Word) :=
  if (poisonIn s.poison e.home 8).isSome then .error (.trap cECC (flagAddr x l) 0)
  else match flagState e.flag with
    | 2 =>
      if flagPin e.flag + 1 = 2 ^ 32 then .error (operand (flagAddr x l) 0x19)
      else
        let f := e.flag + 2 ^ 32
        .ok (kickHeadrace (updCtx (setFlag s e f) x.num (fun c => { c with last := l })), some (BitVec.ofNat 64 f))
    | 3 => .error (.trap cLAYER (flagAddr x l) (BitVec.ofNat 64 (flagErr e.flag + l * 2 ^ 8)))
    | _ => .ok (demandLayer (setWaiters s e (waitersOf s e + 1)) x l e, none)

/-- The layer that an instruction names, once its flag word's home has been reached in the order of its arrivals (05 R97); a posted one needs room
in the stores count (03 R53). -/
def reachLayer (posted : Bool) (s : State) (l : BitVec 12) (froma : BitVec 1) : Res (State × Ctx × Nat × Layer) :=
  match namedLayer s l froma with
  | .error e => .error e
  | .ok (_, _, e) =>
    if posted && !storeRoom s then .error (.stall s)
    else
      let r := reach s e.home 8 true
      if !r.2 then .error (.stall r.1)
      else match namedLayer r.1 l froma with
        | .error e => .error e
        | .ok (x, n, e) => .ok (loadLine r.1 e.home 8 true, x, n, e)

/-- LWAIT. -/
def execLwait (l : BitVec 12) (froma : BitVec 1) (s0 : State) : Out :=
  finish s0 (match reachLayer false s0 l froma with
    | .error e => .error e
    | .ok (s, x, n, e) =>
      match lwaitHome s x n e with
      | .error e => .error e
      | .ok (t, some f) => .ok (t.setA f).advance
      | .ok (t, none) =>
        let (t1, r) := suspend (leaveStepped t) (s.core.regs.pc + 4) 3 0 0
        let p : Parked := { core := s.core.num, layer := some n, frame := r, pc := s.core.regs.pc, slot := s.core.id.slot.toNat }
        .ok (leaveCore (updCtx t1 x.num (fun c => { c with parked := c.parked ++ [p] }))))

/-- LREL at the flag's home, for core g, whose instruction stands at pc. -/
def lrelHome (s : State) (x : Ctx) (l : Nat) (e : Layer) (g : Nat) (pc : Word) : State :=
  if (poisonIn s.poison e.home 8).isSome then
    raiseUpcall s x.num g { cause := cECC, addr := flagAddr x l, pc := pc, x := 0 }
  else if flagPin e.flag = 0 then raiseUpcall s x.num g { cause := cOPERAND, addr := flagAddr x l, pc := 0, x := 0x1A }
  else kickHeadrace (setFlag s e (e.flag - 2 ^ 32))

/-- LHINT at the flag's home: a demand stream-in for an ABSENT layer, or a retry of a FAULTED one. -/
def lhintHome (s : State) (x : Ctx) (l : Nat) (e : Layer) : State :=
  if flagState e.flag = 0 || flagState e.flag = 3 then demandLayer s x l e else s

/-- LREL. -/
def execLrel (l : BitVec 12) (froma : BitVec 1) (s : State) : Out :=
  finish s (match reachLayer true s l froma with
    | .error e => .error e
    | .ok (t, x, n, e) => .ok (awaitAck s (lrelHome t x n e s.core.num s.core.regs.pc) e.home).advance)

/-- LHINT. -/
def execLhint (l : BitVec 12) (froma : BitVec 1) (s : State) : Out :=
  finish s (match reachLayer true s l froma with
    | .error e => .error e
    | .ok (t, x, n, e) => .ok (awaitAck s (lhintHome t x n e) e.home).advance)

/-- LWAIT_AT_HOME: core g's LWAIT of a layer is performed, when that is the instruction it stands at. -/
def execLwaitAtHome (g layer : Nat) (s : State) : Out :=
  let t := switchTo s g
  if g < Config.nVaults && t.core.sched.running && !t.core.sched.halted then
    match fetchWord t t.core.regs.pc with
    | .ok (t1, w) =>
      match decode w with
      | .ok (.lwait l froma) =>
        if (if froma = 1 then t.core.regs.a.toNat else l.toNat) = layer then execLwait l froma t1 else .next s
      | _ => .next s
    | .error _ => .next s
  else .next s

/-- The context of core g with a layer's entry. -/
def layerAt (s : State) (g l : Nat) : Option (Ctx × Layer) :=
  (ctxOf s (coreOf s g).ctx).bind (fun x => if l < x.layerCount then (layerOf s x l).map (fun e => (x, e)) else none)

/-- LREL_AT_HOME: a posted unpin of core g is performed (05 R107); at which address its LREL stands the step does not say, so the TRAPPC of a poisoned
flag word is a free value (DESIGN CHOICE, log entry 3). -/
def execLrelAtHome (g layer : Nat) (s : State) : Out :=
  .next (match layerAt s g layer with
    | some (x, e) =>
      let (pc, t) := freeNext s
      lrelHome t x layer e g pc
    | none => s)

/-- LHINT_AT_HOME: a posted hint of core g is performed (05 R107). -/
def execLhintAtHome (g layer : Nat) (s : State) : Out :=
  .next (match layerAt s g layer with
    | some (x, e) => lhintHome s x layer e
    | none => s)

end Sys2Proof.Machine
end

