-- ==== Sys2Proof/Machine/Regions.lean ====
section
/-! DEFINITION. The step home, and the merge of an ordered launch (07 R124, R133, R135, 08 R143, R144). -/

namespace Sys2Proof.Machine

/-! ## STEP at the step home (07 R124, R133) -/

/-- STEP_INCREMENT: the oldest STEP that waits is accepted, once sweeping has caught up. -/
def execStepIncrement (s : State) : Out :=
  .next (match ctxOf s s.unit with
    | none => s
    | some x =>
      match x.stepReq with
      | [] => s
      | g :: r =>
        if !stepAllowed x then s
        else
          let s1 := updTask (addStep s x) x.num g (fun c => { c with sched := { c.sched with stepDone := true } })
          let s2 := due (updCtx s1 x.num (fun c => { c with stepReq := r })) x.num .stepBroadcast
          if r.isEmpty then s2 else due s2 x.num .stepIncrement)

/-- STEP_BROADCAST: every home and core holds the new value. -/
def execStepBroadcast (s : State) : Out :=
  .next (match ctxOf s s.unit with
    | none => s
    | some x => takeStep s x)

/-! ## Conflicts (08 R144) -/

/-- The entries of a launch's journals, each with its core. -/
def launchEntries (s : State) (l : Launch) : List (Nat × JEntry) :=
  (launchCores l.lrec l.table).eraseDups.flatMap (fun g => (journal s g).map (fun e => (g, e)))

/-- The access of an entry of core g, as the homes make it. -/
def entryCmd (cx g : Nat) : Cmd := { (default : Cmd) with ecw0 := 1, core := g, ctx := cx, key := mergeKey g }

/-- What the homes find at a journaled address of a core's task. -/
def entryHome (s : State) (cx g va : Nat) : Except (BitVec 8 × Nat) (State × Nat) := engineHome s (entryCmd cx g) va true

/-- Where a journaled address lies, whether or not its home can take it now: a link that is down or a page that a migration holds still names the
byte, and an address that translates no more stands for itself (08 R144). -/
def entryPlace (s : State) (cx g va : Nat) : Nat :=
  match entryHome s cx g va with
  | .ok (_, h) => h
  | .error _ => (((ctxOf s cx).bind (fun x => x.pages.find? (fun p => p.has cx va))).map (fun p => p.phys va)).getD (2 ^ 72 + va)

/-- An entry that combines with others of its doubleword: an ATOM, and a STAMP of SADD, SADD.N, SMRG or SREBASE, which never conflict
(07 R134; DEDUCED, log entry 12). -/
def JEntry.combines (e : JEntry) : Bool := e.kind == 1 || (e.kind == 2 && (e.fn == 2 || e.fn == 3 || e.fn == 4 || e.fn == 6))

/-- A byte that an entry covers: where it lies, its address, the task, and whether the entry combines with others. -/
structure JByte where
  home : Nat
  va   : Nat
  tid  : Nat
  atom : Bool
  deriving DecidableEq, Repr

/-- The bytes of an entry's write set. -/
def entryBytes (s : State) (cx : Nat) (e : Nat × JEntry) : List JByte :=
  if 2 < e.2.kind then []
  else
    let h := entryPlace s cx e.1 e.2.dwa
    ((List.range 8).filter e.2.mask.testBit).map (fun i => { home := h + i, va := e.2.dwa + i, tid := e.2.tid, atom := e.2.combines })

/-- Do two bytes conflict. -/
def JByte.clash (a b : JByte) : Bool := a.home == b.home && a.tid != b.tid && !(a.atom && b.atom)

/-- The lower of two conflicts, by address and then by task ids. -/
def lowerConflict (a : Option (Nat × Nat × Nat)) (b : Nat × Nat × Nat) : Option (Nat × Nat × Nat) :=
  match a with
  | none => some b
  | some c => if b.1 < c.1 || (b.1 == c.1 && (b.2.1 < c.2.1 || (b.2.1 == c.2.1 && b.2.2 < c.2.2))) then some b else some c

/-- The lowest conflicting byte with its two task ids. DEDUCED: log entry 12. -/
def conflictOf (bs : List JByte) : Option (Nat × Nat × Nat) :=
  bs.foldl (fun best a => (bs.filter a.clash).foldl (fun k b => lowerConflict k (min a.va b.va, min a.tid b.tid, max a.tid b.tid)) best) none

/-! ## Applying (08 R143) -/

/-- Entries by rising task id, each task's in journal order. -/
def insertEntry (e : Nat × JEntry) : List (Nat × JEntry) → List (Nat × JEntry)
  | [] => [e]
  | f :: r => if e.2.tid ≤ f.2.tid then e :: f :: r else f :: insertEntry e r

/-- The core of a context as it stands, running or saved. -/
def taskCore (s : State) (cx g : Nat) : Core :=
  if (coreOf s g).ctx = cx then coreOf s g else ((s.saves.find? (fun e => e.1 == cx * 2048 + g)).map (·.2)).getD (coreOf s g)

/-- The address of the instruction that an entry of core g stands for; 0 for one that no instruction appended. -/
def entryPc (s : State) (cx g pos : Nat) : Word := (((taskCore s cx g).sched.journalPcs.find? (fun e => e.1 == pos)).map (·.2)).getD 0

/-- An upcall on core g for an entry that its home or port cannot apply, with TRAPPC at its instruction (07 R129, 19 R326). -/
def entryUpcall (s : State) (cx : Nat) (e : Nat × JEntry) (cause : BitVec 8) (va x : Nat) : State :=
  raiseUpcall s cx e.1 { cause := cause, addr := BitVec.ofNat 64 va, pc := entryPc s cx e.1 e.2.pos, x := BitVec.ofNat 64 x }

/-- The bytes of a STORE entry written. -/
def applyStore (s : State) (h : Nat) (e : JEntry) : State :=
  if e.mask = 255 then performWrite s h 8 e.data.toNat false
  else ((List.range 8).filter e.mask.testBit).foldl (fun t i => performWrite t (h + i) 1 (e.data.toNat / 2 ^ (8 * i) % 256) false) s

/-- First byte and size of an ATOM entry's operand. -/
def atomSpan (mask : Nat) : Nat × Nat :=
  let bs := (List.range 8).filter mask.testBit
  (bs.headD 0, bs.length)

/-- An ATOM entry performed on the home's current value. -/
def applyAtom (s : State) (cx h : Nat) (k : Nat × JEntry) : State :=
  let e := k.2
  let (lo, n) := atomSpan e.mask
  let va := e.dwa + lo
  if e.fn = 0x40 then joinDec s cx (h + lo) (BitVec.ofNat 64 va) k.1 (entryPc s cx k.1 e.pos)
  else if (poisonIn s.poison (h + lo) n).isSome then entryUpcall s cx k cECC (va / 8 * 8) 0
  else
    let s1 := loadLine s (h + lo) n true
    performWrite s1 (h + lo) n (atomOp (e.fn % 16) n (homeRead s1 (h + lo) n) (e.data.toNat % 2 ^ (8 * n))) false

/-- A STAMP entry performed against the home's now. -/
def applyStamp (s : State) (cx h : Nat) (k : Nat × JEntry) : State :=
  let e := k.2
  match ctxOf s cx with
  | none => s
  | some x =>
    match regionClass x e.dwa h with
    | none => entryUpcall s cx k cSTAMP e.dwa 1
    | some cls =>
      if (poisonIn s.poison h 8).isSome then entryUpcall s cx k cECC e.dwa 0
      else match stampAt s x cls h e.fn e.data with
        | .ok (t, _) => t
        | .error c => entryUpcall s cx k cSTAMP e.dwa c

/-- The bytes of an applied entry go out on their link where they lie in the host window (03 R68). -/
def emitEntry (s : State) (cx h : Nat) (e : JEntry) : State := emit s cx true (h + (atomSpan e.mask).1) (atomSpan e.mask).2 true

/-- An entry applied; a host or peer that cannot take it is reported (21 R360), and so is an address that no longer
translates. -/
def applyEntry (cx : Nat) (s : State) (e : Nat × JEntry) : State :=
  if 2 < e.2.kind then s
  else match entryHome s cx e.1 e.2.dwa with
    | .error (f, _) => reportLost s f (BitVec.ofNat 64 e.2.dwa)
    | .ok (t, h) =>
      match e.2.kind with
      | 0 => emitEntry (applyStore t h e.2) cx h e.2
      | 1 => emitEntry (applyAtom t cx h e) cx h e.2
      | _ => applyStamp t cx h e

/-- The number of the task that parked at OBAR on core g with a task id; 0 for one that has ended. -/
def parkedOwner (s : State) (cx g tid : Nat) : Nat :=
  let of := fun (p : Parked) =>
    let t : Option TaskState := match p.frame with
      | .frame n => some (readFrame s g n)
      | .away ts _ _ _ => some ts
      | .none => none
    t.bind (fun t => if p.core = g && p.layer.isNone && t.id.tid.toNat = tid then some t.owner else none)
  (((ctxOf s cx).bind (fun x => x.parked.findSome? of))).getD 0

/-- A CMD entry accepted by its core's port, false while the port has no place or a RESUME's record is not to be had yet; one that R77 refuses raises
the fault as an upcall on the core. DEDUCED: log entry 12. -/
def applyCmd (cx : Nat) (s : State) (e : Nat × JEntry) : State × Bool :=
    let t := switchTo s e.1
    let c := t.core
    let w := fun (i : Nat) => e.2.cmd.getD i 0
    let p := { c.port with ecw0 := w 0, ecw1 := w 1, ecw2 := w 2, ecw3 := w 3, owner := parkedOwner s cx e.1 e.2.tid }
    let t1 := { t with core := { c with ctx := cx, port := p } }
    let c0 := goCmd t1 e.2.data
    let own := fun (q : Port) =>
      { q with ecw0 := c.port.ecw0, ecw1 := c.port.ecw1, ecw2 := c.port.ecw2, ecw3 := c.port.ecw3, owner := c.port.owner }
    let back := fun (u : State) => { u with core := { u.core with ctx := c.ctx, port := own u.core.port } }
    let done := match goFault t1 c0 true with
      | some (.fault f a x) => (entryUpcall (back t1) cx e f a.toNat x.toNat, true)
      | some .wait => (back (askRecord t1 c0), false)
      | none => if portFull t1 then (back t1, false) else (back (acceptCmd t1 c0), true)
    (switchTo done.1 s.core.num, done.2)

/-- The commands of a merge from the k-th on, until one has to wait: how many have been accepted, and whether all have. -/
def applyCmds (cx : Nat) : State → Nat → List (Nat × JEntry) → State × Nat × Bool
  | s, k, [] => (s, k, true)
  | s, k, e :: r =>
    let t := applyCmd cx s e
    if t.2 then applyCmds cx t.1 (k + 1) r else (t.1, k, false)

/-- The host links that the entries of a merge write. -/
def mergeLinks (s : State) (cx : Nat) (es : List (Nat × JEntry)) : BitVec 2 :=
  es.foldl (fun b e => let h := entryPlace s cx e.1 e.2.dwa
    if e.2.kind ≤ 1 && isHost h then b ||| (1 <<< hostLink s h) else b) 0

/-- Every entry's home free of claims, and none held by a migration or by a walk that the driver has still to answer; the entries that must wait
come first. -/
def settleEntries (cx : Nat) : State → List (Nat × JEntry) → State × Bool
  | s, [] => (s, true)
  | s, e :: r =>
    if 2 < e.2.kind then settleEntries cx s r
    else match entryHome s cx e.1 e.2.dwa with
      | .error (f, sub) =>
        if f = 0 then (if sub = 1 then askService s (entryCmd cx e.1) (true, e.2.dwa, 8) else s, false) else settleEntries cx s r
      | .ok (t, h) =>
        let k := settle t h 16 true
        if k.2 then settleEntries cx k.1 r else k

/-! ## The three phases (08 R143) -/

/-- ORDERED_MERGE: every task has ended or stands at OBAR, and the write sets go out. -/
def execOrderedMerge (ctx slot : Nat) (s : State) : Out :=
  .next (match launchOf s ctx slot with
    | none => s
    | some l =>
      if l.ordered && l.ended + l.atObar = l.total && l.merging.isNone then
        due (updLaunch s ctx slot (fun k => { k with merging := some none })) ctx (.mergeCheck ctx slot)
      else s)

/-- MERGE_CHECK: a conflict abandons the merge, else every entry is applied, then the commands are accepted, each once its port takes it; the
journals are emptied either way. -/
def execMergeCheck (ctx slot : Nat) (s : State) : Out :=
  .next (match launchOf s ctx slot with
    | none => s
    | some l =>
      if l.merging != some none then s
      else
        let es := launchEntries s l
        let empty := fun (t : State) =>
          let gs := (launchCores l.lrec l.table).eraseDups
          due (gs.foldl (fun u g => jclear (dropAsks u ctx (mergeKey g)) g) t) ctx (.mergeCompletion ctx slot)
        let sorted := es.foldr insertEntry []
        let accept := fun (t : State) (n : Nat) =>
          let k := applyCmds ctx t n ((sorted.filter (fun e => e.2.kind == 4)).drop n)
          if k.2.2 then empty (updLaunch k.1 ctx slot (fun l => { l with cmds := none }))
          else due (updLaunch k.1 ctx slot (fun l => { l with cmds := some k.2.1 })) ctx (.mergeCheck ctx slot)
        match l.cmds with
        | some n => accept s n
        | none =>
          match conflictOf (es.flatMap (entryBytes s ctx)) with
          | some c => empty (updLaunch s ctx slot (fun k => { k with merging := some (some c) }))
          | none =>
            let k := settleEntries ctx s es
            if !k.2 then due k.1 ctx (.mergeCheck ctx slot)
            else accept (updLaunch (sorted.foldl (applyEntry ctx) k.1) ctx slot (fun l => { l with wrote := l.wrote ||| mergeLinks s ctx es })) 0)

/-- A task parked at OBAR resumes at level 1 (10 R171). -/
def resumeParked (cx : Nat) (s : State) (p : Parked) : State :=
  match p.frame with
  | .frame n => enqueue s cx p.core { level := 1, work := .resume n, entered := 0, aged := false }
  | .away ts _ _ _ =>
    updCtx s cx (fun x => { x with queue := x.queue ++ [(p.core, { level := 1, work := .resumeAway ts, entered := s.clock, aged := false })] })
  | .none => s

/-- ORDCONF at a parked task's OBAR: a precise trap whose frame resumes after the OBAR (08 R144). -/
def ordconfParked (addr x : Word) (cx : Nat) (s : State) (p : Parked) : State :=
  let i : TrapInfo := { cause := cORDCONF, addr := addr, pc := p.pc, x := x }
  match p.frame with
  | .frame n =>
    enqueueFront (takeOver false s cx p.core n false cORDCONF (p.pc + 4) 0) cx p.core { level := 0, work := .handler false i (.frame n), entered := 0, aged := false }
  | .away ts _ _ _ =>
    enqueueFront s cx p.core { level := 0, work := .handler false i (.away ts 1 cORDCONF 0), entered := 0, aged := false }
  | .none => s

/-- The tasks at OBAR leave the list. -/
def unparkObar (s : State) (cx slot : Nat) : State × List Parked :=
  let mine := fun (p : Parked) => p.layer.isNone && p.slot == slot
  match ctxOf s cx with
  | none => (s, [])
  | some x => (updCtx s cx (fun c => { c with parked := c.parked.filter (fun p => !mine p) }), x.parked.filter mine)

/-- MERGE_COMPLETION: parked tasks resume, or take ORDCONF; at the launch's end its join is decremented, or ORDCONF is an
upcall on the core that executed the LAUNCH. -/
def execMergeCompletion (ctx slot : Nat) (s0 : State) : Out :=
  let s := releaseLaunch s0 ctx slot
  .next (match launchOf s ctx slot with
    | none => s
    | some l =>
      match l.merging with
      | none => s
      | some verdict =>
        let (s1, ps) := unparkObar s ctx slot
        let s2 := updLaunch s1 ctx slot (fun k => { k with merging := none, atObar := 0 })
        let ended := l.ended == l.total
        match verdict with
        | none =>
          if !ended then ps.foldl (resumeParked ctx) s2
          else
            let t := completeLaunch s2 ctx l
            if t.2 then t.1 else due (updLaunch t.1 ctx slot (fun k => { k with merging := some verdict })) ctx (.mergeCompletion ctx slot)
        | some (a, lo, hi) =>
          let addr : Word := BitVec.ofNat 64 a
          let x : Word := BitVec.ofNat 64 (hi * 2 ^ 32 + lo)
          if !ended then ps.foldl (ordconfParked addr x ctx) s2
          else
            updCtx (raiseUpcall s2 ctx l.core { cause := cORDCONF, addr := addr, pc := 0, x := x }) ctx
              (fun c => { c with launches := c.launches.filter (fun k => k.slot != slot) }))

end Sys2Proof.Machine
end

