-- ==== Sys2Proof/Machine/Held.lean ====
section
/-! DEFINITION. What a halt makes of the matrix engine, and how the engine goes on (16 R278, 10 R184). A tile instruction is performed at its
issue; a halt inside one takes back what lies beyond the place that the engine has reached, and the resume performs it. -/

namespace Sys2Proof.Machine

/-! ## A held instruction performed again from what it found -/

/-- The first `lim` units of an instruction that a halt can stop inside (16 R278); none for another. -/
def heldPart (lim : Nat) (i : Instr) : Option (State → TileRes) :=
  match i with
  | .tld ac pa fl => some (tldPart lim ac pa fl)
  | .twr ac pa fl => some (twrPart lim ac pa fl)
  | .tdrain ac pa fl => some (tdrainPart lim ac pa fl)
  | .tqnt ac pa fl => some (tqntPart lim ac pa fl)
  | .tcmpr pa pb fl => some (tcmprPart lim pa pb fl)
  | .tred ac pa fl => some (tredPart lim ac pa fl)
  | .tsmax ac => some (tsmaxPart lim ac)
  | .mma ac pa pb fl => some (mmaPart lim false none ac pa pb fl)
  | .mmas ac pa pb fl => some (mmaPart lim true none ac pa pb fl)
  | _ => none

/-- A device that holds only what the instruction found: its core, registers and tiles, and its vault, which its context reaches. -/
def TileRun.found (r : TileRun) (x : Ctx) : State :=
  let c := Core.reset r.num
  { State.reset with
      core := { c with ctx := x.num, regs := r.regs, csr := { c.csr with dgkey := r.key, dgctr := r.ctr }, mx := { c.mx with tiles := r.tiles, bypass := r.bypass } },
      mem := r.vault, poison := r.poison, freeCtr := r.free, ctxs := [{ x with grant := BitVec.allOnes 128 }] }

/-- What the first `lim` units make of it, and the word that stops the engine. -/
def TileRun.after (r : TileRun) (x : Ctx) (i : Instr) (lim : Nat) : Option (State × Option Word) :=
  (heldPart lim i).bind (fun f => match f (r.found x) with
    | .ok t => some t
    | .error _ => none)

/-- Units of work of an instruction, in the state that it found. -/
def heldUnits (s : State) (i : Instr) : Nat :=
  let mul := fun (sparse : Bool) (ac : BitVec 2) (pa pb : BitVec 3) (fl : BitVec 6) => match mmaPlan sparse ac pa pb fl s with
    | .ok (_, p) => p.units
    | .error _ => 0
  match i with
  | .mma ac pa pb fl => mul false ac pa pb fl
  | .mmas ac pa pb fl => mul true ac pa pb fl
  | .tld _ pa _ | .tcmpr pa _ _ => ((viewAt s pa).rows + 15) / 16
  | .twr ac _ _ | .tdrain ac _ _ | .tqnt ac _ _ | .tred ac _ _ | .tsmax ac => s.core.mx.nr ac / 16
  | _ => 0

/-- The own-vault ranges that an instruction writes, as offsets and lengths, in the state that it found. -/
def heldSpans (s : State) (i : Instr) : List (Nat × Nat) :=
  match i with
  | .twr _ pa _ | .tdrain _ pa _ | .tqnt _ pa _ => (viewAt s pa).span
  | .tcmpr pa pb fl =>
    let v := viewAt s pa
    let w := viewAt s pb
    w.span ++ [(ownOffset w.cptb, if fl = 0 then metaBytes v.rows v.cols else metaBytes v.cols v.rows)]
  | .tred ac pa fl => [(ownOffset (s.ptr pa).addr, 4 * (if fl.getLsbD 0 then s.core.mx.nc ac else s.core.mx.nr ac))]
  | _ => []

/-- RSDPOS of an instruction of n units, `pos` of which are done (16 R278). -/
def rsdposOf (i : Instr) (n pos : Nat) : Word :=
  let mul := fun (fl : BitVec 6) =>
    let groups := if fl.getLsbD 4 then n / 2 else n
    pos / groups * 2 ^ 62 + pos % groups * 2 ^ 8
  BitVec.ofNat 64 (2 ^ 63 + match i with
    | .mma _ _ _ fl | .mmas _ _ _ fl => mul fl
    | _ => pos * 2 ^ 32)

/-! ## Between two places that the engine has reached -/

/-- The n low bytes of `cur`, those that are as in `old` becoming as in `new`. -/
def mixBytes : Nat → Nat → Nat → Nat → Nat
  | 0, _, _, _ => 0
  | n + 1, cur, old, new =>
    (if cur % 256 = old % 256 then new % 256 else cur % 256) + 256 * mixBytes n (cur / 256) (old / 256) (new / 256)

/-- The bytes of ranges of core g's vault that the run has written, from its state `a` to its state `b`; bytes that others have written since
stay. -/
def moveSpans (s : State) (g : Nat) (r : TileRun) (a b : State) (spans : List (Nat × Nat)) : State :=
  let s1 := spans.foldl (fun t e =>
    let k := vaultHome r.num e.1
    homeWrite t (vaultHome g e.1) e.2 (mixBytes e.2 (homeRead t (vaultHome g e.1) e.2) (homeRead a k e.2) (homeRead b k e.2))) s
  let bad := b.poison.filter (fun w => spans.any (fun e => wordInside (vaultHome r.num e.1) e.2 w))
  { s1 with poison := bad.foldl (fun p w => insertNat (w - vaultHome r.num 0 / 8 + vaultHome g 0 / 8) p) s1.poison }

/-- The tiles of a state of the run, pending as they are on the core. -/
def runTiles (m : Matrix) (t : State) : Vector Tile 4 := Vector.ofFn (fun i : Fin 4 => { t.core.mx.tiles[i] with pend := m.tiles[i].pend })

/-- The unit at which a halt stops an instruction of n units: the next boundary after the time that has passed. -/
def stopUnit (r : TileRun) (n now done : Nat) : Nat :=
  if done ≤ now then n else min n ((now - r.since) * n / (done - r.since) + 1)

/-- A halt stops core g inside its tile instruction; none where the instruction is over, or runs to its end first. The instruction keeps the
time that is left. DESIGN CHOICE: log entry 22. -/
def stopRun (s : State) (g : Nat) : Option State :=
  let c := coreOf s g
  match c.mx.run, ctxOf s c.ctx, decode c.mx.rsdWord with
  | some r, some x, .ok i =>
    let f := r.found x
    let n := heldUnits f i
    let pos := stopUnit r n (max s.clock c.csr.here) c.mx.doneAt
    if c.mx.ops = 0 || c.sluice.shadow.isSome || n ≤ pos then none
    else match r.after x i allUnits, r.after x i pos with
      | some (full, none), some (part, _) =>
        let total := c.mx.doneAt - r.since
        some (updCore (moveSpans s g r full part (heldSpans f i)) g (fun k =>
          { k with mx := { k.mx with tiles := runTiles k.mx part, rsd := part.core.mx.rsd, rsdpos := rsdposOf i n pos, doneAt := total - total * pos / n,
                                     run := some { r with since := total * pos / n, pos := pos } } }))
      | _, _ => none
  | _, _, _ => none

/-- A halt finds core g's engine: a group is rolled back, a long instruction stops inside, a short one runs to its end (16 R278, 18 R317). -/
def haltEngine (s : State) (g : Nat) : State :=
  match stopRun s g with
  | some t => t
  | none => updCore s g (fun c => c.dropGroup.tileDone)

/-- Core g's engine goes on with a held instruction, at its position and in the time that was left; the rest of its results equal those of
an uninterrupted run (16 R278, 15 R259). DESIGN CHOICE: log entry 22. -/
def goOn (s : State) (g : Nat) : State :=
  let c := coreOf s g
  match c.mx.run, ctxOf s c.ctx, decode c.mx.rsdWord with
  | some r, some x, .ok i =>
    if c.mx.ops = 0 || !c.mx.rsdpos.getLsbD 63 then s
    else match r.after x i allUnits, r.after x i r.pos with
      | some (full, _), some (part, _) =>
        updCore (moveSpans s g r part full (heldSpans (r.found x) i)) g (fun k =>
          { k with mx := { k.mx with tiles := runTiles k.mx full, doneAt := s.clock + k.mx.doneAt, run := some { r with since := s.clock - r.since } } })
      | _, _ => s
  | _, _, _ => s

end Sys2Proof.Machine
end

