-- ==== Sys2Proof/Machine/System.lean ====
section
/-! DEFINITION. The SYS major but for CSAVE and CRST: control and status registers, traps, TLB control, the sluice's table, IDLE and WDOG
(11 R197, R198, 19 R327-R336). -/

namespace Sys2Proof.Machine

/-! ## Control and status registers (11 R197, 01 R12, 10 R162, 16 R263, 18 R309, 09 R161) -/

/-- COREID (01 R12). -/
def coreId (g : Nat) : Word := BitVec.ofNat 64 (if isCompute g then g else 2 ^ 10 + clusterOf g * 8)

/-- LAUNCHID (10 R162). -/
def launchIdOf (i : Ident) : Word := BitVec.ofNat 64 (i.seq.toNat * 256 + i.slot.toNat)

/-- CNTS (11 R197). -/
def cntsOf (s : State) : Word :=
  BitVec.ofNat 64 (min (tileOps s) 255 * 2 ^ 24 + min (copiesOf s) 255 * 2 ^ 16 + min (storesOut s) 255 * 2 ^ 8 + min (loadsOut s) 255)

/-- One bit as a number. -/
def bit (b : Bool) : Nat := if b then 1 else 0

/-- RWCTL (18 R309). -/
def rwctlOf (u : Sluice) : Word := BitVec.ofNat 64 (bit u.en + bit u.s * 2 + bit u.a * 4 + bit u.skip * 8)

/-- STATE of RKSTAT (09 R161). -/
def rkStateCode : RkState → Nat
  | .idle => 0
  | .recv => 1
  | .paused => 2
  | .drain => 3
  | .bwd => 4

/-- RKSTAT (09 R161). -/
def rkstatOf (r : Rank) : Word :=
  BitVec.ofNat 64 (r.stream % 256 * 2 ^ 24 + r.prod % 16 * 2 ^ 20 + r.slot % 64 * 2 ^ 14 + bit r.nan * 2 ^ 13 + bit r.sat * 2 ^ 12 +
    bit r.emitting * 2 ^ 11 + r.endc.toNat * 2 ^ 8 + bit r.stray * 2 ^ 7 + rkStateCode r.state)

/-- TSTAT (16 R263). -/
def tstatOf (m : Matrix) : Word :=
  let f := fun (i : Nat) (t : Tile) => (t.fmt.toNat * 4 + t.shape.toNat) * 2 ^ (4 * i + 16) + bit t.pend * 2 ^ (8 + i) + bit t.live * 2 ^ (4 + i)
  BitVec.ofNat 64 (m.tiles.toList.zipIdx.foldl (fun a e => a + f e.2 e.1) 0 + bit (m.rsdpos.getLsbD 63) * 2 ^ 13 + bit m.narrow * 2 ^ 12)

/-- GSTEP, DECAYB and SRTB are the context's (07 R123, R127). -/
def ofCtx (s : State) (f : Ctx → Word) : Word :=
  match myCtx s with
  | some x => f x
  | none => 0

/-- The value of a user CSR (11 R197). -/
def csrRead (s : State) (n : Nat) : Word :=
  let c := s.core
  match n with
  | 0x000 => zx c.id.tid
  | 0x001 => zx c.id.coord
  | 0x002 => coreId c.num
  | 0x003 => zx c.id.stage
  | 0x004 => BitVec.ofNat 64 (c.ctx % 64)
  | 0x005 => launchIdOf c.id
  | 0x008 => zx c.regs.vl
  | 0x009 => zx c.regs.frm
  | 0x00A => zx c.regs.fflags
  | 0x010 => cntsOf s
  | 0x018 => c.csr.cyc
  | 0x019 => BitVec.ofNat 64 (s.clock / 21)
  | 0x020 => ofCtx s (·.held)
  | 0x021 => ofCtx s (·.decayb)
  | 0x022 => ofCtx s (·.srtb)
  | 0x028 => c.csr.dgkey
  | 0x029 => c.csr.dgctr
  | 0x030 => rwctlOf c.sluice
  | 0x031 => c.sluice.rwrec
  | 0x032 => zx c.sluice.hits
  | 0x038 => rkstatOf c.rank
  | 0x039 => BitVec.ofNat 64 c.rank.cnt
  | 0x03A => zx c.rank.watch
  | 0x03B => zx c.rank.marg
  | 0x03C => zx c.rank.wmax
  | 0x040 => tstatOf c.mx
  | 0x050 => zx c.csr.trap.cause
  | 0x051 => c.csr.trap.addr
  | 0x052 => c.csr.trap.pc
  | 0x053 => c.csr.trap.x
  | 0x058 => c.csr.wdogl
  | 0x059 => c.csr.wage
  | 0x060 => c.csr.upcv
  | 0x061 => c.csr.trapv
  | _ => 0

/-- Changes the current core's CSRs. -/
def State.withCsr (s : State) (f : Csrs → Csrs) : State := { s with core := { s.core with csr := f s.core.csr } }
/-- Changes the current core's rank unit. -/
def State.withRank (s : State) (f : Rank → Rank) : State := { s with core := { s.core with rank := f s.core.rank } }
/-- Changes the current core's sluice. -/
def State.withSluice (s : State) (f : Sluice → Sluice) : State := { s with core := { s.core with sluice := f s.core.sluice } }

/-- Is an FP32 pattern finite and not negative; -0 counts as negative (11 R198; DEDUCED, log entry 13). -/
def finiteNotNegative (w : W32) : Bool := w.toNat < 0x7F800000

/-- Does a value lie in the range of a CSR that it is written to (11 R198). -/
def csrRange (n : Nat) (v : Word) : Bool :=
  match n with
  | 0x008 => 1 ≤ v.toNat && v.toNat ≤ 4096
  | 0x009 => v.toNat ≤ 3
  | 0x00A => v.toNat < 2 ^ 5
  | 0x030 => v.toNat < 2 ^ 4
  | 0x03A => v.toNat < 2 ^ 32
  | 0x03C => v.toNat < 2 ^ 32 && finiteNotNegative (BitVec.ofNat 32 v.toNat)
  | 0x060 => v.toNat % 4 == 0 && v.toNat < 2 ^ 56
  | 0x061 => v.toNat % 4 == 0 && v.toNat < 2 ^ 56
  | 0x021 => v.toNat % 128 == 0 && v.toNat < 2 ^ 56
  | 0x022 => v.toNat % 1024 == 0 && v.toNat < 2 ^ 56
  | _ => true

/-- A write of a user CSR other than DECAYB and SRTB; one that is read-only is left (11 R197, R198, 18 R309). -/
def csrWrite (s : State) (n : Nat) (v : Word) : State :=
  let r := s.core.regs
  match n with
  | 0x008 => s.withRegs { r with vl := BitVec.ofNat 13 v.toNat }
  | 0x009 => s.withRegs { r with frm := BitVec.ofNat 2 v.toNat }
  | 0x00A => s.withRegs { r with fflags := BitVec.ofNat 5 v.toNat }
  | 0x028 => s.withCsr (fun c => { c with dgkey := v })
  | 0x029 => s.withCsr (fun c => { c with dgctr := v })
  | 0x030 => s.withSluice (fun u => { u with en := v.getLsbD 0, s := v.getLsbD 1, a := v.getLsbD 2, hits := 0, rwrec := 0 })
  | 0x03A => s.withRank (fun k => { k with watch := BitVec.ofNat 32 v.toNat })
  | 0x03C => s.withRank (fun k => { k with wmax := BitVec.ofNat 32 v.toNat })
  | 0x059 => s.withCsr (fun c => { c with wage := v })
  | 0x060 => s.withCsr (fun c => { c with upcv := v })
  | 0x061 => s.withCsr (fun c => { c with trapv := v })
  | _ => s

/-- The word of a SYS instruction (19 R329). -/
def sysWord (fn imm : Nat) : W32 := BitVec.ofNat 32 (0x0F + fn * 2 ^ 6 + imm * 2 ^ 12)

/-- DBGCTL's number (19 R331). -/
def csrDbgctl : Nat := 0x880

/-- MFS; a firmware CSR that the manual does not describe reads as a free value (DESIGN CHOICE, log entry 36). -/
def execMfs (csr : BitVec 12) (s : State) : Out :=
  finish s (if csr.toNat < 0x800 then .ok (s.setA (csrRead s csr.toNat)).advance
    else match privileged s (sysWord 0 csr.toNat) csr with
      | .error e => .error e
      | .ok _ =>
        if csr.toNat = csrDbgctl then .ok (s.setA (zxBool s.core.csr.dbgStep)).advance
        else .ok ((freeNext s).2.setA (freeNext s).1).advance)

/-- MTS; a write of a firmware CSR that the manual does not describe changes nothing that another instruction reads (DESIGN CHOICE, log entry 36). -/
def execMts (csr : BitVec 12) (s : State) : Out :=
  let v := s.core.regs.a
  finish s (if csr.toNat < 0x800 then
      if !csrRange csr.toNat v then .error (operand 0 0)
      else if csr.toNat = 0x021 then loadTable s tableDecay v
      else if csr.toNat = 0x022 then loadTable s tableRegion v
      else .ok (csrWrite s csr.toNat v).advance
    else match privileged s (sysWord 1 csr.toNat) csr with
      | .error e => .error e
      | .ok _ =>
        if csr.toNat = csrDbgctl then .ok (s.withCsr (fun c => { c with dbgStep := v.getLsbD 0 })).advance
        else .ok s.advance)

/-! ## TRAP and RFT (19 R327, R330) -/

/-- TRAP. -/
def execTrap (n : BitVec 20) (s : State) : Out := finish s (.error (.trapIn (leaveStepped s) cSYSCALL 0 (zx n) (s.core.regs.pc + 4)))

/-- RFT: a task of an ordered launch that it restores opens its part of the journal where the last one is not its own (08 R140). -/
def execRft (s : State) : Out :=
  finish s (match returnFrom s s.core.regs.a with
    | .ok t => .ok (openJournal t)
    | .error e => .error e)

/-! ## TLBW and TLBI (19 R333, 06 R113-R115) -/

/-- A 16-byte record of the own vault at a, 16-aligned: its two doublewords. -/
def ownPair (s : State) : Res (State × Word × Word) :=
  let va := s.core.regs.a
  if spaceOf va != .reserved && va.toNat % 16 != 0 then .error (.trap cALIGN va 0)
  else match checkOperand s va 16 with
    | .error e => .error e
    | .ok off =>
      match vaultFetch s va off 16 with
      | .error e => .error e
      | .ok (t, v) => .ok (t, BitVec.ofNat 64 v, BitVec.ofNat 64 (v / 2 ^ 64))

/-- The entry image's page, none where TLBW refuses it; an image with V clear holds no page (06 R113). DEDUCED: log entry 38. -/
def imagePage (w0 w1 : Word) : Option Page :=
  let p : Page := { va := bits w0 55 12 * 2 ^ 12, size := bits w0 11 10, ctx := bits w0 5 0, pa := bits w1 47 12 * 2 ^ 12,
                    cow := w1.getLsbD 10, tier := bits w1 9 8, il := w1.getLsbD 7, mig := w1.getLsbD 6, x := w1.getLsbD 2,
                    w := w1.getLsbD 1, r := w1.getLsbD 0 }
  if bits w0 63 56 != 0 || bits w0 9 6 != 0 || bits w1 63 48 != 0 || bits w1 5 3 != 0 || !p.accepted then none else some p

/-- TLBW. -/
def execTlbw (s : State) : Out :=
  finish s (match privileged s (sysWord 4 0) 0 with
    | .error e => .error e
    | .ok _ =>
      if isCompute s.core.num then .error (operand 0 0x52)
      else match ownPair s with
        | .error e => .error e
        | .ok (t, w0, w1) =>
          let cl := clusterOf s.core.num
          match (imagePage w0 w1).filter (fun p => p.tier != 1 || featureOn s 1) with
          | none => .ok (t.setT false).advance
          | some p =>
            if w1.getLsbD 11 then .ok ((insertPage t cl p).setT true).advance
            else .ok ((dropPages t cl (fun q => q.overlaps p)).setT true).advance)

/-- The entries of a cluster's TLBs that a predicate picks. -/
def tlbEntries (s : State) (cl : Nat) (f : Page → Bool) : List Page :=
  ((s.clusterTlb.filter (fun e => e.1 == cl)).map (·.2) ++ (s.core :: s.others.map (·.2)).flatMap (fun c => if clusterOf c.num = cl then c.tlb else [])).filter f

/-- TLBI: it stalls while an access through an entry that it removes is still to be performed (06 R115). -/
def execTlbi (all : BitVec 1) (s : State) : Out :=
  finish s (match privileged s (sysWord 5 all.toNat) 0 with
    | .error e => .error e
    | .ok _ =>
      if isCompute s.core.num then .error (operand 0 0x52)
      else match ownPair s with
        | .error e => .error e
        | .ok (t, w0, w1) =>
          if bits w1 31 6 != 0 || (all = 0 && w0.toNat % 4096 != 0) then .error (operand s.core.regs.a 0x53)
          else
            let lo := w0.toNat
            let hi := lo + bits w1 63 32 * 4096
            let cl := clusterOf s.core.num
            let meets := fun (q : Page) => q.ctx == bits w1 5 0 && (all == 1 || (q.va < hi && lo < q.va + pageBytes q.size))
            if (tlbEntries t cl meets).any (stillThrough t (fun c => clusterOf c.num == cl && standsHere t c.ctx c.num)) then .error (.stall t) else .ok (dropPages t cl meets).advance)

/-! ## RWLD, RWSKIP, IDLE, WDOG (18 R310, R318, 19 R335, R336) -/

/-- RWLD: the image is 64-aligned, in translated space or a vault window. -/
def execRwld (s : State) : Out :=
  let a := s.core.regs.a
  finish s (if spaceOf a != .reserved && a.toNat % 64 != 0 then .error (.trap cALIGN a 0)
    else if spaceOf a = .ownVault then .error (operand a 0x40)
    else if spaceOf a = .engine then .error (.trap cENGINE a 0)
    else loadTable s tableRules a)

/-- RWSKIP. -/
def execRwskip (s : State) : Out := finish s (.ok (s.withSluice (fun u => { u with skip := true })).advance)

/-- IDLE. -/
def execIdle (s : State) : Out :=
  finish s (match privileged s (sysWord 0xA 0) 0 with
    | .error e => .error e
    | .ok _ => .ok { s with core := { s.core with sched := { s.core.sched with idling := true } } }.advance)

/-- WDOG. -/
def execWdog (n : BitVec 12) (s : State) : Out :=
  finish s (.ok { s with core := { s.core with sched := { s.core.sched with wdOwn := n.toNat * 4096 } } }.advance)

end Sys2Proof.Machine
end

