-- ==== Sys2Proof/Machine/Scalar.lean ====
section
/-! DEFINITION. IALU, FALU, IIMM and UNF: the accumulator's arithmetic (12 R201-R210). -/

namespace Sys2Proof.Machine

/-! ## Shared shapes -/

/-- An IALU instruction with a sign-extended operand: `f` takes the state after the load, a and m (12 R201, R202). -/
def ialuS (s : State) (m : MOp) (f : State → Word → Word → State) : Out :=
  finish s (match loadOperand s m .probe with
    | .error e => .error e
    | .ok (t, v) => .ok (f t t.core.regs.a (operandS m v)))

/-- An IALU instruction with a zero-extended operand (12 R201, R202). -/
def ialuZ (s : State) (m : MOp) (f : State → Word → Word → State) : Out :=
  finish s (match loadOperand s m .probe with
    | .error e => .error e
    | .ok (t, v) => .ok (f t t.core.regs.a (operandZ v)))

/-- A FALU instruction: `f` takes the state after the load and the values of a and m (12 R201, R204). -/
def falu (s : State) (m : MOp) (f : State → Num → Num → State) : Out :=
  finish s (match loadOperand s m .probe with
    | .error e => .error e
    | .ok (t, v) => .ok (f t (num64 t.core.regs.a) (operandF m v)))

/-- A value rounded into a under FRM, with its flags (12 R205). -/
def roundA (t : State) (r : Num × BitVec 5) : State :=
  let o := toF64 t.core.regs.frm r
  (t.addFlags o.2).setA o.1

/-- Rounding toward −∞ makes an exact zero sum of unlike signs −0 (12 R205). -/
def downward (t : State) : Bool := t.core.regs.frm == 3

/-- An IIMM or UNF instruction that only changes registers. -/
def simple (s : State) (f : State → Word → State) : Out := finish s (.ok (f s.advance s.core.regs.a))

/-- C and a of an addition (12 R202). -/
def addTo (t : State) (a v : Word) : State := (t.setC (carryOut a v false)).setA (a + v)

/-! ## IALU (12 R202, R203) -/

/-- ADD (12 R202). -/
def execAdd (m : MOp) (s : State) : Out := ialuS s m (fun t a v => addTo t a v)
/-- SUB: C is the borrow (12 R202). -/
def execSub (m : MOp) (s : State) : Out := ialuS s m (fun t a v => (t.setC (borrowOut a v false)).setA (a - v))
/-- RSB (12 R202). -/
def execRsb (m : MOp) (s : State) : Out := ialuS s m (fun t a v => (t.setC (borrowOut v a false)).setA (v - a))
/-- AND (12 R202). -/
def execAnd (m : MOp) (s : State) : Out := ialuZ s m (fun t a v => t.setA (a &&& v))
/-- OR (12 R202). -/
def execOr (m : MOp) (s : State) : Out := ialuZ s m (fun t a v => t.setA (a ||| v))
/-- XOR (12 R202). -/
def execXor (m : MOp) (s : State) : Out := ialuZ s m (fun t a v => t.setA (a ^^^ v))
/-- MUL (12 R202). -/
def execMul (m : MOp) (s : State) : Out := ialuS s m (fun t a v => t.setA (a * v))
/-- MULH (12 R202). -/
def execMulh (m : MOp) (s : State) : Out := ialuS s m (fun t a v => t.setA (mulHigh a v))
/-- MULHU (12 R202). -/
def execMulhu (m : MOp) (s : State) : Out := ialuZ s m (fun t a v => t.setA (mulHighU a v))
/-- DIV (12 R203). -/
def execDiv (m : MOp) (s : State) : Out := ialuS s m (fun t a v => t.setA (divS a v))
/-- DIVU (12 R203). -/
def execDivu (m : MOp) (s : State) : Out := ialuZ s m (fun t a v => t.setA (divU a v))
/-- REM (12 R203). -/
def execRem (m : MOp) (s : State) : Out := ialuS s m (fun t a v => t.setA (remS a v))
/-- REMU (12 R203). -/
def execRemu (m : MOp) (s : State) : Out := ialuZ s m (fun t a v => t.setA (remU a v))
/-- MIN (12 R202). -/
def execMin (m : MOp) (s : State) : Out := ialuS s m (fun t a v => t.setA (if v.slt a then v else a))
/-- MAX (12 R202). -/
def execMax (m : MOp) (s : State) : Out := ialuS s m (fun t a v => t.setA (if a.slt v then v else a))
/-- MINU (12 R202). -/
def execMinu (m : MOp) (s : State) : Out := ialuZ s m (fun t a v => t.setA (if v.ult a then v else a))
/-- MAXU (12 R202). -/
def execMaxu (m : MOp) (s : State) : Out := ialuZ s m (fun t a v => t.setA (if a.ult v then v else a))
/-- SHL (12 R202). -/
def execShl (m : MOp) (s : State) : Out := ialuZ s m (fun t a v => t.setA (a <<< shiftCount v))
/-- SHR (12 R202). -/
def execShr (m : MOp) (s : State) : Out := ialuZ s m (fun t a v => t.setA (a >>> shiftCount v))
/-- SAR (12 R202). -/
def execSar (m : MOp) (s : State) : Out := ialuZ s m (fun t a v => t.setA (a.sshiftRight (shiftCount v)))
/-- ROL (12 R202). -/
def execRol (m : MOp) (s : State) : Out := ialuZ s m (fun t a v => t.setA (a.rotateLeft (shiftCount v)))
/-- CMPEQ (12 R202). -/
def execCmpeq (m : MOp) (s : State) : Out := ialuS s m (fun t a v => t.setT (a == v))
/-- CMPLT (12 R202). -/
def execCmplt (m : MOp) (s : State) : Out := ialuS s m (fun t a v => t.setT (a.slt v))
/-- CMPLTU (12 R202). -/
def execCmpltu (m : MOp) (s : State) : Out := ialuZ s m (fun t a v => t.setT (a.ult v))
/-- TST (12 R202). -/
def execTst (m : MOp) (s : State) : Out := ialuZ s m (fun t a v => t.setT (a &&& v != 0))
/-- ADDC (12 R202). -/
def execAddc (m : MOp) (s : State) : Out := ialuS s m (fun t a v => (t.setC (carryOut a v t.core.regs.c)).setA (addWith a v t.core.regs.c))
/-- SUBC (12 R202). -/
def execSubc (m : MOp) (s : State) : Out := ialuS s m (fun t a v => (t.setC (borrowOut a v t.core.regs.c)).setA (subWith a v t.core.regs.c))

/-! ## FALU (12 R204-R206) -/

/-- FADD. -/
def execFadd (m : MOp) (s : State) : Out := falu s m (fun t x y => roundA t (x.addExact (downward t) y))
/-- FSUB. -/
def execFsub (m : MOp) (s : State) : Out := falu s m (fun t x y => roundA t (x.addExact (downward t) y.flip))
/-- FMUL. -/
def execFmul (m : MOp) (s : State) : Out := falu s m (fun t x y => roundA t (x.mulExact y))
/-- FDIV. -/
def execFdiv (m : MOp) (s : State) : Out := falu s m (fun t x y => roundA t (x.divSticky y))
/-- FMIN (12 R206). -/
def execFmin (m : MOp) (s : State) : Out := falu s m (fun t x y => roundA t (x.minMax false y))
/-- FMAX (12 R206). -/
def execFmax (m : MOp) (s : State) : Out := falu s m (fun t x y => roundA t (x.minMax true y))
/-- FCMPEQ (12 R206). -/
def execFcmpeq (m : MOp) (s : State) : Out := falu s m (fun t x y => (t.addFlags (flagIf (x.isSig || y.isSig) flagNV)).setT (x.eqv y))
/-- FCMPLT (12 R206). -/
def execFcmplt (m : MOp) (s : State) : Out := falu s m (fun t x y => (t.addFlags (flagIf (x.isNan || y.isNan) flagNV)).setT (x.lt y))
/-- FCMPLE (12 R206). -/
def execFcmple (m : MOp) (s : State) : Out := falu s m (fun t x y => (t.addFlags (flagIf (x.isNan || y.isNan) flagNV)).setT (x.lt y || x.eqv y))

/-! ## IIMM (12 R207) -/

/-- LI. -/
def execLi (imm : BitVec 21) (s : State) : Out := simple s (fun t _ => t.setA (sx imm))
/-- LUI. -/
def execLui (imm : BitVec 21) (s : State) : Out := simple s (fun t a => t.setA ((a <<< 21) ||| zx imm))
/-- ADDI. -/
def execAddi (imm : BitVec 21) (s : State) : Out := simple s (fun t a => addTo t a (sx imm))
/-- ANDI. -/
def execAndi (imm : BitVec 21) (s : State) : Out := simple s (fun t a => t.setA (a &&& sx imm))
/-- ORI. -/
def execOri (imm : BitVec 21) (s : State) : Out := simple s (fun t a => t.setA (a ||| zx imm))
/-- XORI. -/
def execXori (imm : BitVec 21) (s : State) : Out := simple s (fun t a => t.setA (a ^^^ zx imm))
/-- SHLI. -/
def execShli (sh : BitVec 6) (s : State) : Out := simple s (fun t a => t.setA (a <<< sh.toNat))
/-- SHRI. -/
def execShri (sh : BitVec 6) (s : State) : Out := simple s (fun t a => t.setA (a >>> sh.toNat))
/-- SARI. -/
def execSari (sh : BitVec 6) (s : State) : Out := simple s (fun t a => t.setA (a.sshiftRight sh.toNat))
/-- CMPEQI. -/
def execCmpeqi (imm : BitVec 21) (s : State) : Out := simple s (fun t a => t.setT (a == sx imm))
/-- CMPLTI. -/
def execCmplti (imm : BitVec 21) (s : State) : Out := simple s (fun t a => t.setT (a.slt (sx imm)))
/-- CMPLTUI. -/
def execCmpltui (imm : BitVec 21) (s : State) : Out := simple s (fun t a => t.setT (a.ult (zx imm)))
/-- TSTI. -/
def execTsti (imm : BitVec 21) (s : State) : Out := simple s (fun t a => t.setT (a &&& sx imm != 0))
/-- MULI. -/
def execMuli (imm : BitVec 21) (s : State) : Out := simple s (fun t a => t.setA (a * sx imm))

/-! ## UNF (12 R208-R210) -/

/-- NEG: C := (a ≠ 0). -/
def execNeg (s : State) : Out := simple s (fun t a => (t.setC (a != 0)).setA (0 - a))
/-- NOT. -/
def execNot (s : State) : Out := simple s (fun t a => t.setA (~~~a))
/-- CLZ. -/
def execClz (s : State) : Out := simple s (fun t a => t.setA (BitVec.ofNat 64 (leadZeros a 64)))
/-- CTZ. -/
def execCtz (s : State) : Out := simple s (fun t a => t.setA (BitVec.ofNat 64 (trailZeros a 64)))
/-- POPC. -/
def execPopc (s : State) : Out := simple s (fun t a => t.setA (BitVec.ofNat 64 (onesBelow a 64)))
/-- BSWAP. -/
def execBswap (s : State) : Out := simple s (fun t a => t.setA (byteSwap a))
/-- SETT. -/
def execSett (s : State) : Out := simple s (fun t _ => t.setT true)
/-- CLRT. -/
def execClrt (s : State) : Out := simple s (fun t _ => t.setT false)
/-- MOVT. -/
def execMovt (s : State) : Out := simple s (fun t _ => t.setA (zxBool t.core.regs.t))
/-- MOVC. -/
def execMovc (s : State) : Out := simple s (fun t _ => t.setA (zxBool t.core.regs.c))
/-- FABS changes only the sign bit. -/
def execFabs (s : State) : Out := simple s (fun t a => t.setA (a &&& 0x7FFFFFFFFFFFFFFF))
/-- FNEG changes only the sign bit. -/
def execFneg (s : State) : Out := simple s (fun t a => t.setA (a ^^^ 0x8000000000000000))
/-- FSQRT. -/
def execFsqrt (s : State) : Out := simple s (fun t a => roundA t (num64 a).sqrtSticky)
/-- FCLASS (12 R210). -/
def execFclass (s : State) : Out := simple s (fun t a => t.setA (fclassMask a))

/-- Bits of a width operand: 8, 16 or 32; width 3 is out of range (12 R208, 11 R196). -/
def extWidth (w : BitVec 2) : Option Nat := if w = 0 then some 8 else if w = 1 then some 16 else if w = 2 then some 32 else none

/-- The low n bits of a, sign-extended. -/
def signLow (a : Word) (n : Nat) : Word := (a <<< (64 - n)).sshiftRight (64 - n)
/-- The low n bits of a, zero-extended. -/
def zeroLow (a : Word) (n : Nat) : Word := (a <<< (64 - n)) >>> (64 - n)

/-- SEXT. -/
def execSext (w : BitVec 2) (s : State) : Out :=
  finish s (match extWidth w with
    | none => .error (operand 0 0)
    | some n => .ok (s.advance.setA (signLow s.core.regs.a n)))
/-- ZEXT. -/
def execZext (w : BitVec 2) (s : State) : Out :=
  finish s (match extWidth w with
    | none => .error (operand 0 0)
    | some n => .ok (s.advance.setA (zeroLow s.core.regs.a n)))

/-- A value rounded into a narrower format, zero-extended, with its flags (12 R209). -/
def toNarrow (f : FpFmt) (rm : BitVec 2) (x : Num) : Word × BitVec 5 :=
  let o := f.pack rm x
  (BitVec.ofNat 64 o.1, flagIf x.isSig flagNV ||| o.2)

/-- The conversion codes of 12 R209: the result and its flags; none for a code out of range. -/
def convert (code : BitVec 5) (rm : BitVec 2) (a : Word) : Option (Word × BitVec 5) :=
  match code.toNat with
  | 0x00 => some ((num64 a).toInt64 rm true)
  | 0x01 => some ((num64 a).toInt64 1 true)
  | 0x02 => some ((num64 a).toInt64 rm false)
  | 0x03 => some ((num64 a).toInt64 1 false)
  | 0x04 => some (toF64 rm (ofInt false a.toInt 0, 0))
  | 0x05 => some (toF64 rm (ofInt false a.toNat 0, 0))
  | 0x06 => some (toNarrow fp32 rm (num64 a))
  | 0x07 => some (fp32.widen (bits a 31 0))
  | 0x08 => some (toNarrow bf16 rm (num64 a))
  | 0x09 => some (bf16.widen (bits a 15 0))
  | 0x0A => some (toNarrow fp16 rm (num64 a))
  | 0x0B => some (fp16.widen (bits a 15 0))
  | 0x0C => some (toF64 rm ((num64 a).rint rm))
  | _ => none

/-- FCVT (12 R209). -/
def execFcvt (code : BitVec 5) (s : State) : Out :=
  finish s (match convert code s.core.regs.frm s.core.regs.a with
    | none => .error (operand 0 0)
    | some r => .ok ((s.advance.addFlags r.2).setA r.1))

end Sys2Proof.Machine
end

