-- ==== Sys2Proof/Machine/Trio.lean ====
section
/-! DEFINITION. TRIO and LOOP: three-pointer operations and the loop-nest sequencer (12 R215-R217). -/

namespace Sys2Proof.Machine

/-! ## TRIO (12 R215) -/

/-- The elements at PA and PB, both checked before either load; then the increments (12 R215). -/
def loadPair (s : State) (ty pa pb : BitVec 3) (x : BitVec 2) : Res (State × Nat × Nat) :=
  let n := tyBytes ty
  match checkAccess s (s.ptr pa).addr n .probe with
  | .error e => .error e
  | .ok a =>
    match checkAccess s (s.ptr pb).addr n .probe with
    | .error e => .error e
    | .ok b =>
      let seen := [a.seen false, b.seen false]
      if lacksRoom s 2 then .error (.stall s)
      else match loadAt s a with
      | .error e => .error (e.issued [] seen)
      | .ok (s1, u) =>
        match loadAt s1 b with
        | .error e => .error (e.issued [u] seen)
        | .ok (s2, v) => .ok ((bumpIf (x.getLsbD 1) (bumpIf (x.getLsbD 0) s2 pa) pb).advance, u, v)

/-- A floating element of TY 0 or 1. -/
def elemF (ty : BitVec 3) (v : Nat) : Num := if ty = 0 then fp32.decode v else fp64.decode v

/-- An element widened as SEL does: FP32 and BF16 to FP64 with NaN made the default, INT32 sign-extended (12 R215). -/
def widenSel (ty : BitVec 3) (v : Nat) : Word :=
  if ty = 0 then (fp32.widen v).1
  else if ty = 2 then (bf16.widen v).1
  else if ty = 3 then sx (BitVec.ofNat 32 v)
  else BitVec.ofNat 64 v

/-- An integer element of TY 3 or 4, sign-extended. -/
def elemI (ty : BitVec 3) (v : Nat) : Word := if ty = 3 then sx (BitVec.ofNat 32 v) else BitVec.ofNat 64 v

/-- FMAC: one rounding. -/
def execFmac (ty pa pb : BitVec 3) (x : BitVec 2) (s : State) : Out :=
  finish s (match loadPair s ty pa pb x with
    | .error e => .error e
    | .ok (t, u, v) => .ok (roundA t ((num64 t.core.regs.a).fmaExact (downward t) (elemF ty u) (elemF ty v))))

/-- SEL: both elements are loaded whatever T holds. -/
def execSel (ty pa pb : BitVec 3) (x : BitVec 2) (s : State) : Out :=
  finish s (match loadPair s ty pa pb x with
    | .error e => .error e
    | .ok (t, u, v) => .ok (t.setA (widenSel ty (if t.core.regs.t then u else v))))

/-- IMAC wraps. -/
def execImac (ty pa pb : BitVec 3) (x : BitVec 2) (s : State) : Out :=
  finish s (match loadPair s ty pa pb x with
    | .error e => .error e
    | .ok (t, u, v) => .ok (t.setA (t.core.regs.a + elemI ty u * elemI ty v)))

/-- MOVM: a load at PA and a store of the loaded bytes at PD, both checked first; it is no ST, so it never writes a command word (14 R248). -/
def execMovm (ty pd pa : BitVec 3) (xa xd : BitVec 1) (s : State) : Out :=
  let n := tyBytes ty
  finish s (match checkAccess s (s.ptr pa).addr n .probe with
    | .error e => .error e
    | .ok a =>
      match checkAccess s (s.ptr pd).addr n .atomic with
      | .error e => .error e
      | .ok d =>
        let seen := [a.seen false, d.seen true]
        if lacksRoom s 1 || (s.core.sched.returns.isEmpty && !storeRoom s) then .error (.stall s)
        else match loadAt s a with
        | .error e => .error (e.issued [] seen)
        | .ok (s1, u) =>
          match storeAt s1 d u with
          | .error e => .error (e.issued [u] seen)
          | .ok s2 => .ok (bumpIf (xd == 1) (bumpIf (xa == 1) s2 pa) pd).advance)

/-! ## LOOP (12 R216, R217) -/

/-- Half h of the 17 doublewords of a record, from offset 0x48 on. -/
def strideAt (ws : List Word) (k : Nat) : BitVec 32 :=
  let w := ws.getD (9 + k / 2) 0
  if k % 2 = 0 then w.extractLsb' 0 32 else w.extractLsb' 32 32

/-- The nest a record describes, none where it breaks 12 R216. -/
def nestOf (ws : List Word) : Option Nest :=
  let w0 := ws.getD 0 0
  let nl := bits w0 3 0
  let ns := bits w0 7 4
  let bound := fun (i : Nat) => (ws.getD (1 + i) 0).toNat
  let levels := [0, 1, 2, 3]
  let ok := bits w0 63 8 == 0 && ns ≤ 4 && 1 ≤ nl && nl ≤ 4 &&
    levels.all (fun i => if i < nl then 1 ≤ bound i && bound i ≤ 0xFFFFFFFF else bound i == 0) &&
    levels.all (fun j => j < ns || ws.getD (5 + j) 0 == 0) &&
    levels.all (fun j => levels.all (fun i => (j < ns && i < nl) || strideAt ws (4 * j + i) == 0))
  if ok then
    some { nl := nl, ns := ns, bound := levels.map bound, base := levels.map (fun j => ws.getD (5 + j) 0),
           str := (List.range 16).map (strideAt ws), idx := [0, 0, 0, 0] }
  else none

/-- The odometer: the indices after an advance, and T (12 R217). -/
def odometer : List Nat → List Nat → Nat → List Nat × Bool
  | [], _, _ => ([], false)
  | idx, [], _ => (idx, false)
  | i :: idx, b :: bound, nl =>
    if nl = 0 then (i :: idx, false)
    else if i + 1 < b then ((i + 1) :: idx, true)
    else
      let r := odometer idx bound (nl - 1)
      (0 :: r.1, r.2)

/-- ADDR(s) (12 R216). -/
def streamAddr (n : Nest) (j : Nat) : Word :=
  (List.range n.nl).foldl (fun acc i => acc + BitVec.ofNat 64 (n.idx.getD i 0) * sx (n.str.getD (4 * j + i) 0)) (n.base.getD j 0)

/-- The core's nest replaced. -/
def State.setNest (s : State) (n : Option Nest) : State := { s with core := { s.core with nest := n } }

/-- LNSET. -/
def execLnset (ps : BitVec 3) (imm : BitVec 16) (s : State) : Out :=
  let va := (s.ptr ps).addr + sx imm
  finish s (if va.toNat % 8 != 0 then .error (operand va 1)
    else match loadWords s va 17 with
      | .error e => .error e
      | .ok (t, ws) =>
        match nestOf ws with
        | none => .error (operand va 1)
        | some n => .ok (t.setNest (some n)).advance)

/-- LNEXT. -/
def execLnext (s : State) : Out :=
  finish s (match s.core.nest with
    | none => .error (operand 0 3)
    | some n =>
      let r := odometer n.idx n.bound n.nl
      .ok (((s.setNest (some { n with idx := r.1 })).setT r.2).advance))

/-- LNIDX. -/
def execLnidx (j : BitVec 2) (s : State) : Out :=
  finish s (match s.core.nest with
    | none => .error (operand 0 3)
    | some n =>
      if n.nl ≤ j.toNat then .error (operand 0 2)
      else .ok (s.advance.setA (BitVec.ofNat 64 (n.idx.getD j.toNat 0))))

/-- LNPTR. -/
def execLnptr (pd : BitVec 3) (j : BitVec 2) (s : State) : Out :=
  finish s (match s.core.nest with
    | none => .error (operand 0 3)
    | some n =>
      if n.ns ≤ j.toNat then .error (operand 0 2)
      else .ok (s.advance.setPtr pd ⟨streamAddr n j.toNat, n.str.getD (4 * j.toNat) 0⟩))

end Sys2Proof.Machine
end

