-- ==== Sys2Proof/Machine/Saves.lean ====
section
/-! DEFINITION. The context save area, CSAVE and CRST (10 R185, R186, 19 R334). What 10 R185 lists stands in the area's bytes, in the blocks that
it gives; the places inside a block are the model's (DESIGN CHOICE, log entry 29). What a core holds besides is kept under the area. -/

namespace Sys2Proof.Machine

/-! ## Values as bytes -/

/-- The little-endian value of 32-bit cells. -/
def cellsNat : List W32 → Nat
  | [] => 0
  | w :: r => w.toNat + (cellsNat r <<< 32)

/-- k 32-bit cells of a value. -/
def cellsOfNat (k v : Nat) : List W32 := (List.range k).map (fun i => BitVec.ofNat 32 (v >>> (32 * i)))

/-- k 32-bit cells at a home address. -/
def cellsAt (s : State) (a k : Nat) : List W32 := cellsOfNat k (homeRead s a (4 * k))

/-- Doublewords written one after the other. -/
def writeDwords (s : State) : Nat → List Word → State
  | _, [] => s
  | a, w :: r => writeDwords (homeWrite s a 8 w.toNat) (a + 8) r

/-- k 32-bit cells written, those behind the list's end as zeros. -/
def writeCells (s : State) (a k : Nat) (l : List W32) : State := homeWrite s a (4 * k) (cellsNat (l.take k))

/-- A list that the area keeps the first cells of, with what it does not keep. -/
def fromCells (cells old : List W32) : List W32 :=
  if old.isEmpty then trimZeros cells else cells.take old.length ++ old.drop cells.length

/-! ## 0x0000: scalars, and the pending STEP and table -/

/-- The doubleword of the pending-STEP and pending-table state (07 R135, R136). -/
def pendingWord (c : Core) : Word :=
  BitVec.ofNat 64 (bit c.sched.stepDone + (match c.sched.tableDone with
    | none => 0
    | some none => 2
    | some (some _) => 4))

/-- What a table load that failed reports. -/
def pendingInfo (c : Core) : TrapInfo :=
  match c.sched.tableDone with
  | some (some i) => i
  | _ => ⟨0, 0, 0, 0⟩

/-- The block at 0x0000. -/
def scalarBlock (c : Core) : List Word :=
  let p := c.regs.p.toList
  let i := pendingInfo c
  [c.regs.a] ++ p.map (·.addr) ++
    (List.range 4).map (fun k => BitVec.ofNat 64 ((p.getD (2 * k) default).stride.toNat + (p.getD (2 * k + 1) default).stride.toNat * 2 ^ 32)) ++
    [BitVec.ofNat 64 (bit c.regs.t + 2 * bit c.regs.c), c.regs.pc, BitVec.ofNat 64 c.sched.wdCount, BitVec.ofNat 64 c.sched.wdOwn, pendingWord c,
     zx i.cause, i.addr, i.pc, i.x]

/-- The scalar registers as the area gives them: its first two blocks. -/
def areaRegs (s : State) (a : Nat) : Regs :=
  let w := homeRead s (a + 0x68) 8
  let v := homeRead s (a + 0x100) 8
  { a := homeWord s a,
    p := Vector.ofFn (fun i : Fin 8 => ⟨homeWord s (a + 8 + 8 * i.val), BitVec.ofNat 32 (homeRead s (a + 0x48 + 4 * i.val) 4)⟩),
    t := w.testBit 0, c := w.testBit 1, vl := BitVec.ofNat 13 v, frm := BitVec.ofNat 2 (v / 2 ^ 16), fflags := BitVec.ofNat 5 (v / 2 ^ 24),
    pc := homeWord s (a + 0x70) }

/-- The outcome of a table load as the area gives it. -/
def areaTable (s : State) (a : Nat) : Option (Option TrapInfo) :=
  let w := homeRead s (a + 0x88) 8
  if w.testBit 2 then some (some ⟨BitVec.ofNat 8 (homeRead s (a + 0x90) 8), homeWord s (a + 0x98), homeWord s (a + 0xA0), homeWord s (a + 0xA8)⟩)
  else if w.testBit 1 then some none
  else none

/-! ## 0x0100: configuration, and the held tile instruction -/

/-- The bytes of the view records that a held instruction has latched, PA's before PB's (16 R278). -/
def heldRecords (s : State) (c : Core) : Nat × Nat :=
  match c.mx.run, ctxOf s c.ctx, decode c.mx.rsdWord with
  | some r, some x, .ok i =>
    let t := r.found x
    let rec_ := fun (p : BitVec 3) => homeRead t (vaultHome r.num (ownOffset (t.ptr p).addr)) 48
    match i with
    | .mma _ pa pb _ | .mmas _ pa pb _ | .tcmpr pa pb _ => (rec_ pa, rec_ pb)
    | .tld _ pa _ | .twr _ pa _ | .tdrain _ pa _ | .tqnt _ pa _ => (rec_ pa, 0)
    | _ => (0, 0)
  | _, _, _ => (0, 0)

/-- The draw counter that a held instruction has latched. -/
def heldCounter (c : Core) : Word := (c.mx.run.map (·.ctr)).getD 0

/-- The block at 0x0100, without the records. -/
def configBlock (c : Core) : List Word :=
  [BitVec.ofNat 64 (c.regs.vl.toNat + c.regs.frm.toNat * 2 ^ 16 + c.regs.fflags.toNat * 2 ^ 24 + (rwctlOf c.sluice).toNat * 2 ^ 32),
   c.csr.dgkey, c.csr.dgctr, BitVec.ofNat 64 (c.sluice.hits.toNat + c.rank.watch.toNat * 2 ^ 32),
   BitVec.ofNat 64 (c.rank.wmax.toNat + c.mx.rsdWord.toNat * 2 ^ 32), c.csr.upcv, c.csr.trapv, c.csr.wage, tstatOf c.mx,
   c.port.ecw0, c.port.ecw1, c.port.ecw2, c.port.ecw3, c.mx.rsdpos, heldCounter c, 0]

/-- Status and configuration of a core as the area gives them. -/
def areaCsrs (s : State) (a : Nat) (c : Csrs) : Csrs :=
  { c with dgkey := homeWord s (a + 0x108), dgctr := homeWord s (a + 0x110), upcv := homeWord s (a + 0x128), trapv := homeWord s (a + 0x130),
           wage := homeWord s (a + 0x138) }

/-- The sluice's control and count as the area gives them. -/
def areaSluice (s : State) (a : Nat) (u : Sluice) : Sluice :=
  let w := homeRead s (a + 0x104) 4
  { u with en := w.testBit 0, s := w.testBit 1, a := w.testBit 2, skip := w.testBit 3, hits := BitVec.ofNat 32 (homeRead s (a + 0x118) 4) }

/-- The tiles, the residue, and the held instruction's word and position as the area gives them. -/
def areaMatrix (s : State) (a : Nat) (m : Matrix) : Matrix :=
  let w := homeRead s (a + 0x140) 8
  { m with tiles := Vector.ofFn (fun i : Fin 4 =>
             { cells := trimZeros (cellsAt s (a + 0x12000 + 0x8000 * i.val) 8192), shape := BitVec.ofNat 2 (w / 2 ^ (4 * i.val + 16)),
               fmt := BitVec.ofNat 2 (w / 2 ^ (4 * i.val + 18)), live := w.testBit (4 + i.val), pend := w.testBit (8 + i.val) }),
           narrow := w.testBit 12, rsd := trimZeros (cellsAt s (a + 0xA000) 8192), rsdpos := homeWord s (a + 0x168),
           rsdWord := BitVec.ofNat 32 (homeRead s (a + 0x124) 4) }

/-- The engine's shadow set as the area gives it. -/
def areaPort (s : State) (a : Nat) (p : Port) : Port :=
  { p with ecw0 := homeWord s (a + 0x148), ecw1 := homeWord s (a + 0x150), ecw2 := homeWord s (a + 0x158), ecw3 := homeWord s (a + 0x160) }

/-! ## 0x0200 and 0x1700: flumes (10 R182) -/

/-- The entries of a flume, present and on the way. -/
def flumeWords (s : State) (e : Nat × Nat) : List Word :=
  match s.flumes.find? (fun f => f.core == e.1 && f.n == e.2) with
  | some f => f.present ++ f.moving
  | none => []

/-- The core whose outbound flume n is core g's inbound flume n (10 R182). -/
def inboundFrom (g n : Nat) : Nat :=
  let k := g % 8
  let c := g / 8 % 8
  let q := g / 64
  if n = 0 then q * 64 + c * 8 + (k + 7) % 8
  else if n = 1 then q * 64 + c * 8 + (k + 1) % 8
  else if n = 2 then q * 64 + (c + 7) % 8 * 8 + k
  else q * 64 + (c + 1) % 8 * 8 + k

/-- The flumes of core g in the area's order: four outbound, then four inbound, each by its core and number. -/
def flumesOf (g : Nat) : List (Nat × Nat) := (List.range 4).map (fun n => (g, n)) ++ (List.range 4).map (fun n => (inboundFrom g n, n))

/-- The flumes' block, and their presence bits. -/
def saveFlumes (s : State) (a g : Nat) : State :=
  let fs := (flumesOf g).map (flumeWords s)
  let s1 := fs.zipIdx.foldl (fun t e => homeWrite t (a + 0x200 + 128 * e.2) 128 (wordsNat e.1)) s
  homeWrite s1 (a + 0x1700) 16 (fs.zipIdx.foldl (fun v e => v + (2 ^ min e.1.length 16 - 1) * 2 ^ (16 * e.2)) 0)

/-- A flume holds the words that an area gives it: those that it holds already go on as they are. -/
def putFlume (s : State) (e : Nat × Nat) (ws : List Word) : State :=
  if flumeWords s e = ws then s
  else { s with flumes := s.flumes.filter (fun f => !(f.core == e.1 && f.n == e.2)) ++ [{ core := e.1, n := e.2, present := ws, moving := [], returning := 0 }] }

/-- The flumes of an area, named by `keys`. -/
def areaFlumes (s : State) (a : Nat) (keys : List (Nat × Nat)) : State :=
  let bits_ := homeRead s (a + 0x1700) 16
  keys.zipIdx.foldl (fun t e =>
    putFlume t e.1 (((List.range 16).filter (fun j => bits_.testBit (16 * e.2 + j))).map (fun j => homeWord s (a + 0x200 + 128 * e.2 + 8 * j)))) s

/-! ## 0x0600: in-flight returns (03 R67) -/

/-- The returns that an area gives, in slot order; what a slot does not hold is as in `old`. -/
def areaReturns (s : State) (a : Nat) (c : Core) : List Resp :=
  (List.range 32).filterMap (fun i =>
    let w := homeRead s (a + 0x600 + 16 * i) 8
    if w.testBit 0 then
      some { core := c.num, ctx := c.ctx, owner := c.port.owner, value := if w.testBit 1 then some (homeWord s (a + 0x608 + 16 * i)) else none,
             refused := w.testBit 2, bad := w.testBit 3 }
    else none)

/-! ## 0x0800 to 0x1600 and 0x2000 to 0x9FFF: the rank unit (09 R159), and the loop nest -/

/-- The configuration record's doublewords (17 R291). -/
def RkCfg.words (c : RkCfg) : List Word :=
  [BitVec.ofNat 64 (c.stream % 256 + c.p % 32 * 2 ^ 8 + c.eref.toNat * 2 ^ 16 + c.slim % 64 * 2 ^ 24 + c.j % 128 * 2 ^ 32 + bit c.pol * 2 ^ 40 +
     bit c.mstop * 2 ^ 41 + bit c.mtrap * 2 ^ 42),
   BitVec.ofNat 64 c.rcore, c.wbase, c.logb, c.dwb, c.gxb, BitVec.ofNat 64 c.goff, 0, c.crCode, c.crArg, c.crEntp, c.crWord3, 0, 0, 0, 0] ++
    c.prods.map (fun e => BitVec.ofNat 64 (e.1 % 1024 * 2 ^ 32 + e.2.1 % 65536 * 2 ^ 16 + e.2.2 % 65536))

/-- The flags at 0x1570: which slot's record stands there, a backward pass, tables loaded, ENDs seen. -/
def rankFlags (k : Rank) : Nat :=
  bit k.recv.isSome + 2 * bit (k.recv.isNone && k.emit.isSome) + 4 * bit k.bwd.isSome + 8 * bit k.loaded +
    (k.endSeen.zipIdx.map (fun e => bit e.1 * 2 ^ (16 + e.2))).foldl (· + ·) 0

/-- The emission's position, in front of its unsent entries: how many are left, and the producer's index. -/
def emissionWord (k : Rank) : Nat := k.unsent.length % 2 ^ 32 + k.emitP * 2 ^ 32

/-- The block at 0x1500: the record, and in its zero fields RKCNT and RKMARG at 0x38, WMAX and RKSTAT at 0x60, the count of
the backward pass's steps at 0x68, the flags at 0x70, and each queue's count in bits [63:48] of its producer's entry. -/
def rankBlock (k : Rank) : List Word :=
  let ws := padTo 32 0 ((k.recv.orElse fun _ => k.emit).getD default).words
  let more : List (Nat × Nat) :=
    [(7, k.cnt % 2 ^ 32 + k.marg.toNat * 2 ^ 32), (12, k.wmaxL.toNat + (rkstatOf k).toNat % 2 ^ 32 * 2 ^ 32),
     (13, (k.bwd.map (·.pos)).getD 0 * 2 ^ 32), (14, rankFlags k)] ++
      k.queues.zipIdx.map (fun e => (16 + e.2, e.1.flatten.length * 2 ^ 48))
  more.foldl (fun l e => l.set e.1 (l.getD e.1 0 + BitVec.ofNat 64 e.2)) ws

/-- The record that an area gives. -/
def areaRkCfg (s : State) (a : Nat) (src : Word) : RkCfg :=
  let w := fun (i : Nat) => homeWord s (a + 0x1500 + 8 * i)
  rkCfgOf ((List.range 32).map (fun i => if 16 ≤ i then w i &&& 0x3FFFFFFFFFF else w i)) src

/-- Entries as their packets (09 R149). -/
def packetsOf : Nat → List W32 → List (List W32)
  | 0, _ => []
  | _, [] => []
  | n + 1, es =>
    let p := nextPacket 32 es
    p :: packetsOf n (es.drop p.length)

/-- A queue of n entries as the area gives them: packets that hold them already stay as they are. -/
def areaQueue (cells : List W32) (n : Nat) (old : List (List W32)) : List (List W32) :=
  if cells.take n = old.flatten then old else packetsOf n (cells.take n)

/-- The state that RKSTAT names. -/
def rkStateOf (n : Nat) : RkState :=
  match n with
  | 1 => .recv
  | 2 => .paused
  | 3 => .drain
  | 4 => .bwd
  | _ => .idle

/-- The tail sums of a stream: those below 256 as the area gives them, the others formed again (09 R153, 10 R185). -/
def areaTails (c : RkCfg) (g cells old : List W32) : List W32 :=
  if old.isEmpty && cells.all (· == 0) then [] else cells.take (c.n - 1) ++ (tailSums g (c.n - 1) 0 []).drop 256

/-- The rank unit as the area gives it. -/
def areaRank (s : State) (a : Nat) (k : Rank) : Rank :=
  let w := fun (i : Nat) => homeRead s (a + 0x1500 + 8 * i) 8
  let f := w 14
  let st := w 12 / 2 ^ 32
  let e := homeRead s (a + 0x6000) 8
  let c := areaRkCfg s a ((k.recv.map (·.src)).getD 0)
  let g := fromCells (cellsAt s (a + 0x800) 256) k.g
  let ps := if f.testBit 0 && (st % 8 == 1 || st % 8 == 2 || st % 8 == 3) then c.p else k.queues.length
  { k with recv := if f.testBit 0 then some c else none,
           emit := if f.testBit 1 then some (areaRkCfg s a ((k.emit.map (·.src)).getD 0)) else if f.testBit 0 then k.emit else none,
           loaded := f.testBit 3, g := g, h := fromCells (cellsAt s (a + 0xC00) 256) k.h,
           tails := if f.testBit 0 then areaTails c g (cellsAt s (a + 0x1000) 256) k.tails else k.tails, racc := fromCells (cellsAt s (a + 0x1400) 64) k.racc,
           watch := BitVec.ofNat 32 (homeRead s (a + 0x11C) 4), wmax := BitVec.ofNat 32 (homeRead s (a + 0x120) 4),
           cnt := w 7 % 2 ^ 32, marg := BitVec.ofNat 32 (w 7 / 2 ^ 32), wmaxL := BitVec.ofNat 32 (w 12),
           state := rkStateOf (st % 8), stray := st.testBit 7, endc := BitVec.ofNat 3 (st / 2 ^ 8), emitting := st.testBit 11, sat := st.testBit 12,
           nan := st.testBit 13, slot := st / 2 ^ 14 % 64, prod := st / 2 ^ 20 % 16, stream := st / 2 ^ 24 % 256,
           endSeen := (List.range ps).map (fun p => f.testBit (16 + p)), emitP := e / 2 ^ 32 % 16,
           queues := (List.range ps).map (fun p => areaQueue (cellsAt s (a + 0x2000 + 1024 * p) 256) (w (16 + p) / 2 ^ 48) (k.queues.getD p [])),
           unsent := (cellsAt s (a + 0x6010) 4092).take (e % 2 ^ 32) ++ k.unsent.drop 4092,
           bwd := if f.testBit 2 then k.bwd.map (fun b => { b with pos := w 13 / 2 ^ 32 }) else none }

/-- The loop-nest block: the record of 12 R216, and its indices behind it; zeros where no nest is active. -/
def nestBlock (n : Option Nest) : List Word :=
  match n with
  | none => []
  | some n =>
    [BitVec.ofNat 64 (n.nl + n.ns * 16)] ++ (List.range 4).map (fun i => BitVec.ofNat 64 (n.bound.getD i 0)) ++ (List.range 4).map (fun j => n.base.getD j 0) ++
      (List.range 8).map (fun k => BitVec.ofNat 64 ((n.str.getD (2 * k) 0).toNat + (n.str.getD (2 * k + 1) 0).toNat * 2 ^ 32)) ++
      (List.range 4).map (fun i => BitVec.ofNat 64 (n.idx.getD i 0))

/-- The loop nest as the area gives it. -/
def areaNest (s : State) (a : Nat) : Option Nest :=
  (nestOf ((List.range 17).map (fun i => homeWord s (a + 0x1600 + 8 * i)))).map (fun n =>
    { n with idx := (List.range 4).map (fun i => homeRead s (a + 0x1688 + 8 * i) 8) })

/-! ## The whole area -/

/-- A core's state written into the save area at a. -/
def saveArea (s : State) (a : Nat) (c : Core) : State :=
  let r := heldRecords s c
  let s1 := writeDwords (homeWrite s a 256 0) a (scalarBlock c)
  let s2 := writeDwords (homeWrite s1 (a + 0x100) 256 0) (a + 0x100) (configBlock c)
  let s3 := saveFlumes (homeWrite s2 (a + 0x180) 96 (r.1 + r.2 * 2 ^ 384)) a c.num
  let s4 := homeWrite s3 (a + 0x600) 512 (returnsNat c.sched.returns)
  let s5 := writeCells (writeCells (writeCells s4 (a + 0x800) 256 c.rank.g) (a + 0xC00) 256 c.rank.h) (a + 0x1000) 256 c.rank.tails
  let s6 := homeWrite (writeCells s5 (a + 0x1400) 64 c.rank.racc) (a + 0x1500) 256 (wordsNat (rankBlock c.rank))
  let s7 := homeWrite (homeWrite s6 (a + 0x1600) 256 (wordsNat (nestBlock c.nest))) (a + 0x1710) 2288 0
  let s8 := (List.range 16).foldl (fun t p => writeCells t (a + 0x2000 + 1024 * p) 256 (c.rank.queues.getD p []).flatten) s7
  let s9 := writeCells (writeCells (homeWrite s8 (a + 0x6000) 16 (emissionWord c.rank)) (a + 0x6010) 4092 c.rank.unsent) (a + 0xA000) 8192 c.mx.rsd
  c.mx.tiles.toList.zipIdx.foldl (fun t e => writeCells t (a + 0x12000 + 0x8000 * e.2) 8192 e.1.cells) s9

/-- A core with what the save area at a gives it; the rest is the core's. -/
def areaCore (s : State) (a : Nat) (c : Core) : Core :=
  { c with regs := areaRegs s a, csr := areaCsrs s a c.csr, sluice := areaSluice s a c.sluice, mx := areaMatrix s a c.mx, port := areaPort s a c.port,
           rank := areaRank s a c.rank, nest := areaNest s a,
           sched := { c.sched with wdCount := homeRead s (a + 0x78) 8, wdOwn := homeRead s (a + 0x80) 8, stepDone := (homeRead s (a + 0x88) 8).testBit 0,
                                   tableDone := areaTable s a, returns := areaReturns s a c } }

/-! ## CSAVE and CRST -/

/-- Is a physical address that of a save area: HBM4E, 8 KiB-aligned (19 R334). -/
def saveAddrOk (a : Word) : Bool := a.toNat % 8192 == 0 && a.toNat + 0x32000 ≤ Config.hbmEnd

/-- Must the save of a core of context cx wait: for the acknowledgement of a posted access, for a rank packet that was granted credit, or for a
table that is being loaded for it (03 R67, 09 R159, 07 R136). -/
def saveWaits (s : State) (cx : Nat) (c : Core) : Bool :=
  c.sched.acks.any (fun e => decide (max s.clock c.csr.here < e.due)) || s.rankNet.any (fun k => k.ctx == cx && k.dst == c.num) ||
    (match ctxOf s cx with
      | some x => x.loading.any (fun l => l.core == c.num)
      | none => false)

/-- CSAVE: the core's state is saved, with PC past the CSAVE, once nothing is awaited that it would miss. -/
def execCsave (s : State) : Out :=
  let a := s.core.regs.a
  finish s (match privileged s (sysWord 6 0) 0 with
    | .error e => .error e
    | .ok _ =>
      if !saveAddrOk a then .error (operand a 0x54)
      else if saveWaits s s.core.ctx s.core then .error (.stall s)
      else
        let t := saveArea s.advance a.toNat s.advance.core
        .ok { t with saves := (saveKey a.toNat, t.core) :: t.saves.filter (fun e => e.1 != saveKey a.toNat) })

/-- A saved core's state on the core that is there: its number, its caches and queues, and CYC stay. -/
def restoreCore (live saved : Core) : Core :=
  { saved with num := live.num, tlb := live.tlb, tlbWays := live.tlbWays, tlbTree := live.tlbTree, icache := live.icache,
               csr := { saved.csr with cyc := live.csr.cyc, here := live.csr.here, wdogl := live.csr.wdogl },
               sched := { saved.sched with queue := live.sched.queue, ring := live.sched.ring, halted := false, idling := false } }

/-- What a core holds besides the area's contents: as it was saved there, or as reset leaves it where no CSAVE wrote the area. -/
def keptCore (s : State) (pa : Nat) : Core :=
  match s.saves.find? (fun e => e.1 == saveKey pa) with
  | some e => e.2
  | none => Core.reset s.core.num

/-- CRST: the core continues in user mode in context n at the saved PC, with the returns that have been deposited, the context's rule table, the rank
unit with its streams, and the engine with the instruction that it holds (10 R186, 18 R310, 09 R159, 16 R278). DESIGN CHOICE: log entry 29. -/
def execCrst (c : BitVec 6) (s : State) : Out :=
  let a := s.core.regs.a
  finish s (match privileged s (sysWord 7 c.toNat) 0 with
    | .error e => .error e
    | .ok _ =>
      if !saveAddrOk a then .error (operand a 0x54)
      else
        let k := areaCore s a.toNat { restoreCore s.core (keptCore s a.toNat) with ctx := c.toNat }
        let k1 := { k with sluice := { k.sluice with win := [], pos := 0, plain := false, shadow := none, table := ((ctxOf s c.toNat).map (·.rules)).getD k.sluice.table },
                           sched := { k.sched with running := true, user := isCompute s.core.num } }
        let t := areaFlumes { s with core := k1 } a.toNat (flumesOf k1.num)
        let u := goOn t k1.num
        let u := if k1.rank.emitting then due u k1.num .rankPacketSend else u
        let u := if k1.rank.state == .recv then due u k1.num .rankArrival else u
        .ok (if k1.mx.ops = 0 then u else due u k1.num .tileInstructionComplete))

end Sys2Proof.Machine
end

