-- ==== Sys2Proof/Machine/Contexts.lean ====
section
/-! DEFINITION. Contexts: halting and saving, hand-over of clusters, resuming, creating and destroying; a quadrant's fence; the
power alarm and the thermal limits (10 R184-R186, R373, 21 R356, R361, R362, 05 R108, 16 R278, R280). -/

namespace Sys2Proof.Machine

/-! ## Halting (10 R184 steps 1 to 4) -/

/-- What a halt leaves of a core whose engine has stopped: the bypass buffer, the watch and an idling go, the queues are elsewhere, the landing
frame is free, and the core is in firmware mode (10 R184, 26 R371, 03 R67, 19 R332, R335, 25 R369). -/
def Core.halt (c : Core) : Core :=
  { c with mx := { c.mx with bypass := none }, watch := none,
           sluice := { c.sluice with win := [], pos := 0, plain := false },
           sched := { c.sched with halted := true, user := false, idling := false, mwaited := 0, stalled := false, queue := [], ring := [],
                                   landing := false } }

/-- An entry as the device-memory queue keeps it: a hop's frame is carried in it (25 R369). -/
def awayEntry (e : QEntry) : QEntry :=
  match e.work with
  | .hop ts off data _ => { e with work := .hop ts off data false, slot := none }
  | _ => { e with slot := none }

/-- Core g at its boundary, its engine as the halt finds it, and a trap that falls on the same boundary taken first (16 R278, 18 R317, 19
R328). -/
def atBoundary (s : State) (g : Nat) : State := switchTo (boundaryTrap (switchTo (haltEngine s g) g)) s.core.num

/-- Core g's queues, and its cluster's, as entries of the device-memory queue. -/
def movedQueues (s : State) (g : Nat) : List (Nat × QEntry) :=
  let c := coreOf s g
  (c.sched.queue ++ c.sched.ring.map (fromRing s g)).map (fun e => (g, awayEntry e)) ++
    (s.clusterQ.filter (fun e => e.1 == clusterOf g)).map (fun e => (sharedDst (clusterOf g), awayEntry e.2))

/-- CORE_HALT of core `unit`: it stops at a boundary, and its queues and its cluster's move to the context's device-memory
queue, ahead of what waits there; a STEP that is not accepted is given up (07 R135). -/
def execCoreHalt (s0 : State) : Out :=
  let g := s0.unit
  let c := coreOf s0 g
  .next (match ctxOf s0 c.ctx with
    | none => s0
    | some x =>
      if x.running || !inPart x g || c.sched.halted then s0
      else
        let s := atBoundary s0 g
        let moved := movedQueues s g
        let s1 := updCore { s with clusterQ := s.clusterQ.filter (fun e => e.1 != clusterOf g) } g Core.halt
        let s2 := updCtx (dropHolds s1 g) x.num (fun k => { k with queue := moved ++ k.queue.map (fun e => if e.1 = g then (g, awayEntry e.2) else e), stepReq := k.stepReq.filter (· != g) })
        let s3 := { s2 with out := { s2.out with budgetWait := s2.out.budgetWait.erase g, budgetGiven := s2.out.budgetGiven.erase g } }
        if (partCores x).all (fun h => (coreOf s3 h).sched.halted) then due s3 x.num .contextSaveComplete else s3)

/-- Is a cluster held by some context. -/
def heldCluster (s : State) (cl : Nat) : Bool := s.ctxs.any (fun x => x.part.getLsbD cl)

/-- Is a cluster of a mask in a fenced quadrant. -/
def fencedIn (s : State) (m : BitVec 128) : Bool := (clustersOf m).any (fun cl => s.out.fenced.getLsbD (cl / 8))

/-- The context that waits for clusters of a mask: the highest priority, the longest wait. -/
def waiterFor (s : State) (m : BitVec 128) : Option Ctx :=
  let before := fun (a b : Ctx) => decide (b.priority < a.priority ∨ (a.priority = b.priority ∧ a.waited < b.waited))
  (s.ctxs.filter (fun x => x.wants &&& m != 0)).foldl (fun best x => match best with
    | none => some x
    | some y => some (if before x y then x else y)) none

/-- CONTEXT_SAVE_COMPLETE: once its accesses are performed, no packet that was granted credit is on its way and no table is being loaded (03 R67, 09
R159, 07 R136), each core's save area is written and the save is complete; a context that waits for the clusters may take them. -/
def execContextSaveComplete (s : State) : Out :=
  .next (match ctxOf s s.unit with
    | none => s
    | some x =>
      if x.running || x.saved || x.part = 0 then s
      else if s.rankNet.any (fun k => k.ctx == x.num) || (partCores x).any (fun h => !(coreOf s h).sched.halted || saveWaits s x.num (coreOf s h)) then
        due s x.num .contextSaveComplete
      else
        let s0 := (partCores x).foldl (fun t g => saveArea t (assignedArea x.num g) (coreOf t g)) s
        let s1 := updCtx s0 x.num (fun k => { k with saved := true })
        match waiterFor s1 x.part with
        | some y => due s1 x.num (.clusterHandover x.num y.num)
        | none => s1)

/-- PREEMPT_REQUEST: the halt request goes to every core of the partition. -/
def execPreemptRequest (s : State) : Out := .next (requestHalt s s.unit)

/-- One quantum in units of the clock (10 R184). -/
def quantum : Nat := 2 ^ 20 * 21

/-- Running contexts of a priority that hold clusters of a mask. -/
def holders (s : State) (m : BitVec 128) (p : Nat → Bool) : List Ctx :=
  s.ctxs.filter (fun y => y.running && y.part &&& m != 0 && p y.priority)

/-- QUANTUM_EXPIRY: a context that has waited one quantum takes its clusters from contexts of its own priority; one of higher
priority needs no quantum. -/
def execQuantumExpiry (s : State) : Out :=
  .next (match ctxOf s s.unit with
    | none => s
    | some x =>
      if x.wants = 0 then s
      else
        let late := x.waited + quantum ≤ s.clock
        let hs := holders s x.wants (fun p => p < x.priority || (p == x.priority && late))
        due (hs.foldl (fun t y => due t y.num .preemptRequest) s) x.num .quantumExpiry)

/-! ## Hand-over (10 R373) -/

/-- Does a multicast read go to a core. -/
def mreadReaches (m : MReq) (p : Nat → Bool) : Bool := (multicastCores m.qset m.pos).any p

/-- Does anything still work on a cluster's vaults for context cx: a command, one that a port has still to hand to its engine, a merge, a sweep, a
delivery, a barrier's arming, a join's decrement, a TSEND, a multicast entry or a rank packet. -/
def vaultsBusy (s : State) (x : Ctx) : Bool :=
  let cores := partCores x
  let reaches := fun (c : Cmd) =>
    c.ctx == x.num && (c.code == 8 || cores.any (fun g =>
      (c.claims s).any (fun k => spanHits s c k.2.1 k.2.2 (vaultHome g 0) Config.vaultBytes) ||
      (c.target != 0 && spanHits s c c.target.toNat 16 (vaultHome g 0) Config.vaultBytes)))
  let inPartHere := fun (g : Nat) => cores.contains g
  (allCmds s).any reaches || cores.any (fun g => !(coreOf s g).port.waiting.isEmpty) ||
    s.sends.any (fun d => d.ctx == x.num || cores.contains d.core) || x.launches.any (fun l => l.merging.isSome || (l.ordered && l.ended + l.atObar == l.total)) ||
    s.forks.any (fun p => p.parts.any (fun d => inPartHere d.vault)) || s.rankNet.any (fun k => k.ctx == x.num) ||
    s.mcast.any (fun e => (e.req :: e.late.map (·.1)).any (fun m => mreadReaches m inPartHere)) ||
    (s.waiting ++ s.stop).any (fun r => match r.op with
      | .mread m => mreadReaches m inPartHere
      | _ => false) ||
    s.pending.any (fun e => match e.2 with
      | .vaultDelivery d => inPartHere d.vault
      | .mreadRequest m => mreadReaches m inPartHere
      | .vaultAccess r => cores.any (fun g => vaultHome g 0 ≤ r.addr && r.addr < vaultHome g Config.vaultBytes)
      | .barmAtHome g _ _ _ issuer => inPartHere g || inPartHere issuer
      | .joinDecrement j => j.ctx == x.num
      | .launchCompletion cx _ => cx == x.num
      | _ => false)

/-- A core as it stands for the next context: as reset leaves it, with its caches, its cycle count and the port's sequence
kept. -/
def Core.cleared (c : Core) : Core :=
  let k := Core.reset c.num
  { k with tlb := c.tlb, tlbWays := c.tlbWays, tlbTree := c.tlbTree, icache := c.icache, csr := { k.csr with cyc := c.csr.cyc, here := c.csr.here, wdogl := c.csr.wdogl },
           port := { k.port with seq := c.port.seq, tasks := c.port.tasks } }

/-- A halted context gives up its partition and its grant: its cores, flumes and vault images are saved, and its entries
leave the clusters' TLBs (06 R114). -/
def giveUp (s : State) (x : Ctx) : State :=
  let cores := partCores x
  let s1 := cores.foldl (fun t g =>
    let n := Config.vaultBytes
    let h := vaultHome g 0
    let i := imageHome x.num g 0
    let t1 := { t with mem := copySpan t.mem h i n, poison := poisonAfterCopy t.poison h i n,
                       saves := (x.num * 2048 + g, coreOf t g) :: t.saves.filter (fun e => e.1 != x.num * 2048 + g) }
    updCore t1 g Core.cleared) s
  let s2 := (clustersOf x.part).foldl (fun t cl => dropPages t cl (fun p => p.ctx == x.num)) s1
  let mine := fun (f : Flume) => cores.contains f.core
  updCtx { s2 with flumes := s2.flumes.filter (fun f => !mine f) } x.num (fun k =>
    { k with home := x.part, wants := x.part, waited := s.clock, part := 0, grant := 0, flumes := s.flumes.filter mine })

/-- Contexts that wait for clusters are looked at again. -/
def wakeWaiters (s : State) : State :=
  (s.ctxs.filter (fun x => x.wants != 0 && !x.running)).foldl (fun t x => due t x.num .contextResume) s

/-- CLUSTER_HANDOVER: once nothing works on its vaults, a halted and saved context hands its clusters on. -/
def execClusterHandover (ctx next : Nat) (s : State) : Out :=
  .next (match ctxOf s ctx, ctxOf s next with
    | some x, some y =>
      if x.running || !x.saved || x.part = 0 || y.wants &&& x.part = 0 then s
      else if vaultsBusy s x then due s s.unit (.clusterHandover ctx next)
      else due (due (giveUp s x) y.num .contextResume) x.num .quantumExpiry
    | _, _ => s)

/-! ## Resuming (10 R373, R186) -/

/-- Has a saved core of a context an open rank stream, which resumes on its own cores only (09 R159, 10 R186). -/
def streamOpen (s : State) (cx : Nat) : Bool :=
  s.saves.any (fun e => e.1 / 2048 == cx && e.1 < 2 ^ 20 && (e.2.rank.state != .idle || e.2.rank.emitting))

/-- Where each cluster's image is placed: on its own cluster, or on the lowest free unfenced one where its own is fenced and the context's
images may move. DEDUCED: log entry 30. -/
def placeImages (s : State) (may : Bool) (own : List Nat) : List Nat → List (Nat × Nat) → Option (List (Nat × Nat))
  | [], acc => some acc
  | cl :: r, acc =>
    if s.out.fenced.getLsbD (cl / 8) then
      if !may then none
      else match (List.range 128).find? (fun k => !s.out.fenced.getLsbD (k / 8) && !heldCluster s k && !own.contains k && !acc.any (fun e => e.2 == k)) with
      | some k => placeImages s may own r (acc ++ [(cl, k)])
      | none => none
    else if heldCluster s cl then none
    else placeImages s may own r (acc ++ [(cl, cl)])

/-- The core that stands for core g after the images have moved. -/
def movedCore (m : List (Nat × Nat)) (g : Nat) : Nat :=
  match m.find? (fun e => e.1 == clusterOf g) with
  | some e => if isCompute g then e.2 * 8 + g % 8 else g
  | none => g

/-- The destination, core or shared queue, that stands for d. -/
def movedDst (m : List (Nat × Nat)) (d : Nat) : Nat :=
  if d < 2048 then movedCore m d
  else match m.find? (fun e => e.1 == d - 2048) with
    | some e => sharedDst e.2
    | none => d

/-- The destination that the placement rule of a launch gives task t (10 R166). -/
def destOf (l : Launch) (t : Nat) : Nat :=
  let ds := destinations l.lrec l.table
  if l.place = 1 then l.table.getD t 0
  else if l.place = 0 && l.stages != 0 then ds.getD (t / l.lrec.items) 0
  else ds.getD (t % ds.length) 0

/-- A live launch whose tasks are placed where the images now are. -/
def moveLaunch (m : List (Nat × Nat)) (l : Launch) : Launch :=
  if m.all (fun e => e.1 == e.2) then l
  else { l with place := 1, table := (List.range l.total).map (fun t => movedDst m (destOf l t)), core := movedCore m l.core,
                made := l.made.map (fun e => (movedDst m e.1, e.2)) }

/-- A context's queues, fills and launches named by the cores that hold the images. -/
def moveNames (m : List (Nat × Nat)) (x : Ctx) : Ctx :=
  { x with queue := x.queue.map (fun e => (movedDst m e.1, e.2)), parked := x.parked.map (fun p => { p with core := movedCore m p.core }),
           fills := x.fills.map (fun f => { f with core := movedCore m f.core }), launches := x.launches.map (moveLaunch m),
           loading := x.loading.map (fun l => { l with core := movedCore m l.core }), hostAsks := x.hostAsks.map (fun e => (movedCore m e.1, e.2)) }

/-- What names the cores of a context and stands outside it and them: its commands, answers and entries on their way, which go to the cores that hold
the images, and the fills' messages, which are sent again (10 R373, 03 R67, 04 R78, R85, 06 R117). -/
def moveTraffic (m : List (Nat × Nat)) (x : Ctx) (s : State) : State :=
  if m.all (fun e => e.1 == e.2) then s
  else
    let cmds := fun (l : List Cmd) => l.map (fun (c : Cmd) => if c.ctx = x.num then { c with core := movedCore m c.core } else c)
    let answer := fun (r : Resp) => if r.ctx = x.num then { r with core := movedCore m r.core } else r
    let s1 := { s with
      engines := s.engines.map (fun (e : Engine) => { e with queue := cmds e.queue, running := cmds e.running, held := cmds e.held, own := cmds e.own }),
      responses := s.responses.map answer,
      net := s.net.map (fun (f : Flight) => if f.ctx = x.num then { f with dst := movedDst m f.dst } else f),
      pending := s.pending.map (fun (e : Nat × Instr) => match e.2 with
        | .hostCompletion l r => (e.1, .hostCompletion l (answer r))
        | .peerAcknowledgement l r => (e.1, .peerAcknowledgement l (answer r))
        | _ => e) }
    let s2 := (s1.responses.filter (fun r => r.ctx == x.num)).foldl (fun t r => due t r.core .accessResponse) s1
    let s3 := (s2.net.filter (fun f => f.ctx == x.num)).foldl (fun t f => due t f.dst (match f.ent.work with
      | .message _ _ _ => .messageArrival
      | .hop _ _ _ _ => .hopArrival
      | _ => .recordArrival)) s2
    x.fills.foldl (fun t f => if f.cmd.isSome then t
      else if f.status.isNone then dueOnce t (movedCore m f.core) .fillTimeout
      else if f.told then t else due t (movedCore m f.core) .completionNotice) s3

/-- One core's image, and its state, restored on the core that stands for it; what its save area holds follows (`restoreArea`). -/
def restoreOne (x : Ctx) (m : List (Nat × Nat)) (s : State) (g : Nat) : State :=
  let n := Config.vaultBytes
  let k := movedCore m g
  let i := imageHome x.num g 0
  let s1 := { s with mem := putSpan (copySpan s.mem i (vaultHome k 0) n) i n [],
                     poison := (poisonAfterCopy s.poison i (vaultHome k 0) n).filter (fun w => !(i ≤ 8 * w && 8 * w < i + n)) }
  let key := x.num * 2048 + g
  match s1.saves.find? (fun e => e.1 == key) with
  | some e =>
    updCore { s1 with saves := s1.saves.filter (fun f => f.1 != key) } k (fun live =>
      { restoreCore live e.2 with
          sched := { e.2.sched with queue := [], ring := [] },
          port := { e.2.port with waiting := e.2.port.waiting.map (fun (c : Cmd) => { c with core := k }) } })
  | none => s1

/-- The save area of core g restored on core k, whose flumes' names are those that `keys` gives (10 R186). -/
def restoreArea (x : Ctx) (m : List (Nat × Nat)) (s : State) (g : Nat) : State :=
  let k := movedCore m g
  let a := assignedArea x.num g
  areaFlumes (updCore s k (areaCore s a)) a ((flumesOf g).map (fun e => (movedCore m e.1, e.2)))

/-- The cores of a running context leave the halt, in user mode, and go on with what they hold; the cores of one that starts begin (10 R186, 19
R332, 09 R159, 16 R278). -/
def wakeCores (s : State) (x : Ctx) : State :=
  let s0 := (partCores x).foldl (fun t g => updCore t g (fun c =>
    { c with ctx := x.num, sluice := { c.sluice with table := x.rules },
             sched := { c.sched with halted := false, user := true, idling := false, stalled := false } })) s
  let s1 := (partCores x).foldl goOn s0
  let s2 := (partCores x).foldl (fun t g =>
    let k := (coreOf t g).rank
    let t1 := if k.emitting then due t g .rankPacketSend else t
    let t2 := if k.state == .recv then due t1 g .rankArrival else t1
    let t2 := if (coreOf t g).mx.ops != 0 then due t2 g .tileInstructionComplete else t2
    if x.queue.any (fun e => e.1 == g || e.1 == sharedDst (clusterOf g)) then due t2 g .queueRefill else t2) s1
  dueGenerators (if x.stepReq.isEmpty then s2 else due s2 x.num .stepIncrement) x.num

/-- A context that holds no cluster takes those it waits for: partition, images and save areas, grant, then its queued
entries (10 R373). -/
def takeClusters (s : State) (x : Ctx) (m : List (Nat × Nat)) : State :=
  let part : BitVec 128 := m.foldl (fun b e => b ||| ((1 : BitVec 128) <<< e.2)) 0
  let cores := (clustersOf x.home).flatMap clusterCores
  let s1 := cores.foldl (restoreOne x m) s
  let fl := x.flumes.map (fun f => { f with core := movedCore m f.core })
  let y := { moveNames m x with part := part, grant := part, home := 0, wants := 0, running := true, saved := false, flumes := [] }
  let s0 := { s1 with flumes := s1.flumes ++ fl }
  let s2 := if x.saved then cores.foldl (restoreArea x m) s0 else s0
  let s3 := (y.fills.filter (fun f => f.status.isNone && f.cmd.isNone)).foldl (fun t f => due t f.core .translationMissMessage) (moveTraffic m x s2)
  wakeCores (updCtx s3 x.num (fun _ => y)) y

/-- CONTEXT_RESUME: none while a temperature halts every context (21 R362); a halted context that holds its partition goes on there, unless another waits for it; one that holds none
takes its clusters once they are free, each image elsewhere only where its cluster is fenced. -/
def execContextResume (s : State) : Out :=
  .next (match ctxOf s s.unit with
    | none => s
    | some x =>
      if x.running || s.out.hot != 0 then s
      else if x.part != 0 then
        if x.saved && !fencedIn s x.part then
          wakeCores ((partCores x).foldl (restoreArea x []) (updCtx s x.num (fun k => { k with running := true, saved := false, wants := 0 }))) { x with running := true }
        else s
      else match placeImages s (!streamOpen s x.num) (clustersOf x.wants) (clustersOf x.wants) [] with
        | some m => if m.isEmpty then s else takeClusters s x m
        | none => s)

/-! ## Creating and destroying (21 R355-R357, 05 R108) -/

/-- Does a layer table have its place: up to 4,096 entries, 64-byte aligned, in device memory, on pages mapped R and neither W nor COW (05 R97). -/
def layerTableOk (c : CtxSpec) : Bool :=
  c.layerCount ≤ 4096 && c.layerBase.toNat % 64 == 0 &&
    (List.range c.layerCount).all (fun l =>
      let va := c.layerBase.toNat + 64 * l
      match c.pages.find? (fun p => p.has c.num va) with
      | some p => isSliced (p.phys va) && p.r && !p.w && !p.cow
      | none => false)

/-- May the owner create this context: an owner and a written ACCEPT, a free number, a priority, clusters of which none is
fenced, pages of its own that TLBW would take, an aligned fault ring, a layer table in its place, and one of the 63 virtual functions of a link that
is bound to no other context (21 R352, R356, R357, 04 R86, 05 R97, 06 R113). -/
def mayCreate (s : State) (c : CtxSpec) : Bool :=
  s.out.owner.isSome && s.out.accept.isSome && s.out.fwGood && c.num < 64 && (ctxOf s c.num).isNone && c.priority ≤ 7 &&
    c.grant != 0 && !fencedIn s c.grant && c.pages.all (fun p => p.ctx == c.num && p.accepted && (p.tier != 1 || featureOn s 1) && (!isHost p.pa || featureOn s 4)) &&
    c.faultRing.toNat % 4096 == 0 && layerTableOk c && c.link < 2 && 1 ≤ c.vf && c.vf ≤ 63 &&
    !s.out.fns.any (fun f => f.link == c.link && f.vf == c.vf)

/-- A table's entries from an image, none for an empty one. -/
def tableOf {α : Type} (f : List Word → α) (n k : Nat) (ws : List Word) : Option (List α) := if ws.isEmpty then none else some ((pieces n k ws).map f)

/-- The context that a specification describes, waiting for its clusters; a limit that the owner gives as 0 takes its default (07 R123, R125, 10
R173, 05 R103, 06 R117). -/
def newCtx (s : State) (c : CtxSpec) : Ctx :=
  { num := c.num, priority := c.priority, grant := 0, part := 0, home := 0, wants := c.grant, running := false, saved := false,
    flumes := [], gstep := c.gstep, held := c.gstep, stepReq := [], decayb := c.decayb, srtb := c.srtb,
    decay := tableOf decayPowers 16 15 c.decay, regions := tableOf regionOf 2 64 c.regions, loading := [],
    rules := [], sweeps := 0, sweepStart := 0, faultRing := c.faultRing, faultNext := 0, fillLimit := if c.fillLimit = 0 then 2 ^ 24 else c.fillLimit, pages := c.pages,
    hostGaps := [], hostAsks := [], layerBase := c.layerBase, layerCount := c.layerCount, budget := c.budget, layerWait := if c.layerWait = 0 then 2 ^ 26 else c.layerWait, last := 0,
    demands := [], parked := [], launches := [], launchSeq := 0, queue := [], queueCap := if c.queueCap = 0 then 65536 else c.queueCap, patGrant := c.patGrant, fills := [],
    link := c.link, vf := c.vf, pasid := c.pasid, waited := s.clock }

/-- The virtual function that a context is bound to, before the driver writes its registers (21 R352). -/
def newFn (c : CtxSpec) : HostFn :=
  { ctx := c.num, link := c.link, vf := c.vf, lqBase := 0, lqSize := 0, lqHead := 0, lqTail := 0, mqBase := 0, mqSize := 0, mqHead := 0, mqTail := 0,
    mqWaits := [], miBase := 0, miSize := 0, miHead := 0, miTail := 0, aperture := Config.translatedBase }

/-- CONTEXT_CREATE: the context waits for its clusters; a context of lower priority that holds some is pre-empted (10 R184). The flags of its layers and
their waiters are what memory holds there: who clears them the manual does not say (05 R99; DESIGN CHOICE, log entry 44). -/
def execContextCreate (c : CtxSpec) (s : State) : Out :=
  .next (if mayCreate s c then
      let x := newCtx s c
      let s1 := { s with ctxs := s.ctxs ++ [x], out := { s.out with fns := s.out.fns ++ [newFn c] } }
      kickHeadrace (due (due s1 c.num .contextResume) c.num .quantumExpiry)
    else s)

/-- The owner gives a context another partition, budget or layer table: the partition while the context has not run, the table while no layer is waited
for (21 R356, 05 R97, R103; DESIGN CHOICE, log entry 39). -/
def setContext (c : CtxSpec) (s : State) : State :=
  match ctxOf s c.num with
  | none => s
  | some x =>
    if !s.out.fwGood || !layerTableOk { c with pages := x.pages } then s
    else
      let free := x.part == 0 && x.home == 0 && c.grant != 0 && !fencedIn s c.grant
      let still := x.demands.isEmpty && x.parked.isEmpty
      kickHeadrace (wakeWaiters (updCtx s c.num (fun k =>
        { k with budget := c.budget, wants := if free then c.grant else k.wants, layerBase := if still then c.layerBase else k.layerBase,
                 layerCount := if still then c.layerCount else k.layerCount })))

/-- Cells of a context's saved vault images. -/
def inImages (cx a : Nat) : Bool := imageHome cx 0 0 ≤ a && a < imageHome cx 2048 0

/-- The pins of a context's layers are dropped (05 R108). -/
def dropPins (s : State) (x : Ctx) : State :=
  (layersOf s x).foldl (fun t e => if flagPin e.2.flag = 0 then t else setFlag t e.2 (flagWordOf 0 (flagGen e.2.flag) (flagErr e.2.flag) (flagState e.2.flag))) s

/-- The context leaves the device, its pins with it (05 R108). -/
def dropCtx (s0 : State) (x : Ctx) : State :=
  let s := dropPins s0 x
  let s1 := (partCores x).foldl (fun t g => updCore t g Core.cleared) s
  let s2 := dropEverywhere s1 (fun p => p.ctx == x.num)
  let mine := fun (f : Flume) => (partCores x).contains f.core
  { s2 with ctxs := s2.ctxs.filter (fun y => y.num != x.num), mem := s2.mem.filter (fun c => !inImages x.num c.1),
            poison := s2.poison.filter (fun w => !inImages x.num (8 * w)), saves := s2.saves.filter (fun e => !(e.1 / 2048 == x.num && e.1 < 2 ^ 20)),
            flumes := s2.flumes.filter (fun f => !mine f), net := s2.net.filter (fun f => f.ctx != x.num),
            migrations := s2.migrations.filter (fun m => m.page.ctx != x.num),
            out := { s2.out with fns := s2.out.fns.filter (fun f => f.ctx != x.num) } }

/-- CONTEXT_DESTROY: the context is halted and saved first, and its commands end. -/
def execContextDestroy (s : State) : Out :=
  .next (match ctxOf s s.unit with
    | none => s
    | some x =>
      if s.out.owner.isNone then s
      else if x.running then due (requestHalt s x.num) x.num .contextDestroy
      else if (x.part != 0 && !x.saved) || vaultsBusy s x || (allCmds s).any (fun c => c.ctx == x.num) then due s x.num .contextDestroy
      else kickHeadrace (wakeWaiters (dropCtx s x)))

/-! ## A quadrant's fence (21 R361, 04 R87) -/

/-- The clusters of a quadrant. -/
def quadrantMask (q : Nat) : BitVec 128 := (0xFF : BitVec 128) <<< (8 * q)

/-- An engine of a fenced quadrant stops every command it has accepted, with LINK at the next destination byte. -/
def fenceEngine (s : State) (e : Nat) : State :=
  let cs := portWaiting s e
  let f := fun (k : Core) => { k with port := { k.port with waiting := k.port.waiting.filter (fun c => c.on != e) } }
  let stop := fun (c : Cmd) => if c.fault.isSome || c.finished s then c else { c with fault := some (0x17, c.nextDst s, 0) }
  let s1 := { s with core := f s.core, others := s.others.map (fun o => (o.1, f o.2)) }
  let s2 := updEngine s1 e (fun k => { k with queue := [], own := [], running := (k.running ++ k.queue ++ cs).map stop, fenced := true })
  (engineOf s2 e).running.foldl (fun t _ => due t e .faultNotice) s2

/-- A core reset at the device's present time: CYC starts at 0 (11 R197). -/
def Core.restarted (clock : Nat) (c : Core) : Core := { Core.reset c.num with csr := { (Core.reset c.num).csr with here := clock } }

/-- A fenced quadrant is reset and reloaded, its cores, service cores and cluster TLBs, and serves again, with a spare core where one has failed. DESIGN
CHOICE: log entry 31. -/
def unfence (s : State) (q : Nat) : State :=
  let s0 := (quadrantCores q).foldl (fun t g => updCore t g (Core.restarted s.clock)) s
  let s1 := { s0 with clusterTlb := s0.clusterTlb.filter (fun e => e.1 / 8 != q), clusterUse := s0.clusterUse.filter (fun e => e.1 / 8 != q),
                      clusterQ := s0.clusterQ.filter (fun e => e.1 / 8 != q) }
  let s2 := [2 * q, 2 * q + 1].foldl (fun t e => updEngine t e (fun k => { k with fenced := false })) s1
  wakeWaiters { s2 with out := { s2.out with fenced := s2.out.fenced &&& ~~~((1 : BitVec 16) <<< q) } }

/-- QUADRANT_FENCE of quadrant `unit`: contexts that hold a cluster of it are pre-empted, their images moved out, and the
engines stopped; where the quadrant is fenced already and its engines have given their notices, it is reset and serves again. -/
def execQuadrantFence (s : State) : Out :=
  let q := s.unit
  let hs := s.ctxs.filter (fun x => x.part &&& quadrantMask q != 0)
  .next (if 16 ≤ q || s.out.owner.isNone || !((s.out.accept.getD 0).getLsbD 5) then s
    else if s.out.fenced.getLsbD q then
      if [2 * q, 2 * q + 1].all (fun e => (engineOf s e).running.isEmpty && (engineOf s e).held.isEmpty) then unfence s q
      else due s q .quadrantFence
    else if s.out.fenced != 0 then s
    else if hs.any (·.running) then due (hs.foldl (fun t x => requestHalt t x.num) s) q .quadrantFence
    else if hs.any (fun x => !x.saved || vaultsBusy s x) then due s q .quadrantFence
    else
      let s1 := hs.foldl giveUp s
      let s2 := { s1 with out := { s1.out with fenced := s1.out.fenced ||| ((1 : BitVec 16) <<< q) } }
      wakeWaiters (fenceEngine (fenceEngine s2 (2 * q)) (2 * q + 1)))

/-! ## Power and temperature (16 R280, 21 R362) -/

/-- POWER_ALARM. -/
def execPowerAlarm (s : State) : Out := .next { s with out := { s.out with alarm := true } }

/-- POWER_ALARM_CLEAR: nothing waits for budget. -/
def execPowerAlarmClear (s : State) : Out := .next { s with out := { s.out with alarm := false, budgetWait := [], budgetGiven := [] } }

/-- POWER_BUDGET_GRANT: budget goes to a waiting core, the one whose toggle estimate is lowest: which one that is the manual
leaves open, and a free value picks it (DESIGN CHOICE, log entry 3). -/
def execPowerBudgetGrant (s : State) : Out :=
  .next (match s.out.budgetWait[(Config.freeWord s.freeCtr).toNat % s.out.budgetWait.length]? with
    | none => s
    | some g =>
      { s with freeCtr := s.freeCtr + 1,
               out := { s.out with budgetWait := s.out.budgetWait.erase g, budgetGiven := s.out.budgetGiven ++ [g] } })

/-- Samples in 10 ms (21 R362). -/
def coolSamples : Nat := 1000

/-- The step of a junction or stack after a sample: `hot` gives the step that a temperature calls for, and one lower than
that stands until the samples have been below `cool` for 10 ms. DEDUCED: log entry 32. -/
def thermalStep (hot : Nat) (cool : Nat) (celsius : Nat) (e : Nat × Nat) : Nat × Nat :=
  if hot != 0 then (hot, 0)
  else if e.1 = 0 then (0, 0)
  else if cool ≤ celsius then (e.1, 0)
  else if coolSamples ≤ e.2 + 1 then (0, 0)
  else (e.1, e.2 + 1)

/-- Code of the report of a temperature that halts every context, in `Outside.reports`. -/
def hotReport : Nat := 0x100

/-- Every context is halted, and none starts, while a place stays so hot; the owner is told (21 R362). -/
def haltAll (s : State) (place : Nat) : State :=
  let s1 := s.ctxs.foldl (fun t x => requestHalt t x.num) s
  { s1 with out := { s1.out with hot := s1.out.hot ||| ((1 : BitVec 24) <<< place), reports := s1.out.reports ++ [(hotReport, BitVec.ofNat 64 place)] } }

/-- A place is cooler: with the last one, contexts that wait for clusters may start. DEDUCED: log entry 32. -/
def coolPlace (s : State) (place : Nat) : State :=
  let h := s.out.hot &&& ~~~((1 : BitVec 24) <<< place)
  let t := { s with out := { s.out with hot := h } }
  if s.out.hot != 0 && h == 0 then wakeWaiters t else t

/-- THERMAL_SAMPLE of quadrant q's junction, or of stack q. -/
def execThermalSample (q : Nat) (celsius : Nat) (stack : Bool) (s : State) : Out :=
  .next (if stack then
      if 8 ≤ q then s
      else
        let e := thermalStep (if 95 ≤ celsius then 1 else 0) 90 celsius (s.out.stackHot.getD q (0, 0))
        let s1 := reclock (fun o => { o with stackHot := o.stackHot.set q e }) s
        if 100 ≤ celsius then haltAll s1 (16 + q) else coolPlace s1 (16 + q)
    else if 16 ≤ q then s
    else
      let e := thermalStep (if 103 ≤ celsius then 2 else if 100 ≤ celsius then 1 else 0) 95 celsius (s.out.clockStep.getD q (0, 0))
      let s1 := reclock (fun o => { o with clockStep := o.clockStep.set q e }) s
      if 105 ≤ celsius then haltAll s1 q else coolPlace s1 q)

end Sys2Proof.Machine
end

