-- ==== Sys2Proof/Machine/Control.lean ====
section
/-! DEFINITION. PTR, BCC, CALL and CTL: pointers, branches and calls (12 R211-R214). -/

namespace Sys2Proof.Machine

/-! ## PTR (12 R211) -/

/-- PSET. -/
def execPset (pd : BitVec 3) (imm : BitVec 16) (s : State) : Out :=
  finish s (.ok (s.advance.setAddr pd (s.core.regs.a + sx imm)))
/-- PGET. -/
def execPget (ps : BitVec 3) (imm : BitVec 16) (s : State) : Out :=
  finish s (.ok (s.advance.setA ((s.ptr ps).addr + sx imm)))
/-- PADD. -/
def execPadd (pd ps : BitVec 3) (imm : BitVec 16) (s : State) : Out :=
  finish s (.ok (s.advance.setAddr pd ((s.ptr ps).addr + sx imm)))
/-- PADDA. -/
def execPadda (pd ps : BitVec 3) (s : State) : Out :=
  finish s (.ok (s.advance.setAddr pd ((s.ptr ps).addr + s.core.regs.a)))
/-- PSTR. -/
def execPstr (pd : BitVec 3) (imm : BitVec 16) (s : State) : Out :=
  finish s (.ok (s.advance.setPtr pd { s.ptr pd with stride := imm.signExtend 32 }))
/-- PSTRA: a must lie in the signed 32-bit range, or OPERAND is raised. -/
def execPstra (pd : BitVec 3) (s : State) : Out :=
  finish s (if sx (s.core.regs.a.extractLsb' 0 32) = s.core.regs.a then
      .ok (s.advance.setPtr pd { s.ptr pd with stride := s.core.regs.a.extractLsb' 0 32 })
    else .error (operand 0 0))
/-- PCMPEQ. -/
def execPcmpeq (pd ps : BitVec 3) (s : State) : Out :=
  finish s (.ok (s.advance.setT ((s.ptr pd).addr == (s.ptr ps).addr)))
/-- PCMPLT. -/
def execPcmplt (pd ps : BitVec 3) (s : State) : Out :=
  finish s (.ok (s.advance.setT ((s.ptr pd).addr.ult (s.ptr ps).addr)))
/-- PGETS. -/
def execPgets (ps : BitVec 3) (s : State) : Out :=
  finish s (.ok (s.advance.setA (sx (s.ptr ps).stride)))

/-! ## Branches and calls (12 R212, R213, 11 R192) -/

/-- The target of a PC-relative transfer (11 R192). -/
def branchTarget (pc : Word) (off : BitVec 22) : Word := pc + sx off * 4

/-- BCC. -/
def execBcc (cc : BitVec 4) (off : BitVec 22) (s : State) : Out :=
  finish s (.ok (if condHolds cc s.core.regs.a s.core.regs.t s.core.regs.c then
      s.setPc (branchTarget s.core.regs.pc off)
    else s.advance))

/-- A transfer whose target is misaligned (12 R213, 01 R30). -/
def targetAligned (t : Word) : Res Unit := if t.toNat % 4 = 0 then .ok () else .error (.trap cALIGN t 0)

/-- The return address pushed through p7, and the transfer (12 R213). -/
def pushAndGo (s : State) (target : Word) : Res State :=
  match targetAligned target with
  | .error e => .error e
  | .ok _ =>
    let sp := (s.ptr 7).addr - 8
    match checkAccess s sp 8 .atomic with
    | .error e => .error e
    | .ok ac =>
      match storeAt s ac (s.core.regs.pc + 4).toNat with
      | .error e => .error e
      | .ok t => .ok ((t.setAddr 7 sp).setPc target)

/-- CALL. -/
def execCall (off : BitVec 22) (s : State) : Out := finish s (pushAndGo s (branchTarget s.core.regs.pc off))
/-- CALLA. -/
def execCalla (s : State) : Out := finish s (pushAndGo s s.core.regs.a)
/-- JMPA. -/
def execJmpa (s : State) : Out :=
  finish s (match targetAligned s.core.regs.a with
    | .error e => .error e
    | .ok _ => .ok (s.setPc s.core.regs.a))

/-- RET: the popped target is checked before p7 moves. -/
def execRet (n : BitVec 20) (s : State) : Out :=
  finish s (match checkAccess s (s.ptr 7).addr 8 .probe with
    | .error e => .error e
    | .ok ac =>
      match loadAt s ac with
      | .error e => .error e
      | .ok (t, v) =>
        match targetAligned (BitVec.ofNat 64 v) with
        | .error e => .error e
        | .ok _ => .ok ((t.setAddr 7 ((s.ptr 7).addr + 8 + 8 * zx n)).setPc (BitVec.ofNat 64 v)))

/-! ## NOP and BRK (12 R214, 19 R331) -/

/-- NOP. -/
def execNop (s : State) : Out := finish s (.ok s.advance)
/-- BRK raises BREAK and counts as complete. -/
def execBrk (n : BitVec 20) (s : State) : Out :=
  finish s (.error (.trapIn s cBREAK 0 (zx n) (s.core.regs.pc + 4)))

end Sys2Proof.Machine
end

