-- ==== Sys2Proof/Machine/Inputs.lean ====
section
/-! DEFINITION. Who moves at a step, and what comes from outside: the host's and the peers' memory, the driver's registers, errors in words and tags, and
what masters ask for (02 R40, 03 R69, 21 R352-R356). -/

namespace Sys2Proof.Machine

/-! ## Who moves -/

/-- Does a core run a task, or has it one to start. -/
def able (s : State) (c : Core) : Bool := !c.sched.halted && (c.sched.running || hasWork s c.num)

/-- The core whose own time is least, of those that can move: no core runs ahead of another by more than an instruction. -/
def laggard (s : State) : Option Core :=
  s.others.foldl (fun b e => if !able s e.2 then b else match b with
    | none => some e.2
    | some c => if e.2.csr.here < c.csr.here then some e.2 else b) (if able s s.core then some s.core else none)

/-- A device step that is due. -/
def deviceTurn (s : State) : Choice :=
  match s.pending with
  | [] => .rest s
  | (u, i) :: r => .run false i { s with pending := r, unit := u }

/-- Who moves when no turn is laid down: device steps and cores alternate, of the cores the one that is furthest behind. DESIGN CHOICE: log entry 8. -/
def freeTurn (s0 : State) : Choice :=
  let s := { s0 with beat := s0.beat + 1 }
  if !s.pending.isEmpty && s.beat % 2 = 1 then deviceTurn s
  else match laggard s with
    | some c => coreTurn (switchTo s c.num)
    | none => coreTurn s

/-- The host or a peer changes its own memory, which its window shows. DESIGN CHOICE: log entry 41. -/
def farWrite (s : State) (a n v : Nat) : State :=
  if isFar a && isFar (a + n - 1) then homeWrite s a n v else s

/-- The driver writes a function's registers: rings of a power-of-two count from 16 to 65,536, and a 1 GiB-aligned start of
the aperture at or above 0x2_0000_0000; heads and tails start at 0, and frames that wait stay (21 R352-R354). DEDUCED: log entry 40. -/
def setRegisters (s : State) (f : HostFn) : State :=
  let ring := fun (n : Nat) => n = 0 || (List.range 13).any (fun k => n == 2 ^ (k + 4))
  if ring f.lqSize && ring f.mqSize && ring f.miSize && f.aperture % 2 ^ 30 = 0 && Config.translatedBase ≤ f.aperture then
    { s with out := { s.out with fns := s.out.fns.map (fun (k : HostFn) =>
        if k.ctx = f.ctx then
          { f with link := k.link, vf := k.vf, lqHead := 0, lqTail := 0, mqHead := 0, mqTail := 0, miHead := 0, miTail := 0, mqWaits := k.mqWaits }
        else k) } }
  else s

/-- Does a request of a host or a peer wait at its home (03 R69). -/
def portWaits (s : State) : Bool := (s.waiting ++ s.stop).any (fun r => r.src == Config.hostSrc)

/-- The step by which a link's waiting requests are tried again: a read of no bytes. -/
def inboundRetry : Req := { (default : Req) with op := .load, size := 0, src := Config.hostSrc }

/-- A request of a host joins those of its link, which are performed in their order (03 R69). DESIGN CHOICE: log entry 44. -/
def joinLink (s : State) (link : Nat) (q : Inbound) : State := { s with out := { s.out with heldIn := s.out.heldIn ++ [(link, q)] } }

/-- The driver's write of a function's registers, behind what the link has brought before it (03 R69). -/
def registerWrite (s : State) (f : HostFn) : State :=
  let link := ((fnOf s f.ctx).map (·.link)).getD 0
  if !s.out.fwGood then s
  else if portWaits s || s.out.heldIn.any (fun e => e.1 == link) then due (joinLink s link (.registers f)) 0 (.hostApertureAccess f.ctx inboundRetry)
  else setRegisters s f

/-- The ranges that peers may reach here, or that this device may reach on peers (21 R360). -/
def setRanges (s : State) (mine : Bool) (rs : List (Nat × Nat × Nat)) : State :=
  if mine then { s with out := { s.out with opened := rs } } else { s with out := { s.out with peerOpen := rs } }

/-- An uncorrectable error in a word of a slice or a vault, or in the device memory behind a slice: the word is poisoned (02 R40). -/
def spoilWord (s : State) (a : Nat) : State :=
  if isSliced a || (isVaultHome a && (a - Config.vaultKey) / Config.vaultBytes < Config.nVaults) then { s with poison := insertNat (a / 8) s.poison }
  else s

/-- Word i of a line lost: where it was dirty, memory shows again what DRAM holds behind it (02 R36, R40). -/
def loseWord (l : Line) (s : State) (i : Nat) : State :=
  if l.dirty.getLsbD i then
    { s with mem := writeNat s.mem (l.num * 128 + 8 * i) 8 (((l.behind.find? (fun (e : Nat × Word) => e.1 == i)).map (fun (e : Nat × Word) => e.2)).getD 0).toNat,
             poison := s.poison.filter (fun w => w != l.num * 16 + i) }
  else s

/-- What a lost line is reported as. -/
def tagReport : Nat := 0x101

/-- An uncorrectable error in the tag of a line: the way is invalid, and the loss of dirty words is reported (02 R40). A line that a fill or a request
holds stays locked for it, without a word that is valid. DEDUCED: log entry 40. -/
def spoilTag (s : State) (n : Nat) : State :=
  match lineOf s.lines n with
  | none => s
  | some l =>
      let t := if holdsLock s l then { loseWatch s n with lines := putLine { l with valid := 0, dirty := 0, pinned := false, behind := [] } s.lines }
        else dropLines s (fun k => k.num == n)
      let s1 := (List.range 16).foldl (loseWord l) t
      if l.dirty = 0 then s1 else { s1 with out := { s1.out with reports := s1.out.reports ++ [(tagReport, BitVec.ofNat 64 (n * 128))] } }

/-- A correctable error: corrected, and counted for the control complex (02 R40). -/
def countError (s : State) : State := { s with out := { s.out with corrected := s.out.corrected + 1 } }

/-- The control complex signals core g, which ends an IDLE (19 R335). -/
def signalCore (s : State) (g : Nat) : State := updCore s g (fun c => { c with sched := { c.sched with idling := false } })

/-- The control complex writes TRAPV and UPCV of core g of a halted context, as its state is saved or stands in its save area, for the context's owner (19 R323). -/
def writeVectors (s : State) (cx g : Nat) (tv uv : Word) : State :=
  match ctxOf s cx with
  | some x =>
    if x.running || s.out.owner.isNone then s
    else
      let t := updTask s cx g (fun c => { c with csr := { c.csr with trapv := tv, upcv := uv } })
      if x.saved then homeWrite t (assignedArea cx g + 0x128) 16 (uv.toNat + tv.toNat * 2 ^ 64) else t
  | none => s

/-- The steps that only the owner may ask for: the PF and its ACCEPT are its own (21 R352, R356, R361, 19 R331). -/
def ownerOnly : Instr → Bool
  | .contextCreate _ => true
  | .contextResume => true
  | .contextDestroy => true
  | .dbgctlWrite _ _ => true
  | .quadrantFence => true
  | .ownershipHandover => true
  | .acceptWrite _ => true
  | _ => false

/-- A master that is not the owner is refused with Completer Abort (21 R356). -/
def refuseMaster (s : State) (master : Nat) : State := { s with out := { s.out with aborts := s.out.aborts ++ [master] } }

/-- The steps that a core takes for itself at its own turn, and never from outside. DESIGN CHOICE: log entry 39. -/
def coreDecides : Instr → Bool
  | .illegalInstruction _ => true
  | .fetchFault _ _ => true
  | .deferredTileFault _ _ => true
  | .watchdogFire => true
  | .recordSelect => true
  | _ => false

/-- What this step does. DESIGN CHOICE: log entry 39. -/
def choose (s : State) : Choice :=
  match s.turns with
  | [] => freeTurn s
  | .device :: r => deviceTurn { s with turns := r }
  | .core g :: r => if g < Config.nVaults then coreTurn (switchTo { s with turns := r } g) else .noCore
  | .input n i :: r =>
    if (encode i).isSome || coreDecides i || (ownerOnly i && s.out.owner.isNone) then .rest { s with turns := r } else .run false i { s with turns := r, unit := n }
  | .far a n v :: r => .rest (farWrite { s with turns := r } a n v)
  | .ranges m rs :: r => .rest (setRanges { s with turns := r } m rs)
  | .registers f :: r => .rest (registerWrite { s with turns := r } f)
  | .badWord a :: r => .rest (spoilWord { s with turns := r } a)
  | .badTag n :: r => .rest (spoilTag { s with turns := r } n)
  | .softError :: r => .rest (countError { s with turns := r })
  | .signal g :: r => .rest (if g < Config.nVaults then signalCore { s with turns := r } g else { s with turns := r })
  | .vectors cx g tv uv :: r => .rest (writeVectors { s with turns := r } cx g tv uv)
  | .request m n i :: r =>
    if !ownerOnly i then .rest { s with turns := r }
    else if s.out.owner = some m && s.out.fwGood then .run false i { s with turns := r, unit := n }
    else .rest (refuseMaster { s with turns := r } m)
  | .settings m c :: r =>
    if s.out.owner = some m then .rest (setContext c { s with turns := r }) else .rest (refuseMaster { s with turns := r } m)

/-- The page that placeWord maps: 64 KiB at the first address of translated space, on HBM4E physical address 0. -/
def placedPage (s : State) : Page :=
  { va := Config.translatedBase, size := 1, ctx := s.core.ctx, pa := 0, cow := false, tier := 0, il := bandLocal s 0,
    mig := false, x := true, w := false, r := true }

/-- A state in which the current core runs a task at the first address of translated space, whose word is `w`, and it is
the core's turn. DESIGN CHOICE: log entry 4. -/
def placeWord (s : State) (w : Nat) : State :=
  { s with mem := writeNat s.mem 0 4 w, poison := s.poison.filter (fun k => k != 0),
           turns := .core s.core.num :: s.turns,
           core := { s.core with regs := { s.core.regs with pc := BitVec.ofNat 64 Config.translatedBase },
                                 tlb := placedPage s :: s.core.tlb.filter (fun p => !p.overlaps (placedPage s)),
                                 icache := s.core.icache.filter (fun e => e.1 != 0),
                                 sched := { s.core.sched with running := true, halted := false, idling := false, asked := false, returns := [], checked := [], again := none } } }

end Sys2Proof.Machine
end

