-- ==== Sys2Proof/Machine/HostSide.lean ====
section
/-! DEFINITION. Host and peer links, the aperture, the host's rings, ownership, features and firmware (21 R352-R360, 03
R68-R71, 04 R87). -/

namespace Sys2Proof.Machine

/-! ## Links (21 R360, 03 R68, R70, R71, 04 R87) -/

/-- The answer that a step brings over host link (`peer` false) or peer link n. -/
def replyOver (peer : Bool) (n : Nat) (i : Instr) : Option Resp :=
  match i with
  | .hostCompletion l r => if !peer && l = n then some r else none
  | .peerAcknowledgement l r => if peer && l = n then some r else none
  | _ => none

/-- A link is down: its answers come no more, and each core that waits for one asks again, and finds the link down or up. -/
def dropAsked (s : State) (peer : Bool) (n : Nat) : State :=
  let lost := s.pending.filterMap (fun e => replyOver peer n e.2)
  let f := fun (c : Core) => if lost.any c.awaits then { c with sched := { c.sched with asked := false, askHome := none } } else c
  { s with core := f s.core, others := s.others.map (fun e => (e.1, f e.2)), saves := s.saves.map (fun e => (e.1, f e.2)),
           pending := s.pending.filter (fun e => (replyOver peer n e.2).isNone) }

/-- LINK_DOWN of host link or peer link n; the owner's absence is timed (21 R356). -/
def execLinkDown (peer : Bool) (n : Nat) (s : State) : Out :=
  .next (if peer then
      if 8 ≤ n then s else dropAsked { s with out := { s.out with peerUp := s.out.peerUp &&& ~~~((1 : BitVec 8) <<< n) } } true n
    else if 2 ≤ n then s
    else
      let s1 := dropAsked { s with out := { s.out with hostUp := s.out.hostUp &&& ~~~((1 : BitVec 2) <<< n) } } false n
      if s.out.owner.isSome && s.out.ownerLink = n && s.out.downAt.isNone then
        due { s1 with out := { s1.out with downAt := some s.clock } } n .ownershipLapse
      else s1)

/-- LINK_UP of host link or peer link n. -/
def execLinkUp (peer : Bool) (n : Nat) (s : State) : Out :=
  .next (if peer then
      if 8 ≤ n then s else { s with out := { s.out with peerUp := s.out.peerUp ||| ((1 : BitVec 8) <<< n) } }
    else if 2 ≤ n then s
    else { s with out := { s.out with hostUp := s.out.hostUp ||| ((1 : BitVec 2) <<< n),
                                      downAt := if s.out.ownerLink = n then none else s.out.downAt } })

/-- The core, or the saved one, that waits for an answer of the far side (03 R67). -/
def waitingCore (s : State) (r : Resp) : Option Core :=
  if r.core < Config.nVaults && (coreOf s r.core).awaits r then some (coreOf s r.core) else (s.saves.find? (fun e => e.2.awaits r)).map (·.2)

/-- The value of a load that the answer brings: what the far memory has when it reaches the port (03 R68). -/
def farValue (s : State) (c : Core) (r : Resp) : Resp :=
  match c.sched.askHome, r.value with
  | some h, none => { r with value := some (homeWord s h), bad := r.bad || (poisonIn s.poison h 1).isSome }
  | _, _ => r

/-- An answer of the far side to a core that waits for it; the refusal of a posted access is reported, with address 0: it carries none (03
R71, 21 R360; DESIGN CHOICE, log entry 44). -/
def farResponse (s : State) (r : Resp) : State :=
  match waitingCore s r with
  | some c => { s with responses := s.responses ++ [farValue s c r], pending := s.pending ++ [(r.core, .accessResponse)] }
  | none => if r.refused then { s with out := { s.out with reports := s.out.reports ++ [(5, 0)] } } else s

/-- HOST_COMPLETION. -/
def execHostCompletion (link : Nat) (r : Resp) (s : State) : Out :=
  .next (if link < 2 && s.out.hostUp.getLsbD link then farResponse s r else s)

/-- The first command in progress, with its engine, that writes to peer n. -/
def cmdToPeer (s : State) (n : Nat) : Option (Nat × Cmd) :=
  (List.range 32).findSome? (fun e =>
    ((engineOf s e).running.find? (fun c => !c.finished s && c.writesFar s (fun h => isPeer h && peerLink h == n))).map (fun c => (e, c)))

/-- PEER_ACKNOWLEDGEMENT: data or a refusal for a core; a refusal of an engine's write stops its command with FULL (04 R87). -/
def execPeerAcknowledgement (n : Nat) (r : Resp) (s : State) : Out :=
  .next (if !(n < 8 && s.out.peerUp.getLsbD n) then s
    else if r.core < Config.nVaults || !r.refused then farResponse s r
    else match cmdToPeer s n with
      | some (e, c) => stopCmd s e c 0x18
      | none => s)

/-- May a peer reach an address here: its link is up, the firmware runs, the driver has accepted PEER, and the owner has opened the range (21
R357, R358, R360). -/
def peerMay (s : State) (n a : Nat) : Bool :=
  n < 8 && s.out.fwGood && s.out.peerUp.getLsbD n && (s.out.accept.getD 0).getLsbD 2 && isSliced a &&
    s.out.opened.any (fun r => r.1 == n && r.2.1 ≤ a && a < r.2.1 + r.2.2)

/-- A request of a port: performed at its home in its turn, or refused. -/
def portRequest (s : State) (r : Req) (allowed : Bool) : State :=
  let q := { r with src := Config.hostSrc }
  if allowed && q.ok then arrive s q else respond s { q.answer none with refused := true }

/-- PEER_INBOUND_READ: a load or an atomic of a peer. -/
def execPeerInboundRead (n : Nat) (r : Req) (s : State) : Out :=
  let reads := match r.op with
    | .load => true
    | .atom _ => true
    | .cas _ => true
    | _ => false
  .next (if reads then portRequest s r (peerMay s n r.addr) else s)

/-- PEER_INBOUND_WRITE: a peer's write; one with the release bit follows every earlier write that the ports have still to perform, at any home (03
R70). -/
def execPeerInboundWrite (n : Nat) (r : Req) (s : State) : Out :=
  .next (if !(r.op == .store || r.op == .storeNt) then s
    else if r.rel && portWaits s then due s s.unit (.peerInboundWrite n r)
    else portRequest s r (peerMay s n r.addr))

/-! ## The aperture (21 R352) -/

/-- Bytes of the aperture. -/
def apertureBytes : Nat := 2 ^ 36

/-- A request's home at a physical address that its page gives: performed there, or refused where nothing stands. -/
def apertureAt (s : State) (r : Req) (p : Page) (a : Nat) : State :=
  let q := { r with addr := a, src := Config.hostSrc }
  if isSliced a then portRequest s q (!isHbm a || p.il == bandLocal s a)
  else if isFar a && (farFault s a).isNone && q.ok then serve s q
  else respond s { q.answer none with refused := true }

/-- A read or write at an offset of the aperture, translated by the context's tables; none while its page is held by a migration. -/
def apertureAccess (s : State) (ctx : Nat) (r : Req) : Option State :=
  let no := respond s { r.answer none with core := Config.hostSrc, refused := true }
  match fnOf s ctx with
  | none => some no
  | some f =>
    let va := f.aperture + r.addr
    if apertureBytes ≤ r.addr then some no
    else if heldByMigration s ctx va then none
    else match walk s ctx va (r.op == .store) false with
      | .error _ => some no
      | .ok (t, p) => some (apertureAt t r p (p.phys va))

/-- The doublewords of a function's ring entry. -/
def ringWords (s : State) (f : HostFn) (base i : Nat) : List Word := (List.range 8).map (fun k => homeWord s (hostRingHome s f.link base i + 8 * k))

/-- Frames in a function's message queue (21 R353). -/
def HostFn.mqUsed (f : HostFn) : Nat := (f.mqHead + f.mqSize - f.mqTail) % f.mqSize

/-- Frames of the control complex that wait are written while the queue has room. -/
def flushMq (ctx : Nat) : List (List Word) → State → State
  | [], s => updFn s ctx (fun k => { k with mqWaits := [] })
  | w :: r, s =>
    match fnOf s ctx with
    | none => s
    | some f => if f.mqFull then updFn s ctx (fun k => { k with mqWaits := w :: r }) else flushMq ctx r (writeMq s f w)

/-- The host has taken n frames and advances the tail (21 R353). -/
def consumeFrames (s : State) (ctx n : Nat) : State :=
  let t := updFn s ctx (fun f => { f with mqTail := (f.mqTail + min n f.mqUsed) % f.mqSize })
  flushMq ctx (((fnOf t ctx).map (·.mqWaits)).getD []) t

/-- An inbound request is performed; none while its page is held by a migration. -/
def performInbound (s : State) : Inbound → Option State
  | .access ctx r => apertureAccess s ctx r
  | .registers f => some (setRegisters s f)
  | .consumed ctx n => some (consumeFrames s ctx n)

/-- The inbound requests of a link, in the order of their arrival: each is performed when every earlier one has been (03 R69), so that a write with
Relaxed Ordering set, which may go before earlier ones, goes in its turn too (DESIGN CHOICE, log entry 44); `k` bounds how many. -/
def takeInbound (link : Nat) : Nat → State → State
  | 0, s => s
  | k + 1, s =>
    match s.out.heldIn.find? (fun e => e.1 == link) with
    | none => s
    | some e =>
      if portWaits s then s
      else match performInbound s e.2 with
        | none => s
        | some t => takeInbound link k { t with out := { t.out with heldIn := t.out.heldIn.erase e } }

/-- A link's requests as far as they can be performed; where one waits they are tried again. -/
def serveLink (s : State) (link ctx : Nat) : State :=
  let t := takeInbound link s.out.heldIn.length s
  if t.out.heldIn.any (fun e => e.1 == link) then due t s.unit (.hostApertureAccess ctx inboundRetry) else t

/-- HOST_APERTURE_ACCESS: a request joins those of its link, which are performed in their order. -/
def execHostApertureAccess (ctx : Nat) (r : Req) (s : State) : Out :=
  .next (if !(r.op == .load || r.op == .store) then s
    else
      let link := ((fnOf s ctx).map (·.link)).getD 0
      serveLink (if r = inboundRetry then s else joinLink s link (.access ctx r)) link ctx)

/-! ## The rings (21 R353, R354) -/

/-- Do earlier requests of a function's host wait to be performed (03 R69). -/
def hostWaits (s : State) (f : HostFn) : Bool := portWaits s || s.out.heldIn.any (fun e => e.1 == f.link)

/-- A refused entry's report: TRAPC, TRAPA, TRAPX. -/
def refuseEntry (s : State) (cx : Nat) (cause : BitVec 8) (addr x : Word) : State := hostFrame s cx [cause.zeroExtend 64, addr, x]

/-- A command by which the control complex reads for a context. -/
def readerCmd (x : Ctx) : Cmd := { (default : Cmd) with ecw0 := 1, core := (partCores x).headD 0, ctx := x.num, key := hostKey }

/-- An address that the control complex waits for: the driver is asked for a host-backed page. -/
def awaitNamed (s : State) (x : Ctx) (va : Nat) (write : Bool) : State × Bool := (askGap s (readerCmd x) va write, false)

/-- A virtual address that the control complex can name for a context: it has no vault of its own (01 R13). -/
def namedHome (s : State) (x : Ctx) (va : Nat) (write : Bool) : Except (BitVec 8 × Nat) (State × Nat) :=
  if spaceOf (BitVec.ofNat 64 va) = .ownVault then .error (6, 0) else engineHome s (readerCmd x) va write

/-- A placement table read 2 bytes an entry, or the fault and its address; cause 0 means that it waits. -/
def hostTable (s : State) (x : Ctx) (base : Nat) : Nat → Except (BitVec 8 × Nat) (State × List Nat)
  | 0 => .ok (s, [])
  | k + 1 =>
    match hostTable s x base k with
    | .error e => .error e
    | .ok (t, l) =>
      match namedHome t x (base + 2 * k) false with
      | .error (f, _) => .error (f, base + 2 * k)
      | .ok (u, h) => .ok (readBy u x.num h 2, l ++ [homeRead u h 2])

/-- The table of a record that passes its first checks. -/
def tableOfHost (s : State) (x : Ctx) (ws : List Word) (r : LRec) : Except (BitVec 8 × Nat) (State × List Nat) :=
  if r.place != 1 || lrecMalformed s ws r || r.entry.toNat % 4 != 0 || r.join.toNat % 16 != 0 || 0xFFFFFFFF < r.total then .ok (s, [])
  else hostTable s x r.pbase.toNat r.total

/-- One launch of the host queue: launched or refused with a report (true), or waiting. The core that upcalls of a launch without
a launching core go to is a free choice among the partition's (DESIGN CHOICE, log entry 3). -/
def hostLaunch (s : State) (x : Ctx) (ws : List Word) (src : Word) : State × Bool :=
  let r := lrecOf ws
  let said := fun (t : State) => (dropAsks t x.num hostKey, true)
  match tableOfHost s x ws r with
  | .error (f, a) => if f = 0 then awaitNamed s x a false else said (refuseEntry s x.num f (BitVec.ofNat 64 a) 0)
  | .ok (t, table) =>
    match lrecReason t x ws r table with
    | some n => said (refuseEntry t x.num cOPERAND src (BitVec.ofNat 64 n))
    | none =>
      let join : Except (BitVec 8 × Nat) Unit := if r.join = 0 then .ok () else match namedHome t x r.join.toNat true with
        | .error e => .error e
        | .ok _ => .ok ()
      match join with
      | .error (f, _) => if f = 0 then awaitNamed t x r.join.toNat true else said (refuseEntry t x.num f r.join 0)
      | .ok _ =>
        match freeSlot x with
        | none => (t, false)
        | some slot =>
          let (w, t1) := freeNext t
          let u := acceptLaunch t1 x r table slot src ((partCores x).getD (w.toNat % (partCores x).length) 0)
          if u.2 then said u.1 else u

/-- LAUNCH_QUEUE_DOORBELL: the host writes the launch queue's tail; records are launched in ring order up to it, one a step; a context without
clusters, a full set of slots, and host writes still to be performed make the rest wait. A value that is no entry's number writes nothing: with it the
control complex goes on. -/
def execLaunchQueueDoorbell (ctx : Nat) (tail : Nat) (s0 : State) : Out :=
  let s := updFn s0 ctx (fun k => if tail < k.lqSize then { k with lqTail := tail } else k)
  .next (match fnOf s ctx, ctxOf s ctx with
    | some f, some x =>
      let again := fun (t : State) => due t s.unit (.launchQueueDoorbell ctx f.lqSize)
      if f.lqHead = f.lqTail then s
      else if x.part = 0 || hostWaits s f then again s
      else
        let t := hostLaunch s x (ringWords s f f.lqBase f.lqHead) (BitVec.ofNat 64 (f.lqBase + 64 * f.lqHead))
        if !t.2 then again t.1
        else
          let u := updFn t.1 ctx (fun k => { k with lqHead := (f.lqHead + 1) % f.lqSize })
          if (f.lqHead + 1) % f.lqSize = f.lqTail then u else again u
    | _, _ => s)

/-- Fields of a message-in entry (21 R354). -/
def miTarget (ws : List Word) : Nat := bits (ws.getD 1 0) 41 32
def miLen (ws : List Word) : Nat := bits (ws.getD 1 0) 5 0

/-- Does the control complex take an entry. -/
def miOk (x : Ctx) (ws : List Word) : Bool :=
  bits (ws.getD 1 0) 63 42 == 0 && bits (ws.getD 1 0) 31 6 == 0 && miLen ws ≤ 48 && (ws.getD 0 0).toNat % 4 == 0 &&
    (inPart x (miTarget ws) || (x.part == 0 && isCompute (miTarget ws) && (x.home ||| x.wants).getLsbD (clusterOf (miTarget ws))))

/-- The payload bytes of an entry. -/
def miPayload (ws : List Word) : List Byte := ((ws.drop 2).flatMap (fun w => (List.range 8).map (fun i => w.extractLsb' (8 * i) 8))).take (miLen ws)

/-- MESSAGE_IN_DOORBELL: the host writes the message-in queue's tail; entries are delivered in ring order up to it, one a step; one whose target holds
all its message frames makes the rest wait. The reason in a refused entry's report the manual does not give: a free value (DESIGN CHOICE, log entry 3). -/
def execMessageInDoorbell (ctx : Nat) (tail : Nat) (s0 : State) : Out :=
  let s := updFn s0 ctx (fun k => if tail < k.miSize then { k with miTail := tail } else k)
  .next (match fnOf s ctx, ctxOf s ctx with
    | some f, some x =>
      let again := fun (t : State) => due t s.unit (.messageInDoorbell ctx f.miSize)
      if f.miHead = f.miTail then s
      else if hostWaits s f then again s
      else
        let ws := ringWords s f f.miBase f.miHead
        let next := fun (t : State) =>
          let u := updFn t ctx (fun k => { k with miHead := (f.miHead + 1) % f.miSize })
          if (f.miHead + 1) % f.miSize = f.miTail then u else again u
        if !miOk x ws then
          let (w, t) := freeNext s
          next (refuseEntry t ctx cOPERAND (BitVec.ofNat 64 (f.miBase + 64 * f.miHead)) w)
        else if x.running && (freeMsgFrame (coreOf s (miTarget ws))).isNone then again s
        else
          let e : QEntry := { level := 1, work := .message (ws.getD 0 0) Config.hostSrc (miPayload ws), entered := 0, aged := false }
          next { s with net := s.net ++ [{ dst := miTarget ws, ctx := ctx, ent := e }], pending := s.pending ++ [(miTarget ws, .messageArrival)] }
    | _, _ => s)

/-- MESSAGE_QUEUE_CONSUMED: the host has taken n frames and writes the tail, in its link's order (03 R69, 21 R353). -/
def execMessageQueueConsumed (ctx n : Nat) (s : State) : Out :=
  .next (match fnOf s ctx with
    | none => s
    | some f => serveLink (joinLink s f.link (.consumed ctx n)) f.link ctx)

/-! ## Ownership, features, firmware (21 R355-R359) -/

/-- n bytes of a number, lowest first. -/
def bytesOf (n v : Nat) : List Byte := (List.range n).map (fun i => BitVec.ofNat 8 (v >>> (8 * i)))

/-- The attestation report for a nonce: the fields of 21 R359 in their order, and the signature of their digest. -/
def reportOf (s : State) (nonce : BitVec 256) : Attest :=
  let fields := bytesOf 32 nonce.toNat ++ bytesOf 32 s.out.fwDigest.toNat ++ bytesOf 16 s.out.feat.toNat ++ bytesOf 8 s.out.fuseRev.toNat
  let g := Config.sign s.out.idKey (Config.sha256 fields)
  { nonce := nonce, digest := s.out.fwDigest, feat := s.out.feat, rev := s.out.fuseRev, r := g.1, s := g.2 }

/-- The exchange of a claim: the host's fresh nonce, a free value, is answered with a report (21 R355, R359; DESIGN CHOICE, log entry 3). -/
def attest (s : State) : State :=
  let n := freeSpan s 4
  { n.2 with out := { n.2.out with attests := n.2.out.attests ++ [reportOf n.2 (BitVec.ofNat 256 n.1)] } }

/-- OWNERSHIP_CLAIM: for each claim that reaches the device the exchange runs; the first whose exchange succeeds while no owner stands, or the named
successor's, makes its master the owner. -/
def execOwnershipClaim (link master : Nat) (attested : Bool) (s : State) : Out :=
  .next (if link < 2 && s.out.hostUp.getLsbD link && s.out.fwGood && (s.out.owner.isNone || s.out.successor == some master) then
      let t := attest s
      if attested then { t with out := { t.out with owner := some master, ownerLink := link, successor := none, downAt := none } } else t
    else s)

/-- OWNERSHIP_HANDOVER: the owner names master `unit`; not in recovery (21 R358). -/
def execOwnershipHandover (s : State) : Out :=
  .next (if s.out.owner.isSome && s.out.fwGood then { s with out := { s.out with successor := some s.unit } } else s)

/-- One second in units of the clock. -/
def oneSecond : Nat := 100000000 * 21

/-- OWNERSHIP_LAPSE: the owner's link has been down for 1 s; contexts run on. -/
def execOwnershipLapse (s : State) : Out :=
  .next (match s.out.downAt with
    | none => s
    | some t0 =>
      if s.out.owner.isNone then s
      else if t0 + oneSecond ≤ s.clock then { s with out := { s.out with owner := none, successor := none, downAt := none } }
      else due s s.unit .ownershipLapse)

/-- ACCEPT_WRITE: refused whole where it sets a bit that FEAT does not advertise, and in recovery (21 R358). -/
def execAcceptWrite (v : BitVec 128) (s : State) : Out :=
  .next (if v &&& ~~~s.out.feat = 0 && s.out.fwGood then { s with out := { s.out with accept := some v } } else s)

/-- The device after a start with a good image: cores as reset leaves them, with CYC counting from now (11 R197); the size of the layer pool and the bands' modes
are the firmware's choice, and the image's digest is the image's: free values (DESIGN CHOICE, log entry 3; 11 R200, 19 R332, 05 R102, 01 R24, 21
R359). -/
def started (s : State) : State :=
  let (w, s1) := freeNext s
  let (v, s2) := freeNext s1
  let d := freeSpan s2 4
  { d.2 with core := (Core.reset 0).restarted s.clock,
             others := if s.clock = 0 then [] else (List.range (Config.nVaults - 1)).map (fun g => (g + 1, (Core.reset (g + 1)).restarted s.clock)), pool := w.toNat, bands := v, out := { d.2.out with fwGood := true, fwDigest := BitVec.ofNat 256 d.1 } }

/-- FIRMWARE_BOOT: at a start, before any context exists, the boot ROM checks the image. -/
def execFirmwareBoot (good : Bool) (s : State) : Out :=
  .next (if !s.ctxs.isEmpty then s
    else if good then started s
    else { s with out := { s.out with fwGood := false } })

/-- FIRMWARE_IMAGE_DELIVERY: in recovery the host delivers the image again. -/
def execFirmwareImageDelivery (good : Bool) (s : State) : Out :=
  .next (if s.out.fwGood then s else if good then started s else s)

end Sys2Proof.Machine
end

