-- ==== Sys2Proof/Machine/Dispatch.lean ====
section
/-! DEFINITION. Every instruction and device step sent to its meaning. -/

namespace Sys2Proof.Machine

/-- The meaning of an instruction or device step. -/
def exec (i : Instr) (s : State) : Host.Outcome State Fault Refusal :=
  match i with
  | .ld m => Sys2Proof.Machine.execLd m s
  | .ldu m => Sys2Proof.Machine.execLdu m s
  | .lda m => Sys2Proof.Machine.execLda m s
  | .ldAcqLoc m => Sys2Proof.Machine.execLdAcqLoc m s
  | .ldAcqDev m => Sys2Proof.Machine.execLdAcqDev m s
  | .ldAcqSys m => Sys2Proof.Machine.execLdAcqSys m s
  | .ldNt m => Sys2Proof.Machine.execLdNt m s
  | .ldf m => Sys2Proof.Machine.execLdf m s
  | .st m => Sys2Proof.Machine.execSt m s
  | .stRelLoc m => Sys2Proof.Machine.execStRelLoc m s
  | .stRelDev m => Sys2Proof.Machine.execStRelDev m s
  | .stRelSys m => Sys2Proof.Machine.execStRelSys m s
  | .stNt m => Sys2Proof.Machine.execStNt m s
  | .stf m => Sys2Proof.Machine.execStf m s
  | .add m => Sys2Proof.Machine.execAdd m s
  | .sub m => Sys2Proof.Machine.execSub m s
  | .rsb m => Sys2Proof.Machine.execRsb m s
  | .and m => Sys2Proof.Machine.execAnd m s
  | .or m => Sys2Proof.Machine.execOr m s
  | .xor m => Sys2Proof.Machine.execXor m s
  | .mul m => Sys2Proof.Machine.execMul m s
  | .mulh m => Sys2Proof.Machine.execMulh m s
  | .mulhu m => Sys2Proof.Machine.execMulhu m s
  | .div m => Sys2Proof.Machine.execDiv m s
  | .divu m => Sys2Proof.Machine.execDivu m s
  | .rem m => Sys2Proof.Machine.execRem m s
  | .remu m => Sys2Proof.Machine.execRemu m s
  | .min m => Sys2Proof.Machine.execMin m s
  | .max m => Sys2Proof.Machine.execMax m s
  | .minu m => Sys2Proof.Machine.execMinu m s
  | .maxu m => Sys2Proof.Machine.execMaxu m s
  | .shl m => Sys2Proof.Machine.execShl m s
  | .shr m => Sys2Proof.Machine.execShr m s
  | .sar m => Sys2Proof.Machine.execSar m s
  | .rol m => Sys2Proof.Machine.execRol m s
  | .cmpeq m => Sys2Proof.Machine.execCmpeq m s
  | .cmplt m => Sys2Proof.Machine.execCmplt m s
  | .cmpltu m => Sys2Proof.Machine.execCmpltu m s
  | .tst m => Sys2Proof.Machine.execTst m s
  | .addc m => Sys2Proof.Machine.execAddc m s
  | .subc m => Sys2Proof.Machine.execSubc m s
  | .fadd m => Sys2Proof.Machine.execFadd m s
  | .fsub m => Sys2Proof.Machine.execFsub m s
  | .fmul m => Sys2Proof.Machine.execFmul m s
  | .fdiv m => Sys2Proof.Machine.execFdiv m s
  | .fmin m => Sys2Proof.Machine.execFmin m s
  | .fmax m => Sys2Proof.Machine.execFmax m s
  | .fcmpeq m => Sys2Proof.Machine.execFcmpeq m s
  | .fcmplt m => Sys2Proof.Machine.execFcmplt m s
  | .fcmple m => Sys2Proof.Machine.execFcmple m s
  | .li imm => Sys2Proof.Machine.execLi imm s
  | .lui imm => Sys2Proof.Machine.execLui imm s
  | .addi imm => Sys2Proof.Machine.execAddi imm s
  | .andi imm => Sys2Proof.Machine.execAndi imm s
  | .ori imm => Sys2Proof.Machine.execOri imm s
  | .xori imm => Sys2Proof.Machine.execXori imm s
  | .shli sh => Sys2Proof.Machine.execShli sh s
  | .shri sh => Sys2Proof.Machine.execShri sh s
  | .sari sh => Sys2Proof.Machine.execSari sh s
  | .cmpeqi imm => Sys2Proof.Machine.execCmpeqi imm s
  | .cmplti imm => Sys2Proof.Machine.execCmplti imm s
  | .cmpltui imm => Sys2Proof.Machine.execCmpltui imm s
  | .tsti imm => Sys2Proof.Machine.execTsti imm s
  | .muli imm => Sys2Proof.Machine.execMuli imm s
  | .sext w => Sys2Proof.Machine.execSext w s
  | .zext w => Sys2Proof.Machine.execZext w s
  | .fcvt code => Sys2Proof.Machine.execFcvt code s
  | .aadd m => Sys2Proof.Machine.execAadd m s
  | .aand m => Sys2Proof.Machine.execAand m s
  | .aor m => Sys2Proof.Machine.execAor m s
  | .axor m => Sys2Proof.Machine.execAxor m s
  | .amin m => Sys2Proof.Machine.execAmin m s
  | .amax m => Sys2Proof.Machine.execAmax m s
  | .aminu m => Sys2Proof.Machine.execAminu m s
  | .amaxu m => Sys2Proof.Machine.execAmaxu m s
  | .aswp m => Sys2Proof.Machine.execAswp m s
  | .afadd m => Sys2Proof.Machine.execAfadd m s
  | .aaddN m => Sys2Proof.Machine.execAaddN m s
  | .aandN m => Sys2Proof.Machine.execAandN m s
  | .aorN m => Sys2Proof.Machine.execAorN m s
  | .axorN m => Sys2Proof.Machine.execAxorN m s
  | .aminN m => Sys2Proof.Machine.execAminN m s
  | .amaxN m => Sys2Proof.Machine.execAmaxN m s
  | .aminuN m => Sys2Proof.Machine.execAminuN m s
  | .amaxuN m => Sys2Proof.Machine.execAmaxuN m s
  | .aswpN m => Sys2Proof.Machine.execAswpN m s
  | .afaddN m => Sys2Proof.Machine.execAfaddN m s
  | .sld m => Sys2Proof.Machine.execSld m s
  | .sst m => Sys2Proof.Machine.execSst m s
  | .sadd m => Sys2Proof.Machine.execSadd m s
  | .saddN m => Sys2Proof.Machine.execSaddN m s
  | .smrg m => Sys2Proof.Machine.execSmrg m s
  | .sage m => Sys2Proof.Machine.execSage m s
  | .srebase m => Sys2Proof.Machine.execSrebase m s
  | .pset pd imm => Sys2Proof.Machine.execPset pd imm s
  | .pget ps imm => Sys2Proof.Machine.execPget ps imm s
  | .padd pd ps imm => Sys2Proof.Machine.execPadd pd ps imm s
  | .padda pd ps => Sys2Proof.Machine.execPadda pd ps s
  | .pstr pd imm => Sys2Proof.Machine.execPstr pd imm s
  | .pstra pd => Sys2Proof.Machine.execPstra pd s
  | .pcmpeq pd ps => Sys2Proof.Machine.execPcmpeq pd ps s
  | .pcmplt pd ps => Sys2Proof.Machine.execPcmplt pd ps s
  | .pgets ps => Sys2Proof.Machine.execPgets ps s
  | .bcc cc off => Sys2Proof.Machine.execBcc cc off s
  | .call off => Sys2Proof.Machine.execCall off s
  | .ret n => Sys2Proof.Machine.execRet n s
  | .brk n => Sys2Proof.Machine.execBrk n s
  | .fmac ty pa pb x => Sys2Proof.Machine.execFmac ty pa pb x s
  | .acas ty pa pb => Sys2Proof.Machine.execAcas ty pa pb s
  | .sel ty pa pb x => Sys2Proof.Machine.execSel ty pa pb x s
  | .imac ty pa pb x => Sys2Proof.Machine.execImac ty pa pb x s
  | .movm ty pd pa xa xd => Sys2Proof.Machine.execMovm ty pd pa xa xd s
  | .fence scope => Sys2Proof.Machine.execFence scope s
  | .waitc n => Sys2Proof.Machine.execWaitc n s
  | .mwatch p => Sys2Proof.Machine.execMwatch p s
  | .mwait n => Sys2Proof.Machine.execMwait n s
  | .cflush p => Sys2Proof.Machine.execCflush p s
  | .cpin p => Sys2Proof.Machine.execCpin p s
  | .cunpin p => Sys2Proof.Machine.execCunpin p s
  | .cpref p => Sys2Proof.Machine.execCpref p s
  | .mfs csr => Sys2Proof.Machine.execMfs csr s
  | .mts csr => Sys2Proof.Machine.execMts csr s
  | .trap n => Sys2Proof.Machine.execTrap n s
  | .tlbi all => Sys2Proof.Machine.execTlbi all s
  | .crst c => Sys2Proof.Machine.execCrst c s
  | .wdog n => Sys2Proof.Machine.execWdog n s
  | .lnset ps imm => Sys2Proof.Machine.execLnset ps imm s
  | .lnidx j => Sys2Proof.Machine.execLnidx j s
  | .lnptr pd j => Sys2Proof.Machine.execLnptr pd j s
  | .tcfg ac fl => Sys2Proof.Machine.execTcfg ac fl s
  | .trel ac => Sys2Proof.Machine.execTrel ac s
  | .tzero ac => Sys2Proof.Machine.execTzero ac s
  | .tld ac pa fl => Sys2Proof.Machine.execTld ac pa fl s
  | .twr ac pa fl => Sys2Proof.Machine.execTwr ac pa fl s
  | .tdrain ac pa fl => Sys2Proof.Machine.execTdrain ac pa fl s
  | .ttrn ac => Sys2Proof.Machine.execTtrn ac s
  | .tscl ac pa => Sys2Proof.Machine.execTscl ac pa s
  | .mma ac pa pb fl => Sys2Proof.Machine.execMma ac pa pb fl s
  | .mmas ac pa pb fl => Sys2Proof.Machine.execMmas ac pa pb fl s
  | .tcmpr pa pb fl => Sys2Proof.Machine.execTcmpr pa pb fl s
  | .tvop ac pa fl => Sys2Proof.Machine.execTvop ac pa fl s
  | .tred ac pa fl => Sys2Proof.Machine.execTred ac pa fl s
  | .tcvt ac fl => Sys2Proof.Machine.execTcvt ac fl s
  | .tqnt ac pa fl => Sys2Proof.Machine.execTqnt ac pa fl s
  | .tsmax ac => Sys2Proof.Machine.execTsmax ac s
  | .vadd ty pd pa pb x => Sys2Proof.Machine.execVadd ty pd pa pb x s
  | .vsub ty pd pa pb x => Sys2Proof.Machine.execVsub ty pd pa pb x s
  | .vmul ty pd pa pb x => Sys2Proof.Machine.execVmul ty pd pa pb x s
  | .vfma ty pd pa pb x => Sys2Proof.Machine.execVfma ty pd pa pb x s
  | .vmax ty pd pa pb x => Sys2Proof.Machine.execVmax ty pd pa pb x s
  | .vmin ty pd pa pb x => Sys2Proof.Machine.execVmin ty pd pa pb x s
  | .vsum ty pd pa x => Sys2Proof.Machine.execVsum ty pd pa x s
  | .vdot ty pd pa pb x => Sys2Proof.Machine.execVdot ty pd pa pb x s
  | .vcvt ty pd pa x => Sys2Proof.Machine.execVcvt ty pd pa x s
  | .vgath ty pd pa pb x => Sys2Proof.Machine.execVgath ty pd pa pb x s
  | .vscat ty pd pa pb x => Sys2Proof.Machine.execVscat ty pd pa pb x s
  | .vscl ty pd pa pb x => Sys2Proof.Machine.execVscl ty pd pa pb x s
  | .vexp2 ty pd pa x => Sys2Proof.Machine.execVexp2 ty pd pa x s
  | .vsad pd pa x => Sys2Proof.Machine.execVsad pd pa x s
  | .awupd pd pa pb adv => Sys2Proof.Machine.execAwupd pd pa pb adv s
  | .rkcfg p slot => Sys2Proof.Machine.execRkcfg p slot s
  | .rkldg p => Sys2Proof.Machine.execRkldg p s
  | .rkemit p idx => Sys2Proof.Machine.execRkemit p idx s
  | .rkbwd p => Sys2Proof.Machine.execRkbwd p s
  | .rkrd p => Sys2Proof.Machine.execRkrd p s
  | .osort ty pd pa x => Sys2Proof.Machine.execOsort ty pd pa x s
  | .otopk ty pd pa x => Sys2Proof.Machine.execOtopk ty pd pa x s
  | .omerge ty pd pa pb => Sys2Proof.Machine.execOmerge ty pd pa pb s
  | .obkt ty pd pa pb x => Sys2Proof.Machine.execObkt ty pd pa pb x s
  | .spawn p self => Sys2Proof.Machine.execSpawn p self s
  | .send p len host => Sys2Proof.Machine.execSend p len host s
  | .hop p size => Sys2Proof.Machine.execHop p size s
  | .launch p => Sys2Proof.Machine.execLaunch p s
  | .lqput n => Sys2Proof.Machine.execLqput n s
  | .lqget n => Sys2Proof.Machine.execLqget n s
  | .lqtst n out => Sys2Proof.Machine.execLqtst n out s
  | .tsend p => Sys2Proof.Machine.execTsend p s
  | .mread p => Sys2Proof.Machine.execMread p s
  | .lwait l froma => Sys2Proof.Machine.execLwait l froma s
  | .lrel l froma => Sys2Proof.Machine.execLrel l froma s
  | .lhint l froma => Sys2Proof.Machine.execLhint l froma s
  | .jdec p => Sys2Proof.Machine.execJdec p s
  | .barm p pc => Sys2Proof.Machine.execBarm p pc s
  | .recall addr write => Sys2Proof.Machine.execRecall addr write s
  | .sliceRequest r => Sys2Proof.Machine.execSliceRequest r s
  | .vaultAccess r => Sys2Proof.Machine.execVaultAccess r s
  | .mreadRequest m => Sys2Proof.Machine.execMreadRequest m s
  | .vaultDelivery d => Sys2Proof.Machine.execVaultDelivery d s
  | .barmAtHome g off expected cr issuer => Sys2Proof.Machine.execBarmAtHome g off expected cr issuer s
  | .joinDecrement j => Sys2Proof.Machine.execJoinDecrement j s
  | .flumeTransfer g n => Sys2Proof.Machine.execFlumeTransfer g n s
  | .flumeSlotReturn g n => Sys2Proof.Machine.execFlumeSlotReturn g n s
  | .migration ctx va newpa => Sys2Proof.Machine.execMigration ctx va newpa s
  | .bandModeChange band stackLocal => Sys2Proof.Machine.execBandModeChange band stackLocal s
  | .hostUnmapRequest ctx va pages => Sys2Proof.Machine.execHostUnmapRequest ctx va pages s
  | .hostFaultInAnswer g pa => Sys2Proof.Machine.execHostFaultInAnswer g pa s
  | .lwaitAtHome g layer => Sys2Proof.Machine.execLwaitAtHome g layer s
  | .lrelAtHome g layer => Sys2Proof.Machine.execLrelAtHome g layer s
  | .lhintAtHome g layer => Sys2Proof.Machine.execLhintAtHome g layer s
  | .layerResidentStep ctx layer => Sys2Proof.Machine.execLayerResidentStep ctx layer s
  | .layerFaultStep ctx layer err => Sys2Proof.Machine.execLayerFaultStep ctx layer err s
  | .layerEvictedStep ctx layer => Sys2Proof.Machine.execLayerEvictedStep ctx layer s
  | .orderedMerge ctx slot => Sys2Proof.Machine.execOrderedMerge ctx slot s
  | .mergeCheck ctx slot => Sys2Proof.Machine.execMergeCheck ctx slot s
  | .mergeCompletion ctx slot => Sys2Proof.Machine.execMergeCompletion ctx slot s
  | .stopPacketArrival g stream => Sys2Proof.Machine.execStopPacketArrival g stream s
  | .launchTaskGenerate ctx slot => Sys2Proof.Machine.execLaunchTaskGenerate ctx slot s
  | .launchCompletion ctx slot => Sys2Proof.Machine.execLaunchCompletion ctx slot s
  | .deferredTileFault g addr => Sys2Proof.Machine.execDeferredTileFault g addr s
  | .thermalSample q celsius stack => Sys2Proof.Machine.execThermalSample q celsius stack s
  | .clusterHandover ctx next => Sys2Proof.Machine.execClusterHandover ctx next s
  | .contextCreate c => Sys2Proof.Machine.execContextCreate c s
  | .dbgctlWrite g v => Sys2Proof.Machine.execDbgctlWrite g v s
  | .linkDown peer n => Sys2Proof.Machine.execLinkDown peer n s
  | .hostApertureAccess ctx r => Sys2Proof.Machine.execHostApertureAccess ctx r s
  | .peerInboundWrite n r => Sys2Proof.Machine.execPeerInboundWrite n r s
  | .launchQueueDoorbell ctx tail => Sys2Proof.Machine.execLaunchQueueDoorbell ctx tail s
  | .messageInDoorbell ctx tail => Sys2Proof.Machine.execMessageInDoorbell ctx tail s
  | .ownershipClaim link master attested => Sys2Proof.Machine.execOwnershipClaim link master attested s
  | .acceptWrite v => Sys2Proof.Machine.execAcceptWrite v s
  | .firmwareBoot good => Sys2Proof.Machine.execFirmwareBoot good s
  | .firmwareImageDelivery good => Sys2Proof.Machine.execFirmwareImageDelivery good s
  | .illegalInstruction w => Sys2Proof.Machine.execIllegalInstruction w s
  | .fetchFault addr f => Sys2Proof.Machine.execFetchFault addr f s
  | .hostCompletion link r => Sys2Proof.Machine.execHostCompletion link r s
  | .peerAcknowledgement n r => Sys2Proof.Machine.execPeerAcknowledgement n r s
  | .peerInboundRead n r => Sys2Proof.Machine.execPeerInboundRead n r s
  | .messageQueueConsumed ctx n => Sys2Proof.Machine.execMessageQueueConsumed ctx n s
  | .linkUp peer n => Sys2Proof.Machine.execLinkUp peer n s
  | .neg => Sys2Proof.Machine.execNeg s
  | .not => Sys2Proof.Machine.execNot s
  | .clz => Sys2Proof.Machine.execClz s
  | .ctz => Sys2Proof.Machine.execCtz s
  | .popc => Sys2Proof.Machine.execPopc s
  | .bswap => Sys2Proof.Machine.execBswap s
  | .sett => Sys2Proof.Machine.execSett s
  | .clrt => Sys2Proof.Machine.execClrt s
  | .movt => Sys2Proof.Machine.execMovt s
  | .movc => Sys2Proof.Machine.execMovc s
  | .fabs => Sys2Proof.Machine.execFabs s
  | .fneg => Sys2Proof.Machine.execFneg s
  | .fsqrt => Sys2Proof.Machine.execFsqrt s
  | .fclass => Sys2Proof.Machine.execFclass s
  | .nop => Sys2Proof.Machine.execNop s
  | .jmpa => Sys2Proof.Machine.execJmpa s
  | .calla => Sys2Proof.Machine.execCalla s
  | .drain => Sys2Proof.Machine.execDrain s
  | .ifence => Sys2Proof.Machine.execIfence s
  | .step => Sys2Proof.Machine.execStep s
  | .rft => Sys2Proof.Machine.execRft s
  | .tlbw => Sys2Proof.Machine.execTlbw s
  | .csave => Sys2Proof.Machine.execCsave s
  | .rwld => Sys2Proof.Machine.execRwld s
  | .rwskip => Sys2Proof.Machine.execRwskip s
  | .idle => Sys2Proof.Machine.execIdle s
  | .lnext => Sys2Proof.Machine.execLnext s
  | .rkrecv => Sys2Proof.Machine.execRkrecv s
  | .rkres => Sys2Proof.Machine.execRkres s
  | .rkstop => Sys2Proof.Machine.execRkstop s
  | .yield => Sys2Proof.Machine.execYield s
  | .endTask => Sys2Proof.Machine.execEndTask s
  | .obar => Sys2Proof.Machine.execObar s
  | .tableLoadComplete => Sys2Proof.Machine.execTableLoadComplete s
  | .copy => Sys2Proof.Machine.execCopy s
  | .copy2d => Sys2Proof.Machine.execCopy2d s
  | .fill => Sys2Proof.Machine.execFill s
  | .mcast => Sys2Proof.Machine.execMcast s
  | .gathert => Sys2Proof.Machine.execGathert s
  | .btwalk => Sys2Proof.Machine.execBtwalk s
  | .layerin => Sys2Proof.Machine.execLayerin s
  | .sweep => Sys2Proof.Machine.execSweep s
  | .evict => Sys2Proof.Machine.execEvict s
  | .resume => Sys2Proof.Machine.execResume s
  | .ptload => Sys2Proof.Machine.execPtload s
  | .engineCommandStart => Sys2Proof.Machine.execEngineCommandStart s
  | .engineCompletion => Sys2Proof.Machine.execEngineCompletion s
  | .faultNotice => Sys2Proof.Machine.execFaultNotice s
  | .faultRingRetry => Sys2Proof.Machine.execFaultRingRetry s
  | .mergingFill => Sys2Proof.Machine.execMergingFill s
  | .accessResponse => Sys2Proof.Machine.execAccessResponse s
  | .mwaitWake => Sys2Proof.Machine.execMwaitWake s
  | .mwaitTimeout => Sys2Proof.Machine.execMwaitTimeout s
  | .mergeWindowEnd => Sys2Proof.Machine.execMergeWindowEnd s
  | .multicastLineSend => Sys2Proof.Machine.execMulticastLineSend s
  | .partialForkResidual => Sys2Proof.Machine.execPartialForkResidual s
  | .translationMissMessage => Sys2Proof.Machine.execTranslationMissMessage s
  | .completionNotice => Sys2Proof.Machine.execCompletionNotice s
  | .fillTimeout => Sys2Proof.Machine.execFillTimeout s
  | .migrationCommit => Sys2Proof.Machine.execMigrationCommit s
  | .streamInStart => Sys2Proof.Machine.execStreamInStart s
  | .layerWaitLimit => Sys2Proof.Machine.execLayerWaitLimit s
  | .stepIncrement => Sys2Proof.Machine.execStepIncrement s
  | .stepBroadcast => Sys2Proof.Machine.execStepBroadcast s
  | .rankPacketSend => Sys2Proof.Machine.execRankPacketSend s
  | .rankPacketArrival => Sys2Proof.Machine.execRankPacketArrival s
  | .rankArrival => Sys2Proof.Machine.execRankArrival s
  | .recordArrival => Sys2Proof.Machine.execRecordArrival s
  | .messageArrival => Sys2Proof.Machine.execMessageArrival s
  | .hopArrival => Sys2Proof.Machine.execHopArrival s
  | .queueRefill => Sys2Proof.Machine.execQueueRefill s
  | .recordSelect => Sys2Proof.Machine.execRecordSelect s
  | .tileInstructionComplete => Sys2Proof.Machine.execTileInstructionComplete s
  | .sluiceGroupCommit => Sys2Proof.Machine.execSluiceGroupCommit s
  | .powerAlarm => Sys2Proof.Machine.execPowerAlarm s
  | .powerBudgetGrant => Sys2Proof.Machine.execPowerBudgetGrant s
  | .quantumExpiry => Sys2Proof.Machine.execQuantumExpiry s
  | .preemptRequest => Sys2Proof.Machine.execPreemptRequest s
  | .coreHalt => Sys2Proof.Machine.execCoreHalt s
  | .contextSaveComplete => Sys2Proof.Machine.execContextSaveComplete s
  | .contextResume => Sys2Proof.Machine.execContextResume s
  | .contextDestroy => Sys2Proof.Machine.execContextDestroy s
  | .quadrantFence => Sys2Proof.Machine.execQuadrantFence s
  | .watchdogFire => Sys2Proof.Machine.execWatchdogFire s
  | .hostCreditTimeout => Sys2Proof.Machine.execHostCreditTimeout s
  | .ownershipHandover => Sys2Proof.Machine.execOwnershipHandover s
  | .ownershipLapse => Sys2Proof.Machine.execOwnershipLapse s
  | .writeBackComplete => Sys2Proof.Machine.execWriteBackComplete s
  | .engineResponse => Sys2Proof.Machine.execEngineResponse s
  | .powerAlarmClear => Sys2Proof.Machine.execPowerAlarmClear s

end Sys2Proof.Machine
end

