-- ==== Sys2Proof/Machine/Step.lean ====
section
/-! DEFINITION. One step of the device: who moves, and what the move does; and a state whose next step runs a given
instruction. -/

namespace Sys2Proof.Machine

/-- One step. -/
def step (s : State) : Host.Outcome State Fault Refusal :=
  match choose s with
  | .noCore => .fault .noSuchCore
  | .rest t => .next t
  | .run own i t =>
    match exec i t with
    | .next u => .next (if own then afterRun i t u else u)
    | .fault f => .fault f
    | .refused r => .refused r

/-- `s` with an instruction's bits at the address the current core fetches next: a task runs there, at the first address
of translated space, through a page with X that lies in the core's TLB (DESIGN CHOICE, log entry 4). -/
def State.withFetchWord (s : State) (nbits w : Nat) : State := placeWord s (w % 2 ^ nbits)

end Sys2Proof.Machine
end

