-- ==== Sys2Proof/Safety.lean ====
section
/-! DEFINITION. What a safe run of the device is: it never meets a stop of the model; and when no access has anything to wait for. -/

namespace Sys2Proof.Machine

/-- Nothing that an access could have to wait for: no copy engine's command is under way, no line of an MCAST or a TSEND on its way, no slice line
locked, no request waits at a slice (02 R32-R34, R48, 04 R80), and the instruction at PC has issued no access yet (03 R53). -/
structure Calm (s : State) : Prop where
  cmds    : allCmds s = []
  lines   : ∀ l ∈ s.lines, l.locked = false
  waiting : s.waiting = []
  stop    : s.stop = []
  forks   : s.forks = []
  sent    : deliveries s = []
  returns : s.core.sched.returns = []
  checked : s.core.sched.checked = []

end Sys2Proof.Machine

namespace Sys2Proof

/-- Every one of the first k steps from s answers a next state. -/
def SafeRun : Nat → Machine.State → Prop
  | 0, _ => True
  | k + 1, s => ∃ t, Machine.step s = .next t ∧ SafeRun k t

end Sys2Proof
end

