-- ==== Sys2Proof/Certificates/Slice0/Obligations.lean ====
section
/-! DEFINITION. The statements about the model for the provers, and the predicates they are written with. -/

namespace Sys2Proof.Says

open Sys2Proof.Machine

/-! ## Predicates that the statements use -/

/-- No access has anything to wait for: no copy engine's command is under way, no slice line is locked and no request waits at a slice (02 R32-R34,
04 R80), nothing that the core has sent is on its way (02 R48), the instruction at PC has issued no access yet and fewer than 255 posted accesses
are on their way (03 R53); and memory has its canonical form, which every step keeps. -/
def Quiet (s : State) : Prop := Calm s ∧ storesOut s < 255 ∧ Memory.wf s.mem = true

/-- All but the scalar registers of the current core is as before. -/
def OnlyRegs (s t : State) : Prop := t = s.withRegs t.core.regs

/-- A sluice is as before, but that the bypass buffer of the engine's state kept for a group is voided (18 R316, 26 R371). -/
def SluiceKept (x y : Sluice) : Prop := ∃ v, y = { x with shadow := x.shadow.map (fun sh => { sh with mx := { sh.mx with bypass := v } }) }

/-- What an access may change in a core that has no part in it: its watch sees a write or loses its line, its bypass buffers are voided (03 R62, 26
R371). -/
def CoreKept (c d : Core) : Prop :=
  d = { c with watch := d.watch, mx := { c.mx with bypass := d.mx.bypass }, sluice := d.sluice } ∧ SluiceKept c.sluice d.sluice

/-- The other cores are as before, but for their watches and bypass buffers. -/
def OthersKept (s t : State) : Prop := ∃ f : Core → Core, (∀ c, CoreKept c (f c)) ∧ t.others = s.others.map (fun e => (e.1, f e.2))

/-- What a completed read may change besides the scalar registers: the core's TLB with its ways and tree, the marks of the
cluster's, the slices' lines and trees with the watches on a line that goes. All of memory and all else is as before. -/
def ReadFrame (s t : State) : Prop :=
  t = { s with lines := t.lines, trees := t.trees, clusterUse := t.clusterUse, others := t.others,
               core := { s.core with regs := t.core.regs, watch := t.core.watch, tlb := t.core.tlb, tlbWays := t.core.tlbWays, tlbTree := t.core.tlbTree } } ∧
    OthersKept s t

/-- What a completed write may change besides memory's bytes and the scalar registers: poison, lines and trees, lines to copy again,
watches and bypass buffers, the core's TLB, the acknowledgement that is on its way (its time may take a free value), what the host's
port emits with the link noted, a report of a lost write. -/
def WriteFrame (s t : State) : Prop :=
  t = { s with mem := t.mem, poison := t.poison, lines := t.lines, trees := t.trees, clusterUse := t.clusterUse,
               migrations := t.migrations, others := t.others, freeCtr := t.freeCtr,
               core := { s.core with regs := t.core.regs, tlb := t.core.tlb, tlbWays := t.core.tlbWays, tlbTree := t.core.tlbTree, watch := t.core.watch,
                                     mx := { s.core.mx with bypass := t.core.mx.bypass }, sluice := t.core.sluice,
                                     sched := { s.core.sched with acks := t.core.sched.acks, wrote := t.core.sched.wrote } },
               out := { s.out with emitted := t.out.emitted, reports := t.out.reports } } ∧
    SluiceKept s.core.sluice t.core.sluice ∧ OthersKept s t

/-- Every byte of memory outside the n bytes from home address h reads as before. -/
def OutsideKept (s t : State) (h n : Nat) : Prop := ∀ a, ¬ (h ≤ a ∧ a < h + n) → readByte t.mem a = readByte s.mem a

/-- All memory reads as before. -/
def MemKept (s t : State) : Prop := ∀ a, readByte t.mem a = readByte s.mem a

/-- An access of n bytes at a virtual address lies in the current core's vault by its local alias, aligned, and meets no
poison. -/
def InVault (s : State) (va : Word) (n : Nat) : Prop :=
  va.toNat + n ≤ vaultSize s.core.num ∧ va.toNat % n = 0 ∧ 0 < n ∧ poisonIn s.poison (vaultHome s.core.num va.toNat) n = none

/-- A virtual address in translated space has a readable or writable page that a TLB holds, and it lies in HBM4E under the
band's interleave; its task is not of an ordered launch. -/
def MappedAt (s : State) (va : Word) (n : Nat) (write : Bool) (h : Nat) : Prop :=
  ∃ p, lookupPage s va.toNat = some p ∧ p.phys va.toNat = h ∧ (if write then p.w = true ∧ p.cow = false else p.r = true) ∧
    h < Config.hbmEnd ∧ p.il = bandLocal s h ∧ Config.translatedBase ≤ va.toNat ∧ va.toNat < 2 ^ 56 ∧ va.toNat % n = 0 ∧
    poisonIn s.poison h n = none ∧ isOrdered s = false

/-- The pointer of an M-format operand moves as 11 R190 says and PC goes to the next word; nothing else of the scalar
registers changes. -/
def movedRegs (s : State) (m : MOp) : Regs := ((movePtr s m (nextAddr s m)).advance).core.regs

/-- The home bytes that a checked access of n bytes at a virtual address reaches, as the meanings compute them (01 R18, R25). -/
def homeOf (s : State) (va : Word) (n : Nat) (k : Kind) : Option Nat :=
  match checkAccess s va n k with
  | .ok ⟨_, _, .home h⟩ => some h
  | _ => none

/-- A write at home address h takes effect at once: no engine is at work, the task's write is not journaled, and its far side, if any, can
take it. -/
def WritesHome (s : State) (h : Nat) : Prop := Quiet s ∧ (isOrdered s && isShared s h) = false ∧ farFault s h = none

/-- An atomic or stamped operation at home address h is performed there at once: as WritesHome, at no far side, on clean words. -/
def ActsAt (s : State) (h n : Nat) : Prop := WritesHome s h ∧ isFar h = false ∧ poisonIn s.poison h n = none

/-- What a plain store leaves: the low n bytes of v at h, every other byte as before, and the frame of a write. -/
def Stored (s t : State) (h n v : Nat) : Prop :=
  readNat t.mem h n = v % 2 ^ (8 * n) ∧ OutsideKept s t h n ∧ WriteFrame s t

/-- The registers with pointers bumped by the X bits set, and PC at the next word (12 R215). -/
def bumpedRegs (s : State) (bs : List (Bool × BitVec 3)) : Regs := (bs.foldl (fun t b => bumpIf b.1 t b.2) s).advance.core.regs

/-- A mixed-radix number: the nl low indices of a loop nest under their bounds, level 0 least significant. -/
def nestCount : List Nat → List Nat → Nat → Nat
  | i :: is, b :: bs, nl + 1 => i + b * nestCount is bs nl
  | _, _, _ => 0

/-- The iterations of the nl low levels. -/
def nestTotal : List Nat → Nat → Nat
  | b :: bs, nl + 1 => b * nestTotal bs nl
  | _, _ => 1

/-- Indices that lie below their bounds on the nl low levels. -/
def nestWithin : List Nat → List Nat → Nat → Prop
  | i :: is, b :: bs, nl + 1 => i < b ∧ nestWithin is bs nl
  | _, _, 0 => True
  | _, _, _ => False

/-- What a core's turn finds when its task can run its next instruction: it runs, is not halted or idling, no group, answer or fill is waited for, no
BREAK or deferred fault is due, it has issued no access and has no pass under way, and the watchdog has time left (06 R117, 10 R176, 16 R279, 18 R316, 19 R331-R336). -/
def Awake (s : State) : Prop :=
  s.core.sched.running = true ∧ s.core.sched.halted = false ∧ s.core.sched.idling = false ∧ s.core.sluice.shadow = none ∧
  s.core.sched.asked = false ∧ s.core.sched.again = none ∧ s.core.rank.bwd = none ∧ s.core.sched.stepped = none ∧ (∀ x, ctxOf s s.core.ctx = some x → stalledFill x s.core.num = none) ∧
  s.core.mx.faults.find? (fun f => f.1 == s.core.port.owner) = none ∧
  (onTurn s).core.sched.wdCount < watchdogLimit s.core

/-- The state in which the instruction at PC executes: its cycles have passed and its word `w` has been fetched, giving `s1`. -/
def Fetched (s s1 : State) (w : W32) : Prop :=
  fetchWord (onTurn s).clearStalled s.core.regs.pc = .ok (s1, w)

/-- A precise trap: the task's state of before the instruction, to be executed again, goes to a frame (19 R321). -/
def trapOf (s : State) (cause : BitVec 8) (addr x : Word) : State :=
  takeTrap s false ⟨cause, addr, s.core.regs.pc, x⟩ s.core.regs.pc

/-- A stamped operation that returns nothing has failed a check: STAMP comes as an upcall, and the pointer and PC move on (07 R129). -/
def tellOf (s : State) (m : MOp) (va : Word) (c : Nat) : State :=
  (movePtr (raiseUpcall s s.core.ctx s.core.num { cause := 0x16, addr := va, pc := s.core.regs.pc, x := BitVec.ofNat 64 c }) m (nextAddr s m)).advance

/-- The instructions that first load their operand as an ordinary read (12 R201, 13 R220), but for LD and LDU. -/
def probeForms (m : MOp) : List Instr :=
  [.add m, .sub m, .rsb m, .and m, .or m, .xor m, .mul m, .mulh m, .mulhu m, .div m, .divu m, .rem m, .remu m, .min m, .max m,
   .minu m, .maxu m, .shl m, .shr m, .sar m, .rol m, .cmpeq m, .cmplt m, .cmpltu m, .tst m, .addc m, .subc m] ++
  [.fadd m, .fsub m, .fmul m, .fdiv m, .fmin m, .fmax m, .fcmpeq m, .fcmplt m, .fcmple m] ++
  [.ldAcqLoc m, .ldAcqDev m, .ldAcqSys m, .ldNt m, .ldf m]

/-- Element (r, c) of the tile or pair that AC names, as 16 R263 lays it out: row-major, a pair's columns from 64 on in its member. -/
def cellOf (m : Matrix) (ac : BitVec 2) (r c : Nat) : W32 :=
  if 2 ≤ (m.tile ac).shape.toNat then
    if c < 64 then (m.tile (ac &&& 2)).cells.getD (r * 64 + c) 0 else (m.tile (ac ||| 1)).cells.getD (r * 64 + (c - 64)) 0
  else (m.tile ac).cells.getD (r * m.nc ac + c) 0

/-- A tile instruction has issued and done its work without a fault (16 R264): PC is at the next word, the engine counts one operation of
this task, the tiles `used` and no others are pending, the tiles it does not use are as before, its completion is due, and no other register
of the core, no other core but for its watch and bypass buffer, and nothing else of the device but memory's bytes has changed. -/
def TileIssued (s t : State) (used : List (BitVec 2)) : Prop :=
  t = { s with mem := t.mem, migrations := t.migrations, others := t.others, freeCtr := t.freeCtr,
               pending := s.pending ++ [(s.core.num, .tileInstructionComplete)],
               core := { s.core with regs := s.advance.core.regs, watch := t.core.watch, mx := t.core.mx, sluice := t.core.sluice,
                                     csr := { s.core.csr with dgctr := t.core.csr.dgctr } } } ∧
    SluiceKept s.core.sluice t.core.sluice ∧ OthersKept s t ∧
    t.core.mx.ops = 1 ∧ t.core.mx.owner = s.core.port.owner ∧ t.core.mx.faults = s.core.mx.faults ∧ t.core.mx.rsd = s.core.mx.rsd ∧
    t.core.mx.rsdpos = s.core.mx.rsdpos ∧ (∀ n, (t.core.mx.tile n).pend = used.contains n) ∧
    (∀ n, used.contains n = false → t.core.mx.tile n = { s.core.mx.tile n with pend := false })

/-- And it has changed nothing but tiles. -/
def TilesOnly (s t : State) (used : List (BitVec 2)) : Prop :=
  TileIssued s t used ∧ t.mem = s.mem ∧ t.migrations = s.migrations ∧ t.others = s.others ∧ t.freeCtr = s.freeCtr ∧ t.core.watch = s.core.watch ∧
    t.core.sluice = s.core.sluice ∧ t.core.csr = s.core.csr ∧ t.core.mx.narrow = s.core.mx.narrow ∧ t.core.mx.bypass = s.core.mx.bypass

/-- And it has changed no tile but for its pending bit, and no bypass buffer but to void it. -/
def TilesKept (s t : State) (used : List (BitVec 2)) : Prop :=
  TileIssued s t used ∧ (∀ n, t.core.mx.tile n = { s.core.mx.tile n with pend := used.contains n }) ∧ t.freeCtr = s.freeCtr ∧
    t.core.csr = s.core.csr ∧ t.core.mx.narrow = s.core.mx.narrow

/-- The live bits of the tile or pair. -/
def AllLive (m : Matrix) (ac : BitVec 2) (b : Bool) : Prop := ∀ n ∈ m.group ac, (m.tile n).live = b

/-- The stored code of element (r, c) of a view whose first byte lies at offset `off` of the own vault (16 R266, 15 R251). -/
def viewElem (s : State) (v : View) (off r c : Nat) : Nat :=
  let k := if v.cm then c else r
  let i := if v.cm then r else c
  elemAt (fmtBits v.fmt) (readNat s.mem (vaultHome s.core.num (off + k * v.stride)) v.runBytes) i

/-- Every byte of memory outside the view's runs, and outside n bytes at vault offset `o`, reads as before. -/
def OutsideView (s t : State) (v : View) (off o n : Nat) : Prop :=
  ∀ a, (∀ k, k < v.runs → ¬ (vaultHome s.core.num (off + k * v.stride) ≤ a ∧ a < vaultHome s.core.num (off + k * v.stride) + v.runBytes)) →
    ¬ (vaultHome s.core.num o ≤ a ∧ a < vaultHome s.core.num o + n) → readByte t.mem a = readByte s.mem a

/-- The view's runs lie apart from the n bytes at vault offset o. -/
def ApartFrom (v : View) (off o n : Nat) : Prop :=
  ∀ k, k < v.runs → n = 0 ∨ o + n ≤ off + k * v.stride ∨ off + k * v.stride + v.runBytes ≤ o

/-- The matrix engine is free, no engine is at work, and no word is poisoned. -/
def EngineFree (s : State) : Prop := s.core.mx.ops = 0 ∧ Quiet s ∧ s.poison = []

/-- The record at p[PA] is a view in the own vault, its first element at offset off and its strip scales, if any, at offset so. -/
def ViewAt (s : State) (pa : BitVec 3) (v : View) (off so : Nat) : Prop :=
  readView s (s.ptr pa).addr = .ok (s, v) ∧ viewPlace s v = .ok off ∧ rangeIf s (v.scaleb != 0) v.scaleb v.stripBytes = .ok so

/-- Element i of contiguous elements of sz bytes at offset off of the own vault. -/
def vElem (s : State) (off sz i : Nat) : Nat := readNat s.mem (vaultHome s.core.num (off + sz * i)) sz

/-- A vector instruction has completed: PC and the pointers under `adv` move, memory's bytes in its destination change, flags accumulate, and
nothing else of the device but watches and bypass buffers. -/
def VectorFrame (s t : State) (adv : Bool) (ps : List (BitVec 3 × Nat)) : Prop :=
  t = { s with mem := t.mem, migrations := t.migrations, others := t.others, poison := t.poison,
               core := { s.core with watch := t.core.watch, mx := { s.core.mx with bypass := t.core.mx.bypass }, sluice := t.core.sluice,
                                     regs := { s.core.regs with pc := s.core.regs.pc + 4, a := t.core.regs.a, fflags := t.core.regs.fflags, p := t.core.regs.p } } } ∧
    SluiceKept s.core.sluice t.core.sluice ∧ OthersKept s t ∧
    ∀ i, t.ptr i = ⟨(s.ptr i).addr + (if adv then BitVec.ofNat 64 ((ps.filter (fun e => e.1 == i)).foldl (fun m e => max m e.2) 0) else 0), (s.ptr i).stride⟩

/-- Every byte outside n bytes at offset off of the own vault reads as before. -/
def OutsideVault (s t : State) (off n : Nat) : Prop := OutsideKept s t (vaultHome s.core.num off) n

/-- The state after n turns of one instruction, none where one of them stops. -/
def turnsOf (i : Instr) : Nat → State → Option State
  | 0, s => some s
  | n + 1, s =>
    match exec i s with
    | .next t => turnsOf i n t
    | _ => none

/-- Engine e, at whose turn it is, works on the one command c and no other is under way; no line is locked or on its way, no request waits, and no
word is poisoned. -/
def OneCmd (s : State) (e : Nat) (c : Cmd) : Prop :=
  s.unit = e ∧ allCmds s = [c] ∧ (engineOf s e).running = [c] ∧ (engineOf s e).fenced = false ∧ (∀ l ∈ s.lines, l.locked = false) ∧
    s.waiting = [] ∧ s.stop = [] ∧ s.forks = [] ∧ deliveries s = [] ∧ s.poison = [] ∧ Memory.wf s.mem = true ∧ c.fault = none ∧ c.done < c.total s

/-- The engine's command has moved n bytes further, and its next step or its completion is due. -/
def Piece (s t : State) (e : Nat) (c : Cmd) (n : Nat) : Prop :=
  (∃ d, (engineOf t e).running = [d] ∧ d = { c with done := c.done + n, crc := d.crc, poison := d.poison, table := d.table, ctx := d.ctx }) ∧
    (e, if c.total s ≤ c.done + n then Instr.engineCompletion else stepOf c) ∈ t.pending ∧ t.core.regs = s.core.regs

/-- The engine's command has stopped with a TRAPC value at an address, and its notice is due; memory is as before (04 R85). -/
def StopsAt (s t : State) (e : Nat) (f : BitVec 8) (a : Word) (sub : Nat) : Prop :=
  (∃ d, (engineOf t e).running = [d] ∧ d.fault = some (f, a, sub)) ∧ (e, Instr.faultNotice) ∈ t.pending ∧ t.mem = s.mem

/-- n bytes at home address dst are what stood at src, and every other byte is as before. -/
def CopiedTo (s t : State) (src dst n : Nat) : Prop :=
  (∀ i, i < n → readByte t.mem (dst + i) = readByte s.mem (src + i)) ∧ OutsideKept s t dst n

end Sys2Proof.Says

open Sys2Proof Sys2Proof.Machine Sys2Proof.Says

/-- 12 R201, 11 R190, 01 R18: a read of 1, 2, 4 or 8 bytes through a pointer completes where its address lies aligned in the own vault without poison, and
where a page that a TLB holds maps it to HBM4E; it gives the little-endian value of the bytes. No engine is at work. 12 R201 step 4 and 11 R190: what
a completed operand load changes, whatever the operand's place: the pointer as the addressing mode says and PC; every other scalar register, all of
memory and all else but the core's TLB and the slices' lines is as before. 11 R190: the effective address and the pointer's address after the access,
mode by mode. -/
def Obligations.OperandLoads : Prop :=
  (∀ (s : State) (m : MOp) (k : Kind), Quiet s →
      (InVault s (effAddr s m) (sizeBytes m.sz) →
        ∃ t, loadOperand s m k = .ok (t, readNat s.mem (vaultHome s.core.num (effAddr s m).toNat) (sizeBytes m.sz))) ∧
      (∀ h, k.writes = false → MappedAt s (effAddr s m) (sizeBytes m.sz) false h →
        ∃ t, loadOperand s m k = .ok (t, readNat s.mem h (sizeBytes m.sz)))) ∧
  (∀ (s t : State) (m : MOp) (k : Kind) (v : Nat), Quiet s → loadOperand s m k = .ok (t, v) →
      ReadFrame s t ∧ t.core.regs = movedRegs s m ∧ MemKept s t ∧
        t.core.regs.a = s.core.regs.a ∧ t.core.regs.t = s.core.regs.t ∧ t.core.regs.c = s.core.regs.c ∧
        t.core.regs.vl = s.core.regs.vl ∧ t.core.regs.frm = s.core.regs.frm ∧ t.core.regs.fflags = s.core.regs.fflags ∧
        (∀ i, i ≠ m.p → t.ptr i = s.ptr i) ∧ (t.ptr m.p).stride = (s.ptr m.p).stride ∧ (t.ptr m.p).addr = nextAddr s m ∧
        t.core.regs.pc = s.core.regs.pc + 4) ∧
  (∀ (s : State) (p : BitVec 3) (sz : BitVec 2) (d : BitVec 14),
      effAddr s ⟨p, 0, sz, d⟩ = (s.ptr p).addr ∧ nextAddr s ⟨p, 0, sz, d⟩ = (s.ptr p).addr ∧
      effAddr s ⟨p, 1, sz, d⟩ = (s.ptr p).addr ∧ nextAddr s ⟨p, 1, sz, d⟩ = (s.ptr p).addr + (s.ptr p).stride.signExtend 64 ∧
      effAddr s ⟨p, 2, sz, d⟩ = (s.ptr p).addr - (s.ptr p).stride.signExtend 64 ∧
      nextAddr s ⟨p, 2, sz, d⟩ = (s.ptr p).addr - (s.ptr p).stride.signExtend 64 ∧
      effAddr s ⟨p, 3, sz, d⟩ = (s.ptr p).addr + d.signExtend 64 * BitVec.ofNat 64 (2 ^ sz.toNat) ∧
      nextAddr s ⟨p, 3, sz, d⟩ = (s.ptr p).addr)

/-- 01 R18, 19 R321: an IALU or FALU instruction, an acquire load, LD.NT or LDF whose access fails a check traps, and the trap finds the state as it was
before. The reserved space, a misaligned address, one beyond the own vault, a poisoned word, and a page without R each name their fault. -/
def Obligations.OperandLoadTraps : Prop :=
  ∀ (s : State) (m : MOp) (i : Instr), i ∈ probeForms m →
    let ea := effAddr s m
    let n := sizeBytes m.sz
    (spaceOf ea = .reserved → exec i s = .next (trapOf s 0x04 ea 2)) ∧
    (spaceOf ea ≠ .reserved → ea.toNat % n ≠ 0 → exec i s = .next (trapOf s 0x03 ea 0)) ∧
    (spaceOf ea = .ownVault → ea.toNat % n = 0 → vaultSize s.core.num ≤ ea.toNat → exec i s = .next (trapOf s 0x06 ea 0)) ∧
    (spaceOf ea = .engine → ea.toNat % n = 0 → exec i s = .next (trapOf s 0x12 ea 0)) ∧
    (spaceOf ea = .window → ea.toNat % n = 0 → windowAllowed s ea = false → exec i s = .next (trapOf s 0x06 ea 0)) ∧
    (∀ p, spaceOf ea = .translated → ea.toNat % n = 0 → s.core.sched.checked = [] → lookupPage s ea.toNat = some p → p.r = false →
      exec i s = .next (trapOf s 0x05 ea 0)) ∧
    (∀ w, Quiet s → spaceOf ea = .ownVault → ea.toNat % n = 0 → ea.toNat < vaultSize s.core.num →
      poisonIn s.poison (vaultHome s.core.num ea.toNat) n = some w → exec i s = .next (trapOf s 0x09 (ea &&& ~~~7) 0))

/-- 12 R202, R203: every IALU instruction on the loaded bytes v: S is their sign extension, Z their zero extension. 12 R202: ADD on the low halves and
ADDC on the high halves make the 128-bit sum. -/
def Obligations.IntegerResults : Prop :=
  (∀ (s t : State) (m : MOp) (v : Nat), loadOperand s m .probe = .ok (t, v) →
      let a := t.core.regs.a
      let c := t.core.regs.c
      let S : Word := (BitVec.ofNat (8 * sizeBytes m.sz) v).signExtend 64
      let Z : Word := BitVec.ofNat 64 v
      v < 2 ^ (8 * sizeBytes m.sz) →
      exec (.add m) s = .next ((t.setC (decide (2 ^ 64 ≤ a.toNat + S.toNat))).setA (a + S)) ∧
      exec (.sub m) s = .next ((t.setC (a.ult S)).setA (a - S)) ∧
      exec (.rsb m) s = .next ((t.setC (S.ult a)).setA (S - a)) ∧
      exec (.and m) s = .next (t.setA (a &&& Z)) ∧
      exec (.or m) s = .next (t.setA (a ||| Z)) ∧
      exec (.xor m) s = .next (t.setA (a ^^^ Z)) ∧
      exec (.mul m) s = .next (t.setA (a * S)) ∧
      exec (.mulh m) s = .next (t.setA ((a.signExtend 128 * S.signExtend 128).extractLsb' 64 64)) ∧
      exec (.mulhu m) s = .next (t.setA ((a.zeroExtend 128 * Z.zeroExtend 128).extractLsb' 64 64)) ∧
      exec (.div m) s = .next (t.setA (if S = 0 then BitVec.allOnes 64 else a.sdiv S)) ∧
      exec (.divu m) s = .next (t.setA (if Z = 0 then BitVec.allOnes 64 else a.udiv Z)) ∧
      exec (.rem m) s = .next (t.setA (a.srem S)) ∧
      exec (.remu m) s = .next (t.setA (a.umod Z)) ∧
      exec (.min m) s = .next (t.setA (if S.toInt < a.toInt then S else a)) ∧
      exec (.max m) s = .next (t.setA (if a.toInt < S.toInt then S else a)) ∧
      exec (.minu m) s = .next (t.setA (if Z.toNat < a.toNat then Z else a)) ∧
      exec (.maxu m) s = .next (t.setA (if a.toNat < Z.toNat then Z else a)) ∧
      exec (.shl m) s = .next (t.setA (a <<< (v % 64))) ∧
      exec (.shr m) s = .next (t.setA (a >>> (v % 64))) ∧
      exec (.sar m) s = .next (t.setA (a.sshiftRight (v % 64))) ∧
      exec (.rol m) s = .next (t.setA (a.rotateLeft (v % 64))) ∧
      exec (.cmpeq m) s = .next (t.setT (decide (a = S))) ∧
      exec (.cmplt m) s = .next (t.setT (decide (a.toInt < S.toInt))) ∧
      exec (.cmpltu m) s = .next (t.setT (decide (a.toNat < Z.toNat))) ∧
      exec (.tst m) s = .next (t.setT (decide (a &&& Z ≠ 0))) ∧
      exec (.addc m) s = .next ((t.setC (decide (2 ^ 64 ≤ a.toNat + S.toNat + (if c then 1 else 0)))).setA (a + S + (if c then 1 else 0))) ∧
      exec (.subc m) s = .next ((t.setC (decide (a.toNat < S.toNat + (if c then 1 else 0)))).setA (a - S - (if c then 1 else 0)))) ∧
  (∀ (a0 a1 b0 b1 : Word),
      ((addWith a1 b1 (carryOut a0 b0 false)) ++ (a0 + b0) : BitVec 128) = (a1 ++ a0) + (b1 ++ b0) ∧
      ((subWith a1 b1 (borrowOut a0 b0 false)) ++ (a0 - b0) : BitVec 128) = (a1 ++ a0) - (b1 ++ b0))

/-- 12 R203: DIV, DIVU, REM and REMU never trap: a divisor of zero gives a quotient of all ones and leaves a as the remainder; −2^63 by −1 gives −2^63 and
remainder 0; else the results are exact: a = (a ÷ m) × m + (a REM m), the remainder smaller than the divisor, and in the signed case of a's sign. -/
def Obligations.DivisionIdentity : Prop :=
  ∀ (s t : State) (i : MOp) (v : Nat), loadOperand s i .probe = .ok (t, v) → v < 2 ^ (8 * sizeBytes i.sz) →
    let a := t.core.regs.a
    let S : Word := (BitVec.ofNat (8 * sizeBytes i.sz) v).signExtend 64
    ∃ q r qu ru : Word, exec (.div i) s = .next (t.setA q) ∧ exec (.rem i) s = .next (t.setA r) ∧
      exec (.divu i) s = .next (t.setA qu) ∧ exec (.remu i) s = .next (t.setA ru) ∧
      (v = 0 → q = BitVec.allOnes 64 ∧ qu = BitVec.allOnes 64 ∧ r = a ∧ ru = a) ∧
      (a = BitVec.intMin 64 → S = BitVec.allOnes 64 → q = BitVec.intMin 64 ∧ r = 0) ∧
      (v ≠ 0 → (a ≠ BitVec.intMin 64 ∨ S ≠ BitVec.allOnes 64) → a.toInt = q.toInt * S.toInt + r.toInt ∧ r.toInt.natAbs < S.toInt.natAbs ∧
        (r ≠ 0 → r.msb = a.msb)) ∧
      (v ≠ 0 → a.toNat = qu.toNat * v + ru.toNat ∧ ru.toNat < v)

/-- 12 R207, R208: the immediate and unary integer instructions: the next state is the state with PC at the next word and the result; nothing else
changes. 12 R208: CLZ, CTZ, POPC and BSWAP say what they count: the bits above and below the highest and lowest set bit are clear, and byte i of the
result is byte 7 − i. -/
def Obligations.ImmediateAndUnaryResults : Prop :=
  (∀ (s : State) (imm : BitVec 21) (sh : BitVec 6),
      let u := s.advance
      let a := s.core.regs.a
      let S : Word := imm.signExtend 64
      let Z : Word := imm.zeroExtend 64
      exec (.li imm) s = .next (u.setA S) ∧
      exec (.lui imm) s = .next (u.setA ((a <<< 21) ||| Z)) ∧
      exec (.addi imm) s = .next ((u.setC (decide (2 ^ 64 ≤ a.toNat + S.toNat))).setA (a + S)) ∧
      exec (.andi imm) s = .next (u.setA (a &&& S)) ∧
      exec (.ori imm) s = .next (u.setA (a ||| Z)) ∧
      exec (.xori imm) s = .next (u.setA (a ^^^ Z)) ∧
      exec (.shli sh) s = .next (u.setA (a <<< sh.toNat)) ∧
      exec (.shri sh) s = .next (u.setA (a >>> sh.toNat)) ∧
      exec (.sari sh) s = .next (u.setA (a.sshiftRight sh.toNat)) ∧
      exec (.cmpeqi imm) s = .next (u.setT (decide (a = S))) ∧
      exec (.cmplti imm) s = .next (u.setT (decide (a.toInt < S.toInt))) ∧
      exec (.cmpltui imm) s = .next (u.setT (decide (a.toNat < Z.toNat))) ∧
      exec (.tsti imm) s = .next (u.setT (decide (a &&& S ≠ 0))) ∧
      exec (.muli imm) s = .next (u.setA (a * S)) ∧
      exec .neg s = .next ((u.setC (decide (a ≠ 0))).setA (-a)) ∧
      exec .not s = .next (u.setA (~~~a)) ∧
      exec .sett s = .next (u.setT true) ∧
      exec .clrt s = .next (u.setT false) ∧
      exec .movt s = .next (u.setA (if s.core.regs.t then 1 else 0)) ∧
      exec .movc s = .next (u.setA (if s.core.regs.c then 1 else 0)) ∧
      exec .fabs s = .next (u.setA (a &&& 0x7FFFFFFFFFFFFFFF)) ∧
      exec .fneg s = .next (u.setA (a ^^^ 0x8000000000000000)) ∧
      exec (.sext 0) s = .next (u.setA ((a.extractLsb' 0 8).signExtend 64)) ∧
      exec (.sext 1) s = .next (u.setA ((a.extractLsb' 0 16).signExtend 64)) ∧
      exec (.sext 2) s = .next (u.setA ((a.extractLsb' 0 32).signExtend 64)) ∧
      exec (.zext 0) s = .next (u.setA ((a.extractLsb' 0 8).zeroExtend 64)) ∧
      exec (.zext 1) s = .next (u.setA ((a.extractLsb' 0 16).zeroExtend 64)) ∧
      exec (.zext 2) s = .next (u.setA ((a.extractLsb' 0 32).zeroExtend 64)) ∧
      exec (.sext 3) s = .next (trapOf s 0x02 0 0) ∧ exec (.zext 3) s = .next (trapOf s 0x02 0 0) ∧
      OnlyRegs s u) ∧
  (∀ (s : State),
      let a := s.core.regs.a
      (∃ n, n ≤ 64 ∧ exec .clz s = .next (s.advance.setA (BitVec.ofNat 64 n)) ∧ (∀ i, 64 - n ≤ i → a.getLsbD i = false) ∧
        (n < 64 → a.getLsbD (63 - n) = true)) ∧
      (∃ n, n ≤ 64 ∧ exec .ctz s = .next (s.advance.setA (BitVec.ofNat 64 n)) ∧ (∀ i, i < n → a.getLsbD i = false) ∧
        (n < 64 → a.getLsbD n = true)) ∧
      exec .popc s = .next (s.advance.setA (BitVec.ofNat 64 ((List.range 64).countP a.getLsbD))) ∧
      (∃ r : Word, exec .bswap s = .next (s.advance.setA r) ∧ ∀ i, i < 8 → r.extractLsb' (8 * i) 8 = a.extractLsb' (8 * (7 - i)) 8))

/-- 12 R204-R206: every FALU instruction on the values x of a and y of the operand: the exact result rounded once under FRM into a with its flags added,
or T. -/
def Obligations.FloatResults : Prop :=
  ∀ (s t : State) (m : MOp) (v : Nat), loadOperand s m .probe = .ok (t, v) →
    let x := num64 t.core.regs.a
    let y := operandF m v
    let down := decide (t.core.regs.frm = 3)
    let into := fun (r : Sys2Proof.Machine.Num × BitVec 5) =>
      (t.addFlags (r.2 ||| (fp64.pack t.core.regs.frm r.1).2)).setA (BitVec.ofNat 64 (fp64.pack t.core.regs.frm r.1).1)
    exec (.fadd m) s = .next (into (x.addExact down y)) ∧
    exec (.fsub m) s = .next (into (x.addExact down y.flip)) ∧
    exec (.fmul m) s = .next (into (x.mulExact y)) ∧
    exec (.fdiv m) s = .next (into (x.divSticky y)) ∧
    exec (.fmin m) s = .next (into (x.minMax false y)) ∧
    exec (.fmax m) s = .next (into (x.minMax true y)) ∧
    exec (.fcmpeq m) s = .next ((t.addFlags (if x.isSig || y.isSig then 16 else 0)).setT (x.eqv y)) ∧
    exec (.fcmplt m) s = .next ((t.addFlags (if x.isNan || y.isNan then 16 else 0)).setT (x.lt y)) ∧
    exec (.fcmple m) s = .next ((t.addFlags (if x.isNan || y.isNan then 16 else 0)).setT (x.lt y || x.eqv y))

/-- 12 R205: with a NaN operand FADD, FSUB, FMUL and FDIV leave the default NaN in a, and invalid is added exactly where an operand is signalling; and 0 ÷
0 gives the default NaN and adds invalid, a finite non-zero value ÷ 0 a correctly signed infinity and adds divide by zero. 12 R208, R209: FSQRT and
FCVT complete; the square root of a positive value is rounded once, √−0 = −0, a negative non-zero operand gives the default NaN and invalid; FCVT of
the codes 0x00 to 0x0C, OPERAND for the rest: a value rounded to an integer under FRM, or toward zero, saturates, and RINT gives the integral value. -/
def Obligations.FloatSpecialCasesAndUnary : Prop :=
  (∀ (s t : State) (m : MOp) (v : Nat), loadOperand s m .probe = .ok (t, v) →
      let x := num64 t.core.regs.a
      let y := operandF m v
      (x.isNan || y.isNan → ∀ i, i ∈ [Instr.fadd m, Instr.fsub m, Instr.fmul m, Instr.fdiv m] →
        exec i s = .next ((t.addFlags (if x.isSig || y.isSig then 16 else 0)).setA 0x7FF8000000000000)) ∧
      (x.isZero → y.isZero → exec (.fdiv m) s = .next ((t.addFlags 16).setA 0x7FF8000000000000)) ∧
      (!x.isNan → !x.isInf → !x.isZero → y.isZero →
        exec (.fdiv m) s = .next ((t.addFlags 8).setA (if x.neg != y.neg then 0xFFF0000000000000 else 0x7FF0000000000000)))) ∧
  (∀ (s : State) (code : BitVec 5),
      let a := s.core.regs.a
      let x := num64 a
      (∃ t, exec .fsqrt s = .next t ∧ OnlyRegs s t ∧ t.core.regs = { s.core.regs with pc := s.core.regs.pc + 4, a := t.core.regs.a, fflags := t.core.regs.fflags } ∧
        (x.isZero → t.core.regs.a = a ∧ t.core.regs.fflags = s.core.regs.fflags) ∧
        (x.neg → !x.isZero → t.core.regs.a = 0x7FF8000000000000 ∧ t.core.regs.fflags = s.core.regs.fflags ||| 16)) ∧
      (code.toNat ≤ 0x0C → ∃ t, exec (.fcvt code) s = .next t ∧ OnlyRegs s t ∧
        t.core.regs = { s.core.regs with pc := s.core.regs.pc + 4, a := t.core.regs.a, fflags := t.core.regs.fflags } ∧
        (code = 0x00 → x.isNan → t.core.regs.a = 0 ∧ t.core.regs.fflags = s.core.regs.fflags ||| 16) ∧
        (code = 0x07 → a.toNat % 2 ^ 32 = 0x3F800000 → t.core.regs.a = 0x3FF0000000000000) ∧
        (code = 0x06 → t.core.regs.a.toNat < 2 ^ 32) ∧ (code = 0x08 → t.core.regs.a.toNat < 2 ^ 16) ∧ (code = 0x0A → t.core.regs.a.toNat < 2 ^ 16)) ∧
      (0x0C < code.toNat → exec (.fcvt code) s = .next (trapOf s 0x02 0 0)) ∧
      (let u := s.advance
       let leave := fun (r : Nat × BitVec 5) (f : BitVec 5) => Host.Outcome.next ((u.addFlags (f ||| r.2)).setA (BitVec.ofNat 64 r.1))
       let rm := s.core.regs.frm
       let sig : BitVec 5 := if x.isSig then 16 else 0
       let up := fun (rm : BitVec 2) (n : Bool) (q r d : Nat) => if rm = 0 then decide (d < 2 * r ∨ 2 * r = d ∧ q % 2 = 1)
         else if rm = 1 then false else decide (r ≠ 0) && (n == decide (rm = 3))
       let whole := fun (rm : BitVec 2) (n : Bool) (k : Nat) (e : Int) => if 0 ≤ e then k * 2 ^ e.toNat
         else k / 2 ^ (-e).toNat + (if up rm n (k / 2 ^ (-e).toNat) (k % 2 ^ (-e).toNat) (2 ^ (-e).toNat) then 1 else 0)
       let cut := fun (rm : BitVec 2) (n : Bool) (k : Nat) (e : Int) => signed n (whole rm n k e)
       let inexact : Nat → Int → BitVec 5 := fun k e => if e < 0 ∧ k % 2 ^ (-e).toNat ≠ 0 then 1 else 0
       exec (.fcvt 0x04) s = leave (fp64.pack rm (ofInt false a.toInt 0)) 0 ∧ exec (.fcvt 0x05) s = leave (fp64.pack rm (ofInt false a.toNat 0)) 0 ∧
       exec (.fcvt 0x06) s = leave (fp32.pack rm x) sig ∧ exec (.fcvt 0x08) s = leave (bf16.pack rm x) sig ∧
       exec (.fcvt 0x0A) s = leave (fp16.pack rm x) sig ∧
       (∀ c f, (c, f) ∈ [(0x07, fp32), (0x09, bf16), (0x0B, fp16)] →
         exec (.fcvt c) s = leave ((fp64.pack rm (f.decode (a.toNat % 2 ^ f.width))).1, 0) (if (f.decode (a.toNat % 2 ^ f.width)).isSig then 16 else 0)) ∧
       (∀ n k e, x = .fin n k e →
         (∀ c q, (c, q) ∈ [((0x00 : BitVec 5), rm), (0x01, 1)] →
           (-(2 ^ 63) ≤ cut q n k e → cut q n k e < 2 ^ 63 →
             exec (.fcvt c) s = .next ((u.addFlags (inexact k e)).setA (BitVec.ofInt 64 (cut q n k e)))) ∧
           (cut q n k e < -(2 ^ 63) → exec (.fcvt c) s = .next ((u.addFlags 16).setA 0x8000000000000000)) ∧
           (2 ^ 63 ≤ cut q n k e → exec (.fcvt c) s = .next ((u.addFlags 16).setA 0x7FFFFFFFFFFFFFFF))) ∧
         (∀ c q, (c, q) ∈ [((0x02 : BitVec 5), rm), (0x03, 1)] →
           (0 ≤ cut q n k e → cut q n k e < 2 ^ 64 →
             exec (.fcvt c) s = .next ((u.addFlags (inexact k e)).setA (BitVec.ofInt 64 (cut q n k e)))) ∧
           (cut q n k e < 0 → exec (.fcvt c) s = .next ((u.addFlags 16).setA 0)) ∧
           (2 ^ 64 ≤ cut q n k e → exec (.fcvt c) s = .next ((u.addFlags 16).setA (BitVec.allOnes 64)))) ∧
         (0 ≤ e → exec (.fcvt 0x0C) s = .next u) ∧
         (e < 0 → exec (.fcvt 0x0C) s = leave (fp64.pack rm (.fin n (whole rm n k e) 0)) (inexact k e)) ∧
         (n = false → k ≠ 0 → ∃ r j st : Nat, 128 ≤ j ∧ (e - j) % 2 = 0 ∧ r * r ≤ k * 2 ^ j ∧ k * 2 ^ j < (r + 1) * (r + 1) ∧
           st = (if r * r = k * 2 ^ j then 0 else 1) ∧ exec .fsqrt s = leave (fp64.pack rm (.fin false (2 * r + st) ((e - j) / 2 - 1))) 0)) ∧
       (∀ n, x = .inf n →
         (∀ c ∈ [(0x00 : BitVec 5), 0x01], exec (.fcvt c) s = .next ((u.addFlags 16).setA (if n then 0x8000000000000000 else 0x7FFFFFFFFFFFFFFF))) ∧
         (∀ c ∈ [(0x02 : BitVec 5), 0x03], exec (.fcvt c) s = .next ((u.addFlags 16).setA (if n then 0 else BitVec.allOnes 64))) ∧
         exec (.fcvt 0x0C) s = .next u ∧ (n = false → exec .fsqrt s = .next u)) ∧
       (x.isNan = true →
         (∀ c ∈ [(0x00 : BitVec 5), 0x01, 0x02, 0x03], exec (.fcvt c) s = .next ((u.addFlags 16).setA 0)) ∧
         ∀ i ∈ [Instr.fcvt 0x0C, .fsqrt], exec i s = .next ((u.addFlags sig).setA 0x7FF8000000000000))))

/-- 15 R250-R254, R261, R262: a narrow format's number is converted back to its own code, an infinity of E5M2 to the largest finite one, and every format
has its one NaN code; the draw; STOCH12 leaves a value that NA12 holds whatever the draw, and truncates with draw 0. 12 R205, 15 R250: an FP64 or FP32
pattern that is no NaN, subnormals included, is packed back from its value unchanged and without a flag under every rounding mode; every NaN packs to
the default NaN. -/
def Obligations.NumberFormatLaws : Prop :=
  ((∀ f x, 1 ≤ f → f ≤ 8 → x < 2 ^ fmtBits f → (fmtDecode f x).isNan = false → (fmtDecode f x).isInf = false ∨ f ≠ 4 → narrow f (fmtDecode f x) = x) ∧
    (∀ x, x < 256 → (fmtDecode 4 x).isInf = true → narrow 4 (fmtDecode 4 x) + 1 = x) ∧
    (∀ f x, 7 ≤ f → f ≤ 8 → x < 2 ^ fmtBits f → ((fmtDecode f x).isNan = true ↔ x = 2 ^ (fmtBits f - 1))) ∧
    (∀ (w : W32) (d : BitVec 16), w.toNat % 2 ^ 11 = 0 → (num32 w).isNan = false → stoch12 (num32 w) d = w) ∧
    (∀ (w : W32), (num32 w).isNan = false → stoch12 (num32 w) 0 = BitVec.ofNat 32 (w.toNat / 2 ^ 11 * 2 ^ 11)) ∧
    (∀ (key ctr : Word) (i j : Nat), draw key (ctr + BitVec.ofNat 64 i) j = draw key ctr (i + j)) ∧
    (∀ (key : Word), draw key key 0 = 0)) ∧
  ((∀ (rm : BitVec 2) (w : Word), (num64 w).isNan = false → fp64.pack rm (num64 w) = (w.toNat, 0)) ∧
    (∀ (rm : BitVec 2) (w : W32), (num32 w).isNan = false → fp32.pack rm (num32 w) = (w.toNat, 0)) ∧
    (∀ (rm : BitVec 2) (w : Word), (num64 w).isNan = true → fp64.pack rm (num64 w) = (0x7FF8000000000000, 0)) ∧
    (∀ (rm : BitVec 2) (w : W32), (num32 w).isNan = true → fp32.pack rm (num32 w) = (0x7FC00000, 0)))

/-- 12 R210: FCLASS sets exactly the one bit of a[9:0] of the class of the FP64 value in a, and zeroes the rest: NaNs by the top fraction bit, infinities,
zeros, subnormals and normals by their sign. -/
def Obligations.ClassOfValue : Prop :=
  ∀ (s : State),
    let a := s.core.regs.a
    let e := a.extractLsb' 52 11
    let f := a.extractLsb' 0 52
    let pick := fun (neg pos : Word) => if a.msb then neg else pos
    exec .fclass s = .next (s.advance.setA
      (if e = 0x7FF then (if f = 0 then pick 0x001 0x080 else if f.msb then 0x200 else 0x100)
       else if e = 0 then (if f = 0 then pick 0x008 0x010 else pick 0x004 0x020) else pick 0x002 0x040))

/-- 13 R220: what each load leaves in a, from the loaded bytes v; LDA takes the address and makes no access; LD.NT reads the same bytes and leaves no new
line in a slice. 04 R78: LD and LDU of ESTAT give the port's fault code, its commands in all up to 255 and untaken, and its two counts. -/
def Obligations.LoadResults : Prop :=
  ∀ (s t : State) (m : MOp) (v : Nat),
    let S : Word := (BitVec.ofNat (8 * sizeBytes m.sz) v).signExtend 64
    (v < 2 ^ (8 * sizeBytes m.sz) → loadOperand s m .load = .ok (t, v) →
      exec (.ld m) s = .next (t.setA S) ∧ exec (.ldu m) s = .next (t.setA (BitVec.ofNat 64 v))) ∧
    (v < 2 ^ (8 * sizeBytes m.sz) → loadOperand s m .probe = .ok (t, v) →
      exec (.ldAcqLoc m) s = .next (t.setA S) ∧ exec (.ldAcqDev m) s = .next (t.setA S) ∧ exec (.ldAcqSys m) s = .next (t.setA S) ∧
      (m.sz = 3 → exec (.ldf m) s = .next (t.setA (BitVec.ofNat 64 v))) ∧
      (m.sz = 2 → (fp32.decode v).isNan = false →
        exec (.ldf m) s = .next (t.setA (BitVec.ofNat 64 (fp64.pack 0 (fp32.decode v)).1))) ∧
      (m.sz = 2 → (fp32.decode v).isNan = true →
        exec (.ldf m) s = .next ((t.addFlags (if (fp32.decode v).isSig then 16 else 0)).setA 0x7FF8000000000000)) ∧
      (Quiet s → ∃ u, exec (.ldNt m) s = .next u ∧ u.core = { (t.setA S).core with watch := u.core.watch } ∧
        u = { t.setA S with lines := u.lines, trees := u.trees, others := u.others, core := u.core } ∧ OthersKept s u ∧
        ∀ l ∈ u.lines, (lineOf s.lines l.num).isSome)) ∧
    exec (.lda m) s = .next ((s.setAddr m.p (nextAddr s m)).advance.setA (effAddr s m)) ∧
    (effAddr s m = 0x200028 → m.sz = 3 → s.core.port.waiting.length < 256 → ∀ i ∈ [Instr.ld m, .ldu m],
      ∃ w : Word, exec i s = .next ((s.setAddr m.p (nextAddr s m)).advance.setA w) ∧ w.extractLsb' 56 8 = 0 ∧
        w.extractLsb' 48 8 = s.core.port.fcode ∧ (w.extractLsb' 40 8).toNat = min s.core.port.pend 255 ∧
        (w.extractLsb' 32 8).toNat = s.core.port.waiting.length ∧ w.extractLsb' 16 16 = s.core.port.accepted ∧
        w.extractLsb' 0 16 = s.core.port.done)

/-- 01 R13, R15, R18, R25: the home of a checked access: the own vault by its local alias, a compute vault by its window where its cluster is granted,
HBM4E through a page that a TLB holds. -/
def Obligations.HomesOfAddresses : Prop :=
  ∀ (s : State) (va : Word) (n : Nat) (k : Kind),
    (InVault s va n → homeOf s va n k = some (vaultHome s.core.num va.toNat)) ∧
    (∀ g off, g < 1024 → off < 0x200000 → va = BitVec.ofNat 64 (0x100000000 + g * 0x200000 + off) → off % n = 0 → n ∣ 0x200000 →
      (match ctxOf s s.core.ctx with | some x => x.grant.getLsbD (g / 8) | none => false) = true →
      homeOf s va n k = some (vaultHome g off)) ∧
    (∀ h, s.core.sched.checked = [] → MappedAt s va n k.writes h → homeOf s va n k = some h)

/-- 13 R221, R57, R65: a store writes the low bytes of a, every other byte of memory stays, the pointer and PC move, and nothing else changes; STF of size
2 rounds a to FP32 under FRM and adds the flags. A store to the host's window first waits, as a SYS release, for what the task has written on the
other link and to peers. 01 R16, 04 R74-R78: an 8-byte store into the engine window sets a word of the port's shadow set; one to EGO starts the
command that they hold, where the checks of R77 pass and fewer than 4 wait: it waits for an engine, or, of no bytes and with no target, is complete at
once; a failed check traps on the store itself. The command's key and sequence number are the port's (log entry 8), and a RESUME's record is read at
acceptance (log entry 44). -/
def Obligations.StoreResults : Prop :=
  (∀ (s : State) (m : MOp) (h : Nat),
    let n := sizeBytes m.sz
    homeOf s (effAddr s m) n .store = some h → WritesHome s h →
    (∀ i, i ∈ [Instr.st m, Instr.stRelLoc m, Instr.stRelDev m, Instr.stRelSys m, Instr.stNt m] →
      (i = .stRelSys m → peerOut s = false ∧ (isHost h = true → s.core.sched.wrote.getLsbD (1 - hostLink s h) = false)) →
      ∃ t, exec i s = .next t ∧ Stored s t h n s.core.regs.a.toNat ∧ t.core.regs = movedRegs s m) ∧
    (m.sz = 3 → ∃ t, exec (.stf m) s = .next t ∧ Stored s t h n s.core.regs.a.toNat ∧ t.core.regs = movedRegs s m) ∧
    (m.sz = 2 → ∃ t, exec (.stf m) s = .next t ∧
      Stored s t h n (fp32.pack s.core.regs.frm (num64 s.core.regs.a)).1 ∧
      t.core.regs = { movedRegs s m with fflags := s.core.regs.fflags |||
        ((if (num64 s.core.regs.a).isSig then 16 else 0) ||| (fp32.pack s.core.regs.frm (num64 s.core.regs.a)).2) })) ∧
  (∀ (s : State) (m : MOp) (i : Instr), i ∈ [Instr.st m, .stRelLoc m, .stRelDev m, .stRelSys m, .stNt m, .stf m] → m.sz = 3 → storesOut s < 255 →
    let a := s.core.regs.a
    let p := s.core.port
    let c0 := goCmd s a
    let c := { c0 with on := c0.engine s }
    let leave := fun (u : State) => Host.Outcome.next (movePtr u m (nextAddr s m)).advance
    let put := fun (q : Port) => leave { s with core := { s.core with port := q } }
    (effAddr s m = 0x200000 → exec i s = put { p with ecw0 := a }) ∧
    (effAddr s m = 0x200008 → exec i s = put { p with ecw1 := a }) ∧
    (effAddr s m = 0x200010 → exec i s = put { p with ecw2 := a }) ∧
    (effAddr s m = 0x200018 → exec i s = put { p with ecw3 := a }) ∧
    (effAddr s m = 0x200020 → isOrdered s = false →
      (p.ecw0.getLsbD 15 = true → exec i s = .next (trapOf s 0x12 0x200020 1)) ∧
      (p.ecw0.getLsbD 15 = false → (p.ecw0.getLsbD 13 = true → c0.eng = 0) → c0.code = 0 ∨ 0x0C ≤ c0.code →
        exec i s = .next (trapOf s 0x12 0x200020 2)) ∧
      (∀ f ad x, goFault s c0 s.core.sched.user = some (.fault f ad x) → exec i s = .next (trapOf s f ad x)) ∧
      (goFault s c0 s.core.sched.user = some .wait ∨ goFault s c0 s.core.sched.user = none ∧ portFull s = true →
        exec i s = .next (askRecord s c0).markStalled) ∧ (c0.code ≠ 0x0A → askRecord s c0 = s) ∧
      (goFault s c0 s.core.sched.user = none → portFull s = false → exec i s = leave (acceptCmd s c0)) ∧
      (goFault s c0 s.core.sched.user = none → c0.code ≠ 0x0A → portFull s = false → c0.total s ≠ 0 →
        exec i s = leave { s with core := { s.core with port := { p with seq := p.seq + 1, accepted := p.accepted + 1, pend := p.pend + 1,
                                                                         waiting := p.waiting ++ [c] } },
                                  pending := s.pending ++ [(c.on, .engineCommandStart)] }) ∧
      (goFault s c0 s.core.sched.user = none → c0.code ≠ 0x0A → portFull s = false → c0.total s = 0 → a = 0 → standsHere s s.core.ctx s.core.num = true →
        (∀ e ∈ s.saves, e.1 ≠ s.core.ctx * 2048 + s.core.num) →
        exec i s = put { p with seq := p.seq + 1, accepted := p.accepted + 1, done := p.done + 1 })))

/-- 13 R222: the integer atomics and the swap, each with its value at the home and its extension in a: returning and posted forms write the same, and the
posted form leaves a. 13 R222: AFADD rounds to nearest even whatever FRM holds, touches no FFLAGS, and returns the old bits. 13 R223: ACAS writes the
new value exactly where the old one equals the compared low bytes of a; a takes the old value zero-extended and T the comparison. In an ordered launch
it raises OPERAND 0x01. -/
def Obligations.AtomicResults : Prop :=
  (∀ (s : State) (m : MOp) (h : Nat),
      let n := sizeBytes m.sz
      homeOf s (effAddr s m) n .atomic = some h → ActsAt s h n →
      let old := BitVec.ofNat (8 * n) (readNat s.mem h n)
      let o := BitVec.ofNat (8 * n) s.core.regs.a.toNat
      ∀ e, e ∈ [(Instr.aadd m, Instr.aaddN m, old + o, true), (.aand m, .aandN m, old &&& o, false), (.aor m, .aorN m, old ||| o, false),
                (.axor m, .axorN m, old ^^^ o, false), (.amin m, .aminN m, if o.slt old then o else old, true),
                (.amax m, .amaxN m, if old.slt o then o else old, true), (.aminu m, .aminuN m, if o.ult old then o else old, false),
                (.amaxu m, .amaxuN m, if old.ult o then o else old, false), (.aswp m, .aswpN m, o, false)] →
        (∃ t, exec e.1 s = .next t ∧ Stored s t h n e.2.2.1.toNat ∧
          t.core.regs = { movedRegs s m with a := if e.2.2.2 then old.signExtend 64 else old.zeroExtend 64 }) ∧
        (∃ t, exec e.2.1 s = .next t ∧ Stored s t h n e.2.2.1.toNat ∧ t.core.regs = movedRegs s m)) ∧
  (∀ (s : State) (m : MOp) (h : Nat), m.sz = 2 ∨ m.sz = 3 →
      let n := sizeBytes m.sz
      homeOf s (effAddr s m) n .atomic = some h → ActsAt s h n →
      let old := readNat s.mem h n
      let f := if m.sz = 2 then fp32 else fp64
      let r := (f.pack 0 ((f.decode old).addExact false (f.decode (s.core.regs.a.toNat % 2 ^ (8 * n)))).1).1
      (∃ t, exec (.afadd m) s = .next t ∧ Stored s t h n r ∧ t.core.regs = { movedRegs s m with a := BitVec.ofNat 64 old }) ∧
      (∃ t, exec (.afaddN m) s = .next t ∧ Stored s t h n r ∧ t.core.regs = movedRegs s m)) ∧
  (∀ (s : State) (ty pa pb : BitVec 3) (h hb : Nat), ty = 3 ∨ ty = 4 →
      let n := if ty = 3 then 4 else 8
      (isOrdered s = true → exec (.acas ty pa pb) s = .next (trapOf s 0x02 0 1)) ∧
      (isOrdered s = false → homeOf s (s.ptr pa).addr n .atomic = some h → homeOf s (s.ptr pb).addr n .probe = some hb →
        ActsAt s h n → ActsAt s hb n →
        let old := readNat s.mem h n
        let hit := old = s.core.regs.a.toNat % 2 ^ (8 * n)
        ∃ t, exec (.acas ty pa pb) s = .next t ∧ OutsideKept s t h n ∧ WriteFrame s t ∧
          readNat t.mem h n = (if hit then readNat s.mem hb n else old) ∧
          t.core.regs = { s.core.regs with a := BitVec.ofNat 64 old, t := decide hit, pc := s.core.regs.pc + 4 }))

/-- 07 R129-R131, 13 R224: the stamped operations on a word that passes its checks: what is written, what a receives; SST writes a word of the present
stamp, SLD and SAGE write nothing. A word of another class, with a non-zero field or too old, or an address outside every region, is a precise STAMP
that changes nothing; of SST and SADD.N, which return nothing, it is an upcall with TRAPPC at them, and they go on. 07 R122, R126, R130, R131: a
stamped word keeps its fields; the logical word of a word newer than the base is the word itself, one older takes the base as its stamp with its value
decayed by the steps between; class 15 never decays; a merge keeps the newer stamp. -/
def Obligations.StampedResults : Prop :=
  ((∀ (s : State) (m : MOp) (x : Ctx) (cls h : Nat),
      let va := effAddr s m
      let k : Kind := .atomic
      homeOf s va 8 k = some h → homeOf s va 8 .probe = some h → ActsAt s h 8 → myCtx s = some x → regionClass x va.toNat h = some cls →
      let w := homeWord s h
      let o := s.core.regs.a
      let now := nowOf x.held
      let base := baseOf x.held
      let tbl := x.decay.getD []
      let l := logical tbl now base w
      let check := fun fn => stampCheck x.decay cls now fn w o
      (check 0 = none → ∃ t, exec (.sld m) s = .next t ∧ ReadFrame s t ∧
        t.core.regs = { movedRegs s m with a := stampWord now l.cls (mul32 l.val (decayOf tbl l.cls l.age)) }) ∧
      (check 1 = none → ∃ t, exec (.sst m) s = .next t ∧ Stored s t h 8 (stampWord now cls (valueOf o)).toNat ∧ t.core.regs = movedRegs s m) ∧
      (check 2 = none →
        let r := stampWord now l.cls (add32 (mul32 l.val (decayOf tbl l.cls l.age)) (valueOf o))
        (∃ t, exec (.sadd m) s = .next t ∧ Stored s t h 8 r.toNat ∧ t.core.regs = { movedRegs s m with a := r }) ∧
        (∃ t, exec (.saddN m) s = .next t ∧ Stored s t h 8 r.toNat ∧ t.core.regs = movedRegs s m)) ∧
      (check 4 = none →
        let r := mergeStamped tbl l (logical tbl now base o)
        ∃ t, exec (.smrg m) s = .next t ∧ Stored s t h 8 r.toNat ∧ t.core.regs = { movedRegs s m with a := r }) ∧
      (check 5 = none → ∃ t, exec (.sage m) s = .next t ∧ ReadFrame s t ∧ t.core.regs = { movedRegs s m with a := BitVec.ofNat 64 l.age }) ∧
      (check 6 = none →
        let r := stampWord now l.cls (mul32 l.val (decayOf tbl l.cls l.age))
        ∃ t, exec (.srebase m) s = .next t ∧ Stored s t h 8 r.toNat ∧ t.core.regs = { movedRegs s m with a := r }) ∧
      (∀ i fn c, (i, fn) ∈ [(Instr.sld m, 0), (.sadd m, 2), (.smrg m, 4), (.sage m, 5), (.srebase m, 6)] → check fn = some c →
        exec i s = .next (trapOf s 0x16 va (BitVec.ofNat 64 c))) ∧
      (∀ i fn c, (i, fn) ∈ [(Instr.sst m, 1), (.saddN m, 3)] → check fn = some c → exec i s = .next (tellOf s m va c))) ∧
    (∀ (s : State) (m : MOp) (h : Nat), homeOf s (effAddr s m) 8 .atomic = some h → homeOf s (effAddr s m) 8 .probe = some h → isFar h = false →
      (∀ x, myCtx s = some x → regionClass x (effAddr s m).toNat h = none) →
      (∀ i ∈ [Instr.sld m, .sadd m, .smrg m, .sage m, .srebase m], exec i s = .next (trapOf s 0x16 (effAddr s m) 1)) ∧
      ∀ i ∈ [Instr.sst m, .saddN m], exec i s = .next (tellOf s m (effAddr s m) 1))) ∧
  ((∀ (st : BitVec 24) (c : Nat) (v : W32), c < 16 → stampOf (stampWord st c v) = st ∧ classOf (stampWord st c v) = c ∧
      stampZero (stampWord st c v) = true ∧ valueOf (stampWord st c v) = v) ∧
    (∀ (tbl : List (List W32)) (now base : BitVec 24) (w : Word), (now - stampOf w).toNat ≤ (now - base).toNat →
      logical tbl now base w = ⟨stampOf w, classOf w, valueOf w, (now - stampOf w).toNat⟩) ∧
    (∀ (tbl : List (List W32)) (now base : BitVec 24) (w : Word), (now - base).toNat < (now - stampOf w).toNat →
      logical tbl now base w = ⟨base, classOf w,
        mul32 (valueOf w) (decayOf tbl (classOf w) ((now - stampOf w).toNat - (now - base).toNat)), (now - base).toNat⟩) ∧
    (∀ (tbl : List (List W32)) (n : Nat), decayOf tbl 15 n = 0x3F800000) ∧ (∀ (tbl : List (List W32)) (c : Nat), decayOf tbl c 0 = 0x3F800000) ∧
    (∀ (tbl : List (List W32)) (l o : Logical), l.cls < 16 →
      stampOf (mergeStamped tbl l o) = (if o.age ≤ l.age then o.st else l.st) ∧ classOf (mergeStamped tbl l o) = l.cls))

/-- 12 R211: the PTR instructions change one pointer's address or stride, a or T, and PC; PSTRA outside the signed 32-bit range raises OPERAND. 12 R215:
FMAC, SEL, IMAC and MOVM on elements at their homes: the result, the pointers' increments, and nothing else. -/
def Obligations.PointerAndThreePointerResults : Prop :=
  (∀ (s : State) (pd ps : BitVec 3) (imm : BitVec 16),
      let u := s.advance
      let a := s.core.regs.a
      let i : Word := imm.signExtend 64
      exec (.pset pd imm) s = .next (u.setPtr pd ⟨a + i, (s.ptr pd).stride⟩) ∧
      exec (.pget ps imm) s = .next (u.setA ((s.ptr ps).addr + i)) ∧
      exec (.padd pd ps imm) s = .next (u.setPtr pd ⟨(s.ptr ps).addr + i, (s.ptr pd).stride⟩) ∧
      exec (.padda pd ps) s = .next (u.setPtr pd ⟨(s.ptr ps).addr + a, (s.ptr pd).stride⟩) ∧
      exec (.pstr pd imm) s = .next (u.setPtr pd ⟨(s.ptr pd).addr, imm.signExtend 32⟩) ∧
      (-(2 ^ 31) ≤ a.toInt → a.toInt < 2 ^ 31 →
        exec (.pstra pd) s = .next (u.setPtr pd ⟨(s.ptr pd).addr, a.extractLsb' 0 32⟩)) ∧
      (a.toInt < -(2 ^ 31) ∨ 2 ^ 31 ≤ a.toInt → exec (.pstra pd) s = .next (trapOf s 0x02 0 0)) ∧
      exec (.pcmpeq pd ps) s = .next (u.setT (decide ((s.ptr pd).addr = (s.ptr ps).addr))) ∧
      exec (.pcmplt pd ps) s = .next (u.setT (decide ((s.ptr pd).addr.toNat < (s.ptr ps).addr.toNat))) ∧
      exec (.pgets ps) s = .next (u.setA ((s.ptr ps).stride.signExtend 64)) ∧
      (∀ q v, q ≠ pd → (u.setPtr pd v).ptr q = s.ptr q) ∧ (∀ v, (u.setPtr pd v).ptr pd = v ∧ OnlyRegs s (u.setPtr pd v))) ∧
  (∀ (s : State) (ty pa pb pd : BitVec 3) (x : BitVec 2) (xa xd : BitVec 1) (ha hb hd : Nat),
      let n := tyBytes ty
      let a := s.core.regs.a
      isOrdered s = false → homeOf s (s.ptr pa).addr n .probe = some ha → ActsAt s ha n →
      (homeOf s (s.ptr pb).addr n .probe = some hb → ActsAt s hb n →
        let u := readNat s.mem ha n
        let v := readNat s.mem hb n
        let r := bumpedRegs s [(x.getLsbD 0, pa), (x.getLsbD 1, pb)]
        (ty = 0 ∨ ty = 1 →
          let f := if ty = 0 then fp32 else fp64
          let e := (num64 a).fmaExact (decide (s.core.regs.frm = 3)) (f.decode u) (f.decode v)
          let o := fp64.pack s.core.regs.frm e.1
          ∃ t, exec (.fmac ty pa pb x) s = .next t ∧ ReadFrame s t ∧
            t.core.regs = { r with a := BitVec.ofNat 64 o.1, fflags := r.fflags ||| (e.2 ||| o.2) }) ∧
        (ty = 3 ∨ ty = 4 →
          let wide := fun (k : Nat) => if ty = 3 then (BitVec.ofNat 32 k).signExtend 64 else BitVec.ofNat 64 k
          ∃ t, exec (.imac ty pa pb x) s = .next t ∧ ReadFrame s t ∧ t.core.regs = { r with a := a + wide u * wide v }) ∧
        (∃ t, exec (.sel ty pa pb x) s = .next t ∧ ReadFrame s t ∧
          t.core.regs = { r with a := widenSel ty (if s.core.regs.t then u else v) })) ∧
      (homeOf s (s.ptr pd).addr n .atomic = some hd → WritesHome s hd →
        ∃ t, exec (.movm ty pd pa xa xd) s = .next t ∧ Stored s t hd n (readNat s.mem ha n) ∧
          t.core.regs = bumpedRegs s [(decide (xa = 1), pa), (decide (xd = 1), pd)]))

/-- 12 R212, 11 R191, R192: a branch goes to PC + 4 × its offset exactly where its condition holds, else to the next word, and changes nothing else. 12
R213, R214: calls push the return address through p7 and go; JMPA goes; RET pops and discards; a misaligned target raises ALIGN with nothing pushed or
moved; NOP only moves PC. -/
def Obligations.BranchAndTransferResults : Prop :=
  (∀ (s : State) (off : BitVec 22),
      let r := s.core.regs
      let goal := s.setPc (r.pc + off.signExtend 64 * 4)
      let go := fun (cc : BitVec 4) (b : Bool) => exec (.bcc cc off) s = .next (if b then goal else s.setPc (r.pc + 4))
      go 0 true ∧ go 1 r.t ∧ go 2 (!r.t) ∧ go 3 (decide (r.a = 0)) ∧ go 4 (decide (r.a ≠ 0)) ∧ go 5 (decide (r.a.toInt < 0)) ∧
      go 6 (decide (0 ≤ r.a.toInt)) ∧ go 7 r.c ∧ go 8 (!r.c)) ∧
  (∀ (s : State) (off : BitVec 22) (n : BitVec 20) (h : Nat),
      let r := s.core.regs
      let sp := (s.ptr 7).addr - 8
      let p7 := fun (v : Word) => r.p.set 7 ⟨v, (s.ptr 7).stride⟩
      (homeOf s sp 8 .atomic = some h → WritesHome s h →
        (r.pc.toNat % 4 = 0 → ∃ t, exec (.call off) s = .next t ∧ Stored s t h 8 (r.pc + 4).toNat ∧
          t.core.regs = { r with p := p7 sp, pc := r.pc + off.signExtend 64 * 4 }) ∧
        (r.a.toNat % 4 = 0 → ∃ t, exec .calla s = .next t ∧ Stored s t h 8 (r.pc + 4).toNat ∧ t.core.regs = { r with p := p7 sp, pc := r.a })) ∧
      (homeOf s (s.ptr 7).addr 8 .probe = some h → ActsAt s h 8 →
        let v := homeWord s h
        (v.toNat % 4 = 0 → ∃ t, exec (.ret n) s = .next t ∧ ReadFrame s t ∧
          t.core.regs = { r with p := p7 ((s.ptr 7).addr + 8 + 8 * n.zeroExtend 64), pc := v }) ∧
        (v.toNat % 4 ≠ 0 → exec (.ret n) s = .next (trapOf s 0x03 v 0))) ∧
      (r.a.toNat % 4 = 0 → exec .jmpa s = .next (s.setPc r.a)) ∧
      (r.a.toNat % 4 ≠ 0 → exec .jmpa s = .next (trapOf s 0x03 r.a 0) ∧ exec .calla s = .next (trapOf s 0x03 r.a 0)) ∧
      exec .nop s = .next s.advance)

/-- 12 R214, 19 R330: BRK raises BREAK and TRAP raises SYSCALL, with the immediate in TRAPX; each counts as complete, so its frame resumes at the next
word. The BREAK of a stepped task's TRAP is kept with the task until its return (log entry 28). -/
def Obligations.SoftwareTraps : Prop :=
  ∀ (s : State) (n : BitVec 20),
    (let u := if s.core.sched.user && s.core.csr.dbgStep then { s with core := { s.core with sched := { s.core.sched with stepped := some s.core.regs.pc } } } else s
     exec (.trap n) s = .next (takeTrap u false ⟨0x14, 0, s.core.regs.pc, n.zeroExtend 64⟩ (s.core.regs.pc + 4))) ∧
    exec (.brk n) s = .next (takeTrap s false ⟨0x13, 0, s.core.regs.pc, n.zeroExtend 64⟩ (s.core.regs.pc + 4))

/-- 12 R216, R217: LNSET loads a record that fits R216 and refuses any other with OPERAND 0x01; LNIDX and LNPTR read the nest, with OPERAND 0x02 beyond
its levels or streams; without a nest LNEXT, LNIDX and LNPTR raise OPERAND 0x03. -/
def Obligations.LoopNestResults : Prop :=
  ∀ (s : State) (ps pd : BitVec 3) (imm : BitVec 16) (j : BitVec 2),
    let va := (s.ptr ps).addr + imm.signExtend 64
    (va.toNat % 8 ≠ 0 → exec (.lnset ps imm) s = .next (trapOf s 0x02 va 1)) ∧
    (∀ t ws, va.toNat % 8 = 0 → loadWords s va 17 = .ok (t, ws) →
      (∀ k, nestOf ws = some k → exec (.lnset ps imm) s = .next (t.setNest (some k)).advance ∧ k.idx = [0, 0, 0, 0] ∧
        1 ≤ k.nl ∧ k.nl ≤ 4 ∧ k.ns ≤ 4 ∧ k.nl = (ws.getD 0 0).toNat % 16) ∧
      (nestOf ws = none → exec (.lnset ps imm) s = .next (trapOf s 0x02 va 1))) ∧
    (∀ k, s.core.nest = some k →
      (∃ r : List Nat × Bool, exec .lnext s = .next (((s.setNest (some { k with idx := r.1 })).setT r.2).advance) ∧
        (nestWithin k.idx k.bound k.nl →
          (r.2 = true → nestCount r.1 k.bound k.nl = nestCount k.idx k.bound k.nl + 1) ∧
          (r.2 = false → nestCount r.1 k.bound k.nl = 0 ∧ nestCount k.idx k.bound k.nl + 1 = nestTotal k.bound k.nl) ∧
          nestWithin r.1 k.bound k.nl)) ∧
      (j.toNat < k.nl → exec (.lnidx j) s = .next (s.advance.setA (BitVec.ofNat 64 (k.idx.getD j.toNat 0)))) ∧
      (k.nl ≤ j.toNat → exec (.lnidx j) s = .next (trapOf s 0x02 0 2)) ∧
      (j.toNat < k.ns → exec (.lnptr pd j) s = .next (s.advance.setPtr pd
        ⟨(List.range k.nl).foldl (fun acc i => acc + BitVec.ofNat 64 (k.idx.getD i 0) * (k.str.getD (4 * j.toNat + i) 0).signExtend 64)
          (k.base.getD j.toNat 0), k.str.getD (4 * j.toNat) 0⟩)) ∧
      (k.ns ≤ j.toNat → exec (.lnptr pd j) s = .next (trapOf s 0x02 0 2))) ∧
    (s.core.nest = none → ∀ i, i ∈ [Instr.lnext, .lnidx j, .lnptr pd j] → exec i s = .next (trapOf s 0x02 0 3))

/-- 03 R60, R65, R72, 13 R226, R229: fences wait for what of their task is outstanding in their scope, DRAIN for every posted access of it; IFENCE; WAITC
goes on exactly where every count is within its nibble, and else stays; scope 3 raises OPERAND. When an acknowledgement comes is the model's choice
(log entry 8). -/
def Obligations.FenceAndWaitResults : Prop :=
  ∀ (s : State) (n : BitVec 16),
    let out := fun (sc : BitVec 2) => ∃ e, e ∈ s.core.sched.acks ∧ s.core.csr.here < e.due ∧ e.owner = s.core.port.owner ∧ ∃ h, e.home = some h ∧
      (sc = 0 → isVaultHome h = true ∧ clusterOf ((h - Config.vaultKey) / Config.vaultBytes) = clusterOf s.core.num) ∧ (sc = 1 → isFar h = false)
    (¬ out 0 → exec (.fence 0) s = .next s.advance) ∧ (¬ out 1 → exec (.fence 1) s = .next s.advance) ∧
    (∀ sc, sc ≠ 3 → out sc → exec (.fence sc) s = .next s.markStalled) ∧ (storesOut s ≠ 0 → exec .drain s = .next s.markStalled) ∧
    (∀ i, i ∈ [Instr.fence 2, .drain] → storesOut s = 0 →
      ((∀ l, l < 2 → s.core.sched.wrote.getLsbD l = true → s.out.hostUp.getLsbD l = false) → exec i s = .next s.released.advance) ∧
      (∀ l, l < 2 → s.core.sched.wrote = 1 <<< l → s.out.hostUp.getLsbD l = true →
        (s.core.sched.returns = [] → ∃ t p, exec i s = .next t ∧ t.core.regs = s.core.regs ∧ t.core.sched.asked = true ∧
          t.out.emitted = s.out.emitted ++ [p] ∧ p.link = l ∧ p.write = false ∧ p.len = 0 ∧ p.relaxed = false) ∧
        (∀ r rest, s.core.sched.returns = r :: rest → exec i s = .next (State.advance
          { s with core := { s.core with sched := { s.core.sched with returns := rest, wrote := 0 } } })))) ∧
    exec (.fence 3) s = .next (trapOf s 0x02 0 0) ∧
    exec .ifence s = .next { s.advance with core := { s.advance.core with icache := [] } } ∧
    (let within := fun (i count : Nat) => n.toNat / 2 ^ (4 * i) % 16 = 15 ∨ count ≤ n.toNat / 2 ^ (4 * i) % 16
     let all := within 0 (loadsOut s) ∧ within 1 (storesOut s) ∧ within 2 (copiesOf s) ∧ within 3 (tileOps s)
     (all → exec (.waitc n) s = .next s.advance) ∧ (¬ all → exec (.waitc n) s = .next s.markStalled))

/-- 03 R62, 13 R227: MWATCH arms the watch on the block of its address, a host or peer address none; a write to the block is an event; MWAIT ends with T =
1 on an event, which it consumes, on the loss of the watched line, or without a watch, with T = 0 when its time is up, and else stays. What a watch on
a slice's line lasts for is the model's reading (log entry 43). 13 R228, 02 R37, R39: cache control at a slice: CFLUSH leaves no dirty word and drops
an unpinned line, CPIN pins and sets T or is refused, CUNPIN clears the pin, CPREF never faults and fills the line unless the bank queue is more than
half full; no byte changes. When an acknowledgement comes is the model's choice (log entry 8). -/
def Obligations.WatchAndCacheResults : Prop :=
  (∀ (s : State) (p : BitVec 3) (n : BitVec 19) (h : Nat),
      (homeOf s (s.ptr p).addr 1 .probe = some h → Quiet s →
        ∃ t, exec (.mwatch p) s = .next t ∧ MemKept s t ∧ t.core.regs = s.advance.core.regs ∧
          t.core.watch = if isFar h then none else some { block := h / 128, since := s.clock, seen := false }) ∧
      (∀ g w a k v, 0 < k → (coreOf s g).watch = some w → a / 128 ≤ w.block → w.block ≤ (a + k - 1) / 128 →
        (coreOf (homeWrite s a k v) g).watch = some { w with seen := true }) ∧
      (s.core.watch = none → exec (.mwait n) s = .next ((s.setWaited 0).setT true).advance) ∧
      (∀ w, s.core.watch = some w →
        (w.seen = true → exec (.mwait n) s = .next (((s.setWatch (some { w with seen := false })).setWaited 0).setT true).advance) ∧
        (w.seen = false → watchGone s w = true → exec (.mwait n) s = .next (((s.setWatch none).setWaited 0).setT true).advance) ∧
        (let k := s.core.sched.mwaited
         let now := s.core.csr.cyc.toNat + 1
         w.seen = false → watchGone s w = false →
          (n ≠ 0 → k ≠ 0 → k = waitOver ∨ k + n.toNat * 64 ≤ now → exec (.mwait n) s = .next ((s.setWaited 0).setT false).advance) ∧
          (n = 0 ∨ k = 0 ∨ (k ≠ waitOver ∧ now < k + n.toNat * 64) →
            exec (.mwait n) s = .next (s.setWaited (if k = 0 then now else k)).markStalled)))) ∧
  (∀ (s : State) (p : BitVec 3) (h : Nat),
      let n := h / 128
      let moved := fun (t : State) => t.core.regs = s.advance.core.regs ∧ MemKept s t
      (homeOf s (s.ptr p).addr 1 .probe = some h → Quiet s → isSliced h = true →
        (∃ t, exec (.cflush p) s = .next t ∧ moved t ∧ (∀ l, lineOf t.lines n = some l → l.dirty = 0 ∧ l.pinned = true)) ∧
        (∃ t, exec (.cpin p) s = .next t ∧ MemKept s t ∧ t.core.regs = { s.advance.core.regs with t := canAllocate s n } ∧
          (canAllocate s n = true → ∃ l, lineOf t.lines n = some l ∧ l.pinned = true ∧ l.valid = 0xFFFF) ∧
          (canAllocate s n = false → t.lines = s.lines)) ∧
        (∃ t, exec (.cunpin p) s = .next t ∧ moved t ∧ (∀ l, lineOf t.lines n = some l → l.pinned = false)) ∧
        (∃ t, exec (.cpref p) s = .next t ∧ moved t ∧ (canAllocate s n = true → bankWaits s n ≤ 16 → (lineOf t.lines n).isSome = true))) ∧
      (homeOf s (s.ptr p).addr 1 .probe = some h → isSliced h = false → storesOut s < 255 → loadRoom s = true → ∀ i, i ∈ [Instr.cflush p, .cpin p, .cunpin p, .cpref p] →
        ∃ t, exec i s = .next t ∧ moved t ∧ t.lines = s.lines) ∧
      (∃ t, exec (.cpref p) s = .next t ∧ MemKept s t) ∧ (Quiet s → ∃ t, exec (.cpref p) s = .next t ∧ moved t))

/-- 07 R123, R124, R127, R132, R133, R136, 18 R310, R316, 16 R264: the step home counts an increment that waited and its homes take the value, a new base
sweeping every region; a loaded table of decay records, stamped regions or rewrite rules is taken whole or refused at its first bad entry; a group
commits and the matrix engine ends, each when the engine's cycles have passed. 07 R123, R124, R133: STEP adds one to the context's count at the step
home and every core and home takes it; while sweeps of an earlier base run, a step 2^22 or more past their start waits. -/
def Obligations.DeviceStepsAndStep : Prop :=
  (∀ (s : State) (x : Ctx), ctxOf s s.unit = some x → x.num = s.unit →
      let cx := x.num
      (∀ g, x.stepReq = [g] → x.sweeps = 0 → standsHere s cx g = true →
        ∃ t y, exec .stepIncrement s = .next t ∧ ctxOf t cx = some y ∧ y.gstep = x.gstep + 1 ∧ y.held = x.held ∧ y.stepReq = [] ∧
          (coreOf t g).sched.stepDone = true ∧ (cx, Instr.stepBroadcast) ∈ t.pending ∧ t.mem = s.mem) ∧
      (∀ g r, x.stepReq = g :: r → x.sweeps ≠ 0 → x.sweepStart.toNat + 2 ^ 22 ≤ x.gstep.toNat + 1 → exec .stepIncrement s = .next s) ∧
      (x.held.toNat / 2 ^ 20 = x.gstep.toNat / 2 ^ 20 → ∃ t, exec .stepBroadcast s = .next t ∧ ctxOf t cx = some { x with held := x.gstep } ∧ t.mem = s.mem) ∧
      (∀ r, x.held.toNat / 2 ^ 20 ≠ x.gstep.toNat / 2 ^ 20 → x.regions = some [some r] → r.len < 2 ^ 32 → r.base < 2 ^ 64 → cx < 64 →
        ∃ t y k c, exec .stepBroadcast s = .next t ∧ ctxOf t cx = some y ∧ y.held = x.gstep ∧ y.sweeps = x.sweeps + 1 ∧ c ∈ (engineOf t k).own ∧ c.code = 8 ∧
          c.len = r.len ∧ c.a1 = r.base ∧ c.param = cx ∧ c.done = 0 ∧ (k, Instr.engineCommandStart) ∈ t.pending) ∧
      (∀ l, x.loading = [l] → l.kind = 0x208 → l.words.length = 512 → standsHere s cx l.core = true → (coreOf s l.core).port.owner = l.owner →
        let entry := fun (i : Nat) => (l.words.drop (8 * i)).take 8
        ((∀ i, i < 64 → ruleOk (entry i) = true) →
          ∃ t y, exec .tableLoadComplete s = .next t ∧ ctxOf t cx = some y ∧ y.loading = [] ∧ y.rules = (List.range 64).map entry ∧
            (coreOf t l.core).sched.tableDone = some none ∧
            ∀ g ∈ partCores x, standsHere s cx g = true → (coreOf t g).sluice.table = (List.range 64).map entry ∧ (coreOf t g).sluice.hits = 0) ∧
        (∀ i, i < 64 → ruleOk (entry i) = false → (∀ j, j < i → ruleOk (entry j) = true) →
          ∃ t y, exec .tableLoadComplete s = .next t ∧ ctxOf t cx = some y ∧ y.loading = [] ∧ y.rules = x.rules ∧
            (coreOf t l.core).sched.tableDone = some (some ⟨0x19, l.addr + BitVec.ofNat 64 (64 * i), 0, BitVec.ofNat 64 i⟩))) ∧
      (∀ l, x.loading = [l] → standsHere s cx l.core = true → (coreOf s l.core).port.owner = l.owner →
        let entry := fun (k i : Nat) => (l.words.drop (k * i)).take k
        let regions := (List.range 64).map (entry 2)
        (l.kind = 0x021 → l.words.length = 240 →
          ((∀ i, i < 15 → decayOk (entry 16 i) = true) →
            ∃ t y, exec .tableLoadComplete s = .next t ∧ ctxOf t cx = some y ∧ y.loading = [] ∧ y.decayb = l.addr ∧
              y.decay = some ((List.range 15).map (fun i => decayPowers (entry 16 i))) ∧ (coreOf t l.core).sched.tableDone = some none) ∧
          (∀ i, i < 15 → decayOk (entry 16 i) = false → (∀ j, j < i → decayOk (entry 16 j) = true) →
            ∃ t y, exec .tableLoadComplete s = .next t ∧ ctxOf t cx = some y ∧ y.loading = [] ∧ y.decayb = x.decayb ∧ y.decay = x.decay ∧
              (coreOf t l.core).sched.tableDone = some (some ⟨0x19, l.addr + BitVec.ofNat 64 (128 * i), 0, BitVec.ofNat 64 i⟩))) ∧
        (l.kind = 0x022 → l.words.length = 128 →
          (regionFails x regions = none →
            ∃ t y, exec .tableLoadComplete s = .next t ∧ ctxOf t cx = some y ∧ y.loading = [] ∧ y.srtb = l.addr ∧ y.regions = some (regions.map regionOf) ∧
              (coreOf t l.core).sched.tableDone = some none) ∧
          (∀ i, regionFails x regions = some i →
            ∃ t y, exec .tableLoadComplete s = .next t ∧ ctxOf t cx = some y ∧ y.loading = [] ∧ y.srtb = x.srtb ∧ y.regions = x.regions ∧
              (coreOf t l.core).sched.tableDone = some (some ⟨0x19, l.addr + BitVec.ofNat 64 (16 * i), 0, BitVec.ofNat 64 i⟩)))) ∧
      (∀ sh, (coreOf s s.unit).sluice.shadow = some sh → (coreOf s s.unit).mx.doneAt ≤ s.clock →
        let c := coreOf s s.unit
        ∃ t, exec .sluiceGroupCommit s = .next t ∧ t.mem = s.mem ∧ coreOf t s.unit =
          { c with mx := { sh.mx with ops := 0, owner := c.mx.owner }, csr := { c.csr with dgctr := sh.dgctr },
                   regs := { c.regs with pc := c.regs.pc + BitVec.ofNat 64 (4 * sh.n) },
                   sluice := { c.sluice with hits := c.sluice.hits + 1, shadow := none, win := c.sluice.win.drop sh.n, pos := c.sluice.pos + sh.n } }) ∧
      ((coreOf s s.unit).sluice.shadow = none → (coreOf s s.unit).sched.halted = false → (coreOf s s.unit).mx.doneAt ≤ s.clock →
        ∃ t, exec .tileInstructionComplete s = .next t ∧ (coreOf t s.unit).mx.ops = 0 ∧ (coreOf t s.unit).regs = (coreOf s s.unit).regs ∧
          ∀ n, (coreOf t s.unit).mx.tile n = { (coreOf s s.unit).mx.tile n with pend := false })) ∧
  (∀ (s : State) (x : Ctx), myCtx s = some x → s.core.sched.stepDone = false → s.core.num ∉ x.stepReq →
      (x.sweeps = 0 ∨ x.gstep.toNat + 1 < x.sweepStart.toNat + 2 ^ 22 → x.held.toNat / 2 ^ 20 = (x.gstep + 1).toNat / 2 ^ 20 →
        exec .step s = .next (updCtx s x.num (fun c => { c with gstep := c.gstep + 1, held := c.gstep + 1 })).advance) ∧
      (x.sweeps ≠ 0 → x.sweepStart.toNat + 2 ^ 22 ≤ x.gstep.toNat + 1 →
        ∃ t, exec .step s = .next t ∧ t.core.regs = s.core.regs ∧ t.core.sched.stalled = true ∧
          ∀ y, ctxOf t x.num = some y → s.core.num ∈ y.stepReq ∧ y.gstep = x.gstep))

/-- 11 R197, 13 R226, 18 R309: MFS reads every user CSR: the value, PC at the next word, and nothing else changes. -/
def Obligations.StatusReads : Prop :=
  ∀ (s : State) (x : Ctx), myCtx s = some x →
    let c := s.core
    let rd := fun (n : BitVec 12) (v : Word) => exec (.mfs n) s = .next (s.setA v).advance
    rd 0x000 (c.id.tid.zeroExtend 64) ∧ rd 0x001 (c.id.coord.zeroExtend 64) ∧
    (c.num < 1024 → rd 0x002 (BitVec.ofNat 64 c.num)) ∧ rd 0x003 (c.id.stage.zeroExtend 64) ∧
    rd 0x004 (BitVec.ofNat 64 (c.ctx % 64)) ∧ rd 0x005 ((c.id.seq ++ (0 : BitVec 2) ++ c.id.slot).zeroExtend 64) ∧
    rd 0x008 (c.regs.vl.zeroExtend 64) ∧ rd 0x009 (c.regs.frm.zeroExtend 64) ∧ rd 0x00A (c.regs.fflags.zeroExtend 64) ∧
    (tileOps s < 256 → copiesOf s < 256 → storesOut s < 256 → loadsOut s < 256 →
      rd 0x010 (BitVec.ofNat 64 (tileOps s * 0x1000000 + copiesOf s * 0x10000 + storesOut s * 0x100 + loadsOut s))) ∧
    rd 0x018 c.csr.cyc ∧ rd 0x019 (BitVec.ofNat 64 (s.clock / 21)) ∧ rd 0x020 x.held ∧ rd 0x021 x.decayb ∧ rd 0x022 x.srtb ∧
    rd 0x028 c.csr.dgkey ∧ rd 0x029 c.csr.dgctr ∧
    (∃ v : Word, rd 0x030 v ∧ v.getLsbD 0 = c.sluice.en ∧ v.getLsbD 1 = c.sluice.s ∧ v.getLsbD 2 = c.sluice.a ∧ v.getLsbD 3 = c.sluice.skip ∧
      v.toNat < 16) ∧
    rd 0x031 c.sluice.rwrec ∧ rd 0x032 (c.sluice.hits.zeroExtend 64) ∧
    (∃ v : Word, rd 0x038 v ∧ v.getLsbD 7 = c.rank.stray ∧ v.getLsbD 11 = c.rank.emitting ∧ v.getLsbD 12 = c.rank.sat ∧ v.getLsbD 13 = c.rank.nan ∧
      v.extractLsb' 8 3 = c.rank.endc ∧ v.toNat / 2 ^ 24 = c.rank.stream % 256 ∧ v.toNat % 8 = rkStateCode c.rank.state) ∧
    rd 0x039 (BitVec.ofNat 64 c.rank.cnt) ∧ rd 0x03A (c.rank.watch.zeroExtend 64) ∧ rd 0x03B (c.rank.marg.zeroExtend 64) ∧
    rd 0x03C (c.rank.wmax.zeroExtend 64) ∧
    (∃ v : Word, rd 0x040 v ∧ (∀ i : Fin 4, v.getLsbD (4 + i.val) = (c.mx.tiles[i.val]).live ∧ v.getLsbD (8 + i.val) = (c.mx.tiles[i.val]).pend) ∧
      v.getLsbD 12 = c.mx.narrow ∧ v.getLsbD 13 = c.mx.rsdpos.getLsbD 63) ∧
    rd 0x050 (c.csr.trap.cause.zeroExtend 64) ∧ rd 0x051 c.csr.trap.addr ∧ rd 0x052 c.csr.trap.pc ∧ rd 0x053 c.csr.trap.x ∧
    rd 0x058 c.csr.wdogl ∧ rd 0x059 c.csr.wage ∧ rd 0x060 c.csr.upcv ∧ rd 0x061 c.csr.trapv

/-- 11 R197, R198, 18 R309: MTS writes each writable CSR within its range, raises OPERAND outside it, and leaves a read-only one. A write of RWCTL clears
RWHITS and RWREC. That -0 is out of RKWMAX's range is the model's choice (log entry 13). 07 R127, R136: an MTS of DECAYB or SRTB has its table's image
read as its homes or cores read it, and stalls until they have taken or refused it: then it goes on, or traps as they report. -/
def Obligations.StatusWrites : Prop :=
  ∀ (s : State),
    let v := s.core.regs.a
    let r := s.core.regs
    let ok := fun (n : BitVec 12) (t : State) => exec (.mts n) s = .next t.advance
    let bad := fun (n : BitVec 12) => exec (.mts n) s = .next (trapOf s 0x02 0 0)
    (1 ≤ v.toNat ∧ v.toNat ≤ 4096 → ok 0x008 (s.withRegs { r with vl := BitVec.ofNat 13 v.toNat })) ∧
    (v.toNat = 0 ∨ 4096 < v.toNat → bad 0x008) ∧
    (v.toNat ≤ 3 → ok 0x009 (s.withRegs { r with frm := BitVec.ofNat 2 v.toNat })) ∧ (3 < v.toNat → bad 0x009) ∧
    (v.toNat < 32 → ok 0x00A (s.withRegs { r with fflags := BitVec.ofNat 5 v.toNat })) ∧ (32 ≤ v.toNat → bad 0x00A) ∧
    ok 0x028 (s.withCsr (fun c => { c with dgkey := v })) ∧ ok 0x029 (s.withCsr (fun c => { c with dgctr := v })) ∧
    (v.toNat < 8 → ok 0x030 (s.withSluice (fun u => { u with en := v.getLsbD 0, s := v.getLsbD 1, a := v.getLsbD 2, hits := 0, rwrec := 0 }))) ∧
    (16 ≤ v.toNat → bad 0x030) ∧
    (v.toNat < 2 ^ 32 → ok 0x03A (s.withRank (fun k => { k with watch := BitVec.ofNat 32 v.toNat }))) ∧ (2 ^ 32 ≤ v.toNat → bad 0x03A) ∧
    (v.toNat < 0x7F800000 → ok 0x03C (s.withRank (fun k => { k with wmax := BitVec.ofNat 32 v.toNat }))) ∧
    (0x7F800000 ≤ v.toNat → bad 0x03C) ∧
    ok 0x059 (s.withCsr (fun c => { c with wage := v })) ∧
    (v.toNat % 4 = 0 ∧ v.toNat < 2 ^ 56 → ok 0x060 (s.withCsr (fun c => { c with upcv := v })) ∧ ok 0x061 (s.withCsr (fun c => { c with trapv := v }))) ∧
    (v.toNat % 4 ≠ 0 ∨ 2 ^ 56 ≤ v.toNat → bad 0x060 ∧ bad 0x061) ∧
    (∀ n, n ∈ ([0x000, 0x001, 0x002, 0x003, 0x004, 0x005, 0x010, 0x018, 0x019, 0x020, 0x031, 0x032, 0x038, 0x039, 0x03B, 0x040,
        0x050, 0x051, 0x052, 0x053, 0x058] : List (BitVec 12)) → ok n s) ∧
    (∀ n al k, (n, al, k) ∈ [((0x021 : BitVec 12), 128, 240), (0x022, 1024, 128)] →
      let told := { s with core := { s.core with sched := { s.core.sched with tableDone := none } } }
      (v.toNat % al ≠ 0 ∨ 2 ^ 56 ≤ v.toNat → bad n) ∧
      (v.toNat % al = 0 → v.toNat < 2 ^ 56 →
        (s.core.sched.tableDone = some none → ok n told) ∧
        (∀ i, s.core.sched.tableDone = some (some i) →
          exec (.mts n) s = .next (takeTrap told false ⟨i.cause, i.addr, s.core.regs.pc, i.x⟩ s.core.regs.pc)) ∧
        (∀ x, s.core.sched.tableDone = none → myCtx s = some x →
          ((∃ l ∈ x.loading, l.core = s.core.num ∧ l.owner = s.core.port.owner) → exec (.mts n) s = .next s.markStalled) ∧
          (∀ t ws, (∀ l ∈ x.loading, l.core ≠ s.core.num) →
            readImage { s with core := { s.core with id := { s.core.id with slot := 63 } } } v k = .ok (t, ws) →
            ∃ u, exec (.mts n) s = .next u ∧ u.core.regs = t.core.regs ∧ u.core.id = s.core.id ∧ u.core.sched.stalled = true ∧
              (x.num, Instr.tableLoadComplete) ∈ u.pending ∧
              ∀ y, ctxOf u x.num = some y → ∃ l ∈ y.loading, l.core = s.core.num ∧ l.addr = v ∧ l.words = ws ∧ l.kind = n.toNat))))

/-- 11 R196, 19 R332: a privileged instruction in user mode takes PRIV with its own word in TRAPX, and has none of its effect. -/
def Obligations.PrivilegedInUserMode : Prop :=
  ∀ (s : State) (c : BitVec 6) (b : BitVec 1) (n : BitVec 12), s.core.sched.user = true → 0x800 ≤ n.toNat →
    (∀ i, i ∈ [Instr.tlbw, .tlbi b, .csave, .crst c, .idle] → ∀ w, encode i = some w →
      exec i s = .next (trapOf s 0x15 0 (w.zeroExtend 64 <<< 32))) ∧
    (∀ i, i ∈ [Instr.mfs n, .mts n] → ∀ w, encode i = some w →
      exec i s = .next (trapOf s 0x15 0 ((w.zeroExtend 64 <<< 32) ||| n.zeroExtend 64)))

/-- 06 R113-R115, 19 R333: on a service core in firmware mode TLBW writes an entry that the rules accept and leaves no other of the cluster that overlaps
it, with T = 1 (an image with V clear only drops them), and answers T = 0 for a refused image, one of a tier that the owner has not accepted among
them; TLBI leaves no entry of the context in its range in the cluster's TLB and in any core's TLB of the cluster, and stalls, with every entry as it
was, while a line of an MREAD through one of them is still to be read; a compute core raises OPERAND 0x52. -/
def Obligations.TranslationControl : Prop :=
  ∀ (s : State) (all : BitVec 1), s.core.sched.user = false →
    (isCompute s.core.num = true → exec .tlbw s = .next (trapOf s 0x02 0 0x52) ∧ exec (.tlbi all) s = .next (trapOf s 0x02 0 0x52)) ∧
    (isCompute s.core.num = false → Quiet s → InVault s s.core.regs.a 16 →
      let v := readNat s.mem (vaultHome s.core.num s.core.regs.a.toNat) 16
      let w0 := BitVec.ofNat 64 v
      let w1 := BitVec.ofNat 64 (v / 2 ^ 64)
      let cl := clusterOf s.core.num
      (imagePage w0 w1 = none → exec .tlbw s = .next (s.setT false).advance) ∧
      (∀ p, imagePage w0 w1 = some p → p.tier = 1 → featureOn s 1 = false → exec .tlbw s = .next (s.setT false).advance) ∧
      (∀ p, imagePage w0 w1 = some p → (p.tier = 1 → featureOn s 1 = true) → w1.getLsbD 11 = false → ∃ t, exec .tlbw s = .next t ∧ MemKept s t ∧
        t.core.regs = { s.advance.core.regs with t := true } ∧ (∀ q, (cl, q) ∈ t.clusterTlb → q.overlaps p = false) ∧
        (∀ g q, clusterOf (coreOf t g).num = cl → q ∈ (coreOf t g).tlb → q.overlaps p = false)) ∧
      (∀ p, imagePage w0 w1 = some p → (p.tier = 1 → featureOn s 1 = true) → w1.getLsbD 11 = true → ∃ t, exec .tlbw s = .next t ∧ MemKept s t ∧
        t.core.regs = { s.advance.core.regs with t := true } ∧ (cl, p) ∈ t.clusterTlb ∧
        (∀ q, (cl, q) ∈ t.clusterTlb → q = p ∨ q.overlaps p = false) ∧
        (∀ g q, clusterOf (coreOf t g).num = cl → q ∈ (coreOf t g).tlb → q.overlaps p = false)) ∧
      (bits w1 31 6 = 0 → all = 1 ∨ w0.toNat % 4096 = 0 →
        let meets := fun (q : Page) => q.ctx = bits w1 5 0 ∧
          (all = 1 ∨ (q.va < w0.toNat + bits w1 63 32 * 4096 ∧ w0.toNat < q.va + pageBytes q.size))
        ((∀ q, meets q → linesOwed s q.pa (pageBytes q.size) = false) →
          (∀ c ∈ s.core :: s.others.map (·.2) ++ s.saves.map (·.2), c.sched.checked = []) →
          ∃ t, exec (.tlbi all) s = .next t ∧ MemKept s t ∧ t.core.regs = s.advance.core.regs ∧
            (∀ q, (cl, q) ∈ t.clusterTlb → ¬ meets q) ∧ (∀ c ∈ t.core :: t.others.map (·.2), clusterOf c.num = cl → ∀ q ∈ c.tlb, ¬ meets q) ∧
            (∀ e, e ∈ s.clusterTlb → e.1 ≠ cl → e ∈ t.clusterTlb)) ∧
        (∀ q, (cl, q) ∈ s.clusterTlb → meets q → linesOwed s q.pa (pageBytes q.size) = true →
          ∃ t, exec (.tlbi all) s = .next t ∧ MemKept s t ∧ t.core.regs = s.core.regs ∧ t.core.sched.stalled = true ∧
            t.clusterTlb = s.clusterTlb)) ∧
      (bits w1 31 6 ≠ 0 → exec (.tlbi all) s = .next (trapOf s 0x02 s.core.regs.a 0x53)))

/-- 10 R185, 10 R186, 19 R334: in firmware mode CSAVE completes: the area's bytes hold a, the pointers' addresses and strides, PC past the CSAVE, the
residue and the tiles at the offsets of 10 R185, and no byte outside the area changes; it stalls while an acknowledgement, a granted rank packet or a
table that it would miss is on its way (09 R159). CRST completes: the core goes on in context n with the registers that the area's bytes give, in user
mode on a compute core, with its number and CYC; and CRST of an area whose bytes are still as a CSAVE left them gives back every scalar register with
PC past the CSAVE, the identity, and, where no tile instruction is held, every word of the tiles. An area outside HBM4E or misaligned raises OPERAND
0x54. Where in its block a register stands that 10 R185 gives no offset is the model's choice (log entry 29). -/
def Obligations.SaveAndRestoreCore : Prop :=
  ∀ (s : State) (c : BitVec 6), s.core.sched.user = false →
    let a := s.core.regs.a
    (a.toNat % 8192 ≠ 0 ∨ 0x8000000000 < a.toNat + 0x32000 →
      exec .csave s = .next (trapOf s 0x02 a 0x54) ∧ exec (.crst c) s = .next (trapOf s 0x02 a 0x54)) ∧
    (a.toNat % 8192 = 0 → a.toNat + 0x32000 ≤ 0x8000000000 →
      (saveWaits s s.core.ctx s.core = true → exec .csave s = .next s.markStalled) ∧
      (Memory.wf s.mem = true → saveWaits s s.core.ctx s.core = false → ∃ t, exec .csave s = .next t ∧ t.core.regs = s.advance.core.regs ∧ OutsideKept s t a.toNat 0x32000 ∧
        (∃ d, (t.saves.find? (fun e => e.1 == saveKey a.toNat)).map (·.2) = some d ∧ CoreKept s.advance.core d) ∧
        readNat t.mem a.toNat 8 = a.toNat ∧
        (∀ i : Fin 8, readNat t.mem (a.toNat + 8 + 8 * i.val) 8 = (s.core.regs.p[i.val]).addr.toNat ∧
          readNat t.mem (a.toNat + 0x48 + 4 * i.val) 4 = (s.core.regs.p[i.val]).stride.toNat) ∧
        readNat t.mem (a.toNat + 0x70) 8 = (s.core.regs.pc + 4).toNat ∧
        (∀ j, j < 8192 → readNat t.mem (a.toNat + 0xA000 + 4 * j) 4 = (s.core.mx.rsd.getD j 0).toNat ∧
          ∀ i : Fin 4, readNat t.mem (a.toNat + 0x12000 + 0x8000 * i.val + 4 * j) 4 = ((s.core.mx.tiles[i.val]).cells.getD j 0).toNat)) ∧
      (∃ t, exec (.crst c) s = .next t ∧ t.core.regs = areaRegs s a.toNat ∧ t.core.id = (keptCore s a.toNat).id ∧ t.core.ctx = c.toNat ∧
        t.core.num = s.core.num ∧ t.core.sched.running = true ∧ t.core.sched.user = isCompute s.core.num ∧ t.core.csr.cyc = s.core.csr.cyc ∧
        ((keptCore s a.toNat).mx.run = none → MemKept s t)) ∧
      (∀ t u, Memory.wf s.mem = true → saveWaits s s.core.ctx s.core = false → exec .csave s = .next t → (∀ b, a.toNat ≤ b → b < a.toNat + 0x32000 → readByte u.mem b = readByte t.mem b) →
        u.saves = t.saves → u.core.sched.user = false → u.core.regs.a = a →
        ∃ v, exec (.crst c) u = .next v ∧ v.core.regs = s.advance.core.regs ∧ v.core.id = s.core.id ∧ v.core.ctx = c.toNat ∧
          (s.core.mx.run = none → ∀ (i : Fin 4) (j : Nat), j < 8192 →
            (v.core.mx.tiles[i.val]).cells.getD j 0 = (s.core.mx.tiles[i.val]).cells.getD j 0)))

/-- 18 R310, R318, 19 R335, R336: RWLD goes on once its table is taken and, before, hands its image to the context's cores; its other addresses trap;
RWSKIP sets SKIP; IDLE stops issue; WDOG sets the task's own limit in units of 4,096 cycles. -/
def Obligations.RuleLoadIdleWatchdog : Prop :=
  ∀ (s : State) (n : BitVec 12),
    let a := s.core.regs.a
    (spaceOf a ≠ .reserved → a.toNat % 64 ≠ 0 → exec .rwld s = .next (trapOf s 0x03 a 0)) ∧
    (spaceOf a = .ownVault → a.toNat % 64 = 0 → exec .rwld s = .next (trapOf s 0x02 a 0x40)) ∧
    (spaceOf a = .translated ∨ spaceOf a = .window → a.toNat % 64 = 0 →
      (s.core.sched.tableDone = some none → ∃ t, exec .rwld s = .next t ∧ t.core.regs = s.advance.core.regs ∧ t.core.sched.tableDone = none ∧ MemKept s t) ∧
      (∀ x t ws, s.core.sched.tableDone = none → myCtx s = some x → (∀ l ∈ x.loading, l.core ≠ s.core.num) → readImage s a 512 = .ok (t, ws) →
        ∃ u, exec .rwld s = .next u ∧ u.core.regs = t.core.regs ∧ u.core.sched.stalled = true ∧ (x.num, Instr.tableLoadComplete) ∈ u.pending ∧
          ∀ y, ctxOf u x.num = some y → ∃ l ∈ y.loading, l.core = s.core.num ∧ l.addr = a ∧ l.words = ws ∧ l.kind = 0x208)) ∧
    exec .rwskip s = .next (s.withSluice (fun u => { u with skip := true })).advance ∧
    (s.core.sched.user = false → exec .idle s = .next { s.advance with core := { s.advance.core with sched := { s.core.sched with idling := true } } }) ∧
    exec (.wdog n) s = .next { s.advance with core := { s.advance.core with sched := { s.core.sched with wdOwn := n.toNat * 4096 } } }

/-- 19 R320, R321, R324, R325: taking a trap or upcall with a frame free: the task's state is in the frame, to resume at the given address, KIND says trap
or upcall, the record is queued (ahead of every other for a trap, last of its level for an upcall), the core runs nothing, and no byte outside the
frame changes. 19 R320, R322, R323: a core that runs nothing selects the trap at the head of its queue: the handler starts at TRAPV, or UPCV for an
upcall, with the cause in a, its frame's local-alias address in p6, TRAPC, TRAPA, TRAPPC and TRAPX as reported, every other pointer zero with stride 8
but for p7, VL 4096. -/
def Obligations.TrapEntryAndHandlerStart : Prop :=
  (∀ (s : State) (up : Bool) (i : TrapInfo) (resume : Word) (n : Nat) (x : Ctx),
      freeFrameOf s s.core.num = some n → ctxOf s s.core.ctx = some x → x.running = true →
      awayHas x s.core.num 0 = false → s.core.sched.ring = [] → atLevel s.core.sched.queue 0 < 32 →
      let t := takeTrap s up i resume
      let g := s.core.num
      let e : QEntry := { level := 0, work := .handler up i (.frame n), entered := s.clock, aged := false }
      (readFrame t g n).regs = { s.core.regs with pc := resume } ∧ (readFrame t g n).msg = s.core.sched.msg ∧
      (readFrame t g n).id = { s.core.id with seq := slotSeq s s.core.ctx s.core.id.slot.toNat } ∧
      homeRead t (frameHome g n + 0x73) 1 = i.cause.toNat ∧
      frameKind t g n = (if up then 2 else 1) ∧
      t.core.sched.queue = (if up then s.core.sched.queue ++ [e] else e :: s.core.sched.queue) ∧
      t.core.sched.running = false ∧ OutsideKept s t (frameHome g n) 128) ∧
  (∀ (s : State) (up : Bool) (i : TrapInfo) (n : Nat) (k : Nat) (q : List QEntry) (x : Ctx),
      mayStart s s.core.num = true → ctxOf s s.core.ctx = some x → x.queue = [] → s.core.sched.ring = [] →
      s.core.sched.queue = ⟨0, .handler up i (.frame n), k, false, none⟩ :: q →
      (if up then s.core.csr.upcv else s.core.csr.trapv) ≠ 0 →
      ∃ t, exec .recordSelect s = .next t ∧ t.core.regs.pc = (if up then s.core.csr.upcv else s.core.csr.trapv) ∧
        t.core.regs.a = i.cause.zeroExtend 64 ∧ t.ptr 6 = ⟨BitVec.ofNat 64 (128 * n), 8⟩ ∧ (∀ j, j ≠ 6 → j ≠ 7 → t.ptr j = ⟨0, 8⟩) ∧
        (t.ptr 7).stride = 8 ∧ t.core.regs.vl = 4096 ∧ t.core.regs.frm = 0 ∧ t.core.regs.fflags = 0 ∧ t.core.regs.t = false ∧ t.core.regs.c = false ∧
        t.core.csr.trap = i ∧ t.core.sched.running = true ∧ t.core.sched.queue = q ∧ MemKept s t)

/-- 19 R327: RFT restores the frame that a names and frees it; an address that is no frame's raises OPERAND 0x50, a frame that holds no trap or upcall
0x51. No byte but the frame's KIND changes, and, where the task is of an ordered launch, the journal, which its TASK entry opens again (08 R140). -/
def Obligations.ReturnFromTrapRestores : Prop :=
  ∀ (s : State),
    let a := s.core.regs.a
    let g := s.core.num
    let n := a.toNat / 128
    (4096 ≤ a.toNat ∨ a.toNat % 128 ≠ 0 → exec .rft s = .next (trapOf s 0x02 a 0x50)) ∧
    (a.toNat < 4096 → a.toNat % 128 = 0 → frameKind s g n ≠ 1 → frameKind s g n ≠ 2 → exec .rft s = .next (trapOf s 0x02 a 0x51)) ∧
    (a.toNat < 4096 → a.toNat % 128 = 0 → frameKind s g n = 1 ∨ frameKind s g n = 2 →
      ∃ t, exec .rft s = .next t ∧ t.core.regs = (readFrame s g n).regs ∧ t.core.id = (readFrame s g n).id ∧
        t.core.sched.msg = (readFrame s g n).msg ∧ frameKind t g n = 0 ∧ t.core.sched.running = true ∧
        (∀ b, ¬ (frameHome g n + 0x70 ≤ b ∧ b < frameHome g n + 0x78) → ¬ (vaultHome g 0x1C0000 ≤ b ∧ b < vaultHome g 0x1C0000 + 16 + 16 * 7679) →
          readByte t.mem b = readByte s.mem b) ∧
        ((∀ l, launchOf s s.core.ctx (readFrame s g n).id.slot.toNat = some l → l.ordered = false) → OutsideKept s t (frameHome g n + 0x70) 8) ∧
        t.core.csr = s.core.csr ∧ t.core.mx.tiles = s.core.mx.tiles)

/-- 19 R321, R327, headline: a task that traps and whose handler returns from its frame goes on where it was: from any later state of the core that still
has the frame's bytes, RFT gives back every scalar register, the identity and the message frame, with PC at the resume address. -/
def Obligations.TrapThenReturnIsTransparent : Prop :=
  ∀ (s u : State) (up : Bool) (i : TrapInfo) (resume : Word) (n : Nat) (x : Ctx),
    freeFrameOf s s.core.num = some n → ctxOf s s.core.ctx = some x → x.running = true →
    let t := takeTrap s up i resume
    (∀ b, frameHome s.core.num n ≤ b → b < frameHome s.core.num n + 128 → readByte u.mem b = readByte t.mem b) →
    Memory.wf u.mem = true → Memory.wf s.mem = true → u.core.num = s.core.num → u.core.ctx = s.core.ctx → u.ctxs = t.ctxs → u.core.sched.frames = t.core.sched.frames →
    u.core.regs.a = BitVec.ofNat 64 (128 * n) →
    ∃ v, exec .rft u = .next v ∧ v.core.regs = { s.core.regs with pc := resume } ∧
      v.core.id = { s.core.id with seq := slotSeq s s.core.ctx s.core.id.slot.toNat } ∧ v.core.sched.msg = s.core.sched.msg ∧
      v.core.port.owner = s.core.port.owner ∧ v.core.sched.running = true

/-- 11 R187, R188, R194, headline: decoding the word of any well-formed instruction gives the instruction back, every operand at every value. -/
def Obligations.EncodeThenDecodeIsIdentity : Prop :=
  ∀ (i : Instr) (w : W32), i.wf = true → encode i = some w → decode w = .ok i

/-- 11 R187, R196: a word that decodes is the one word of a well-formed instruction: no reserved or unused bit is dropped, and two words never stand for
one instruction. -/
def Obligations.DecodedWordsAreCanonical : Prop :=
  ∀ (w v : W32) (i : Instr), decode w = .ok i → i.wf = true ∧ encode i = some w ∧ (decode v = .ok i → v = w)

/-- 11 R188, 12, 13, 14, 16-19: words written out from the manual's encodings decode to the instructions they stand for, one or more per family. -/
def Obligations.WrittenWordsDecode : Prop :=
  decode 0x00001844 = .ok (.fadd ⟨1, 0, 3, 0⟩) ∧ decode 0x00001044 = .ok (.fadd ⟨1, 0, 2, 0⟩) ∧
  decode 0x00401805 = .ok (.li 0x803) ∧ decode 0x02000045 = .ok (.lui 0x4000) ∧
  decode 0x0300A20D = .ok (.fmac 1 1 2 3) ∧ decode 0x0006220D = .ok (.acas 4 1 2) ∧
  decode 0x00000810 = .ok (.lnset 4 0) ∧ decode 0x00003050 = .ok (.lnptr 1 0) ∧ decode 0x00001010 = .ok .lnext ∧
  decode 0xFFFFF44A = .ok (.bcc 1 (-3)) ∧ decode 0x00021847 = .ok (.aaddN ⟨1, 0, 3, 0⟩) ∧ decode 0x00013887 = .ok (.afadd ⟨2, 0, 3, 0⟩) ∧
  decode 0x00007848 = .ok (.saddN ⟨1, 0, 3, 0⟩) ∧ decode 0x0000200E = .ok (.fence 1) ∧ decode 0x1FE0008E = .ok (.waitc 0xFF00) ∧
  decode 0x000004CE = .ok (.mwatch 1) ∧ decode 0x0002010E = .ok (.mwait 16) ∧ decode 0x0000447C = .ok (.barm 1 2) ∧
  decode 0x00080030 = .ok (.tcfg 0 2) ∧ decode 0x000D1031 = .ok (.mma 0 1 2 3) ∧ decode 0x00011071 = .ok (.mmas 0 1 2 0) ∧
  decode 0x000110B1 = .ok (.tcmpr 1 2 0) ∧ decode 0x00001032 = .ok (.tvop 0 1 0) ∧ decode 0x00002072 = .ok (.tred 0 2 0) ∧
  decode 0x000030F2 = .ok (.tqnt 0 3 0) ∧ decode 0x001902F3 = .ok (.vsum 2 3 1 0) ∧ decode 0x00383473 = .ok (.awupd 1 2 3 0) ∧
  decode 0x000024B4 = .ok (.rkemit 1 1) ∧ decode 0x0000020F = .ok .rwld ∧ decode 0x0000024F = .ok .rwskip ∧ decode 0x000000CF = .ok .rft ∧
  decode 0x0002000F = .ok (.mfs 0x20) ∧ decode 0x0000804F = .ok (.mts 8) ∧ decode 0x0000508F = .ok (.trap 5) ∧ decode 0x000031CF = .ok (.crst 3) ∧
  decode 0x000102CF = .ok (.wdog 16) ∧
  decode 0 = .error 0x01 ∧ decode 0xFFFFFFFF = .error 0x01 ∧ decode 0x00000020 = .error 0x02 ∧ decode 0x00000486 = .error 0x03 ∧
  decode 0x0000024A = .error 0x04 ∧ decode 0x00000044 = .error 0x05 ∧ decode 0x0002020D = .error 0x06 ∧ decode 0x00041843 = .error 0x07 ∧
  decode 0x0000100C = .error 0x08 ∧ decode 0x0000600F = .error 0x09

/-- 01 R30, 11 R187, 18 R308, 19 R331: when the word at PC decodes to i, the step is exec of i in the state after the fetch, with the sluice's window
closed, and what stands around it: for a task that is not stepped and outside a window, the cycles of an instruction that ran through (log entry 9);
and one that waits with an access issued goes on without a new fetch, where the values and homes of one that has ended go (log entry 28). A tile-class
instruction goes the same way when the sluice is off and the matrix engine is free. -/
def Obligations.StepRunsDecodedInstruction : Prop :=
  ∀ (s s1 : State) (r : List Turn) (w : W32) (i : Instr), s.core.num < 1152 → Awake s →
    Fetched { s with turns := r } s1 w → s.turns = .core s.core.num :: r → decode w = .ok i →
    (isTile i = false →
      let e := s1.clearFirst.setSluice (fun u => { u with win := [] })
      step s = (match exec i e with
        | .next t => .next (afterRun i e t)
        | .fault f => .fault f
        | .refused q => .refused q) ∧ i.wf = true) ∧
    (isTile i = true → s1.core.mx.ops = 0 → s1.core.sluice.en = false →
      let e := s1.clearFirst.setSluice (fun u => { u with win := [], pos := 0, plain := false, skip := u.skip && !u.armed, armed := false })
      step s = (match exec i e with
        | .next t => .next (afterRun i e t)
        | .fault f => .fault f
        | .refused q => .refused q) ∧ i.wf = true) ∧
    (∀ e t, e.core.csr.dbgStep = false → t.core.sluice.win = [] → t.core.num = e.core.num →
      (ranThrough i e t = false → afterRun i e t = keepGoing i t) ∧
      (ranThrough i e t = true → ∃ n f, (spanOf e t i).lo ≤ n + 1 ∧ n + 1 ≤ max (spanOf e t i).lo (spanOf e t i).hi ∧
        afterRun i e t = keepGoing i (passCycles { t with freeCtr := f } n
          (if !isTile i then t.core.mx.doneAt else t.core.csr.here + (if t.core.mx.faults = e.core.mx.faults then tileCycles e i * cycleLength e e.core.num else 0)))) ∧
      (t.core.rank.bwd = none → t.core.sched.stalled = false →
        keepGoing i t = { t with core := { t.core with sched := { t.core.sched with returns := [], checked := [], again := none } } }) ∧
      (t.core.sched.stalled = true → t.core.sched.asked = true ∨ t.core.sched.returns ≠ [] →
        keepGoing i t = { t with core := { t.core with sched := { t.core.sched with again := some i } } }))

/-- 11 R196: a step whose word is no instruction takes ILLEGAL, a precise trap: TRAPPC the word's address, TRAPA zero, TRAPX the word and the first
reason. 01 R30, 06 R119, 16 R279, 19 R331, R336: the exceptions that a core takes at a boundary: a fetch fault at its address, the watchdog with TRAPX
saying whether the task's own limit fired, a deferred tile fault of the running task; and DBGCTL, written for its owner. -/
def Obligations.ExceptionsAtBoundaries : Prop :=
  (∀ (s s1 : State) (r : List Turn) (w : W32) (c : BitVec 8), s.core.num < 1152 → Awake s → Quiet s →
      Fetched { s with turns := r } s1 w → s.turns = .core s.core.num :: r → decode w = .error c →
      let e := s1.clearFirst.setSluice (fun u => { u with win := [] })
      step s = .next (takeTrap e false ⟨0x01, 0, e.core.regs.pc, (w.zeroExtend 64 <<< 32) ||| c.zeroExtend 64⟩ e.core.regs.pc) ∧
      exec (.illegalInstruction w) e = .next (takeTrap e false ⟨0x01, 0, e.core.regs.pc, (w.zeroExtend 64 <<< 32) ||| c.zeroExtend 64⟩ e.core.regs.pc)) ∧
  (∀ (s : State) (addr : Word) (g : Nat) (v : Word), s.core.sched.running = true → s.core.sched.halted = false →
      let pc := s.core.regs.pc
      (s.core.sched.first = none →
        (∀ (q : BitVec 8) (cow : Bool), exec (.fetchFault addr (.transl q cow)) s =
          .next (takeTrap s false ⟨0x04, addr, addr, BitVec.ofNat 64 (q.toNat + 2 ^ 9 + (if cow then 2 ^ 10 else 0))⟩ pc)) ∧
        exec (.fetchFault addr .perm) s = .next (takeTrap s false ⟨0x05, addr, addr, 0⟩ pc) ∧
        exec (.fetchFault addr .ecc) s = .next (takeTrap s false ⟨0x09, addr &&& ~~~7, addr, 0⟩ pc) ∧
        exec (.fetchFault addr .link) s = .next (takeTrap s false ⟨0x17, addr, addr, 0⟩ pc)) ∧
      (s.core.sched.stepDone = false → s.core.sched.tableDone = none → (∀ x ∈ s.ctxs, x.stepReq = []) →
        exec .watchdogFire s = .next (takeTrap s false ⟨0x0A, 0, pc,
          if s.core.sched.wdOwn ≠ 0 ∧ s.core.sched.wdOwn < s.core.csr.wdogl.toNat then 1 else 0⟩ pc) ∧
      ∀ f, s.core.mx.faults = [(s.core.port.owner, f)] → exec (.deferredTileFault s.core.num f.addr) s =
        .next (takeTrap { s with core := { s.core with mx := { s.core.mx with faults := [] } } } false { f with pc := pc } pc)) ∧
      (g < 1152 → s.out.owner.isSome = true → s.out.fwGood = true → ∃ t, exec (.dbgctlWrite g v) s = .next t ∧
        coreOf t g = { coreOf s g with csr := { (coreOf s g).csr with dbgStep := v.getLsbD 0 } } ∧ t.mem = s.mem))

/-- 01 R25: memory's form is canonical: memories in canonical form that read the same at every address are equal, and each named operation on memory keeps
the form. 00 R7, 01 R25: bytes written at home addresses read back, little-endian, every other byte as before; a copy puts the source's bytes at the
destination, and every other byte as before. -/
def Obligations.MemoryFormAndLaws : Prop :=
  ((∀ (m k : Memory), m.wf = true → k.wf = true → (∀ a, readByte m a = readByte k a) → m = k) ∧
    (∀ (m : Memory) (a b n v : Nat), m.wf = true → (writeNat m a n v).wf = true ∧ (copySpan m a b n).wf = true) ∧
    (∀ (s : State) (band : Nat), Memory.wf s.mem = true → Memory.wf (flipBytes s band) = true)) ∧
  (∀ (m : Memory) (a n v : Nat),
      readNat (writeNat m a n v) a n = v % 2 ^ (8 * n) ∧
      (∀ i, i < n → readByte (writeNat m a n v) (a + i) = BitVec.ofNat 8 (v / 2 ^ (8 * i))) ∧
      (∀ b, ¬ (a ≤ b ∧ b < a + n) → readByte (writeNat m a n v) b = readByte m b) ∧
      (∀ d, m.wf = true → (∀ i, i < n → readByte (copySpan m a d n) (d + i) = readByte m (a + i)) ∧
        (∀ b, ¬ (d ≤ b ∧ b < d + n) → readByte (copySpan m a d n) b = readByte m b)))

/-- 01 R25, 21 R356, headline invariant: every step keeps memory in its canonical form, whoever moves, and no step lets a context have a number beyond the
64 that exist. -/
def Obligations.StepKeepsMemoryCanonical : Prop :=
  ∀ (s t : State), step s = .next t →
    (Memory.wf s.mem = true → Memory.wf t.mem = true) ∧
    ((∀ x ∈ s.ctxs, x.num < 64) → ∀ x ∈ t.ctxs, x.num < 64)

/-- 11 R200, 10 R176, R175, 19 R323: after reset every register, flag and CSR of every core reads zero but for VL, 4,096, and the defaults of WDOGL and
WAGE; the tiles are zero and not live; no task runs; no context exists; memory lists nothing, so its form is canonical. (The defaults 0x1000000 and
65,536 are R176's and R175's.) What the spec gives no value at reset, and unwritten memory, are the model's choices (log entries 1, 2). -/
def Obligations.ResetState : Prop :=
  let s := State.reset
  (∀ g, g < 1152 →
    let c := coreOf s g
    c.num = g ∧ c.regs = { Regs.reset with vl := 4096 } ∧ c.regs.a = 0 ∧ c.regs.pc = 0 ∧ c.regs.t = false ∧ c.regs.c = false ∧ c.regs.frm = 0 ∧
    c.regs.fflags = 0 ∧ (∀ i, c.regs.ptr i = ⟨0, 0⟩) ∧ c.csr.cyc = 0 ∧ c.csr.upcv = 0 ∧ c.csr.trapv = 0 ∧ c.csr.trap = ⟨0, 0, 0, 0⟩ ∧
    c.csr.dgkey = 0 ∧ c.csr.dgctr = 0 ∧ c.csr.wdogl = 0x1000000 ∧ c.csr.wage = 65536 ∧ c.sched.running = false ∧ c.sluice.en = false ∧
    c.sluice.hits = 0 ∧ c.sluice.rwrec = 0 ∧ c.rank.cnt = 0 ∧ c.rank.watch = 0 ∧ c.rank.marg = 0 ∧ c.rank.wmax = 0 ∧ c.rank.state = .idle ∧
    c.nest = none ∧ (∀ i : Fin 4, (c.mx.tiles[i.val]).cells = [] ∧ (c.mx.tiles[i.val]).live = false ∧ (c.mx.tiles[i.val]).pend = false)) ∧
  s.ctxs = [] ∧ Memory.wf s.mem = true ∧ (∀ a, readByte s.mem a = 0)

/-- 16 R263, R264, R268: TCFG sets shape and format of a tile or pair, which becomes +0 and not live, with its former partner; a reserved code, an odd
base and a live tile each raise their fault; every tile instruction stalls while the engine is busy. The order of checks that hold at once is the
model's reading (log entry 20). 16 R269, R277: the tile operations in place, element by element: TREL, TZERO, TTRN, TSCL by an FP32 word in the own
vault, TCVT with one rounding, TSMAX. When the work is done within the issue and how INT32 becomes NA12 are the model's (log entries 21, 23). -/
def Obligations.TileConfigurationAndInPlace : Prop :=
  (∀ (s : State) (ac : BitVec 2) (fl : BitVec 9),
      let m := s.core.mx
      let shape := fl.toNat % 16
      let fmt := fl.toNat / 16 % 16
      let aff := if shape = 2 || 2 ≤ (m.tile ac).shape.toNat then [ac, ac ^^^ 1] else [ac]
      (m.ops = 0 → (3 ≤ shape ∨ 3 ≤ fmt → exec (.tcfg ac fl) s = .next (trapOf s 0x02 0 0)) ∧
        (fmt < 3 → shape = 2 → ac.getLsbD 0 = true → exec (.tcfg ac fl) s = .next (trapOf s 0x02 0 0x23)) ∧
        (fmt < 3 → shape < 3 → ¬ (shape = 2 ∧ ac.getLsbD 0 = true) →
          (fl.getLsbD 8 = false → (∃ n ∈ aff, (m.tile n).live = true) →
            ∃ x : Word, exec (.tcfg ac fl) s = .next (trapOf s 0x08 0 x) ∧ x.toNat < 16 ∧
              ∀ n : BitVec 2, x.getLsbD n.toNat = (aff.contains n && (m.tile n).live)) ∧
          (fl.getLsbD 8 = true ∨ (∀ n ∈ aff, (m.tile n).live = false) →
            ∃ t, exec (.tcfg ac fl) s = .next t ∧ TilesOnly s t aff ∧ (∀ n ∈ aff, (t.core.mx.tile n).cells = [] ∧ (t.core.mx.tile n).live = false) ∧
              ((t.core.mx.tile ac).shape.toNat = shape ∧ (t.core.mx.tile ac).fmt.toNat = fmt) ∧
              (shape = 2 → (t.core.mx.tile (ac ^^^ 1)).shape = 3 ∧ (t.core.mx.tile (ac ^^^ 1)).fmt.toNat = fmt) ∧
              (shape ≠ 2 → 2 ≤ (m.tile ac).shape.toNat → (t.core.mx.tile (ac ^^^ 1)).shape = 0)))) ∧
      (∀ (pa pb : BitVec 3) (f1 : BitVec 1) (f2 : BitVec 2) (f3 : BitVec 3) (f4 : BitVec 4) (f6 : BitVec 6) (f7 : BitVec 7), m.ops ≠ 0 →
        ∀ i, i ∈ [Instr.tcfg ac fl, .trel ac, .tzero ac, .ttrn ac, .tscl ac pa, .tcvt ac f4, .tld ac pa f1, .twr ac pa f1, .tdrain ac pa f2, .tvop ac pa f7,
                  .tred ac pa f3, .tqnt ac pa f2, .tcmpr pa pb f1, .tsmax ac, .mma ac pa pb f6, .mmas ac pa pb f6] →
          exec i s = .next s.markStalled)) ∧
  (∀ (s : State) (ac : BitVec 2) (pa : BitVec 3) (fl : BitVec 4), EngineFree s →
      let m := s.core.mx
      let g := m.group ac
      let put := fun (i : Instr) (f : BitVec 2) (live : Bool) (v : Nat → Nat → W32) =>
        ∃ t, exec i s = .next t ∧ TilesOnly s t g ∧ AllLive t.core.mx ac live ∧ (∀ n ∈ g, (t.core.mx.tile n).shape = (m.tile n).shape) ∧
          (∀ n ∈ g, (t.core.mx.tile n).fmt = (if i = .tcvt ac fl then f else (m.tile n).fmt)) ∧
          ∀ r c, r < m.nr ac → c < m.nc ac → cellOf t.core.mx ac r c = v r c
      put (.trel ac) 0 false (fun _ _ => 0) ∧ put (.tzero ac) 0 true (fun _ _ => 0) ∧
      (∃ t, exec (.ttrn ac) s = .next t ∧ TilesOnly s t g ∧ t.core.mx.nr ac = m.nc ac ∧ t.core.mx.nc ac = m.nr ac ∧
        (∀ n ∈ g, (t.core.mx.tile n).live = (m.tile n).live ∧ (t.core.mx.tile n).fmt = (m.tile n).fmt) ∧
        ∀ r c, r < m.nr ac → c < m.nc ac → cellOf t.core.mx ac c r = cellOf m ac r c) ∧
      ((m.tile ac).fmt = 2 → exec (.tscl ac pa) s = .next (trapOf s 0x02 0 0x24) ∧ exec (.tsmax ac) s = .next (trapOf s 0x02 0 0x24)) ∧
      ((m.tile ac).fmt ≠ 2 → InVault s (s.ptr pa).addr 4 →
        let f := num32 (BitVec.ofNat 32 (readNat s.mem (vaultHome s.core.num (s.ptr pa).addr.toNat) 4))
        put (.tscl ac pa) 0 true (fun r c => accRound (m.tile ac).fmt ((accVal (m.tile ac).fmt (cellOf m ac r c)).mulExact f).1)) ∧
      ((m.tile ac).fmt ≠ 2 → put (.tsmax ac) 0 true (fun r c =>
        (softmaxRow (m.tile ac).fmt ((List.range (m.nc ac)).map (cellOf m ac r))).getD c 0)) ∧
      (fl.toNat < 3 → put (.tcvt ac fl) (BitVec.ofNat 2 fl.toNat) true (fun r c =>
        if (m.tile ac).fmt.toNat = fl.toNat then cellOf m ac r c else accRound (BitVec.ofNat 2 fl.toNat) (accVal (m.tile ac).fmt (cellOf m ac r c)))) ∧
      (3 ≤ fl.toNat → exec (.tcvt ac fl) s = .next (trapOf s 0x02 0 0)))

/-- 16 R270, R274: TLD and TVOP read a view of the own vault, or TVOP a vector or scalar of words: each element of the tile, and no byte of memory
changed. The order of checks and the time of the reads are the model's (log entries 20, 21). 16 R270, R275, R276: TWR, TDRAIN, TQNT and TRED write a
tile to the own vault: every element's code, every other byte as before; a drain leaves the tile +0 and not live. The time of the writes, TQNT's
factor and TRED's start are the model's readings (log entries 20, 21, 23). -/
def Obligations.TileLoadAndStoreResults : Prop :=
  (∀ (s : State) (ac : BitVec 2) (pa : BitVec 3) (fl : BitVec 1) (fo : BitVec 7) (v : View) (off so : Nat), EngineFree s →
      let m := s.core.mx
      let fmt := (m.tile ac).fmt
      let tr := decide (fl = 1)
      let op := fo.toNat % 16
      let va := (s.ptr pa).addr
      let value := fun (r c : Nat) =>
        let y := fmtDecode v.fmt (viewElem s v off r c)
        accRound fmt (if v.scaleb = 0 then y else
          (y.mulExact (scaleNum (elemAt 8 (readNat s.mem (vaultHome s.core.num so) v.stripBytes) (r * ((v.cols + 127) / 128) + c / 128)))).1)
      (ViewAt s pa v off so → v.fmt ≤ 8 → v.cmp = false → fmtIsInt v.fmt = decide (fmt = 2) → (fmtIsInt v.fmt = true → v.scaleb = 0) →
        ((if tr then v.cols = m.nr ac ∧ v.rows = m.nc ac else v.rows = m.nr ac ∧ v.cols = m.nc ac) →
          ∃ t, exec (.tld ac pa fl) s = .next t ∧ TilesOnly s t (m.group ac) ∧ AllLive t.core.mx ac true ∧
            ∀ r c, r < v.rows → c < v.cols → cellOf t.core.mx ac (if tr then c else r) (if tr then r else c) = value r c) ∧
        (op < 4 → fo.toNat / 16 % 4 = 0 → v.rows = m.nr ac → v.cols = m.nc ac →
          ∃ t, exec (.tvop ac pa fo) s = .next t ∧ TilesOnly s t (m.group ac) ∧ AllLive t.core.mx ac true ∧
            ∀ r c, r < v.rows → c < v.cols → cellOf t.core.mx ac r c = tvopCell fmt op (fo.getLsbD 6) (cellOf m ac r c) (value r c))) ∧
      (∀ o form, form = fo.toNat / 16 % 4 → form ≠ 0 → op < 4 →
        let n := if form = 1 then m.nc ac else if form = 2 then m.nr ac else 1
        checkOperand s va (4 * n) = .ok o →
        ∃ t, exec (.tvop ac pa fo) s = .next t ∧ TilesOnly s t (m.group ac) ∧ AllLive t.core.mx ac true ∧
          ∀ r c, r < m.nr ac → c < m.nc ac → cellOf t.core.mx ac r c =
            tvopCell fmt op (fo.getLsbD 6) (cellOf m ac r c) (BitVec.ofNat 32 (vElem s o 4 (if form = 1 then c else if form = 2 then r else 0)))) ∧
      (4 ≤ op → exec (.tvop ac pa fo) s = .next (trapOf s 0x02 0 0)) ∧
      (readView s va = .ok (s, v) → v.cmp = true ∨ 8 < v.fmt → exec (.tld ac pa fl) s = .next (trapOf s 0x02 va 0x21))) ∧
  (∀ (s : State) (ac : BitVec 2) (pa : BitVec 3) (f1 : BitVec 1) (f2 : BitVec 2) (f3 : BitVec 3) (v : View) (off so : Nat), EngineFree s →
      let m := s.core.mx
      let fmt := (m.tile ac).fmt
      let g := m.group ac
      let va := (s.ptr pa).addr
      let k := (v.cols + 127) / 128
      let w := fmtBits v.fmt
      let sized := fun (tr : Bool) => if tr then v.cols = m.nr ac ∧ v.rows = m.nc ac else v.rows = m.nr ac ∧ v.cols = m.nc ac
      let cell := fun (tr : Bool) (r c : Nat) => cellOf m ac (if tr then c else r) (if tr then r else c)
      let drained := fun (t : State) (byp : Bool) =>
        TileIssued s t g ∧ t.core.csr = s.core.csr ∧ t.freeCtr = s.freeCtr ∧ AllLive t.core.mx ac false ∧
          (∀ r c, r < m.nr ac → c < m.nc ac → cellOf t.core.mx ac r c = 0) ∧
          (byp = true → t.core.mx.bypass = if v.runs * v.runBytes ≤ 32768 then some v else none)
      (ViewAt s pa v off so → v.cmp = false →
        (sized (decide (f1 = 1)) → v.scaleb = 0 → v.fmt = accCode fmt →
          ∃ t, exec (.twr ac pa f1) s = .next t ∧ TilesKept s t g ∧ OutsideView s t v off 0 0 ∧
            ∀ r c, r < v.rows → c < v.cols → viewElem t v off r c = (cell (decide (f1 = 1)) r c).toNat) ∧
        (sized (f2.getLsbD 0) → v.fmt ≤ 8 → fmtIsInt v.fmt = decide (fmt = 2) → ApartFrom v off so (if v.scaleb = 0 then 0 else v.stripBytes) →
          ∃ t, exec (.tdrain ac pa f2) s = .next t ∧ drained t (f2.getLsbD 1) ∧ OutsideView s t v off 0 0 ∧
            ∀ r c, r < v.rows → c < v.cols → viewElem t v off r c = narrow v.fmt
              (let y := accVal fmt (cell (f2.getLsbD 0) r c)
               if v.scaleb = 0 then y else
                (y.mulExact (scaleInv (elemAt 8 (readNat s.mem (vaultHome s.core.num so) v.stripBytes) (r * k + c / 128)))).1) % 2 ^ w) ∧
        (∀ co, sized false → 3 ≤ v.fmt → v.fmt ≤ 8 → v.scaleb ≠ 0 → fmtIsInt v.fmt = decide (fmt = 2) → ApartFrom v off so v.stripBytes →
          (f2.getLsbD 1 = true → v.cpt = true ∧ checkOperand s v.cptb (2 * v.cols) = .ok co ∧ ApartFrom v off co (2 * v.cols) ∧
            (co + 2 * v.cols ≤ so ∨ so + v.stripBytes ≤ co)) →
          let val := fun (r c : Nat) => accVal fmt (cellOf m ac r c)
          let order := if f2.getLsbD 1 then colOrder ((List.range v.cols).map (fun c => (List.range v.rows).map (fun r => val r c))) else List.range v.cols
          let byte := fun (r h : Nat) => quantByte v.fmt (((order.map (val r)).drop (128 * h)).take 128)
          ∃ t, exec (.tqnt ac pa f2) s = .next t ∧ drained t (f2.getLsbD 0) ∧
            (f2.getLsbD 1 = false → OutsideView s t v off so v.stripBytes) ∧
            (∀ r h, r < v.rows → h < k → readNat t.mem (vaultHome s.core.num (so + r * k + h)) 1 = byte r h) ∧
            (∀ r c, r < v.rows → c < v.cols → viewElem t v off r c =
              narrow v.fmt ((val r (order.getD c 0)).mulExact (.fin false 1 (127 - (byte r (c / 128) : Int)))).1 % 2 ^ w) ∧
            (f2.getLsbD 1 = true → ∀ c, c < v.cols → vElem t co 2 c = order.getD c 0))) ∧
      (f3.toNat / 2 = 3 → exec (.tred ac pa f3) s = .next (trapOf s 0x02 0 0)) ∧
      (∀ o, f3.toNat / 2 < 3 →
        let byCol := f3.getLsbD 0
        let n := if byCol then m.nc ac else m.nr ac
        let line := fun (i : Nat) => (List.range (if byCol then m.nr ac else m.nc ac)).map (fun j => if byCol then cellOf m ac j i else cellOf m ac i j)
        va.toNat % 4 = 0 → checkOperand s va (4 * n) = .ok o →
          ∃ t, exec (.tred ac pa f3) s = .next t ∧ TilesKept s t g ∧ OutsideVault s t o (4 * n) ∧
            ∀ i, i < n → vElem t o 4 i = (reduceLine fmt (f3.toNat / 2) (line i)).toNat))

/-- 16 R273: TCMPR compresses 2 of 4 along rows or columns: the stored codes of each line, its nibbles in the metadata, and every other byte as before; a
format that no tile operand may have raises OPERAND 0x21. The order of checks and the time of the writes are the model's (log entries 20, 21). -/
def Obligations.CompressionResults : Prop :=
  ∀ (s : State) (pa pb : BitVec 3) (fl : BitVec 1) (v w : View) (off wo co : Nat), EngineFree s →
    let rows := decide (fl = 0)
    let k := if rows then v.cols else v.rows
    let n := if rows then v.rows else v.cols
    let len := (n * (k / 4) + 1) / 2
    readView s (s.ptr pa).addr = .ok (s, v) → readView s (s.ptr pb).addr = .ok (s, w) →
    (8 < v.fmt → exec (.tcmpr pa pb fl) s = .next (trapOf s 0x02 (s.ptr pa).addr 0x21)) ∧
    (v.fmt ≤ 8 → v.cmp = false → w.cmp = true → w.fmt = v.fmt → k % 4 = 0 →
    (if rows then w.rows = n ∧ 2 * w.cols = k else w.cols = n ∧ 2 * w.rows = k) →
    viewPlace s v = .ok off → viewPlace s w = .ok wo → checkOperand s w.cptb len = .ok co → ApartFrom w wo co len →
    let line := fun (l : Nat) => (List.range k).map (fun i => if rows then viewElem s v off l i else viewElem s v off i l)
    let out := fun (l : Nat) => compressLine v.fmt (line l)
    (∀ j, j < v.runs → ApartFrom w wo (off + j * v.stride) v.runBytes ∧
      (co + len ≤ off + j * v.stride ∨ off + j * v.stride + v.runBytes ≤ co)) →
    ∃ t, exec (.tcmpr pa pb fl) s = .next t ∧ TilesKept s t [] ∧ OutsideView s t w wo co len ∧
      (∀ l i, l < n → i < k / 2 → (if rows then viewElem t w wo l i else viewElem t w wo i l) = (out l).1.getD i 0) ∧
      (∀ l g, l < n → g < k / 4 →
        readNat t.mem (vaultHome s.core.num (co + (l * (k / 4) + g) / 2)) 1 / 16 ^ ((l * (k / 4) + g) % 2) % 16 = (out l).2.getD g 0))

/-- 16 R271, R272, 15 R258-R262: MMA and MMAS add, chunk by chunk of 128 stored positions in ascending order, the chunk's groups of 16 products chained,
then its scales, into every element of the tile; SR draws by the element's number and advances DGCTR; OW starts from +0. A record that breaks 16 R267
raises OPERAND. The order of checks, the time of the reads and the absent element of a compressed pair are the model's readings (log entries 20, 21,
23). -/
def Obligations.MultiplyAccumulateResults : Prop :=
  ∀ (s : State) (ac : BitVec 2) (pa pb : BitVec 3) (fl : BitVec 6) (sparse : Bool), EngineFree s →
    let i : Instr := if sparse then .mmas ac pa pb fl else .mma ac pa pb fl
    let m := s.core.mx
    let fmt := (m.tile ac).fmt
    let nr := m.nr ac
    let nc := m.nc ac
    (∀ p : MmaPlan, mmaPlan sparse ac pa pb fl s = .ok (s, p) → s.out.alarm = false →
      let la := operandLines s p.a p.aOff p.aMet p.k true
      let lb := operandLines s p.b p.bOff p.bMet p.k p.bt
      let x := fun (r q : Nat) => fmtDecode p.a.fmt ((la.getD r []).getD q 0)
      let y := fun (c q : Nat) => fmtDecode p.b.fmt ((lb.getD c []).getD (p.cpt.getD q 0) 0)
      let group := fun (r c j : Nat) => (List.range 16).map (fun q => ((x r (16 * j + q)).mulExact (y c (16 * j + q))).1)
      let groups := fun (r c h : Nat) => (List.range (min 8 (p.k / 16 - 8 * h))).map (fun j => group r c (8 * h + j))
      let chunk := fun (r c h : Nat) =>
        if fmtIsInt p.a.fmt then ofInt false (groupSum 0 (groups r c h).flatten) 0
        else scaledChunk (mmaScales s p none) r h ((chunkChain none ((groups r c h).map groupValue)).getD (.fin false 0 0))
      let step := fun (r c : Nat) (w : W32) (h : Nat) =>
        step5 fmt (fl.getLsbD 0) (if fl.getLsbD 5 && h = 0 then .fin false 0 0 else accVal fmt w) (chunk r c h)
          (draw s.core.csr.dgkey s.core.csr.dgctr (h * nr * nc + r * nc + c))
      ∃ t, exec i s = .next t ∧ TileIssued s t (m.group ac) ∧ t.mem = s.mem ∧ AllLive t.core.mx ac true ∧ t.core.mx.narrow = false ∧
        t.core.csr.dgctr = s.core.csr.dgctr + (if fl.getLsbD 0 then BitVec.ofNat 64 ((p.k + 127) / 128 * nr * nc) else 0) ∧
        (∀ r c, r < nr → c < nc → cellOf t.core.mx ac r c = (List.range ((p.k + 127) / 128)).foldl (step r c) (cellOf m ac r c))) ∧
    (∀ a b : View, readView s (s.ptr pa).addr = .ok (s, a) → readView s (s.ptr pb).addr = .ok (s, b) →
      let bad := fun (addr : Word) (code : Word) => exec i s = .next (trapOf s 0x02 addr code)
      (a.fmt = 0 ∨ 8 < a.fmt → bad (s.ptr pa).addr 0x21) ∧
      (1 ≤ a.fmt → a.fmt ≤ 8 → a.cmp = false → fl.getLsbD 1 = false → b.fmt = 0 ∨ 8 < b.fmt → bad (s.ptr pb).addr 0x21) ∧
      (1 ≤ a.fmt → a.fmt ≤ 8 → 1 ≤ b.fmt → b.fmt ≤ 8 → sparse = false → a.cmp = false → b.cmp = false → fl.getLsbD 1 = false →
        fmtIsInt a.fmt ≠ fmtIsInt b.fmt → bad (s.ptr pa).addr 0x24))

/-- 16 R282, R283, R285: the element-wise instructions over VL elements: sources are read wholly before the destination is written, each element is
rounded once under FRM or wrapped, the flags of all are added, `bc` repeats the second source's first element, `adv` moves the pointers; every other
byte stays. VSCL, VEXP2 and VCVT too. -/
def Obligations.VectorResults : Prop :=
  ∀ (s : State) (ty pd pa pb : BitVec 3) (x : BitVec 2) (x8 : BitVec 8) (oa ob od : Nat), Quiet s → s.poison = [] → 1 ≤ s.core.regs.vl.toNat → ty.toNat ≤ 4 →
    let n := s.core.regs.vl.toNat
    let sz := tyBytes ty
    let bc := x.getLsbD 0
    let adv := x.getLsbD 1
    let rm := s.core.regs.frm
    let done := fun (i : Instr) (res : Nat → Nat × BitVec 5) (ps : List (BitVec 3 × Nat)) =>
      ∃ t, exec i s = .next t ∧ VectorFrame s t adv ps ∧ OutsideVault s t od (n * sz) ∧ (∀ k, k < n → vElem t od sz k = (res k).1) ∧
        t.core.regs.a = s.core.regs.a ∧ t.core.regs.fflags = (List.range n).foldl (fun f k => f ||| (res k).2) s.core.regs.fflags
    (ownRange s (s.ptr pa).addr (n * sz) sz = .ok oa → ownRange s (s.ptr pd).addr (n * sz) sz = .ok od →
      (ownRange s (s.ptr pb).addr ((if bc then 1 else n) * sz) sz = .ok ob →
        ∀ e, e ∈ [(Instr.vadd ty pd pa pb x, VOp.add), (.vsub ty pd pa pb x, .sub), (.vmul ty pd pa pb x, .mul), (.vfma ty pd pa pb x, .fma),
                  (.vmax ty pd pa pb x, .max), (.vmin ty pd pa pb x, .min)] →
          done e.1 (fun k => elemOp rm (vty ty) e.2 (if e.2 = .fma then vElem s od sz k else 0) (vElem s oa sz k) (vElem s ob sz (if bc then 0 else k)))
            [(pd, n * sz), (pa, n * sz), (pb, if bc then 0 else n * sz)]) ∧
      (ty.toNat ≤ 2 →
        let nb := if bc then 1 else (n + 127) / 128
        (ownRange s (s.ptr pb).addr nb 1 = .ok ob →
          done (.vscl ty pd pa pb x) (fun k => fltOp rm (vty ty) (fun v => v.mulExact (scaleNum (vElem s ob 1 (if bc then 0 else k / 128)))) (vElem s oa sz k))
            [(pd, n * sz), (pa, n * sz), (pb, if bc then 0 else nb)]) ∧
        done (.vexp2 ty pd pa x) (fun k => fltOp rm (vty ty) exp2Num (vElem s oa sz k)) [(pd, n * sz), (pa, n * sz)])) ∧
    (let code := x8.toNat / 16
     let w := fmtBits code
     let wa := if x8.getLsbD 3 then w else 32
     let wd := if x8.getLsbD 3 then 32 else w
     let run := fun (u : State) (off b k : Nat) => elemAt b (readNat u.mem (vaultHome s.core.num off) (runBytes b n)) k
     (vcvtPair ty code = false → exec (.vcvt ty pd pa x8) s = .next (trapOf s 0x02 0 0x21)) ∧
     (vcvtPair ty code = true → (code = 6 → n % 2 = 0) → (code = 8 → n % 4 = 0) →
       ownRange s (s.ptr pa).addr (runBytes wa n) (max 1 (wa / 8)) = .ok oa → ownRange s (s.ptr pd).addr (runBytes wd n) (max 1 (wd / 8)) = .ok od →
       ∃ t, exec (.vcvt ty pd pa x8) s = .next t ∧ VectorFrame s t (x8.getLsbD 1) [(pd, runBytes wd n), (pa, runBytes wa n)] ∧
         OutsideVault s t od (runBytes wd n) ∧ t.core.regs.a = s.core.regs.a ∧ t.core.regs.fflags = s.core.regs.fflags ∧
         ∀ k, k < n → run t od wd k = vcvtElem ty code (x8.getLsbD 3) (run s oa wa k) % 2 ^ wd))

/-- 16 R284: VSUM and VDOT leave the reduction in memory and in a; on integers it is the sum of the elements, or of their products, in wrapping
arithmetic; VSUM and VDOT of floats run in 64 lanes and a tree. 16 R286: VGATH reads and VSCAT writes the elements that signed 32-bit indices name; a
later VSCAT element to one place wins. -/
def Obligations.ReductionGatherScatter : Prop :=
  (∀ (s : State) (ty pd pa pb : BitVec 3) (x : BitVec 2) (oa ob od : Nat), Quiet s → s.poison = [] → 1 ≤ s.core.regs.vl.toNat → ty.toNat ≤ 4 →
      let n := s.core.regs.vl.toNat
      let sz := tyBytes ty
      let rz := sumBytes ty
      let bc := x.getLsbD 0
      let sum := fun (i : Instr) (dot : Bool) (y : Nat → Nat) (ps : List (BitVec 3 × Nat)) =>
        ∃ t v, exec i s = .next t ∧ VectorFrame s t (x.getLsbD 1) ([(pd, rz), (pa, n * sz)] ++ ps) ∧ OutsideVault s t od rz ∧ vElem t od rz 0 = v ∧
          t.core.regs.a = sumToA ty v ∧
          (v, t.core.regs.fflags) = (let r := vecReduce s.core.regs.frm (sumTy ty) dot ((List.range n).map (fun k => (sumElem ty (vElem s oa sz k), sumElem ty (y k))))
            (r.1, s.core.regs.fflags ||| r.2)) ∧
          (ty = 3 ∨ ty = 4 → v = (List.range n).foldl (fun acc k => acc + vElem s oa sz k * (if dot then y k else 1)) 0 % 2 ^ (8 * sz))
      ownRange s (s.ptr pa).addr (n * sz) sz = .ok oa → ownRange s (s.ptr pd).addr rz rz = .ok od →
        sum (.vsum ty pd pa x) false (fun _ => 0) [] ∧
        (ownRange s (s.ptr pb).addr ((if bc then 1 else n) * sz) sz = .ok ob →
          sum (.vdot ty pd pa pb x) true (fun k => vElem s ob sz (if bc then 0 else k)) [(pb, if bc then 0 else n * sz)])) ∧
  (∀ (s : State) (ty pd pa pb : BitVec 3) (x : BitVec 2) (oc ob : Nat) (offs : Nat → Nat), Quiet s → s.poison = [] → 1 ≤ s.core.regs.vl.toNat → ty.toNat ≤ 4 →
      let n := s.core.regs.vl.toNat
      let sz := tyBytes ty
      let bc := x.getLsbD 0
      let adv := x.getLsbD 1
      let index := fun (k : Nat) => (BitVec.ofNat 32 (vElem s ob 4 (if bc then 0 else k))).signExtend 64
      let named := fun (p : BitVec 3) => ∀ k, k < n → ownRange s ((s.ptr p).addr + index k * BitVec.ofNat 64 sz) sz sz = .ok (offs k)
      ownRange s (s.ptr pb).addr (4 * (if bc then 1 else n)) 4 = .ok ob →
      (named pa → ownRange s (s.ptr pd).addr (n * sz) sz = .ok oc →
        ∃ t, exec (.vgath ty pd pa pb x) s = .next t ∧ VectorFrame s t adv [(pd, n * sz), (pa, 0), (pb, if bc then 0 else 4 * n)] ∧
          OutsideVault s t oc (n * sz) ∧ t.core.regs.a = s.core.regs.a ∧ t.core.regs.fflags = s.core.regs.fflags ∧
          ∀ k, k < n → vElem t oc sz k = readNat s.mem (vaultHome s.core.num (offs k)) sz) ∧
      (named pd → ownRange s (s.ptr pa).addr (n * sz) sz = .ok oc → (∀ k, k < n → offs k + sz ≤ oc ∨ oc + n * sz ≤ offs k) →
        ∃ t, exec (.vscat ty pd pa pb x) s = .next t ∧ VectorFrame s t adv [(pd, 0), (pa, n * sz), (pb, if bc then 0 else 4 * n)] ∧
          t.core.regs.a = s.core.regs.a ∧ t.core.regs.fflags = s.core.regs.fflags ∧
          (∀ k, k < n → (∀ j, k < j → j < n → offs j ≠ offs k) → readNat t.mem (vaultHome s.core.num (offs k)) sz = vElem s oc sz k) ∧
          (∀ a, (∀ k, k < n → ¬ (vaultHome s.core.num (offs k) ≤ a ∧ a < vaultHome s.core.num (offs k) + sz)) → readByte t.mem a = readByte s.mem a)))

/-- 16 R287, R288, 07 R129-R131: VSAD adds an FP32 to each of VL stamped words, and AWUPD updates weights and their stamped moments, element by element; a
word that fails its check stops a VSAD there with its STAMP code, the words below it updated, and an AWUPD before anything is. VSAD goes by its
elements one after the other (log entry 24). -/
def Obligations.StampedVectorResults : Prop :=
  ∀ (s : State) (pd pa pb : BitVec 3) (x : BitVec 2) (adv : BitVec 1) (c : Ctx) (od ox om orec : Nat), Quiet s → s.poison = [] → 1 ≤ s.core.regs.vl.toNat →
    myCtx s = some c →
    let n := s.core.regs.vl.toNat
    let bc := x.getLsbD 0
    let now := nowOf c.held
    let base := baseOf c.held
    let tbl := c.decay.getD []
    let word := fun (u : State) (off : Nat) => homeWord u (vaultHome s.core.num off)
    let f32 := fun (u : State) (off k : Nat) => BitVec.ofNat 32 (vElem u off 4 k)
    let faded := fun (w : Word) => let l := logical tbl now base w; mul32 l.val (decayOf tbl l.cls l.age)
    let apart := fun (a la b lb : Nat) => a + la ≤ b ∨ b + lb ≤ a
    let failed := fun (va : Word) (off code : Nat) (chk : Nat → Option Nat) =>
      (regionClass c va.toNat (vaultHome s.core.num off) = none ∧ code = 1) ∨
      ∃ cls, regionClass c va.toNat (vaultHome s.core.num off) = some cls ∧ chk cls = some code
    (ownRange s (s.ptr pa).addr (4 * (if bc then 1 else n)) 4 = .ok ox → ownRange s (s.ptr pd).addr (8 * n) 8 = .ok od →
      apart od (8 * n) ox (4 * (if bc then 1 else n)) →
      ((∀ k, k < n → ∃ cls, regionClass c ((s.ptr pd).addr + BitVec.ofNat 64 (8 * k)).toNat (vaultHome s.core.num (od + 8 * k)) = some cls ∧
          stampCheck c.decay cls now 2 (word s (od + 8 * k)) ((f32 s ox (if bc then 0 else k)).zeroExtend 64) = none) →
        ∃ t, exec (.vsad pd pa x) s = .next t ∧ VectorFrame s t (x.getLsbD 1) [(pd, 8 * n), (pa, if bc then 0 else 4 * n)] ∧
          t.core.regs.a = s.core.regs.a ∧ t.core.regs.fflags = s.core.regs.fflags ∧ OutsideVault s t od (8 * n) ∧
          ∀ k, k < n → word t (od + 8 * k) = stampWord now (classOf (word s (od + 8 * k)))
            (add32 (faded (word s (od + 8 * k))) (f32 s ox (if bc then 0 else k)))) ∧
      (∀ j code, j < n → (∀ k, k < j → ∃ cls, regionClass c ((s.ptr pd).addr + BitVec.ofNat 64 (8 * k)).toNat (vaultHome s.core.num (od + 8 * k)) = some cls ∧
          stampCheck c.decay cls now 2 (word s (od + 8 * k)) ((f32 s ox (if bc then 0 else k)).zeroExtend 64) = none) →
        failed ((s.ptr pd).addr + BitVec.ofNat 64 (8 * j)) (od + 8 * j) code
          (fun cls => stampCheck c.decay cls now 2 (word s (od + 8 * j)) ((f32 s ox (if bc then 0 else j)).zeroExtend 64)) →
        ∃ u, exec (.vsad pd pa x) s =
            .next (takeTrap u false ⟨0x16, (s.ptr pd).addr + BitVec.ofNat 64 (8 * j), s.core.regs.pc, BitVec.ofNat 64 code⟩ s.core.regs.pc) ∧
          u.core.regs = s.core.regs ∧ OutsideVault s u od (8 * j) ∧
          ∀ k, k < j → word u (od + 8 * k) = stampWord now (classOf (word s (od + 8 * k)))
            (add32 (faded (word s (od + 8 * k))) (f32 s ox (if bc then 0 else k)))) ∧
      (regionClass c (s.ptr pd).addr.toNat (vaultHome s.core.num od) = none →
        exec (.vsad pd pa x) s = .next (takeTrap s false ⟨0x16, (s.ptr pd).addr, s.core.regs.pc, 1⟩ s.core.regs.pc))) ∧
    (ownRange s s.core.regs.a 16 16 = .ok orec → ownRange s (s.ptr pd).addr (4 * n) 4 = .ok od → ownRange s (s.ptr pa).addr (4 * n) 4 = .ok ox →
      ownRange s (s.ptr pb).addr (16 * n) 16 = .ok om →
      ∀ j code, j < 2 * n → (∀ k, k < j → ∃ cls, regionClass c ((s.ptr pb).addr + BitVec.ofNat 64 (8 * k)).toNat (vaultHome s.core.num (om + 8 * k)) = some cls ∧
        storedFault c.decay cls now (word s (om + 8 * k)) = none) →
      failed ((s.ptr pb).addr + BitVec.ofNat 64 (8 * j)) (om + 8 * j) code (fun cls => storedFault c.decay cls now (word s (om + 8 * j))) →
      exec (.awupd pd pa pb adv) s = .next (trapOf s 0x16 ((s.ptr pb).addr + BitVec.ofNat 64 (8 * j)) (BitVec.ofNat 64 code))) ∧
    (ownRange s s.core.regs.a 16 16 = .ok orec → ownRange s (s.ptr pd).addr (4 * n) 4 = .ok od → ownRange s (s.ptr pa).addr (4 * n) 4 = .ok ox →
      ownRange s (s.ptr pb).addr (16 * n) 16 = .ok om →
      apart od (4 * n) ox (4 * n) → apart od (4 * n) om (16 * n) → apart ox (4 * n) om (16 * n) →
      (∀ k, k < 2 * n → ∃ cls, regionClass c ((s.ptr pb).addr + BitVec.ofNat 64 (8 * k)).toNat (vaultHome s.core.num (om + 8 * k)) = some cls ∧
        storedFault c.decay cls now (word s (om + 8 * k)) = none) →
      let mom := fun (k : Nat) => add32 (faded (word s (om + 16 * k))) (mul32 (f32 s orec 0) (f32 s ox k))
      let sec := fun (k : Nat) => add32 (faded (word s (om + 16 * k + 8))) (mul32 (f32 s orec 1) (mul32 (f32 s ox k) (f32 s ox k)))
      ∃ t, exec (.awupd pd pa pb adv) s = .next t ∧ VectorFrame s t (decide (adv = 1)) [(pd, 4 * n), (pa, 4 * n), (pb, 16 * n)] ∧
        t.core.regs.a = s.core.regs.a ∧ t.core.regs.fflags = s.core.regs.fflags ∧
        (∀ k, k < n → word t (om + 16 * k) = stampWord now (classOf (word s (om + 16 * k))) (mom k) ∧
          word t (om + 16 * k + 8) = stampWord now (classOf (word s (om + 16 * k + 8))) (sec k) ∧
          f32 t od k = sub32 (f32 s od k) (mul32 (f32 s orec 2) (div32 (mom k) (add32 (sqrt32 (sec k)) (f32 s orec 3))))) ∧
        ∀ a, ¬ (vaultHome s.core.num od ≤ a ∧ a < vaultHome s.core.num od + 4 * n) → ¬ (vaultHome s.core.num om ≤ a ∧ a < vaultHome s.core.num om + 16 * n) →
          readByte t.mem a = readByte s.mem a)

/-- 17 R301-R306: OSORT, OTOPK, OMERGE and OBKT: the entries stored are the keys with their indices in key order, ties by index; a hand holds the first K
of them, the sums of those it holds and of the rest; a merge takes both hands' entries; a bucket is the number of boundaries at or below the query.
Operands out of range raise OPERAND 0x37. An index is a 32-bit word that may wrap, and ties compare it so (log entry 25). -/
def Obligations.SortResults : Prop :=
  ∀ (s : State) (ty pd pa pb : BitVec 3) (x : BitVec 2) (oa ob od : Nat), Quiet s → s.poison = [] → 1 ≤ s.core.regs.vl.toNat →
    let n := s.core.regs.vl.toNat
    let a := s.core.regs.a.toNat
    let k := a % 2 ^ 9
    let key := fun (off i : Nat) => vElem s off 4 i
    let ins := (List.range n).map (fun i => (⟨key oa i, (a / 2 ^ 32 + i) % 2 ^ 32⟩ : Entry))
    let ordered := fun (desc abs : Bool) (es : List Entry) => es.Pairwise (fun e f => entryBefore ty desc abs f e = false)
    let stored := fun (t : State) (len : Nat) (ws : List Nat) =>
      VectorFrame s t false [] ∧ OutsideVault s t od len ∧ t.core.regs.a = s.core.regs.a ∧ t.core.regs.fflags = s.core.regs.fflags ∧
        ∀ i, i < len / 8 → vElem t od 8 i = ws.getD i 0
    let hand := fun (int abs low : Bool) (cap : Nat) (es : List Entry) (sel rest : W32) =>
      [cap + es.length * 2 ^ 16 + (if low then 2 ^ 32 else 0) + (if abs then 2 ^ 33 else 0) + (if int then 2 ^ 34 else 0), sel.toNat + rest.toNat * 2 ^ 32] ++
        es.map (fun e => e.key + e.idx * 2 ^ 32)
    (a % 2 ^ 32 ≠ 0 → exec (.osort ty pd pa x) s = .next (trapOf s 0x02 0 0x37)) ∧
    (k = 0 ∨ 256 < k ∨ a % 2 ^ 32 / 2 ^ 9 ≠ 0 → exec (.otopk ty pd pa x) s = .next (trapOf s 0x02 0 0x37)) ∧
    (a = 0 ∨ 4096 < a → exec (.obkt ty pd pa pb x) s = .next (trapOf s 0x02 0 0x37)) ∧
    (a % 2 ^ 32 = 0 → ownRange s (s.ptr pa).addr (n * 4) 4 = .ok oa → ownRange s (s.ptr pd).addr (8 * n) 4 = .ok od →
      ∃ t es, exec (.osort ty pd pa x) s = .next t ∧ es.Perm ins ∧ ordered (x.getLsbD 0) (x.getLsbD 1) es ∧
        stored t (8 * n) (es.map (fun e => e.key + e.idx * 2 ^ 32))) ∧
    (1 ≤ k → k ≤ 256 → a % 2 ^ 32 / 2 ^ 9 = 0 → ownRange s (s.ptr pa).addr (n * 4) 4 = .ok oa → ownRange s (s.ptr pd).addr (16 + 8 * k) 8 = .ok od →
      let int := decide (ty = 3)
      let abs := x.getLsbD 1
      ∃ t es, exec (.otopk ty pd pa x) s = .next t ∧ es.Perm ins ∧ ordered (!x.getLsbD 0) abs es ∧
        stored t (16 + 8 * k) (hand int abs (x.getLsbD 0) k (es.take k) (handSum int abs (es.take k))
          (handSum int abs (ins.filter (fun e => !(es.take k).contains e))))) ∧
    (∀ h g : Hand, readHand ty s (s.ptr pa).addr = .ok (s, h) → readHand ty s (s.ptr pb).addr = .ok (s, g) →
      (h.cap = g.cap ∧ h.int = g.int ∧ h.abs = g.abs ∧ h.low = g.low → ownRange s (s.ptr pd).addr (16 + 8 * h.cap) 8 = .ok od →
        ∃ t es, exec (.omerge ty pd pa pb) s = .next t ∧ es.Perm (h.ents ++ g.ents) ∧ ordered (!h.low) h.abs es ∧
          stored t (16 + 8 * h.cap) (hand h.int h.abs h.low h.cap (es.take h.cap) (handSum h.int h.abs (es.take h.cap))
            (handAdd h.int (handAdd h.int h.srest g.srest) (handSum h.int h.abs (es.drop h.cap))))) ∧
      (h.cap ≠ g.cap ∨ h.int ≠ g.int ∨ h.abs ≠ g.abs ∨ h.low ≠ g.low → exec (.omerge ty pd pa pb) s = .next (trapOf s 0x02 (s.ptr pb).addr 0x37))) ∧
    (1 ≤ a → a ≤ 4096 → ownRange s (s.ptr pa).addr (4 * a) 4 = .ok oa → ownRange s (s.ptr pb).addr (n * 4) 4 = .ok ob → ownRange s (s.ptr pd).addr (n * 4) 4 = .ok od →
      let b := fun (i : Nat) => keyNum ty (x.getLsbD 1) (key oa i)
      (∀ i, i + 1 < a → numBelow (b (i + 1)) (b i) = false) →
      ∃ t, exec (.obkt ty pd pa pb x) s = .next t ∧ VectorFrame s t false [] ∧ OutsideVault s t od (4 * n) ∧
        t.core.regs.a = s.core.regs.a ∧ t.core.regs.fflags = s.core.regs.fflags ∧
        ∀ j, j < n → let q := keyNum ty (x.getLsbD 1) (key ob j)
          vElem t od 4 j = (List.range a).countP (fun i => if x.getLsbD 0 then numBelow (b i) q else !numBelow q (b i)))

/-- 17 R291-R298, 09 R147, R153: RKCFG, RKLDG, RKEMIT, RKRECV, RKRES, RKSTOP, RKRD and RKBWD: what each does to the unit and to the own vault, and what it
raises or waits for. RKRECV zeroes RACC[0..J-1], and a STOP of an earlier stream goes (log entry 26). 09 R157, 17 R298: RKBWD over a log of cnt
arrivals in distinct channels: GX of each arrival is H's entry times the row's product with dy, 0 elsewhere; DW's row gains G's entry times dy; every
producer's vault gets its range of GX. The pass takes turns, after each of which a halt may find its place (17 R299, log entry 26); PC moves with the
last. The stores of the scatter count in CNTS, and find room there (03 R53). -/
def Obligations.RankInstructionResults : Prop :=
  (∀ (s : State) (p : BitVec 3) (idx : BitVec 4) (c : RkCfg) (off : Nat), Quiet s → s.poison = [] →
      let k := s.core.rank
      let va := (s.ptr p).addr
      let word := fun (o i : Nat) => BitVec.ofNat 32 (vElem s o 4 i)
      (readRkCfg s va = .ok (s, c) →
        (k.emitting = false → exec (.rkcfg p 1) s = .next (s.setRank (fun u => { u with emit := some c, nan := false, sat := false, stray := false })).advance) ∧
        (k.state = .idle → exec (.rkcfg p 0) s = .next (s.setRank (fun u => { u with recv := some c, nan := false, sat := false, stray := false })).advance) ∧
        1 ≤ c.p ∧ c.p ≤ 16 ∧ 1 ≤ c.j ∧ c.j ≤ 64 ∧ c.prods.length = c.p ∧ c.goff % 4 = 0) ∧
      (k.emitting = true → exec (.rkcfg p 1) s = .next s.markStalled ∧ exec (.rkemit p idx) s = .next s.markStalled) ∧
      (k.state = .paused → exec (.rkcfg p 0) s = .next (trapOf s 0x02 va 0x32) ∧ exec .rkrecv s = .next (trapOf s 0x02 0 0x32)) ∧
      (k.state = .recv ∨ k.state = .paused → exec (.rkldg p) s = .next (trapOf s 0x02 0 0x32)) ∧
      (k.state ≠ .recv → k.state ≠ .paused → ownRange s va 2048 64 = .ok off →
        (∀ i, i < 512 → (word off i).toNat < 0x7F800000 ∧ (i % 256 ≠ 0 → (word off i).toNat ≤ (word off (i - 1)).toNat)) →
        exec (.rkldg p) s = .next (s.setRank (fun u =>
          { u with loaded := true, g := (List.range 256).map (word off), h := (List.range 256).map (fun i => word off (256 + i)) })).advance) ∧
      (∀ pr, k.emitting = false → k.emit = some c → c.prods[idx.toNat]? = some pr → pr.1 = s.core.num → ownRange s va (4 * pr.2.2) 4 = .ok off →
        ∃ evs, exec (.rkemit p idx) s = .next ({ s.setRank (fun u =>
            { u with emitting := true, emitP := idx.toNat, unsent := rkEntries evs,
                     nan := u.nan || (List.range pr.2.2).any (fun i => (num32 (word off i)).isNan),
                     sat := u.sat || (List.range pr.2.2).any (fun i => (slotOf c.eref c.pol (word off i)).any (· < 0)) }) with
            pending := s.pending ++ [(s.core.num, Instr.rankPacketSend)] }).advance ∧
          evs.Perm (rkEvents c pr.2.1 ((List.range pr.2.2).map (word off))) ∧ evs.Pairwise (fun e f => eventBefore f e = false)) ∧
      (k.state = .idle → k.recv = some c → c.rcore = s.core.num → k.loaded = true → ownRange s c.wbase (c.n * c.j * 4) 4 = .ok off →
        (∃ o, ownRange s c.logb (4 * c.n) 4 = .ok o) →
        ∃ ts, exec .rkrecv s = .next (State.setRank { s with rankNet := s.rankNet.filter (fun e => !(e.src == s.core.num && e.ctx == s.core.ctx && e.entries == [0xC0000000])) } (fun u =>
            { u with racc := List.replicate c.j 0 ++ k.racc.drop c.j, cnt := 0, state := .recv, wmaxL := k.wmax, endc := 0, stream := c.stream, prod := 0, slot := 0,
                     marg := if c.mstop && 2 ≤ c.j then k.marg else 0, tails := ts, queues := List.replicate c.p [], endSeen := List.replicate c.p false })).advance ∧
          ∀ i, ts.getD i 0 = if i + 1 < c.n then add32 (ts.getD (i + 1) 0) (k.g.getD (min (i + 1) 255) 0) else 0) ∧
      (k.state = .paused → exec .rkres s = .next ({ s.setRank (fun u => { u with state := .recv }) with pending := s.pending ++ [(s.core.num, Instr.rankArrival)] }).advance) ∧
      (k.state ≠ .paused → exec .rkres s = .next (trapOf s 0x02 0 0x33)) ∧
      (k.recv = none → exec (.rkrd p) s = .next (trapOf s 0x02 0 0x33) ∧ (k.state = .idle → exec .rkrecv s = .next (trapOf s 0x02 0 0x33))) ∧
      (k.state = .idle → k.bwd = none → k.loaded = true → k.endc = 0 → exec (.rkbwd p) s = .next (trapOf s 0x02 0 0x33)) ∧
      (k.state ≠ .recv → k.state ≠ .paused → exec .rkstop s = .next s.advance) ∧
      (k.state = .recv ∨ k.state = .paused → k.recv = some c →
        ∃ t, exec .rkstop s = .next t ∧ t.core.regs.pc = s.core.regs.pc + 4 ∧ t.core.rank.endc = 3 ∧
          (t.core.rank.state = .idle ∨ t.core.rank.state = .drain) ∧ OutsideVault s t 0x2400 4096 ∧
          (atLevel s.core.sched.queue 1 < 32 → s.core.sched.ring = [] → MemKept s t)) ∧
      (k.recv = some c → ownRange s va (4 * c.j) 4 = .ok off → 1 ≤ c.j →
        ∃ t, exec (.rkrd p) s = .next t ∧ OutsideVault s t off (4 * c.j) ∧ (∀ i, i < c.j → vElem t off 4 i = (k.racc.getD i 0).toNat) ∧
          t.core.regs = { s.core.regs with a := BitVec.ofNat 64 k.cnt, pc := s.core.regs.pc + 4 })) ∧
  (∀ (s : State) (p : BitVec 3) (c : RkCfg) (ow od ol og oy : Nat), Quiet s → s.poison = [] → isOrdered s = false →
      let k := s.core.rank
      let j := c.j
      let cnt := k.cnt
      let f32 := fun (u : State) (o i : Nat) => BitVec.ofNat 32 (vElem u o 4 i)
      let entry := fun (i : Nat) => vElem s ol 4 i
      let ch := fun (i : Nat) => entry i % 2 ^ 16
      let apart := fun (a la b lb : Nat) => a + la ≤ b ∨ b + lb ≤ a
      k.state = .idle → k.bwd = none → k.loaded = true → k.endc ≠ 0 → k.recv = some c → storesOut s + (c.prods.map (·.2.2)).foldl (· + ·) 0 ≤ 255 → 1 ≤ cnt → cnt ≤ c.n → 1 ≤ j →
      ownRange s c.wbase (c.n * j * 4) 4 = .ok ow → ownRange s c.dwb (c.n * j * 4) 4 = .ok od → ownRange s c.logb (4 * c.n) 4 = .ok ol →
      ownRange s c.gxb (4 * c.n) 4 = .ok og → ownRange s (s.ptr p).addr (4 * j) 4 = .ok oy →
      apart ow (c.n * j * 4) od (c.n * j * 4) → apart ow (c.n * j * 4) og (4 * c.n) → apart od (c.n * j * 4) og (4 * c.n) →
      (∀ i, i < cnt → entry i / 2 ^ 16 % 2 ^ 12 = 0 ∧ ch i < c.n ∧ ∃ e, c.prods[entry i / 2 ^ 28]? = some e ∧ e.2.1 ≤ ch i ∧ ch i < e.2.1 + e.2.2) →
      (∀ i l, i < cnt → l < cnt → ch i = ch l → i = l) →
      (∀ e ∈ c.prods, e.1 < 1024 ∧ e.1 ≠ s.core.num ∧ granted s s.core.ctx e.1 = true ∧ e.2.1 + e.2.2 ≤ c.n ∧ c.goff % 4 = 0 ∧ 1 ≤ e.2.2 ∧ c.goff + 4 * e.2.2 ≤ 0x200000) →
      (c.prods.map (·.1)).Nodup →
      let dot := fun (row : Nat) => (List.range j).foldl (fun acc i => add32 acc (mul32 (f32 s ow (j * row + i)) (f32 s oy i))) 0
      (∃ u, exec (.rkbwd p) s = .next u ∧ u.core.sched.stalled = s.core.sched.stalled) ∧
      ∃ n t, turnsOf (.rkbwd p) n s = some t ∧ 1 ≤ n ∧
        (∀ m u, 1 ≤ m → m < n → turnsOf (.rkbwd p) m s = some u → u.core.regs = s.core.regs ∧ u.core.rank.state = .bwd) ∧
        t.core.regs = s.advance.core.regs ∧ t.core.rank = k ∧
        (∀ i, i < cnt → f32 t og (ch i) = mul32 (k.h.getD (min i 255) 0) (dot (ch i)) ∧
          ∀ l, l < j → f32 t od (j * ch i + l) = add32 (f32 s od (j * ch i + l)) (mul32 (k.g.getD (min i 255) 0) (f32 s oy l))) ∧
        (∀ r, r < c.n → (∀ i, i < cnt → ch i ≠ r) → f32 t og r = 0 ∧ ∀ l, l < j → f32 t od (j * r + l) = f32 s od (j * r + l)) ∧
        (∀ e ∈ c.prods, ∀ i, i < e.2.2 → readNat t.mem (vaultHome e.1 (c.goff + 4 * i)) 4 = vElem t og 4 (e.2.1 + i)))

/-- 09 R149-R154: the rank network: a packet leaves against a credit; it queues at its producer's place, or is stray; an arrival adds its row times G's
entry to RACC, counts, and is logged; a STOP makes a producer send END while its receiver still waits for that, and is discarded else (22 R363, log
entry 26). -/
def Obligations.RankTrafficResults : Prop :=
  ∀ (s : State) (c : RkCfg) (g stream : Nat), Quiet s →
    let u := s.unit
    let k := (coreOf s u).rank
    (k.emit = some c → k.emitting = true → ctxRuns s u = true → k.unsent ≠ [] →
      (hasCredit s u c k.emitP = true →
        ∃ t es, exec .rankPacketSend s = .next t ∧ es ≠ [] ∧ es.length ≤ 32 ∧ es ++ (coreOf t u).rank.unsent = k.unsent ∧
          (coreOf t u).rank.emitting = decide ((coreOf t u).rank.unsent ≠ []) ∧
          t.rankNet = s.rankNet ++ [{ ctx := (coreOf s u).ctx, src := u, dst := c.rcore, stream := c.stream, p := k.emitP, entries := es }] ∧
          (c.rcore, Instr.rankPacketArrival) ∈ t.pending) ∧
      (hasCredit s u c k.emitP = false → exec .rankPacketSend s = .next { s with pending := s.pending ++ [(u, .rankPacketSend)] })) ∧
    (∀ pk rest, s.rankNet = pk :: rest → pk.entries ≠ [entryStop] → pk.dst = u → (coreOf s u).ctx = pk.ctx →
      ∃ t, exec .rankPacketArrival s = .next t ∧ t.rankNet = rest ∧ (u, Instr.rankArrival) ∈ t.pending ∧
        (k.recv = none → (coreOf t u).rank = { k with stray := true }) ∧
        (∀ q pr, k.recv = some c → k.state = .recv → k.stream = pk.stream → c.prods[pk.p]? = some pr → pr.1 = pk.src → k.queues[pk.p]? = some q →
          (coreOf t u).rank.queues[pk.p]? = some (q ++ [pk.entries]))) ∧
    (∀ pk, s.rankNet.find? (fun e => e.src == u && e.dst == g && e.stream == stream && e.entries == [0xC0000000]) = some pk →
      (coreOf s g).rank.emit = some c → (coreOf s g).rank.emitting = true → c.stream = stream → c.rcore = u → (coreOf s g).rank.emitP = pk.p →
      endOwed { s with rankNet := s.rankNet.erase pk } u g pk = true →
      ∃ t, exec (.stopPacketArrival g stream) s = .next t ∧ (coreOf t g).rank = { (coreOf s g).rank with unsent := [0x80000000] } ∧ t.rankNet = s.rankNet.erase pk) ∧
    (∀ pk, s.rankNet.find? (fun e => e.src == u && e.dst == g && e.stream == stream && e.entries == [0xC0000000]) = some pk →
      (coreOf s g).rank.emitting = false ∨ (coreOf s g).rank.emit = none ∨ (coreOf s g).rank.emitP ≠ pk.p ∨ endOwed { s with rankNet := s.rankNet.erase pk } u g pk = false →
      exec (.stopPacketArrival g stream) s = .next { s with rankNet := s.rankNet.erase pk }) ∧
    (∀ e es r q, k.state = .recv → ctxRuns s u = true → k.recv = some c → c.mstop = false → k.slot ≤ c.slim → k.queues[k.prod]? = some ((e :: es) :: q) →
      e.toNat / 2 ^ 30 = 0 → e.toNat / 2 ^ 16 % 64 = k.slot → r = e.toNat % 2 ^ 16 → k.watch.toNat ≠ k.cnt + 1 →
      ownOffset c.wbase + 4 * c.j * (r + 1) ≤ vaultSize u → poisonIn s.poison (vaultHome u (ownOffset c.wbase + 4 * c.j * r)) (4 * c.j) = none →
      ∃ t, exec .rankArrival s = .next t ∧ (coreOf t u).rank.cnt = k.cnt + 1 ∧ (u, Instr.rankArrival) ∈ t.pending ∧
        (coreOf t u).rank.queues[k.prod]? = some (if es.isEmpty then q else es :: q) ∧
        (∀ i, i < c.j → (coreOf t u).rank.racc.getD i 0 = add32 (k.racc.getD i 0) (mul32 (k.g.getD (min k.cnt 255) 0)
          (BitVec.ofNat 32 (readNat s.mem (vaultHome u (ownOffset c.wbase + 4 * c.j * r + 4 * i)) 4)))) ∧
        (k.cnt < c.n → ownOffset c.logb + 4 * k.cnt + 4 ≤ vaultSize u →
          readNat t.mem (vaultHome u (ownOffset c.logb + 4 * k.cnt)) 4 = (k.prod * 2 ^ 28 + r) % 2 ^ 32))

/-- 10 R163-R169, R178, 14 R232-R236: SPAWN, SEND and LAUNCH on operands that pass their checks: the record or message goes on its way to its target, a
launch is live with its number in a, and PC moves; a sender without a credit of the device-memory queue, what is on its way counted, stalls and keeps
what it has loaded (03 R53). What counts against the queue and the target of SELF are the model's choices (log entries 8, 18). A message for the host
is written into the next entry of the function's message queue in host memory, and the queue's head moves on (21 R353). 10 R171-R174, R178, R181,
R165, R168: what arrives: records join their core's queue or their cluster's, messages land in a frame, a hop is written into the landing frame of
1,024 bytes at 0x2000, whose contents are free values (01 R22, R181; log entries 3, 44), an entry of the overflow ring, whose record is what the
ring's bytes hold (01 R22), refills the queue; a launch makes its next task and completes. -/
def Obligations.SendAndArrivalResults : Prop :=
  (∀ (s t : State) (p : BitVec 3) (self : BitVec 1) (len : BitVec 6) (ws : List Word) (x : Ctx), myCtx s = some x → t.ctxs = s.ctxs → t.core.ctx = s.core.ctx →
      let va := (s.ptr p).addr
      let g := s.core.num
      let taken := x.queue.length + (t.net.filter (fun f => f.ctx == x.num)).length
      let target := if self = 1 then some g else if s.core.regs.a.toNat < 1024 && inPart x s.core.regs.a.toNat then some s.core.regs.a.toNat else none
      (va.toNat % 32 ≠ 0 → exec (.spawn p self) s = .next (trapOf s 0x03 va 0)) ∧
      (va.toNat % 32 = 0 → self = 0 → 1024 ≤ s.core.regs.a.toNat → exec (.spawn p self) s = .next (trapOf s 0x02 0 0x10)) ∧
      (∀ d, va.toNat % 32 = 0 → target = some d → loadWords s va 4 = .ok (t, ws) →
        let w3 := if self = 1 then ws.getD 3 0 &&& ~~~4 else ws.getD 3 0
        let r : Rec := { code := ws.getD 0 0, arg := ws.getD 1 0, entp := ws.getD 2 0, word3 := w3, src := va, tid := 0xFFFFFFFF, seq := 0, msg := none }
        let lv := if w3.toNat % 4 = 0 then 1 else w3.toNat % 4
        (∀ l, launchOf t s.core.ctx (w3.toNat / 2 ^ 6 % 64) = some l → l.ordered = false) →
        (taken < x.queueCap → exec (.spawn p self) s = .next (({ t with
            net := t.net ++ [{ dst := d, ctx := s.core.ctx, ent := { level := lv, work := .start r, entered := 0, aged := false } }],
            pending := t.pending ++ [(d, Instr.recordArrival)] } : State).advance)) ∧
        (x.queueCap ≤ taken → ∃ as, exec (.spawn p self) s = .next (t.keepIssued (ws.map (·.toNat)) as).markStalled)) ∧
      (48 < len.toNat → exec (.send p len self) s = .next (trapOf s 0x02 0 0x15)) ∧
      (len.toNat ≤ 48 → va.toNat % 8 = 0 → loadWords s va (1 + (len.toNat + 7) / 8) = .ok (t, ws) →
        let payload := ((ws.drop 1).flatMap (fun w => (List.range 8).map (fun i => w.extractLsb' (8 * i) 8))).take len.toNat
        (self = 0 → s.core.regs.a.toNat < 1024 → inPart x s.core.regs.a.toNat = true → (ws.getD 0 0).toNat % 4 = 0 → taken < x.queueCap →
          exec (.send p len self) s = .next (({ t with
            net := t.net ++ [{ dst := s.core.regs.a.toNat, ctx := t.core.ctx, ent := { level := 1, work := .message (ws.getD 0 0) g payload, entered := 0, aged := false } }],
            pending := t.pending ++ [(s.core.regs.a.toNat, Instr.messageArrival)] } : State).advance)) ∧
        (∀ f h, self = 1 → t.out.fns = [f] → f.ctx = t.core.ctx → f.mqFull = false → f.mqWaits = [] → t.core.sched.wrote = 0 →
          h = hostRingHome t f.link f.mqBase f.mqHead → isHost h = true → farFault t h = none →
          ∃ u, exec (.send p len self) s = .next u ∧ u.core.regs = t.advance.core.regs ∧ u.out.fns = [{ f with mqHead := (f.mqHead + 1) % f.mqSize }] ∧
            homeWord u h = ws.getD 0 0 ∧ readNat u.mem (h + 8) 8 = (g * 2 ^ 32 + len.toNat) % 2 ^ 64 ∧
            (∀ i, i < len.toNat → readByte u.mem (h + 16 + i) = payload.getD i 0) ∧ OutsideKept t u h 64) ∧
        (∀ f, self = 1 → t.out.fns = [f] → f.ctx = t.core.ctx → f.mqFull = true → ∃ as, exec (.send p len self) s = .next (t.keepIssued (ws.map (·.toNat)) as).markStalled)) ∧
      (∀ slot, va.toNat % 64 = 0 → loadWords s va 8 = .ok (t, ws) →
        let r := lrecOf ws
        lrecReason t x ws r [] = none → r.place ≠ 1 → r.ord = false → r.join = 0 → r.total ≠ 0 → freeSlot x = some slot → x.num = s.core.ctx →
        ∃ u y l, exec (.launch p) s = .next u ∧ u.core.regs = { t.core.regs with a := launchId x.launchSeq slot, pc := t.core.regs.pc + 4 } ∧
          ctxOf u x.num = some y ∧ y.launchSeq = x.launchSeq + 1 ∧ y.launches = x.launches ++ [l] ∧ l.slot = slot ∧ l.seq = x.launchSeq ∧
          l.entry = ws.getD 0 0 ∧ l.arg = ws.getD 1 0 ∧ l.total = r.total ∧ l.made = [] ∧ l.ended = 0 ∧ (x.num, Instr.launchTaskGenerate x.num slot) ∈ u.pending)) ∧
  (∀ (s : State) (f : Flight) (rest : List Flight) (x : Ctx), s.net = f :: rest → f.dst = s.unit → ctxOf s f.ctx = some x → x.num = f.ctx → x.running = true → x.queue = [] →
      let g := s.unit
      let c := coreOf s g
      let s1 := { s with net := rest }
      (∀ k, f.ent.work = .start k → k.word3.getLsbD 2 = false → exec .recordArrival s = .next (enqueue s1 f.ctx g f.ent)) ∧
      (∀ k, f.ent.work = .start k → k.word3.getLsbD 2 = true → (s.clusterQ.filter (fun q => q.1 == clusterOf g)).length < 64 →
        exec .recordArrival s = .next { s1 with clusterQ := s.clusterQ ++ [(clusterOf g, { f.ent with entered := s.clock })] }) ∧
      (∀ h src pl n, f.ent.work = .message h src pl → src < 2 ^ 32 → pl.length ≤ 48 → freeMsgFrame c = some n → c.sched.ring = [] → atLevel c.sched.queue f.ent.level < 32 →
        ∃ t r, exec .messageArrival s = .next t ∧ t.net = rest ∧ (coreOf t g).sched.queue = c.sched.queue ++ [{ f.ent with work := .start r, entered := s.clock }] ∧
          r.code = h ∧ r.entp = BitVec.ofNat 64 (0x1000 + 64 * n) ∧ r.msg = some n ∧ (coreOf t g).sched.msgHeld.getLsbD n = true ∧
          homeWord t (vaultHome g (0x1000 + 64 * n)) = h ∧
          (∀ i, i < pl.length → readByte t.mem (vaultHome g (0x1000 + 64 * n) + 16 + i) = pl.getD i 0) ∧
          OutsideKept s t (vaultHome g (0x1000 + 64 * n)) 64) ∧
      (∀ ts off data l, f.ent.work = .hop ts off data l → c.sched.landing = false →
        ∃ t, exec .hopArrival s = .next t ∧ (coreOf t g).sched.landing = true ∧ t = enqueue (landHop s1 g) f.ctx g { f.ent with work := .hop ts off data true } ∧
          OutsideKept s1 (landHop s1 g) (vaultHome g 0x2000) 1024) ∧
      (∀ e, c.ctx = f.ctx → inPart x g = true → c.sched.ring = [e] → atLevel c.sched.queue e.level < 32 →
        ∃ t q, exec .queueRefill s = .next t ∧ (coreOf t g).sched.queue = c.sched.queue ++ [q] ∧ (coreOf t g).sched.ring = [] ∧
          q.level = e.level ∧ q.entered = e.entered ∧
          (∀ k n, e.work = .start k → e.slot = some n →
            let h := vaultHome g (0x2400 + 32 * n)
            q.work = .start { k with code := homeWord s h, arg := homeWord s (h + 8), entp := homeWord s (h + 16), word3 := homeWord s (h + 24) }) ∧
          ((∀ k, e.work ≠ .start k) → q.work = e.work)) ∧
      (∀ slot l d k, launchOf s f.ctx slot = some l → nextTask s x l = some (d, k) → d < 1024 →
        ∃ t m, exec (.launchTaskGenerate f.ctx slot) s = .next t ∧ launchOf t f.ctx slot = some m ∧ madeFor m d = madeFor l d + 1 ∧
          (atLevel (coreOf s d).sched.queue l.level < 32 → (coreOf s d).sched.ring = [] →
            (coreOf t d).sched.queue = (coreOf s d).sched.queue ++ [{ level := l.level, work := .start (taskRecord l k), entered := s.clock, aged := false }])) ∧
      (∀ slot l, launchOf s f.ctx slot = some l → l.ended = l.total → l.ordered = false → l.join = 0 →
        ∃ t, exec (.launchCompletion f.ctx slot) s = .next t ∧ ctxOf t f.ctx = some { x with launches := x.launches.filter (fun k => k.slot != l.slot) } ∧ t.mem = s.mem))

/-- 10 R177, R180, R182, 14 R237-R239: YIELD keeps the task in a frame of level 3, END ends it, HOP sends it with its frame; LQPUT and LQGET move a word
along a flume of 16 entries, which its transfer and slot return carry on; LQTST asks. The order of checks, and what counts against a queue, are the
model's readings (log entries 8, 18). -/
def Obligations.LeaveAndFlumeResults : Prop :=
  ∀ (s : State) (p : BitVec 3) (size : BitVec 5) (n : BitVec 2) (x : Ctx), myCtx s = some x → x.num = s.core.ctx → x.running = true → awayHas x s.core.num 3 = false → s.core.sched.ring = [] →
    let g := s.core.num
    let a := s.core.regs.a
    let prev := flumePrev g n.toNat
    let out := flumeOf s g n.toNat
    (∀ m, freeFrameOf s g = some m → atLevel s.core.sched.queue 3 < 32 →
      ∃ t, exec .yield s = .next t ∧ (readFrame t g m).regs = s.advance.core.regs ∧ frameKind t g m = 3 ∧ t.core.sched.running = false ∧
        t.core.sched.queue = s.core.sched.queue ++ [{ level := 3, work := .resume m, entered := s.clock, aged := false }] ∧ OutsideKept s t (frameHome g m) 128) ∧
    (∀ l, launchOf s s.core.ctx s.core.id.slot.toNat = some l → l.slot = s.core.id.slot.toNat → l.seq = s.core.id.seq → s.core.id.tid ≠ 0xFFFFFFFF →
      ∃ t, exec .endTask s = .next t ∧ t.core.sched.running = false ∧ t.core.sched.msg = none ∧ t.mem = s.mem ∧
        launchOf t s.core.ctx s.core.id.slot.toNat = some { l with ended := l.ended + 1, wrote := l.wrote ||| s.core.sched.wrote } ∧
        (l.ordered = false → l.ended + 1 = l.total → (s.core.ctx, Instr.launchCompletion s.core.ctx l.slot) ∈ t.pending)) ∧
    (isOrdered s = true → exec (.hop p size) s = .next (trapOf s 0x02 0 2)) ∧
    (isOrdered s = false → Quiet s → s.poison = [] → a.toNat < 1024 → inPart x a.toNat = true → size.toNat ≤ 16 → x.queue.length + (s.net.filter (fun f => f.ctx == x.num)).length < x.queueCap →
      0x4000 ≤ (s.ptr p).addr.toNat → (s.ptr p).addr.toNat % 64 = 0 → (s.ptr p).addr.toNat + 64 * size.toNat ≤ 0x200000 → 1 ≤ size.toNat →
      ∃ t ts data, exec (.hop p size) s = .next t ∧ t.core.sched.running = false ∧ t.core.watch = none ∧
        t.net = s.net ++ [{ dst := a.toNat, ctx := s.core.ctx, ent := { level := 2, work := .hop ts (s.ptr p).addr.toNat data false, entered := 0, aged := false } }] ∧
        (a.toNat, Instr.hopArrival) ∈ t.pending ∧ ts.regs = s.advance.core.regs ∧ ts.id = s.core.id ∧ data.length = 64 * size.toNat ∧
        (∀ i, i < data.length → data.getD i 0 = readByte s.mem (vaultHome g ((s.ptr p).addr.toNat + i))) ∧ t.mem = s.mem) ∧
    (inPart x (flumeNext g n.toNat) = true →
      (flumeUsed out < 16 → ∃ t, exec (.lqput n) s = .next t ∧ flumeOf t g n.toNat = { out with moving := out.moving ++ [a] } ∧
        (g, Instr.flumeTransfer g n.toNat) ∈ t.pending ∧ t.core = s.advance.core) ∧
      (16 ≤ flumeUsed out → exec (.lqput n) s = .next s.markStalled)) ∧
    (inPart x prev = true →
      (∀ v r, (flumeOf s prev n.toNat).present = v :: r → ∃ t, exec (.lqget n) s = .next t ∧ t.core = (s.setA v).advance.core ∧
        flumeOf t prev n.toNat = { flumeOf s prev n.toNat with present := r, returning := (flumeOf s prev n.toNat).returning + 1 }) ∧
      ((flumeOf s prev n.toNat).present = [] → exec (.lqget n) s = .next s.markStalled)) ∧
    exec (.lqtst n 1) s = .next (s.setT (decide (flumeUsed out < 16))).advance ∧
    exec (.lqtst n 0) s = .next (s.setT (decide ((flumeOf s prev n.toNat).present ≠ []))).advance ∧
    (∀ v r, out.moving = v :: r → ∃ t, exec (.flumeTransfer g n.toNat) s = .next t ∧ flumeOf t g n.toNat = { out with present := out.present ++ [v], moving := r }) ∧
    (0 < out.returning → out.present ≠ [] → ∃ t, exec (.flumeSlotReturn g n.toNat) s = .next t ∧ flumeOf t g n.toNat = { out with returning := out.returning - 1 })

/-- 10 R172, R179, 04 R84, 14 R245-R247: JDEC lowers a join word and posts its record at zero; BARM arms a barrier object, whose arrival then posts; OBAR
parks a task of an ordered launch. A spent join word and an armed object raise OPERAND as an upcall. How the acknowledgement is timed and what holds a
home are the model's (log entries 8, 18). -/
def Obligations.CountingResults : Prop :=
  ∀ (s : State) (p q : BitVec 3) (h : Nat) (x : Ctx), myCtx s = some x → x.num = s.core.ctx → Quiet s → isOrdered s = false →
    let va := (s.ptr p).addr
    let g := s.core.num
    let cx := s.core.ctx
    let w := readNat s.mem h 8
    (spaceOf va ≠ .reserved → va.toNat % 16 ≠ 0 → exec (.jdec p) s = .next (trapOf s 0x03 va 0)) ∧
    (va.toNat % 16 ≠ 0 → exec (.barm p q) s = .next (trapOf s 0x03 va 0)) ∧
    (va.toNat % 16 = 0 → homeOf s va 8 .atomic = some h → isFar h = false → poisonIn s.poison h 16 = none →
      (2 ≤ w → w < 2 ^ 32 → ∃ t, exec (.jdec p) s = .next t ∧ readNat t.mem h 8 = w - 1 ∧ OutsideKept s t h 8 ∧ t.core.regs = s.advance.core.regs) ∧
      (∀ cr, w = 1 → cr = homeWord s (h + 8) → spaceOf cr = .window → windowVault cr < 1024 → inPart x (windowVault cr) = true →
        ∃ t r, exec (.jdec p) s = .next t ∧ readNat t.mem h 8 = 0 ∧ OutsideKept s t h 8 ∧
          t.net = s.net ++ [{ dst := windowVault cr, ctx := cx, ent := { level := recLevel r, work := .start r, entered := 0, aged := false } }] ∧
          r.src = cr ∧ r.tid = 0xFFFFFFFF ∧ (windowVault cr, Instr.recordArrival) ∈ t.pending) ∧
      (w % 2 ^ 32 = 0 ∨ 2 ^ 32 ≤ w → ∃ t, exec (.jdec p) s = .next (awaitAck s (t.touchTlb va.toNat) h).advance ∧ t = raiseUpcall s cx g ⟨2, va, 0, 7⟩)) ∧
    (va.toNat + 16 ≤ vaultSize g → va.toNat % 16 = 0 → h = vaultHome g va.toNat → poisonIn s.poison h 16 = none → 1 ≤ s.core.regs.a.toNat → s.core.regs.a.toNat < 2 ^ 32 →
      (w % 2 ^ 32 = 0 → w / 2 ^ 32 < s.core.regs.a.toNat → w < 2 ^ 64 →
        ∃ t, exec (.barm p q) s = .next t ∧ readNat t.mem h 8 = w + s.core.regs.a.toNat ∧ homeWord t (h + 8) = (s.ptr q).addr ∧ OutsideKept s t h 16 ∧
          t.core.regs = s.advance.core.regs) ∧
      (w % 2 ^ 32 ≠ 0 → exec (.barm p q) s = .next (awaitAck s (raiseUpcall s cx g ⟨2, va, 0, 0x17⟩) h).advance)) ∧
    (∀ v off n cr, v < 1024 → off % 16 = 0 → off + 16 ≤ 0x200000 → 1 ≤ n → n < 2 ^ 32 → h = vaultHome v off → w = 0 →
      ∃ t, exec (.barmAtHome v off n cr g) s = .next t ∧ readNat t.mem h 8 = n ∧ homeWord t (h + 8) = cr ∧ OutsideKept s t h 16) ∧
    (∀ j : JoinReq, j.name = 0 → exec (.joinDecrement j) s = .next s) ∧
    (∀ j : JoinReq, j.ctx = cx → spaceOf j.name = .window → windowVault j.name < 1024 → x.grant.getLsbD (windowVault j.name / 8) = true →
      h = vaultHome (windowVault j.name) (windowOff j.name) → poisonIn s.poison h 16 = none → 2 ≤ w → w < 2 ^ 32 → j.name ≠ 0 →
      ∃ t, exec (.joinDecrement j) s = .next t ∧ readNat t.mem h 8 = w - 1 ∧ OutsideKept s t h 8) ∧
    exec .obar s = .next (trapOf s 0x02 0 0x11)

/-- 08 R137, R143, R144, 10 R168: OBAR of an ordered task parks it; when every task has ended or parked the merge starts, applies the journals where no
byte conflicts, and its completion resumes the tasks, or gives each of them ORDCONF, and is a SYS release of what the merge wrote to the host (03
R68); at the launch's end it frees the slot, or ORDCONF is an upcall on the launching core. What the merge waits for is the model's choice (log entry
12). -/
def Obligations.OrderedLaunchResults : Prop :=
  ∀ (s : State) (cx slot : Nat) (l : Launch) (x : Ctx), ctxOf s cx = some x → x.num = cx → launchOf s cx slot = some l → l.slot = slot → l.ordered = true →
    (∀ n, s.core.ctx = cx → s.core.id.slot.toNat = slot → isOrdered s = true → freeFrameOf s s.core.num = some n →
      ∃ t y, exec .obar s = .next t ∧ launchOf t cx slot = some { l with atObar := l.atObar + 1 } ∧ ctxOf t cx = some y ∧
        y.parked = x.parked ++ [{ core := s.core.num, layer := none, frame := .frame n, pc := s.core.regs.pc, slot := slot }] ∧
        (readFrame t s.core.num n).regs = s.advance.core.regs ∧ t.core.sched.running = false ∧
        (l.ended + (l.atObar + 1) = l.total → (cx, Instr.orderedMerge cx slot) ∈ t.pending)) ∧
    (s.core.ctx = cx → s.core.id.slot.toNat = slot → isOrdered s = true →
      ∃ t y q, exec .obar s = .next t ∧ t.core.sched.running = false ∧ launchOf t cx slot = some { l with atObar := l.atObar + 1 } ∧
        ctxOf t cx = some y ∧ y.parked = x.parked ++ [q] ∧ q.core = s.core.num ∧ q.layer = none ∧ q.pc = s.core.regs.pc ∧ q.slot = slot) ∧
    (l.ended + l.atObar = l.total → l.merging = none →
      ∃ t, exec (.orderedMerge cx slot) s = .next t ∧ launchOf t cx slot = some { l with merging := some none } ∧ (cx, Instr.mergeCheck cx slot) ∈ t.pending ∧ t.mem = s.mem) ∧
    (l.merging = some none → l.cmds = none →
      (∀ k, conflictOf ((launchEntries s l).flatMap (entryBytes s cx)) = some k →
        ∃ t, exec (.mergeCheck cx slot) s = .next t ∧ launchOf t cx slot = some { l with merging := some (some k) } ∧ (cx, Instr.mergeCompletion cx slot) ∈ t.pending ∧
          ∀ g ∈ launchCores l.lrec l.table, jcount t g = 0) ∧
      (launchEntries s l = [] → ∃ t, exec (.mergeCheck cx slot) s = .next t ∧ launchOf t cx slot = some l ∧ (cx, Instr.mergeCompletion cx slot) ∈ t.pending) ∧
      (∀ g k e h, launchEntries s l = [(g, k), (g, e)] → k.kind = 3 → e.kind = 0 → e.mask = 255 → entryHome s cx g e.dwa = .ok (s, h) → h < 0x8000000000 → Quiet s →
        ∃ t, exec (.mergeCheck cx slot) s = .next t ∧ launchOf t cx slot = some l ∧ (cx, Instr.mergeCompletion cx slot) ∈ t.pending ∧
          readNat t.mem h 8 = e.data.toNat ∧ (∀ k ∈ launchCores l.lrec l.table, jcount t k = 0) ∧
          ∀ b, ¬ (h ≤ b ∧ b < h + 8) → (∀ k ∈ launchCores l.lrec l.table, ¬ (vaultHome k 0 ≤ b ∧ b < vaultHome k 0x200000)) →
            readByte t.mem b = readByte s.mem b)) ∧
    (l.wrote ≠ 0 → ∃ t, exec (.mergeCompletion cx slot) s = .next t ∧ ∀ m, launchOf t cx slot = some m → m.wrote = 0) ∧
    (l.wrote = 0 → l.ended = l.total → (∀ q ∈ x.parked, q.layer ≠ none ∨ q.slot ≠ slot) →
      (l.merging = some none → l.join = 0 →
        ∃ t, exec (.mergeCompletion cx slot) s = .next t ∧ launchOf t cx slot = none ∧ t.mem = s.mem) ∧
      (∀ a lo hi, l.merging = some (some (a, lo, hi)) →
        ∃ t u, exec (.mergeCompletion cx slot) s = .next t ∧ launchOf t cx slot = none ∧
          t.core.sched.queue = u.core.sched.queue ∧ t.mem = u.mem ∧ u = raiseUpcall s cx l.core ⟨0x0E, BitVec.ofNat 64 a, 0, BitVec.ofNat 64 (hi * 2 ^ 32 + lo)⟩)) ∧
    (∀ q, l.wrote = 0 → x.parked = [q] → q.layer = none → q.slot = slot → l.ended ≠ l.total → x.running = true → x.queue = [] →
      (∀ n, q.frame = .frame n → (coreOf s q.core).sched.ring = [] → atLevel (coreOf s q.core).sched.queue 1 < 32 →
        (l.merging = some none →
          ∃ t y, exec (.mergeCompletion cx slot) s = .next t ∧ ctxOf t cx = some y ∧ y.parked = [] ∧ launchOf t cx slot = some { l with merging := none, atObar := 0 } ∧
            (coreOf t q.core).sched.queue = (coreOf s q.core).sched.queue ++ [{ level := 1, work := .resume n, entered := s.clock, aged := false }] ∧ t.mem = s.mem) ∧
        (∀ a lo hi, l.merging = some (some (a, lo, hi)) → x.home = 0 →
          ∃ t, exec (.mergeCompletion cx slot) s = .next t ∧ frameKind t q.core n = 1 ∧ homeWord t (frameHome q.core n + 8) = q.pc + 4 ∧
            (coreOf t q.core).sched.queue =
              ⟨0, .handler false ⟨0x0E, BitVec.ofNat 64 a, q.pc, BitVec.ofNat 64 (hi * 2 ^ 32 + lo)⟩ (.frame n), s.clock, false, none⟩ :: (coreOf s q.core).sched.queue)))

/-- 14 R240-R242, 02 R34, R47-R52, 04 R84, R93, 23 R365: TSEND counts as a tile operation and goes on its way; each of its lines leaves for every
destination vault as one packet, which forks where its destinations part, and of which the copy that finds an earlier one before its vault stays
behind; MREAD and an MREAD request open an entry or join one, or wait at their slice while its table is full; the merge window ends; a line leaves the
slice; a copy is written with its count at the barrier object. How many packets a buffer holds, and what a request's number is, are the model's
choices (log entries 8, 44). -/
def Obligations.MulticastResults : Prop :=
  ∀ (s : State) (p : BitVec 3) (ws : List Word) (d : Desc) (x : Ctx), Quiet s → s.poison = [] → myCtx s = some x →
    let va := (s.ptr p).addr
    let g := s.core.num
    let entryOf := fun (m : MReq) => ({ req := m, window := true, sent := 0, isOpen := true, late := [] } : MEntry)
    (va.toNat % 32 ≠ 0 → exec (.tsend p) s = .next (trapOf s 0x03 va 0) ∧ exec (.mread p) s = .next (trapOf s 0x03 va 0)) ∧
    (descOf ws Config.vaultBytes = some d → d.src = ws.getD 0 0 ∧ d.dst = (ws.getD 1 0).toNat % 2 ^ 32 ∧ d.pos = ws.getD 2 0 ∧
      d.len = (ws.getD 3 0).toNat % 2 ^ 32 ∧ d.qset.toNat = (ws.getD 3 0).toNat / 2 ^ 48 ∧
      ∀ c, c ∈ d.cores ↔ c < 1024 ∧ d.qset.getLsbD (c / 64) = true ∧ d.pos.getLsbD (c % 64) = true) ∧
    (∀ off, va.toNat % 32 = 0 → loadWords s va 4 = .ok (s, ws) → descOf ws Config.vaultBytes = some d → (∀ c ∈ d.cores, inPart x c = true) →
      checkOperand s d.src d.len = .ok off →
      (d.cores = [] → exec (.tsend p) s = .next s.advance) ∧
      (d.cores ≠ [] → 255 ≤ tileOps s → exec (.tsend p) s = .next s.markStalled) ∧
      (d.cores ≠ [] → tileOps s < 255 →
        ∃ t, exec (.tsend p) s = .next t ∧ t.core = s.advance.core ∧ t.mem = s.mem ∧ tileOps t = tileOps s + 1 ∧
          (∃ e ∈ t.pending, e = (64 + g, Instr.multicastLineSend)) ∧
          (∃ k, (∀ y ∈ s.sends, y.id < k) ∧ t.sends = s.sends ++ [
            { id := k, core := g, ctx := s.core.ctx, owner := s.core.port.owner, off := off, dst := d.dst, qset := d.qset, pos := d.pos,
              bobj := d.bobj, count := d.len / 128, sent := 0 }]))) ∧
    (∀ y : Send, s.sends = [y] → s.unit = 64 + y.core → y.core < 1024 → s.forks = [] →
      let src := vaultHome y.core (y.off + 128 * y.sent)
      ∃ t, exec .multicastLineSend s = .next t ∧ t.mem = s.mem ∧ t.core = s.core ∧
        t.sends = (if y.sent + 1 < y.count then [{ y with sent := y.sent + 1 }] else []) ∧
        t.forks.flatMap (·.parts) = (multicastCores y.qset y.pos).map (fun c =>
          { issuer := y.core, ctx := y.ctx, vault := c, off := y.dst + 128 * y.sent, data := (List.range 128).map (fun i => readByte s.mem (src + i)), bad := [],
            bobj := y.bobj, cmd := none, src := y.core })) ∧
    (∀ a, va.toNat % 32 = 0 → loadWords s va 4 = .ok (s, ws) → descOf ws 8192 = some d → (∀ c ∈ d.cores, inPart x c = true) → d.cores ≠ [] →
      d.len = 128 → mreadLines s va [d.src] = .ok [a] → s.mcast = [] →
      let m : MReq := { src := g, id := s.core.csr.here, slice := homeSlice s a, lines := [(a / 128, d.dst)], qset := d.qset, pos := d.pos, bobj := d.bobj, owner := s.core.port.owner }
      exec (.mread p) s = .next (({ s with mcast := [entryOf m], pending := s.pending ++ [(m.slice, Instr.mergeWindowEnd)] } : State).advance)) ∧
    (∀ lines, va.toNat % 32 = 0 → loadWords s va 4 = .ok (s, ws) → descOf ws 8192 = some d → (∀ c ∈ d.cores, inPart x c = true) →
      mreadLines s va ((List.range (d.len / 128)).map (fun i => d.src + BitVec.ofNat 64 (128 * i))) = .ok lines →
      (d.cores = [] → exec (.mread p) s = .next s.advance) ∧
      (d.cores ≠ [] → s.mcast = [] →
        ∃ t, exec (.mread p) s = .next t ∧ t.mem = s.mem ∧ t.core = s.advance.core ∧ (t.mcast.map (fun e => e.req.slice)).Nodup ∧
          (∀ e ∈ t.mcast, e = entryOf e.req ∧ e.req.src = g ∧ e.req.qset = d.qset ∧ e.req.pos = d.pos ∧ e.req.bobj = d.bobj) ∧
          (∀ i, i < lines.length → ∃ e ∈ t.mcast, e.req.slice = homeSlice s (lines.getD i 0) ∧ (lines.getD i 0 / 128, d.dst + 128 * i) ∈ e.req.lines))) ∧
    (∀ m : MReq, m.ok s = true →
      ((∀ e ∈ s.mcast, e.req.slice ≠ m.slice) →
        exec (.mreadRequest m) s = .next { s with mcast := s.mcast ++ [entryOf m], pending := s.pending ++ [(m.slice, Instr.mergeWindowEnd)] }) ∧
      (∀ e, s.mcast = [e] → e.req.slice = m.slice → e.isOpen = true → e.req.lines.length = m.lines.length → (e.req.lines.headD (0, 0)).1 = (m.lines.headD (0, 0)).1 →
        exec (.mreadRequest m) s = .next { s with mcast := [{ e with late := e.late ++ [(m, e.sent, 0)] }] }) ∧
      (16 ≤ (s.mcast.filter (fun e => e.req.slice == m.slice)).length → (∀ e ∈ s.mcast, e.isOpen = false) →
        exec (.mreadRequest m) s =
          .next { s with waiting := [{ src := m.src, op := .mread m, addr := (m.lines.headD (0, 0)).1 * 128, size := 128, data := 0 }] })) ∧
    (∀ e, s.mcast = [e] → e.req.slice = s.unit → e.window = true →
      exec .mergeWindowEnd s = .next { s with mcast := [{ e with window := false }], pending := s.pending ++ [(s.unit, Instr.multicastLineSend)] }) ∧
    (∀ e l, s.mcast = [e] → e.req.slice = s.unit → s.unit < 64 → e.window = false → e.isOpen = true → e.late = [] → e.req.lines[e.sent]? = some l →
      l.1 * 128 < 0x8000000000 → s.forks = [] →
      ∃ t, exec .multicastLineSend s = .next t ∧ t.mem = s.mem ∧ t.core.regs = s.core.regs ∧
        t.mcast = (if e.sent + 1 < e.req.lines.length then [{ e with sent := e.sent + 1 }] else []) ∧
        t.forks.flatMap (·.parts) = (multicastCores e.req.qset e.req.pos).map (fun c =>
          { issuer := e.req.src, ctx := (coreOf s e.req.src).ctx, vault := c, off := l.2, data := (List.range 128).map (fun i => readByte s.mem (l.1 * 128 + i)),
            bad := [], bobj := e.req.bobj, cmd := none, src := 2048 + e.req.slice })) ∧
    (∀ (k : Packet) (f h : Delivery), s.forks = [k] → quadrantOf f.vault = k.quad → coreStop f.vault = k.place →
      (k.parts = [f] → (∀ e ∈ s.pending, ∀ q, e.2 = .vaultDelivery q → q.vault ≠ f.vault) →
        exec .partialForkResidual s = .next { s with forks := [], pending := s.pending ++ [(f.vault, Instr.vaultDelivery f)] }) ∧
      (k.parts = [f] → (∃ e ∈ s.pending, ∃ q, e.2 = .vaultDelivery q ∧ q.vault = f.vault ∧ q.src = f.src) →
        ∃ t, exec .partialForkResidual s = .next t ∧ t.forks = [k] ∧ (∃ e ∈ t.pending, e.2 = .partialForkResidual) ∧ t.mem = s.mem) ∧
      (k.parts = [f, h] → quadrantOf h.vault = k.quad → coreStop h.vault ≠ k.place → (∀ e ∈ s.pending, ∀ q, e.2 = .vaultDelivery q → q.vault ≠ f.vault) →
        ∃ t q, exec .partialForkResidual s = .next t ∧ t.forks = [q] ∧ q.parts = [h] ∧ q.quad = k.quad ∧ q.place = coreStop h.vault ∧
          (f.vault, Instr.vaultDelivery f) ∈ t.pending ∧ t.mem = s.mem)) ∧
    (∀ f : Delivery, f.ok = true → 0 < f.data.length →
      let h := vaultHome f.vault f.off
      let n := f.data.length
      (f.bobj = none → ∃ t, exec (.vaultDelivery f) s = .next t ∧ (∀ i, i < n → readByte t.mem (h + i) = f.data.getD i 0) ∧ OutsideKept s t h n ∧
        ∀ i ∈ f.bad, vaultHome f.vault 0 / 8 + i ∈ t.poison) ∧
      (∀ o, f.bobj = some o → f.bad = [] → (o + 16 ≤ f.off ∨ f.off + n ≤ o) →
        let k := vaultHome f.vault o
        let arr := readNat s.mem k 8 / 2 ^ 32
        let ex := readNat s.mem k 8 % 2 ^ 32
        arr + n < 2 ^ 32 →
        (ex = 0 ∨ arr + n < ex → ∃ t, exec (.vaultDelivery f) s = .next t ∧ (∀ i, i < n → readByte t.mem (h + i) = f.data.getD i 0) ∧
          readNat t.mem k 8 = (arr + n) * 2 ^ 32 + ex ∧ t.net = s.net) ∧
        (∀ y cr, ctxOf s f.ctx = some y → ex ≠ 0 → arr + n = ex → cr = homeWord s (k + 8) → spaceOf cr = .window →
          windowVault cr < 1024 → inPart y (windowVault cr) = true →
          ∃ t r, exec (.vaultDelivery f) s = .next t ∧ (∀ i, i < n → readByte t.mem (h + i) = f.data.getD i 0) ∧ readNat t.mem k 8 = 0 ∧ r.src = cr ∧
            t.net = s.net ++ [{ dst := windowVault cr, ctx := f.ctx, ent := { level := recLevel r, work := .start r, entered := 0, aged := false } }]) ∧
        (ex ≠ 0 → arr ≤ ex → ex < arr + n → ∃ u, exec (.vaultDelivery f) s =
          .next (raiseUpcall u (coreOf u f.vault).ctx f.vault ⟨0x10, windowAddr f.vault o, 0, 0⟩) ∧ readNat u.mem k 8 = (arr + n) * 2 ^ 32 + ex)))

/-- 02 R33-R40, 01 R21, 03 R53, R61, R62, 04 R80, 13 R227: a request of a port is performed at its slice or vault with its response, waits for a merging
fill where its line lacks words, and is answered; a write-back cleans its line; responses and watches end what waits for them; a recall of an
unclaimed line does nothing. Where a save area keeps a return, and how a request waits, are the model's choices (log entries 29, 33). -/
def Obligations.HomeEvents : Prop :=
  ∀ (s : State) (r : Req), Quiet s → poisonIn s.poison r.addr r.size = none → 1152 ≤ r.src →
    let done (i : Instr) (v : Option Word) (t : State) : Prop := exec i s = .next t ∧ (r.src, Instr.accessResponse) ∈ t.pending ∧
      t.responses = s.responses ++ [{ core := r.src, ctx := 0, owner := 0, value := v, refused := false, bad := false }] ∧ t.waiting = s.waiting ∧ t.core.regs = s.core.regs
    let old := readNat s.mem r.addr r.size
    let val := r.data.toNat % 2 ^ (8 * r.size)
    let writes (i : Instr) (v : Option Word) (n : Nat) : Prop := ∃ t, done i v t ∧ readNat t.mem r.addr r.size = n ∧ OutsideKept s t r.addr r.size
    let keeps (i : Instr) (v : Option Word) : Prop := ∃ t, done i v t ∧ t.mem = s.mem
    (∀ i, r.ok = true → (i = Instr.sliceRequest r ∧ isSliced r.addr = true ∧ s.waiting = [] ∧ needsFill s r = false) ∨ (i = Instr.vaultAccess r ∧ inSomeVault r = true) →
      (r.op = .load → keeps i (some (BitVec.ofNat 64 old))) ∧
      (r.op = .store ∨ r.op = .storeNt → writes i none val) ∧
      (∀ fn, r.op = .atom fn → writes i (if fn.toNat < 16 then some (atomExt (fn.toNat % 16) r.size old) else none) (atomOp (fn.toNat % 16) r.size old val % 2 ^ (8 * r.size))) ∧
      (∀ c, r.op = .cas c → old = c.toNat % 2 ^ (8 * r.size) → writes i (some (BitVec.ofNat 64 old)) val) ∧
      (∀ c, r.op = .cas c → old ≠ c.toNat % 2 ^ (8 * r.size) → keeps i (some (BitVec.ofNat 64 old))) ∧
      (r.op = .cpin → keeps i (some (if isSliced r.addr && canAllocate s (r.addr / 128) then 1 else 0))) ∧
      (∀ cx va fn x cls u w, r.op = .stamp cx va fn → ctxOf s cx = some x → regionClass x va.toNat r.addr = some cls → stampAt s x cls r.addr fn r.data = .ok (u, w) →
        ∃ t, done i (if fn = 1 ∨ fn = 3 then none else some w) t ∧ t.mem = u.mem) ∧
      (r.op = .cflush ∨ r.op = .cunpin ∨ r.op = .cpref ∨ r.op = .watch → keeps i none)) ∧
    (r.ok = true → isSliced r.addr = true → s.waiting = [] → needsFill s r = true →
      ∃ t l, exec (.sliceRequest r) s = .next t ∧ t.waiting = [{ r with stamp := arrivalKey s }] ∧ lineOf t.lines (r.addr / 128) = some l ∧ l.locked = true ∧
        (r.addr / 128, Instr.mergingFill) ∈ t.pending ∧ t.mem = s.mem) ∧
    (∀ q, r.ok = true → isSliced r.addr = true → ((q.src = r.src ∧ homeSlice s q.addr = homeSlice s r.addr) ∨ q.addr / 128 = r.addr / 128) →
      exec (.sliceRequest r) { s with waiting := [q] } = .next { s with waiting := [q, { r with stamp := arrivalKey s }] }) ∧
    (∀ ws b, r.ok = true → isSliced r.addr = true →
      32 ≤ (ws.filter (fun q => homeSlice s q.addr == homeSlice s r.addr && bankOf s (q.addr / 128) == b)).length →
      exec (.sliceRequest r) { s with waiting := ws } = .next { s with waiting := ws, stop := [{ r with stamp := arrivalKey s }] }) ∧
    (∀ (u : State) (l : Line), u = { s with lines := [l], waiting := [r] } → l.num = u.unit → l.locked = true → l.num = r.addr / 128 → r.ok = true → isSliced r.addr = true → r.op = .store →
      ∃ t k, exec .mergingFill u = .next t ∧ t.waiting = [] ∧ lineOf t.lines l.num = some k ∧ k.locked = false ∧ k.valid = 0xFFFF ∧
        readNat t.mem r.addr r.size = val ∧ OutsideKept u t r.addr r.size) ∧
    (∀ l, lineOf s.lines s.unit = some l → ∃ t, exec .writeBackComplete s = .next t ∧ lineOf t.lines s.unit = some { l with dirty := 0, behind := [], locked := false } ∧ t.mem = s.mem) ∧
    (∀ a rest, s.responses = a :: rest → a.core = s.unit → s.unit < 1152 → (coreOf s s.unit).num = s.unit → (coreOf s s.unit).ctx = a.ctx →
      (coreOf s s.unit).port.owner = a.owner → (coreOf s s.unit).sched.asked = true →
      let sc := (coreOf s s.unit).sched
      ((coreOf s s.unit).sched.halted = false →
        ∃ t, exec .accessResponse s = .next t ∧ t.responses = rest ∧ t.mem = s.mem ∧
          coreOf t s.unit = { coreOf s s.unit with sched := { sc with returns := sc.returns ++ [a], asked := false, askHome := none } }) ∧
      (∀ v, (coreOf s s.unit).sched.halted = true → sc.returns = [] → a.value = some v →
        ∃ t, exec .accessResponse s = .next t ∧ t.responses = rest ∧ (coreOf t s.unit).sched.returns = [a] ∧
          homeWord t (assignedArea a.ctx s.unit + 0x608) = v ∧ (homeWord t (assignedArea a.ctx s.unit + 0x600)).getLsbD 0 = true)) ∧
    (∀ w, s.unit < 1152 → (coreOf s s.unit).watch = some w →
      ∃ t, exec .mwaitWake s = .next t ∧ coreOf t s.unit = { coreOf s s.unit with watch := some { w with seen := true } }) ∧
    (s.unit < 1152 → (coreOf s s.unit).sched.mwaited ≠ 0 →
      ∃ t, exec .mwaitTimeout s = .next t ∧ coreOf t s.unit = { coreOf s s.unit with sched := { (coreOf s s.unit).sched with mwaited := waitOver } }) ∧
    (∀ a w, exec (.recall a w) s = .next s)

/-- 04 R73, R80, R82, R85, R89-R96, 05 R98, R104, R109, 07 R132: a step of an engine on its command moves the next piece of each kind of command, from
where the words, the block table, the pattern or the layer's entry say, to where they say, and stops the command where an address cannot be reached;
MCAST sends each line once to its vaults, SWEEP writes a word older than the base back as its logical word and reports one that it may not, EVICT
takes the layer's lines and translations away, PTLOAD sets a pattern entry, RESUME and ENGINE_RESPONSE go on with a command, and a RECALL of a claimed
line brings a COPY to its end. How a recall is performed is the model's choice (log entry 10), and so is which of several faults of an element is
reported (log entry 44). 04 R73, R77, R78, R83-R87, 05 R104, R105, R109: an engine takes a port's command and starts one; a completed command
decrements its join, counts its bytes at its barrier object, and leaves PEND for DONE; a stopped one writes its fault record into a free slot and
sends an upcall, or is held and tries again; a full host stops it with FULL. What holds a fault, and a full host's report, are the model's choices
(log entry 44). -/
def Obligations.EngineResults : Prop :=
  (∀ (s : State) (e : Nat) (c : Cmd), OneCmd s e c →
      let fresh := c.resumed = false
      let at' (va : Nat) (w : Bool) (h : Nat) : Prop := engineHome s c va w = .ok (s, h)
      let piece (src dst left : Nat) : Nat := min left (min (128 - dst % 128) (4096 - src % 4096))
      (∀ i hs hd, c.code = 1 → (i = Instr.copy ∧ fresh) ∨ (i = Instr.resume ∧ c.resumed = true) ∨ i = Instr.engineResponse →
        at' (c.a1 + c.done) false hs → at' (c.a2 + c.done) true hd →
        let n := piece (c.a1 + c.done) (c.a2 + c.done) (c.len - c.done)
        ∃ t, exec i s = .next t ∧ Piece s t e c n ∧ CopiedTo s t hs hd n) ∧
      (∀ f sub, c.code = 1 → fresh → engineHome s c (c.a1 + c.done) false = .error (f, sub) → f ≠ 0 →
        engineHome s c (c.a2 + c.done) true ≠ .error (0, 1) → ∃ t, exec .copy s = .next t ∧ StopsAt s t e f (BitVec.ofNat 64 (c.a1 + c.done)) sub) ∧
      (∀ hs hd, c.code = 2 → fresh →
        let src := c.a1 + c.done / c.len * c.spitch + c.done % c.len
        let dst := c.a2 + c.done / c.len * c.dpitch + c.done % c.len
        let n := piece src dst (c.len - c.done % c.len)
        at' src false hs → at' dst true hd → ∃ t, exec .copy2d s = .next t ∧ Piece s t e c n ∧ CopiedTo s t hs hd n) ∧
      (∀ hd, c.code = 3 → fresh → c.len % 8 = 0 → c.a2 % 8 = 0 → c.done % 8 = 0 → at' (c.a2 + c.done) true hd →
        let n := min (c.len - c.done) (128 - (c.a2 + c.done) % 128)
        ∃ t, exec .fill s = .next t ∧ Piece s t e c n ∧ OutsideKept s t hd n ∧
          ∀ i, i < n → readByte t.mem (hd + i) = BitVec.ofNat 8 (c.a1 / 2 ^ (8 * (i % 8)))) ∧
      (∀ hs, c.code = 4 → fresh → c.vaults ≠ [] → at' (c.a1 + c.done) false hs →
        let dst := c.a2 + c.done
        let n := piece (c.a1 + c.done) dst (c.len - c.done)
        let part (g : Nat) : Delivery := { issuer := c.core, ctx := c.ctx, vault := g, off := dst, data := (List.range n).map (fun i => readByte s.mem (hs + i)),
                                           bad := [], bobj := none, cmd := some c.key, src := 2112 + c.on }
        ∃ t, exec .mcast s = .next t ∧ Piece s t e c n ∧ t.mem = s.mem ∧ (∃ u, (u, Instr.partialForkResidual) ∈ t.pending) ∧
          t.forks = s.forks ++ [{ quad := c.on / 2, place := .engine (c.on % 2), src := 2112 + c.on, cls := .req, way := none, parts := c.vaults.map part }]) ∧
      (∀ q h0 h hd, c.code = 5 → fresh → c.table = [] → at' c.a1 false h0 → isHbm h0 = true → bandLocal s h0 = true → patternOf s h0 c = some q → at' (c.a2 + c.done) true hd →
        1 ≤ q.rows → q.rows ≤ 4096 → 1 ≤ q.cols → q.cols ≤ 4096 → q.esize < 4 → c.len = q.rows * q.cols * 2 ^ q.esize →
        let sz := 2 ^ q.esize
        let k := c.done / sz
        let n := min (sz - c.done % sz) (128 - (c.a2 + c.done) % 128)
        let va := (((c.a1 : Int) + (k % q.rows : Nat) * q.rstride.toInt + (k / q.rows : Nat) * q.cstride.toInt) % (2 ^ 64 : Nat)).toNat
        at' va false h → isHbm h = true → bandLocal s h = true →
        (homeSlice s h / 8 = homeSlice s h0 / 8 → va % sz = 0 →
          ∃ t, exec .gathert s = .next t ∧ Piece s t e c n ∧ CopiedTo s t (h + c.done % sz) hd n) ∧
        (homeSlice s h / 8 = homeSlice s h0 / 8 → va % sz ≠ 0 → ∃ t, exec .gathert s = .next t ∧ StopsAt s t e 0x11 (BitVec.ofNat 64 va) 3) ∧
        (homeSlice s h / 8 ≠ homeSlice s h0 / 8 → ∃ t, exec .gathert s = .next t ∧ StopsAt s t e 0x11 (BitVec.ofNat 64 va) 2)) ∧
      (∀ ht hd, c.code = 6 → fresh →
        let b := 2 ^ c.param
        let dst := c.a2 + c.done
        let entry := readNat s.mem ht 8
        c.done % b = 0 → at' (c.a1 + 8 * (c.done / b)) false ht → at' dst true hd →
        (entry = 0 → ∃ t, exec .btwalk s = .next t ∧ Piece s t e c (min b (128 - dst % 128)) ∧ OutsideKept s t hd (min b (128 - dst % 128)) ∧
          ∀ i, i < min b (128 - dst % 128) → readByte t.mem (hd + i) = 0) ∧
        (entry ≠ 0 → entry % b ≠ 0 → ∃ t, exec .btwalk s = .next t ∧ StopsAt s t e 0x12 (BitVec.ofNat 64 entry) 5) ∧
        (∀ hs, entry ≠ 0 → entry % b = 0 → at' entry false hs →
          ∃ t, exec .btwalk s = .next t ∧ Piece s t e c (piece entry dst b) ∧ CopiedTo s t hs hd (piece entry dst b))) ∧
      (∀ h hs hd, c.code = 7 → fresh → engineHome s { c with ctx := c.param } c.a1 false = .ok (s, h) →
        let src := readNat s.mem (h + 8) 8 + c.done
        let dst := readNat s.mem (h + 16) 8 + c.done
        let n := piece src dst (c.len - c.done)
        engineHome s { c with ctx := c.param } src false = .ok (s, hs) → engineHome s { c with ctx := c.param } dst true = .ok (s, hd) →
        ∃ t, exec .layerin s = .next t ∧ Piece s t e c n ∧ CopiedTo s t hs hd n) ∧
      (∀ x h, c.code = 8 → fresh → ctxOf s c.param = some x → spaceOf c.ecw1 ≠ .ownVault → engineHome s { c with ctx := c.param } (c.a1 + c.done) true = .ok (s, h) →
        let w := homeWord s h
        let now := nowOf x.held
        let base := baseOf x.held
        let l := logical (x.decay.getD []) now base w
        (∀ k, isFar h = false → regionClass x (c.a1 + c.done) h = some k → storedFault x.decay k now w = none → (now - base).toNat < (now - stampOf w).toNat →
          ∃ t, exec .sweep s = .next t ∧ Piece s t e c 8 ∧ homeWord t h = stampWord l.st l.cls l.val ∧ OutsideKept s t h 8) ∧
        (∀ k, isFar h = false → regionClass x (c.a1 + c.done) h = some k → storedFault x.decay k now w = none → (now - stampOf w).toNat ≤ (now - base).toNat → ∃ t, exec .sweep s = .next t ∧ Piece s t e c 8 ∧ t.mem = s.mem) ∧
        (isFar h = true ∨ regionClass x (c.a1 + c.done) h = none ∨ (∃ k, regionClass x (c.a1 + c.done) h = some k ∧ storedFault x.decay k now w ≠ none) → ∃ t, exec .sweep s = .next t ∧ Piece s t e c 8 ∧ t.mem = s.mem ∧
          t.out.reports = s.out.reports ++ [(0x16, BitVec.ofNat 64 (c.a1 + c.done))])) ∧
      (∀ x h, c.code = 9 → fresh → ctxOf s c.param = some x → engineHome s { c with ctx := c.param } c.a1 false = .ok (s, h) →
        let dst := readNat s.mem (h + 16) 8
        let hit := fun (p : Page) => decide (p.ctx = c.param ∧ p.size = 1 ∧ dst ≤ p.va ∧ p.va < dst + c.len)
        (∀ p ∈ x.pages, hit p = true → linesOwed s p.pa (pageBytes 1) = false) →
        ∃ t, exec .evict s = .next t ∧ Piece s t e c (c.len - c.done) ∧ t.mem = s.mem ∧ ctxOf t c.param = some { x with pages := x.pages.filter (fun p => !hit p) } ∧
          (∀ l ∈ t.lines, ∀ p ∈ x.pages, hit p = true → ¬ (p.pa ≤ l.num * 128 ∧ l.num * 128 < p.pa + pageBytes 1)) ∧
          t.clusterTlb = s.clusterTlb.filter (fun p => !hit p.2) ∧ t.core.tlb = s.core.tlb.filter (fun p => !hit p)) ∧
      (∀ h, c.code = 0xB → fresh → at' c.a1 false h →
        let w0 := readNat s.mem h 8
        let w1 := readNat s.mem (h + 8) 8
        let rows := w1 / 2 ^ 32
        let cols := w1 / 2 ^ 16 % 2 ^ 16
        (1 ≤ rows → rows ≤ 4096 → 1 ≤ cols → cols ≤ 4096 → w1 % 2 ^ 16 < 4 → readNat s.mem (h + 16) 16 = 0 →
          ∃ t q, exec .ptload s = .next t ∧ Piece s t e c (32 - c.done) ∧ q ∈ t.patterns ∧ t.mem = s.mem ∧
            q = { unit := c.ecw3.toNat / 2 ^ 8 % 8, entry := c.ecw3.toNat % 64, rstride := BitVec.ofNat 32 (w0 / 2 ^ 32), cstride := BitVec.ofNat 32 w0,
                  rows := rows, cols := cols, esize := w1 % 4 } ∧
            ∀ k ∈ t.patterns, k ≠ q → ¬ (k.unit = q.unit ∧ k.entry = q.entry)) ∧
        (rows = 0 ∨ 4096 < rows ∨ cols = 0 ∨ 4096 < cols ∨ 4 ≤ w1 % 2 ^ 16 ∨ readNat s.mem (h + 16) 16 ≠ 0 →
          ∃ t, exec .ptload s = .next t ∧ StopsAt s t e 0x19 0 0)) ∧
      (∀ hs hd a w, c.code = 1 → fresh → at' (c.a1 + c.done) false hs → at' (c.a2 + c.done) true hd →
        let n := piece (c.a1 + c.done) (c.a2 + c.done) (c.len - c.done)
        let space := spaceOf (BitVec.ofNat 64 (c.a2 + c.done))
        c.len - c.done = n → space = .ownVault ∨ space = .window → hd ≤ a → a < hd + n →
        ∃ t, exec (.recall a w) s = .next t ∧ CopiedTo s t hs hd n ∧ t.core.regs = s.core.regs ∧ t.pending = s.pending ∧
          (engineOf t e).running = [{ c with done := c.len }] ∧ exec (.recall a w) t = .next t)) ∧
  (∀ (s : State) (e : Nat) (c : Cmd), s.unit = e → Quiet { s with engines := Vector.replicate 32 default } → s.poison = [] → e < 32 →
      let k := engineOf s e
      let busy := ∃ v, s.engines = (Vector.replicate 32 default).set! e v ∧ v.running = [c] ∧ v.queue = [] ∧ v.held = [] ∧ v.own = [] ∧ v.fenced = false
      let p := (coreOf s c.core).port
      let left (t : State) : Prop := (engineOf t e).running = [] ∧ (e, Instr.engineCommandStart) ∈ t.pending
      let counted (t : State) : Prop := (coreOf t c.core).port.pend = p.pend - 1 ∧ (coreOf t c.core).port.done = p.done + 1
      (∀ r, k.queue = c :: r → k.own = [] → k.running.length < 8 → k.fenced = false →
        ∃ t, exec .engineCommandStart s = .next t ∧ (engineOf t e).queue = r ∧ (engineOf t e).running = k.running ++ [c] ∧ (e, stepOf c) ∈ t.pending ∧ t.mem = s.mem) ∧
      (∀ u : State, u = { s with core := { s.core with port := { s.core.port with waiting := [c] } } } → c.on = e → c.core = s.core.num → k.queue = [] → k.own = [] →
        k.running.length < 8 → k.fenced = false →
        ∃ t, exec .engineCommandStart u = .next t ∧ (engineOf t e).running = k.running ++ [c] ∧ t.core.port.waiting = [] ∧ (e, stepOf c) ∈ t.pending) ∧
      (k.own = [c] → k.queue = [] → k.running.length < 8 → k.fenced = false → c.core = s.core.num →
        ∃ t, exec .engineCommandStart s = .next t ∧ (engineOf t e).running = k.running ++ [c] ∧ (engineOf t e).own = [] ∧ (e, stepOf c) ∈ t.pending) ∧
      (busy → c.fault = none → c.total s ≤ c.done → c.code = 7 → layerinErr s c = 4 →
        ∃ t, exec .engineCompletion s = .next t ∧ StopsAt s t e 9 (c.table.headD 0) 0) ∧
      (busy → c.fault = none → c.total s ≤ c.done → (c.code = 7 → layerinErr s c ≠ 4 ∧ c.entryWaits s = false) → (c.byPort = true → standsHere s c.ctx c.core = true) →
        (c.byPort = true → c.target = 0 → ∃ t, exec .engineCompletion s = .next t ∧ left t ∧ counted t ∧ t.mem = s.mem) ∧
        (∀ h, c.byPort = true → c.target ≠ 0 → engineHome s { c with ecw0 := 1 } c.target.toNat true = .ok (s, h) → isFar h = false →
          let w := readNat s.mem h 8
          (c.ck = false → 2 ≤ w → w < 2 ^ 32 →
            ∃ t, exec .engineCompletion s = .next t ∧ left t ∧ counted t ∧ readNat t.mem h 8 = w - 1 ∧ OutsideKept s t h 8) ∧
          (∀ v off, c.ck = true → h = vaultHome v off → off < 0x200000 → w / 2 ^ 32 + c.byteCount s < 2 ^ 32 →
            (w % 2 ^ 32 = 0 ∨ w / 2 ^ 32 + c.byteCount s < w % 2 ^ 32) →
            ∃ t, exec .engineCompletion s = .next t ∧ left t ∧ counted t ∧ readNat t.mem h 8 = w + c.byteCount s * 2 ^ 32 ∧ OutsideKept s t h 8)) ∧
        (c.byPort = false → c.target = 0 →
          (c.code = 7 → layerinErr s c = 0 → ∃ t, exec .engineCompletion s = .next t ∧ left t ∧ (c.param, Instr.layerResidentStep c.param (layerOfCmd s c)) ∈ t.pending) ∧
          (c.code = 7 → layerinErr s c ≠ 0 → ∃ t, exec .engineCompletion s = .next t ∧ left t ∧
            (c.param, Instr.layerFaultStep c.param (layerOfCmd s c) (layerinErr s c)) ∈ t.pending) ∧
          (∀ x, c.code = 8 → ctxOf s c.param = some x → ∃ t, exec .engineCompletion s = .next t ∧ left t ∧ (c.param, Instr.stepIncrement) ∈ t.pending ∧
            ctxOf t c.param = some { x with sweeps := x.sweeps - 1, fills := x.fills.filter (fun f => f.cmd != some c.key) }) ∧
          (c.code = 9 → ∃ t, exec .engineCompletion s = .next t ∧ left t ∧ (c.param, Instr.layerEvictedStep c.param (layerOfCmd s c)) ∈ t.pending))) ∧
      (∀ f a sub x h (i : Instr), (i = .faultNotice ∧ busy) ∨ (i = .faultRingRetry ∧ s.engines = (Vector.replicate 32 default).set! e { (default : Engine) with held := [c] }) →
        c.fault = some (f, a, sub) → ctxOf s c.ctx = some x →
        let va := x.faultRing + BitVec.ofNat 64 (64 * (x.faultNext % 64))
        engineHome s c va.toNat true = .ok (s, h) →
        (c.byPort = true → c.code ≠ 7 → standsHere s c.ctx c.core = true → readNat s.mem (h + 0x38) 1 = 0 → x.running = true → x.queue = [] → (coreOf s c.core).sched.ring = [] →
          atLevel (coreOf s c.core).sched.queue 0 < 32 →
          ∃ t, exec i s = .next t ∧ left t ∧ counted t ∧ (engineOf t e).held = [] ∧ (coreOf t c.core).port.fcode = f ∧ OutsideKept s t h 64 ∧
            (List.range 8).map (fun j => homeWord t (h + 8 * j)) = [c.ecw0, c.ecw1, c.ecw2, c.ecw3, c.target, BitVec.ofNat 64 c.doneBytes, a,
              BitVec.ofNat 64 (c.acceptor % 2 ^ 32 * 2 ^ 32 + c.on * 2 ^ 16 + sub % 256 * 256 + f.toNat)] ∧
            (coreOf t c.core).sched.queue = (coreOf s c.core).sched.queue ++ [⟨0, .handler true ⟨f, a, 0, va⟩ .none, s.clock, false, none⟩]) ∧
        (readNat s.mem (h + 0x38) 1 ≠ 0 → ∃ t, exec i s = .next t ∧ (engineOf t e).held = [c] ∧ (engineOf t e).running = [] ∧
          (e, Instr.faultRingRetry) ∈ t.pending ∧ t.mem = s.mem)) ∧
      (busy → c.finished s = false → c.writesFar s isHost = true → ∃ t, exec .hostCreditTimeout s = .next t ∧ StopsAt s t e 0x18 (c.nextDst s) 0))

/-- 05 R97-R107, R109, R110, 14 R243, R244: LWAIT pins a resident layer and returns its flag word, traps LAYER on a faulted one, and parks on any other,
counted as a waiter with a demand; LREL unpins, LHINT asks; a stream-in maps the destination and starts its copy; the steps to RESIDENT, FAULTED and
ABSENT write the flag word, and release or fault the waiters. Which frames of the pool a layer takes, the order of a demand and an eviction, and whose
cycles the wait limit counts are the model's choices (log entries 7, 37, 44). -/
def Obligations.LayerResults : Prop :=
  ∀ (s : State) (x : Ctx) (l : BitVec 12) (froma : BitVec 1) (m : Nat) (e : Layer), ctxOf s s.core.ctx = some x → x.num = s.core.ctx → x.num < 64 → Quiet s → s.poison = [] →
    layerOf s x m = some e → m < x.layerCount → x.layerCount ≤ 4096 → e.home + 64 ≤ Config.tierEnd → x.running = true → x.queue = [] → x.home = 0 →
    let g := s.core.num
    let cx := s.core.ctx
    let named := (if froma = 1 then s.core.regs.a.toNat else l.toNat) = m
    let st := e.flag % 8
    let err := e.flag / 8 % 32
    let gen := e.flag / 2 ^ 8 % 2 ^ 24
    let pin := e.flag / 2 ^ 32
    let word (pin gen err st : Nat) : Nat := pin * 2 ^ 32 + gen % 2 ^ 24 * 2 ^ 8 + err * 8 + st
    let flag (t : State) := readNat t.mem e.home 8
    let waiters (t : State) := readNat t.mem (e.home + 0x28) 4
    let at' := x.layerBase + BitVec.ofNat 64 (64 * m)
    let asks (t : State) : Prop := ∃ y, ctxOf t cx = some y ∧ (∃ d ∈ y.demands, d.layer = m) ∧ (cx, Instr.streamInStart) ∈ t.pending
    let mine := fun (p : Page) => decide (p.ctx = cx ∧ p.size = 1 ∧ e.dsta ≤ p.va ∧ p.va < e.dsta + (e.len + 0xFFFF) / 2 ^ 16 * 2 ^ 16 ∧ p.va % 2 ^ 16 = e.dsta % 2 ^ 16)
    (∀ u, x.layerCount ≤ (if froma = 1 then s.core.regs.a.toNat else l.toNat) → u = trapOf s 0x02 0 0x12 →
      exec (.lwait l froma) s = .next u ∧ exec (.lrel l froma) s = .next u ∧ exec (.lhint l froma) s = .next u) ∧
    (named → st = 2 → pin + 1 < 2 ^ 32 → ∃ t y, exec (.lwait l froma) s = .next t ∧ flag t = e.flag + 2 ^ 32 ∧ OutsideKept s t e.home 8 ∧
      t.core.regs = { s.advance.core.regs with a := BitVec.ofNat 64 (e.flag + 2 ^ 32) } ∧ ctxOf t cx = some y ∧ y.last = m) ∧
    (named → st = 3 → exec (.lwait l froma) s = .next (trapOf s 0x0D at' (BitVec.ofNat 64 (err + m * 2 ^ 8)))) ∧
    (∀ n, named → st ≠ 2 → st ≠ 3 → freeFrameOf s g = some n → ∃ t y, exec (.lwait l froma) s = .next t ∧ flag t = e.flag ∧ waiters t = (waiters s + 1) % 2 ^ 32 ∧
      t.core.sched.running = false ∧ (readFrame t g n).regs = s.advance.core.regs ∧ frameKind t g n = 3 ∧ ctxOf t cx = some y ∧
      y.parked = x.parked ++ [{ core := g, layer := some m, frame := .frame n, pc := s.core.regs.pc, slot := s.core.id.slot.toNat }] ∧
      (st ≠ 1 → x.demands = [] → asks t)) ∧
    (∀ i, (i = Instr.lrel l froma ∧ named) ∨ i = Instr.lrelAtHome g m →
      let u : State := if i = Instr.lrel l froma then s.advance else s
      (pin ≠ 0 → ∃ t, exec i s = .next t ∧ flag t = e.flag - 2 ^ 32 ∧ OutsideKept s t e.home 8 ∧ t.core.regs = u.core.regs) ∧
      (pin = 0 → i = Instr.lrel l froma → exec i s = .next (awaitAck s (raiseUpcall (loadLine s e.home 8 true) cx g ⟨0x02, at', 0, 0x1A⟩) e.home).advance) ∧
      (pin = 0 → i = Instr.lrelAtHome g m → exec i s = .next (raiseUpcall (freeNext s).2 cx g ⟨0x02, at', 0, 0x1A⟩))) ∧
    (named → st = 0 ∨ st = 3 → x.demands = [] → ∃ t u, exec (.lhint l froma) s = .next t ∧ asks t ∧ t.mem = s.mem ∧ t.core.regs = s.advance.core.regs ∧
      exec (.lhintAtHome g m) s = .next u ∧ asks u ∧ u.mem = s.mem ∧ u.core.regs = s.core.regs) ∧
    (named → st ≠ 0 → st ≠ 3 → exec (.lhint l froma) s = .next (awaitAck s (loadLine s e.home 8 true) e.home).advance ∧ exec (.lhintAtHome g m) s = .next s) ∧
    (∀ t w, named → g < 1152 → s.core.sched.running = true → s.core.sched.halted = false → fetchWord s s.core.regs.pc = .ok (t, w) → decode w = .ok (.lwait l froma) →
      exec (.lwaitAtHome g m) s = exec (.lwait l froma) t) ∧
    (∀ u w n, named → g < 1152 → s.core.sched.running = true → s.core.sched.halted = false → fetchWord s s.core.regs.pc = .ok (u, w) → decode w = .ok (.lwait l froma) →
      u = { s with clusterUse := u.clusterUse, core := { s.core with tlb := u.core.tlb, tlbWays := u.core.tlbWays, tlbTree := u.core.tlbTree } } → freeFrameOf s g = some n →
      (st = 2 → pin + 1 < 2 ^ 32 → ∃ t y, exec (.lwaitAtHome g m) s = .next t ∧ flag t = e.flag + 2 ^ 32 ∧ OutsideKept s t e.home 8 ∧
        t.core.regs = { s.advance.core.regs with a := BitVec.ofNat 64 (e.flag + 2 ^ 32) } ∧ ctxOf t cx = some y ∧ y.last = m) ∧
      (st = 3 → exec (.lwaitAtHome g m) s = .next (trapOf u 0x0D at' (BitVec.ofNat 64 (err + m * 2 ^ 8)))) ∧
      (st ≠ 2 → st ≠ 3 → ∃ t, exec (.lwaitAtHome g m) s = .next t ∧ flag t = e.flag ∧ waiters t = (waiters s + 1) % 2 ^ 32 ∧
        t.core.sched.running = false ∧ (readFrame t g n).regs = s.advance.core.regs ∧ frameKind t g n = 3)) ∧
    (∀ d, s.unit = cx → x.demands = [d] → d.layer = m →
      (st = 0 ∨ st = 3 → x.budget < e.len ∨ s.pool < frameBytes e → ∃ t y, exec .streamInStart s = .next t ∧ (cx, Instr.layerFaultStep cx m 6) ∈ t.pending ∧ ctxOf t cx = some y ∧ y.demands = [] ∧ t.mem = s.mem) ∧
      (∀ fs, st = 0 ∨ st = 3 → malformed x e = false → e.len ≤ x.budget → frameBytes e ≤ s.pool → (∀ o ∈ layersOf s x, o.1 ≠ m → held o.2 = true → spansMeet e o.2 = false) →
        heldBytes s x (fun _ => true) + e.len ≤ x.budget → poolUsed s (fun _ => true) + frameBytes e ≤ s.pool → poolFrames s e = some fs →
        ∃ t y k c, exec .streamInStart s = .next t ∧ flag t = word pin (gen + 1) 0 1 ∧ OutsideKept s t e.home 8 ∧ ctxOf t cx = some y ∧ y.demands = [] ∧
          y.pages = x.pages ++ layerPages s x e fs ∧ fs.length * 2 ^ 16 = frameBytes e ∧ c ∈ (engineOf t k).own ∧ c.code = 7 ∧ c.len = e.len ∧ c.param = cx ∧ c.ecw1 = at' ∧ c.done = 0 ∧ c.byPort = false ∧
          (k, Instr.engineCommandStart) ∈ t.pending) ∧
      (x.layerWait * cycleLength s ((partCores x).headD 0) < s.clock - d.since → st = 0 ∨ st = 3 → ∃ t y, exec .layerWaitLimit s = .next t ∧ (cx, Instr.layerFaultStep cx m 7) ∈ t.pending ∧ ctxOf t cx = some y ∧ y.demands = []) ∧
      (s.clock - d.since ≤ x.layerWait * cycleLength s ((partCores x).headD 0) ∨ (st ≠ 0 ∧ st ≠ 3) → exec .layerWaitLimit s = .next { s with pending := s.pending ++ [(cx, Instr.layerWaitLimit)] })) ∧
    (∀ q n, x.parked = [q] → q.layer = some m → q.frame = .frame n → n < 32 → q.core < 1152 → (coreOf s q.core).sched.ring = [] →
      (st = 1 → atLevel (coreOf s q.core).sched.queue 1 < 32 → 1 ≤ waiters s → pin + waiters s < 2 ^ 32 →
        ∃ t y, exec (.layerResidentStep cx m) s = .next t ∧ flag t = word (pin + waiters s) gen 0 2 ∧ waiters t = 0 ∧
          homeWord t (frameHome q.core n) = BitVec.ofNat 64 (word (pin + waiters s) gen 0 2) ∧ ctxOf t cx = some y ∧ y.parked = [] ∧ y.last = m ∧
          (coreOf t q.core).sched.queue = (coreOf s q.core).sched.queue ++ [⟨1, .resume n, s.clock, false, none⟩]) ∧
      (∀ r, atLevel (coreOf s q.core).sched.queue 0 < 32 → r < 32 → (st = 1 ∧ r ≠ 6 ∧ r ≠ 7) ∨ ((st = 0 ∨ st = 3) ∧ (r = 6 ∨ r = 7)) →
        ∃ t y, exec (.layerFaultStep cx m r) s = .next t ∧ flag t = word pin gen r 3 ∧ waiters t = 0 ∧ ctxOf t cx = some y ∧ y.parked = [] ∧
          y.pages = (if st = 1 ∧ r ≠ 5 then x.pages.filter (fun p => !mine p) else x.pages) ∧ frameKind t q.core n = 2 ∧ homeWord t (frameHome q.core n + 8) = q.pc ∧
          (coreOf t q.core).sched.queue = (coreOf s q.core).sched.queue ++
            [⟨0, .handler true ⟨0x0D, at', q.pc, BitVec.ofNat 64 (r + m * 2 ^ 8)⟩ (.frame n), s.clock, false, none⟩])) ∧
    (st = 4 → ∃ t y, exec (.layerEvictedStep cx m) s = .next t ∧ flag t = word pin gen 0 0 ∧ OutsideKept s t e.home 8 ∧ ctxOf t cx = some y ∧
      y.pages = x.pages.filter (fun p => !mine p) ∧ t.clusterTlb = s.clusterTlb.filter (fun p => !mine p.2))

/-- 06 R116-R121, 01 R24: the service core answers a miss with the page that the context's tables hold, or with the status of the walk, asks the driver
for a host-backed range, and its notice starts at UPCV's level; a late fill times out; unmapping, migration and a band's change of mode keep the bytes
and drop the translations. What a migration and a mode change wait for is the model's reading (log entry 35). -/
def Obligations.PagingResults : Prop :=
  ∀ (s : State) (x : Ctx) (f : Fill), s.ctxs = [x] → x.fills = [f] → f.core = s.unit → f.cmd = none → Quiet s → s.poison = [] → s.migrations = [] → x.running = true → x.queue = [] →
    let va := f.va.toNat
    let answered (t : State) (n : Nat) : Prop := ∃ y, ctxOf t x.num = some y ∧ y.fills = [{ f with status := some n }] ∧ (f.frame ≠ .none → (f.core, Instr.completionNotice) ∈ t.pending)
    (f.status = none → f.host = false →
      (∀ p, inAbsentLayer s x va = false → x.pages.find? (fun p => p.has x.num va) = some p → p.accepted = true → (p.tier = 1 → featureOn s 1 = true) → (f.fetch = true → p.x = true) → (f.fetch = false → f.write = false → p.r = true) →
        (f.write = true → p.cow = false ∧ p.w = true) →
        ∃ t, exec .translationMissMessage s = .next t ∧ answered t 0 ∧ (clusterOf f.core, p) ∈ t.clusterTlb ∧ t.mem = s.mem ∧
          ∀ q, (clusterOf f.core, q) ∈ t.clusterTlb → q ≠ p → q.overlaps p = false) ∧
      (x.pages.find? (fun p => p.has x.num va) = none → inAbsentLayer s x va = false → x.hostGaps = [] →
        ∃ t, exec .translationMissMessage s = .next t ∧ answered t 1 ∧ t.clusterTlb = s.clusterTlb) ∧
      (inAbsentLayer s x va = true → ∃ t, exec .translationMissMessage s = .next t ∧ answered t 5) ∧
      (∀ q, x.pages.find? (fun p => p.has x.num va) = none → inAbsentLayer s x va = false → x.hostGaps = [q] → q.has x.num va = true → featureOn s 4 = true →
        ∃ t y, exec .translationMissMessage s = .next t ∧ ctxOf t x.num = some y ∧ y.fills = [{ f with host := true }] ∧ y.hostAsks = x.hostAsks ++ [(f.core, va)] ∧ (f.core, Instr.fillTimeout) ∈ t.pending)) ∧
    (∀ n, f.status = some n → f.told = false → f.frame = .none →
      ∃ t y, exec .completionNotice s = .next t ∧ ctxOf t x.num = some y ∧ y.fills = [{ f with told := true }] ∧ t.core = s.core) ∧
    (∀ n, f.status = some n → f.told = false → f.frame ≠ .none → (coreOf s f.core).sched.ring = [] → atLevel (coreOf s f.core).sched.queue 0 < 32 →
      ∃ t y, exec .completionNotice s = .next t ∧ ctxOf t x.num = some y ∧ y.fills = [] ∧
        (coreOf t f.core).sched.queue = (coreOf s f.core).sched.queue ++ [⟨0, .notice n f.frame, s.clock, false, none⟩]) ∧
    (f.status = none → x.fillLimit * cycleLength s f.core ≤ s.clock - f.since → ∃ t, exec .fillTimeout s = .next t ∧ answered t 4 ∧ t.mem = s.mem) ∧
    (f.status = none → s.clock - f.since < x.fillLimit * cycleLength s f.core → exec .fillTimeout s = .next (dueOnce s f.core .fillTimeout)) ∧
    (f.status = none → f.host = true → x.hostAsks = [(f.core, va)] →
      (∃ t, exec (.hostFaultInAnswer f.core none) s = .next t ∧ answered t 3 ∧ t.mem = s.mem) ∧
      (∀ q a, let z : Ctx := { x with pages := x.pages ++ [{ q with pa := a }], hostGaps := [], hostAsks := [] }
        x.hostGaps = [q] → q.has x.num va = true → x.pages.find? (fun p => p.has x.num va) = none → { q with pa := a }.accepted = true →
        inAbsentLayer { s with ctxs := [z] } z va = false → (q.tier = 1 → featureOn s 1 = true) →
        (f.fetch = true → q.x = true) → (f.fetch = false → f.write = false → q.r = true) → (f.write = true → q.cow = false ∧ q.w = true) →
        ∃ t y, exec (.hostFaultInAnswer f.core (some a)) s = .next t ∧ answered t 0 ∧ ctxOf t x.num = some y ∧ y.pages = x.pages ++ [{ q with pa := a }] ∧ y.hostGaps = [] ∧
          (clusterOf f.core, { q with pa := a }) ∈ t.clusterTlb)) ∧
    (∀ a n, let hit := fun (p : Page) => decide (p.ctx = x.num ∧ Config.hostBase ≤ p.pa ∧ p.pa < Config.peerBase ∧ p.va < BitVec.toNat a + 4096 * n ∧ BitVec.toNat a < p.va + pageBytes p.size)
      ((∀ p ∈ x.pages, hit p = true → stillThrough (dropEverywhere s hit) (fun _ => true) p = false) →
      ∃ t y, exec (.hostUnmapRequest x.num a n) s = .next t ∧ ctxOf t x.num = some y ∧ y.pages = x.pages.filter (fun p => !hit p) ∧ y.hostGaps = x.hostGaps ++ x.pages.filter hit ∧
        t.clusterTlb = s.clusterTlb.filter (fun p => !hit p.2) ∧ t.core.tlb = s.core.tlb.filter (fun p => !hit p) ∧ t.mem = s.mem) ∧
      (∀ p ∈ x.pages, hit p = true → stillThrough (dropEverywhere s hit) (fun _ => true) p = true →
        ∃ t, exec (.hostUnmapRequest x.num a n) s = .next t ∧ t.ctxs = s.ctxs ∧ (s.unit, Instr.hostUnmapRequest x.num a n) ∈ t.pending ∧
          t.clusterTlb = s.clusterTlb.filter (fun p => !hit p.2))) ∧
    (∀ p a w, x.pages = [p] → p.has x.num (BitVec.toNat w) = true → mayMigrate s x p a = true →
      ∃ t y, exec (.migration x.num w a) s = .next t ∧ ctxOf t x.num = some y ∧ y.pages = [{ p with mig := true }] ∧ t.mem = s.mem ∧
        t.migrations = [{ page := { p with mig := true }, newPa := a, copied := [], dirty := [], held := false }] ∧ (s.unit, Instr.migration x.num w a) ∈ t.pending) ∧
    (∀ (u : State) k w, u = { s with migrations := [k] } → k.page.has x.num (BitVec.toNat w) = true → k.page.pa % 2 ^ 12 = 0 → k.held = false →
      (128 * k.copied.length < pageBytes k.page.size →
        let o := 128 * k.copied.length
        ∃ t j, exec (.migration x.num w k.newPa) u = .next t ∧ t.migrations = [j] ∧ CopiedTo s t (k.page.pa + o) (k.newPa + o) 4096 ∧
          j.copied = k.copied ++ (List.range 32).map (fun i => (k.page.pa + o) / 128 + i) ∧ (s.unit, Instr.migration x.num w k.newPa) ∈ t.pending) ∧
      (pageBytes k.page.size ≤ 128 * k.copied.length → issuedThrough s (fun _ => true) k.page.pa (pageBytes k.page.size) = false →
        ∃ t, exec (.migration x.num w k.newPa) u = .next t ∧ t.migrations = [{ k with held := true }] ∧ t.mem = s.mem ∧ (x.num, Instr.migrationCommit) ∈ t.pending ∧
          t.clusterTlb = s.clusterTlb.filter (fun p => !p.2.overlaps k.page) ∧ t.core.tlb = s.core.tlb.filter (fun p => !p.overlaps k.page))) ∧
    (∀ (u : State) k, u = { s with migrations := [k] } → s.unit = x.num → k.held = true → k.page.ctx = x.num → k.dirty = [] → x.pages = [k.page] →
      ∃ t y, exec .migrationCommit u = .next t ∧ t.migrations = [] ∧ t.mem = s.mem ∧ ctxOf t x.num = some y ∧
        y.pages = [{ k.page with pa := k.newPa, tier := if isHbm k.newPa then 0 else 1, il := isHbm k.newPa && bandLocal s k.newPa, mig := false }]) ∧
    (∀ b v, b < 64 → s.bands.getLsbD b ≠ v → issuedThrough s (fun _ => true) (b * 2 ^ 33) (2 ^ 33) = false → (∀ p ∈ x.pages, p.pa / 2 ^ 33 = b → keptByLayer s x p = false) →
      ∃ t y, exec (.bandModeChange b v) s = .next t ∧ (∀ c, c < 64 → t.bands.getLsbD c = if c = b then v else s.bands.getLsbD c) ∧
        (∀ a, ¬ (b * 2 ^ 33 ≤ a ∧ a < (b + 1) * 2 ^ 33) → readByte t.mem a = readByte s.mem a) ∧
        (∀ a, b * 2 ^ 33 ≤ a → a < (b + 1) * 2 ^ 33 → readByte t.mem (flippedAddr s a) = readByte s.mem a ∧
          homeSlice t (flippedAddr s a) / 8 = homeSlice s a / 8 ∧ stackOffset t (flippedAddr s a) = stackOffset s a) ∧
        ctxOf t x.num = some y ∧ ∀ p ∈ y.pages, ¬ (b * 2 ^ 33 ≤ p.pa ∧ p.pa < (b + 1) * 2 ^ 33))

/-- 10 R184-R186, R373, 21 R355-R357: a pre-empted context stops, its cores halt at their boundaries with their queues kept, its save completes, its
clusters and vault images pass on and come back, none starts while a temperature halts them, and a context is created waiting for its clusters and
destroyed. Where save areas and images lie, and what a context is given at its creation, are the model's choices (log entries 29, 30, 39). -/
def Obligations.ContextResults : Prop :=
  ∀ (s : State) (x : Ctx), ctxOf s s.unit = some x → x.num = s.unit → x.num < 64 →
    let cx := x.num
    let idle : Prop := vaultsBusy s x = false ∧ (∀ c ∈ allCmds s, c.ctx ≠ cx)
    (x.running = true → ∃ t, exec .preemptRequest s = .next t ∧ ctxOf t cx = some { x with running := false } ∧ t.mem = s.mem ∧
      ∀ g ∈ partCores x, (g, Instr.coreHalt) ∈ t.pending) ∧
    (x.running = false → exec .preemptRequest s = .next s) ∧
    (∀ (u : State) g, u = { s with unit := g } → x.running = false → inPart x g = true → (coreOf s g).ctx = cx → (coreOf s g).sched.halted = false →
      (coreOf s g).sched.stepped = none → (∀ f, stalledFill x (coreOf s g).num = some f → f.told = false) → (coreOf s g).mx.run = none → (coreOf s g).mx.faults.find? (fun f => f.1 == (coreOf s g).port.owner) = none → (coreOf s g).sched.wdCount < watchdogLimit (coreOf s g) →
      (coreOf s g).sched.ring = [] → (∀ e ∈ s.clusterQ, e.1 ≠ clusterOf g) →
      let c := coreOf s g
      ∃ t y, exec .coreHalt u = .next t ∧ t.mem = s.mem ∧ ctxOf t cx = some y ∧ y.queue = c.sched.queue.map (fun e => (g, awayEntry e)) ++ x.queue.map (fun e => if e.1 = g then (g, awayEntry e.2) else e) ∧ g ∉ y.stepReq ∧
        (coreOf t g).regs = c.regs ∧ (coreOf t g).sched.halted = true ∧ (coreOf t g).sched.user = false ∧ (coreOf t g).sched.running = c.sched.running ∧
        (coreOf t g).watch = none ∧ (coreOf t g).sched.queue = [] ∧ (coreOf t g).sluice.shadow = none ∧ (coreOf t g).mx.bypass = none ∧
        (∀ sh, c.sluice.shadow = some sh → (∀ n, (coreOf t g).mx.tile n = { c.mx.tile n with pend := false }) ∧
          (coreOf t g).sluice.rwrec = BitVec.ofNat 64 (sh.mask * 2 ^ 16 + sh.n * 2 ^ 8 + 2 ^ 7 + sh.rule)) ∧
        ((∀ h ∈ partCores x, h ≠ g → (coreOf s h).sched.halted = true) → (cx, Instr.contextSaveComplete) ∈ t.pending)) ∧
    (x.running = false → x.saved = false → x.part ≠ 0 → (∀ k ∈ s.rankNet, k.ctx ≠ cx) → (∀ h ∈ partCores x, (coreOf s h).sched.halted = true ∧ saveWaits s cx (coreOf s h) = false) →
      Memory.wf s.mem = true → ∃ t, exec .contextSaveComplete s = .next t ∧ ctxOf t cx = some { x with saved := true } ∧
        (∀ g ∈ partCores x, areaRegs t (assignedArea cx g) = (coreOf s g).regs) ∧
        ∀ a, (∀ g ∈ partCores x, ¬ (assignedArea cx g ≤ a ∧ a < assignedArea cx g + 0x32000)) → readByte t.mem a = readByte s.mem a) ∧
    (∀ y, x.wants ≠ 0 → y ∈ s.ctxs → y.running = true → y.part &&& x.wants ≠ 0 → y.priority < x.priority ∨ (y.priority = x.priority ∧ x.waited + 2 ^ 20 * 21 ≤ s.clock) →
      ∃ t, exec .quantumExpiry s = .next t ∧ (y.num, Instr.preemptRequest) ∈ t.pending ∧ (cx, Instr.quantumExpiry) ∈ t.pending ∧ t.ctxs = s.ctxs ∧ t.mem = s.mem) ∧
    (∀ y, ctxOf s y.num = some y → y.num ≠ cx → x.running = false → x.saved = true → x.part ≠ 0 → y.wants &&& x.part ≠ 0 → idle → Memory.wf s.mem = true →
      ∃ t z, exec (.clusterHandover cx y.num) s = .next t ∧ ctxOf t cx = some z ∧ z.part = 0 ∧ z.grant = 0 ∧ z.home = x.part ∧ z.wants = x.part ∧
        (y.num, Instr.contextResume) ∈ t.pending ∧
        (∀ g ∈ partCores x, t.saves.find? (fun e => e.1 == cx * 2048 + g) = some (cx * 2048 + g, coreOf s g) ∧ (coreOf t g).sched.running = false ∧
          ∀ o, o < 0x200000 → readByte t.mem (imageHome cx g o) = readByte s.mem (vaultHome g o)) ∧
        ∀ a, (∀ g ∈ partCores x, ¬ (imageHome cx g 0 ≤ a ∧ a < imageHome cx g 0x200000)) → readByte t.mem a = readByte s.mem a) ∧
    (x.running = false → s.out.hot ≠ 0 → exec .contextResume s = .next s) ∧
    (x.running = false → x.saved = true → x.part ≠ 0 → s.out.fenced = 0 → s.out.hot = 0 → (∀ g, (coreOf s g).mx.run = none) →
      ∃ t y, exec .contextResume s = .next t ∧ ctxOf t cx = some y ∧ y.running = true ∧ y.saved = false ∧ t.mem = s.mem ∧
        ∀ g ∈ partCores x, (coreOf t g).ctx = cx ∧ (coreOf t g).sched.halted = false ∧ (coreOf t g).sched.user = true ∧ (coreOf t g).regs = areaRegs s (assignedArea cx g)) ∧
    (x.running = false → x.part = 0 → x.wants ≠ 0 → x.home = x.wants ∨ x.home = 0 → s.out.fenced = 0 → s.out.hot = 0 → (∀ y ∈ s.ctxs, y.part &&& x.wants = 0) → Memory.wf s.mem = true →
      (∀ g, (coreOf s g).mx.run = none) → (∀ e ∈ s.saves, e.2.mx.run = none) →
      ∃ t y, exec .contextResume s = .next t ∧ ctxOf t cx = some y ∧ y.running = true ∧ y.part = x.wants ∧ y.grant = x.wants ∧ y.home = 0 ∧
        (∀ g ∈ partCores y, (coreOf t g).ctx = cx ∧ (coreOf t g).sched.halted = false ∧ (coreOf t g).sched.user = true) ∧
        ∀ g ∈ partCores { x with part := x.home }, (∀ o, o < 0x200000 → readByte t.mem (vaultHome g o) = readByte s.mem (imageHome cx g o)) ∧
          ∀ c, s.saves.find? (fun e => e.1 == cx * 2048 + g) = some (cx * 2048 + g, c) →
            (x.saved = false → (coreOf t g).regs = c.regs ∧ (coreOf t g).mx = c.mx) ∧ (x.saved = true → (coreOf t g).regs = areaRegs s (assignedArea cx g))) ∧
    (∀ c, mayCreate s c = false → exec (.contextCreate c) s = .next s) ∧
    (∀ c, mayCreate s c = true → ∃ t y, exec (.contextCreate c) s = .next t ∧ t.ctxs = s.ctxs ++ [y] ∧ y.num = c.num ∧ y.priority = c.priority ∧ y.wants = c.grant ∧ y.part = 0 ∧
      y.running = false ∧ y.pages = c.pages ∧ y.faultRing = c.faultRing ∧ y.gstep = c.gstep ∧ y.held = c.gstep ∧ y.layerCount = c.layerCount ∧ y.launches = [] ∧
      y.link = c.link ∧ y.vf = c.vf ∧ y.pasid = c.pasid ∧ fnOf t c.num ≠ none ∧
      (c.num, Instr.contextResume) ∈ t.pending) ∧
    (s.out.owner = none → exec .contextDestroy s = .next s) ∧
    (s.out.owner ≠ none → x.running = true → ∃ t, exec .contextDestroy s = .next t ∧ ctxOf t cx = some { x with running := false } ∧ (cx, Instr.contextDestroy) ∈ t.pending) ∧
    (s.out.owner ≠ none → x.running = false → x.part = 0 ∨ x.saved = true → idle →
      ∃ t, exec .contextDestroy s = .next t ∧ ctxOf t cx = none ∧ (∀ p ∈ t.clusterTlb, p.2.ctx ≠ cx) ∧ (∀ p ∈ t.core.tlb, p.ctx ≠ cx))

/-- 21 R361, R362, 16 R280, 04 R87: a quadrant is fenced with its engines and later serves again; the power alarm makes cores ask for budget, which is
granted one by one; a hot junction or stack steps clocks down, and a hotter one halts every context, keeps them from starting and is reported. What a
fence's reset leaves, and how samples are counted, are the model's (log entries 31, 32). 21 R355-R359: an owner claims the device and is answered with
a signed report of its identity, names a successor, and lapses after a second without its link; another master's requests are refused with Completer
Abort; ACCEPT takes advertised features only; a good image boots the device and a bad one leaves it in recovery until one is delivered. What recovery
refuses, and what the firmware leaves, are the model's readings (log entries 31, 34, 39). -/
def Obligations.PowerAndOwnerResults : Prop :=
  (∀ (s : State),
      let q := s.unit
      let a := s.out.accept.getD 0
      (q < 16 → s.out.owner ≠ none → a.getLsbD 5 = true → s.out.fenced = 0 → (∀ x ∈ s.ctxs, x.part &&& quadrantMask q = 0) →
        ∃ t, exec .quadrantFence s = .next t ∧ t.out.fenced = (1 : BitVec 16) <<< q ∧ (engineOf t (2 * q)).fenced = true ∧ (engineOf t (2 * q + 1)).fenced = true ∧
          (engineOf t (2 * q)).queue = [] ∧ t.mem = s.mem ∧ ∀ c ∈ (engineOf s (2 * q)).queue, c.fault = none → c.done < c.total s →
            ∃ d ∈ (engineOf t (2 * q)).running, d.key = c.key ∧ ∃ w, d.fault = some (0x17, w, 0)) ∧
      (q < 16 → s.out.owner ≠ none → a.getLsbD 5 = true → s.out.fenced.getLsbD q = true →
        (∀ e, e = 2 * q ∨ e = 2 * q + 1 → (engineOf s e).running = [] ∧ (engineOf s e).held = []) →
        ∃ t, exec .quadrantFence s = .next t ∧ t.out.fenced = s.out.fenced &&& ~~~((1 : BitVec 16) <<< q) ∧ (engineOf t (2 * q)).fenced = false ∧
          (engineOf t (2 * q + 1)).fenced = false) ∧
      (∀ x, q < 16 → s.out.owner ≠ none → a.getLsbD 5 = true → s.out.fenced = 0 → s.ctxs = [x] → x.part &&& quadrantMask q ≠ 0 → x.running = true →
        ∃ t, exec .quadrantFence s = .next t ∧ ctxOf t x.num = some { x with running := false } ∧ (q, Instr.quadrantFence) ∈ t.pending ∧ t.out.fenced = 0) ∧
      exec .powerAlarm s = .next { s with out := { s.out with alarm := true } } ∧
      exec .powerAlarmClear s = .next { s with out := { s.out with alarm := false, budgetWait := [], budgetGiven := [] } } ∧
      (s.out.budgetWait = [] → exec .powerBudgetGrant s = .next s) ∧
      (∀ g r, s.out.budgetWait = g :: r → ∃ t k, exec .powerBudgetGrant s = .next t ∧ k ∈ s.out.budgetWait ∧
        t.out = { s.out with budgetWait := s.out.budgetWait.erase k, budgetGiven := s.out.budgetGiven ++ [k] } ∧ t.core = s.core ∧ t.mem = s.mem) ∧
      (∀ n c, n < 16 → c < 105 →
        let e := s.out.clockStep.getD n (0, 0)
        let e' := if 103 ≤ c then (2, 0) else if 100 ≤ c then (1, 0) else if e.1 = 0 then (0, 0) else if 95 ≤ c then (e.1, 0)
          else if 1000 ≤ e.2 + 1 then (0, 0) else (e.1, e.2 + 1)
        ∃ t, exec (.thermalSample n c false) s = .next t ∧ t.out.clockStep = s.out.clockStep.set n e' ∧ t.out.stackHot = s.out.stackHot ∧
          t.out.hot = s.out.hot &&& ~~~((1 : BitVec 24) <<< n) ∧ t.out.reports = s.out.reports ∧ t.mem = s.mem ∧ t.core.regs = s.core.regs ∧
          (s.out.hot = 0 → e'.1 = e.1 → t = { s with out := { s.out with clockStep := s.out.clockStep.set n e' } })) ∧
      (∀ n c, n < 8 → c < 100 →
        let e := s.out.stackHot.getD n (0, 0)
        let e' := if 95 ≤ c then (1, 0) else if e.1 = 0 then (0, 0) else if 90 ≤ c then (e.1, 0) else if 1000 ≤ e.2 + 1 then (0, 0) else (e.1, e.2 + 1)
        ∃ t, exec (.thermalSample n c true) s = .next t ∧ t.out.stackHot = s.out.stackHot.set n e' ∧ t.out.clockStep = s.out.clockStep ∧
          t.out.hot = s.out.hot &&& ~~~((1 : BitVec 24) <<< (16 + n)) ∧ t.out.reports = s.out.reports ∧ t.mem = s.mem ∧ t.core.regs = s.core.regs ∧
          (s.out.hot = 0 → e'.1 = e.1 → t = { s with out := { s.out with stackHot := s.out.stackHot.set n e' } })) ∧
      (∀ n c stack, (stack = false ∧ n < 16 ∧ 105 ≤ c) ∨ (stack = true ∧ n < 8 ∧ 100 ≤ c) →
        ∃ t r, exec (.thermalSample n c stack) s = .next t ∧ (∀ k y, ctxOf t k = some y → y.running = false) ∧ t.out.reports = s.out.reports ++ [r] ∧ t.mem = s.mem ∧
          t.out.hot.getLsbD (if stack then 16 + n else n) = true)) ∧
  (∀ (s : State) (link master : Nat) (v : BitVec 128),
      (link < 2 → s.out.hostUp.getLsbD link = true → s.out.fwGood = true → s.out.owner = none ∨ s.out.successor = some master →
        ∃ t a, exec (.ownershipClaim link master true) s = .next t ∧ t.mem = s.mem ∧
          t.out = { s.out with owner := some master, ownerLink := link, successor := none, downAt := none, attests := s.out.attests ++ [a] } ∧
          a.digest = s.out.fwDigest ∧ a.feat = s.out.feat ∧ a.rev = s.out.fuseRev ∧
          (a.r, a.s) = Config.sign s.out.idKey (Config.sha256 (bytesOf 32 a.nonce.toNat ++ bytesOf 32 a.digest.toNat ++ bytesOf 16 a.feat.toNat ++ bytesOf 8 a.rev.toNat))) ∧
      (∃ t, exec (.ownershipClaim link master false) s = .next t ∧ t.mem = s.mem ∧ t.out = { s.out with attests := t.out.attests }) ∧
      (s.out.owner ≠ none → s.out.successor ≠ some master → exec (.ownershipClaim link master true) s = .next s) ∧
      (s.out.owner ≠ none → s.out.fwGood = true → exec .ownershipHandover s = .next { s with out := { s.out with successor := some s.unit } }) ∧
      (s.out.owner = none ∨ s.out.fwGood = false → exec .ownershipHandover s = .next s) ∧
      (∀ n i r, s.turns = [.request master n i] → ownerOnly i = true →
        (s.out.owner ≠ some master → step s = .next { s with turns := [], out := { s.out with aborts := s.out.aborts ++ [master] } }) ∧
        (s.out.owner = some master → s.out.fwGood = true → exec i { s with turns := [], unit := n } = .next r → step s = .next r)) ∧
      (∀ t, s.out.downAt = some t → s.out.owner ≠ none →
        (t + 2100000000 ≤ s.clock → exec .ownershipLapse s = .next { s with out := { s.out with owner := none, successor := none, downAt := none } }) ∧
        (s.clock < t + 2100000000 → exec .ownershipLapse s = .next { s with pending := s.pending ++ [(s.unit, Instr.ownershipLapse)] })) ∧
      (v &&& ~~~s.out.feat = 0 → s.out.fwGood = true → exec (.acceptWrite v) s = .next { s with out := { s.out with accept := some v } }) ∧
      (v &&& ~~~s.out.feat ≠ 0 ∨ s.out.fwGood = false → exec (.acceptWrite v) s = .next s) ∧
      (s.ctxs ≠ [] → ∀ b, exec (.firmwareBoot b) s = .next s) ∧
      (s.ctxs = [] → exec (.firmwareBoot false) s = .next { s with out := { s.out with fwGood := false } }) ∧
      (s.out.fwGood = false → exec (.firmwareImageDelivery false) s = .next s) ∧
      (∀ i, (i = Instr.firmwareBoot true ∧ s.ctxs = []) ∨ (i = Instr.firmwareImageDelivery true ∧ s.out.fwGood = false) →
        ∃ t, exec i s = .next t ∧ (∀ g, g < 1152 → coreOf t g = (Core.reset g).restarted s.clock) ∧ t.out = { s.out with fwGood := true, fwDigest := t.out.fwDigest } ∧ t.mem = s.mem))

/-- 21 R352-R360, 03 R68-R71, 04 R87: links go down and up; answers reach the core that asked; a peer and the host reach device memory only where they
may; rings of launches and messages are worked off in order; the host takes frames. How a link keeps its order, and what an unaccepted feature stops,
are the model's choices (log entries 33, 34, 39, 44). -/
def Obligations.HostResults : Prop :=
  ∀ (s : State) (r : Req), Quiet s → s.waiting = [] → s.out.heldIn = [] →
    let port (q : Resp) (t : State) : Prop := t.responses = s.responses ++ [q] ∧ (q.core, Instr.accessResponse) ∈ t.pending
    let refusal : Resp := { core := 0xFFFF, ctx := 0, owner := 0, value := none, refused := true, bad := false }
    let size := r.size
    (∀ n, n < 2 → ∃ t u, exec (.linkDown false n) s = .next t ∧ t.out.hostUp = s.out.hostUp &&& ~~~((1 : BitVec 2) <<< n) ∧ t.mem = s.mem ∧ t.core.regs = s.core.regs ∧
      (s.out.owner ≠ none → s.out.ownerLink = n → s.out.downAt = none → t.out.downAt = some s.clock ∧ (n, Instr.ownershipLapse) ∈ t.pending) ∧
      exec (.linkUp false n) s = .next u ∧ u.out.hostUp = s.out.hostUp ||| ((1 : BitVec 2) <<< n) ∧ (s.out.ownerLink = n → u.out.downAt = none) ∧ u.mem = s.mem) ∧
    (∀ n, n < 8 → ∃ t, exec (.linkDown true n) s = .next t ∧ t.out = { s.out with peerUp := s.out.peerUp &&& ~~~((1 : BitVec 8) <<< n) } ∧ t.mem = s.mem ∧
      exec (.linkUp true n) s = .next { s with out := { s.out with peerUp := s.out.peerUp ||| ((1 : BitVec 8) <<< n) } }) ∧
    (∀ n (a : Resp) i, (i = Instr.hostCompletion n a ∧ n < 2 ∧ s.out.hostUp.getLsbD n = true) ∨ (i = Instr.peerAcknowledgement n a ∧ n < 8 ∧ s.out.peerUp.getLsbD n = true) →
      a.core < 1152 → (coreOf s a.core).awaits a = true →
      ∃ b, exec i s = .next { s with responses := s.responses ++ [b], pending := s.pending ++ [(a.core, Instr.accessResponse)] } ∧
        (a.value ≠ none ∨ (coreOf s a.core).sched.askHome = none → b = a) ∧
        (∀ h, a.value = none → (coreOf s a.core).sched.askHome = some h →
          b = { a with value := some (homeWord s h), bad := a.bad || (poisonIn s.poison h 1).isSome })) ∧
    (∀ n (a : Resp), (n < 2 → s.out.hostUp.getLsbD n = false) → exec (.hostCompletion n a) s = .next s) ∧
    (∀ n (a : Resp) e c, n < 8 → s.out.peerUp.getLsbD n = true → 1152 ≤ a.core → a.refused = true → cmdToPeer s n = some (e, c) →
      ∃ t, exec (.peerAcknowledgement n a) s = .next t ∧ (e, Instr.faultNotice) ∈ t.pending ∧ t.mem = s.mem ∧
        ∀ d ∈ (engineOf t e).running, d.key = c.key → d.fault = some (0x18, c.nextDst s, 0)) ∧
    (∀ n, r.op = .load → peerMay s n r.addr = false → ∃ t, exec (.peerInboundRead n r) s = .next t ∧ port refusal t ∧ t.mem = s.mem) ∧
    (∀ n, r.op = .store ∨ r.op = .storeNt → peerMay s n r.addr = false → ∃ t, exec (.peerInboundWrite n r) s = .next t ∧ port refusal t ∧ t.mem = s.mem) ∧
    (∀ n, r.ok = true → peerMay s n r.addr = true → needsFill s r = false → poisonIn s.poison r.addr size = none →
      (r.op = .load → ∃ t, exec (.peerInboundRead n r) s = .next t ∧
        port { core := 0xFFFF, ctx := 0, owner := 0, value := some (BitVec.ofNat 64 (readNat s.mem r.addr size)), refused := false, bad := false } t ∧ t.mem = s.mem) ∧
      (∀ fn, r.op = .atom fn → ∃ t, exec (.peerInboundRead n r) s = .next t ∧ OutsideKept s t r.addr size ∧
        readNat t.mem r.addr size = atomOp (fn.toNat % 16) size (readNat s.mem r.addr size) (r.data.toNat % 2 ^ (8 * size)) % 2 ^ (8 * size)) ∧
      (r.op = .store → ∃ t, exec (.peerInboundWrite n r) s = .next t ∧ port { core := 0xFFFF, ctx := 0, owner := 0, value := none, refused := false, bad := false } t ∧
        readNat t.mem r.addr size = r.data.toNat % 2 ^ (8 * size) ∧ OutsideKept s t r.addr size)) ∧
    (∀ x f p, ctxOf s x.num = some x → fnOf s x.num = some f → s.migrations = [] → r.ok = true → r.addr < 2 ^ 36 → f.aperture % 8 = 0 →
      x.pages.find? (fun p => p.has x.num (f.aperture + r.addr)) = some p → p.accepted = true → p.cow = false →
      inAbsentLayer s x (f.aperture + r.addr) = false → (p.tier = 1 → featureOn s 1 = true) →
      let a := p.phys (f.aperture + r.addr)
      isSliced a = true → (isHbm a = true → p.il = bandLocal s a) → needsFill s { r with addr := a } = false → poisonIn s.poison a size = none →
      (r.op = .load → p.r = true → ∃ t, exec (.hostApertureAccess x.num r) s = .next t ∧
        port { core := 0xFFFF, ctx := 0, owner := 0, value := some (BitVec.ofNat 64 (readNat s.mem a size)), refused := false, bad := false } t ∧ t.mem = s.mem) ∧
      (r.op = .store → p.w = true → ∃ t, exec (.hostApertureAccess x.num r) s = .next t ∧ port { core := 0xFFFF, ctx := 0, owner := 0, value := none, refused := false, bad := false } t ∧
        readNat t.mem a size = r.data.toNat % 2 ^ (8 * size) ∧ OutsideKept s t a size)) ∧
    (∀ cx, r.op = .load ∨ r.op = .store → r.size ≠ 0 → fnOf s cx = none → ∃ t, exec (.hostApertureAccess cx r) s = .next t ∧ port refusal t ∧ t.mem = s.mem) ∧
    (∀ x f tail, ctxOf s x.num = some x → s.out.fns = [f] → f.ctx = x.num →
      let took (v : HostFn) : State := { s with out := { s.out with fns := [v] } }
      (f.lqSize ≤ tail → f.lqHead = f.lqTail → exec (.launchQueueDoorbell x.num tail) s = .next s) ∧
      (f.miSize ≤ tail → f.miHead = f.miTail → exec (.messageInDoorbell x.num tail) s = .next s) ∧
      (tail < f.lqSize → f.lqHead = tail → exec (.launchQueueDoorbell x.num tail) s = .next (took { f with lqTail := tail })) ∧
      (tail < f.miSize → f.miHead = tail → exec (.messageInDoorbell x.num tail) s = .next (took { f with miTail := tail })) ∧
      (∀ slot, tail < f.lqSize → f.lqHead ≠ tail → x.part ≠ 0 →
        let ws := (List.range 8).map (fun j => homeWord s (hostRingHome s f.link f.lqBase f.lqHead + 8 * j))
        let k := lrecOf ws
        lrecReason (took { f with lqTail := tail }) x ws k [] = none → k.place ≠ 1 → k.ord = false → k.join = 0 → k.total ≠ 0 → freeSlot x = some slot →
        ∃ t y l g, exec (.launchQueueDoorbell x.num tail) s = .next t ∧ t.out.fns = [{ f with lqTail := tail, lqHead := (f.lqHead + 1) % f.lqSize }] ∧ ctxOf t x.num = some y ∧
          y.launches = x.launches ++ [l] ∧ l.slot = slot ∧ l.seq = x.launchSeq ∧ l.entry = ws.getD 0 0 ∧ l.arg = ws.getD 1 0 ∧ l.total = k.total ∧ g ∈ partCores x ∧ l.core = g ∧
          (x.num, Instr.launchTaskGenerate x.num slot) ∈ t.pending) ∧
      (tail < f.miSize → f.miHead ≠ tail → x.running = true →
        let ws := (List.range 8).map (fun j => homeWord s (hostRingHome s f.link f.miBase f.miHead + 8 * j))
        let g := (ws.getD 1 0).toNat / 2 ^ 32 % 1024
        let len := (ws.getD 1 0).toNat % 64
        miOk x ws = true → (freeMsgFrame (coreOf s g)).isSome = true →
        ∃ t pl, exec (.messageInDoorbell x.num tail) s = .next t ∧ t.out.fns = [{ f with miTail := tail, miHead := (f.miHead + 1) % f.miSize }] ∧ pl.length = len ∧
          (∀ i, i < len → pl.getD i 0 = BitVec.ofNat 8 ((ws.getD (2 + i / 8) 0).toNat / 2 ^ (8 * (i % 8)))) ∧
          t.net = s.net ++ [{ dst := g, ctx := x.num, ent := { level := 1, work := .message (ws.getD 0 0) 0xFFFF pl, entered := 0, aged := false } }] ∧
          (g, Instr.messageArrival) ∈ t.pending) ∧
      (∀ n, let u : HostFn := { f with mqTail := (f.mqTail + min n ((f.mqHead + f.mqSize - f.mqTail) % f.mqSize)) % f.mqSize }
        (f.mqWaits = [] → exec (.messageQueueConsumed x.num n) s = .next (took u)) ∧
        (∀ w, f.mqWaits = [w] → f.mqSize ≠ 0 → (f.mqHead + 1) % f.mqSize ≠ u.mqTail → Memory.wf s.mem = true →
          farFault s (hostRingHome s f.link f.mqBase f.mqHead) = none →
          ∃ t, exec (.messageQueueConsumed x.num n) s = .next t ∧ t.out.fns = [{ u with mqHead := (f.mqHead + 1) % f.mqSize, mqWaits := [] }] ∧
            OutsideKept s t (hostRingHome s f.link f.mqBase f.mqHead) 64 ∧
            readNat t.mem (hostRingHome s f.link f.mqBase f.mqHead) 64 = w.foldr (fun d k => d.toNat + k * 2 ^ 64) 0 % 2 ^ 512)))
end

