-- ==== Sys2Proof/Laws/Memory.lean ====
section
/-! SUPPORT. Memory keeps its canonical form under each of its operations, and what a byte reads as after a write. -/

namespace Sys2Proof.Machine

/-- The canonical form as a proposition: addresses strictly rising, no blank byte listed. -/
theorem wf_iff (m : Memory) : Memory.wf m = true ↔ m.Pairwise (fun a b => a.1 < b.1) ∧ ∀ c ∈ m, c.2 ≠ blankByte := by
  simp [Memory.wf, List.all_eq_true]

theorem wf_filter {m : Memory} (p : Host.Cell → Bool) (h : Memory.wf m = true) : Memory.wf (m.filter p) = true := by
  rw [wf_iff] at h ⊢
  exact ⟨h.1.filter p, fun c hc => h.2 c ((List.mem_filter.mp hc).1)⟩

/-- Where the cells of a value lie. -/
theorem cellsOf_bounds (n : Nat) : ∀ (a v : Nat), ∀ c ∈ cellsOf a v n, a ≤ c.1 ∧ c.1 < a + n := by
  induction n with
  | zero => simp [cellsOf]
  | succ n ih =>
    intro a v c hc
    simp only [cellsOf] at hc
    split at hc
    · have := ih _ _ c hc; omega
    · rcases List.mem_cons.mp hc with rfl | hc
      · simp
      · have := ih _ _ c hc; omega

theorem wf_cellsOf (n : Nat) : ∀ (a v : Nat), Memory.wf (cellsOf a v n) = true := by
  induction n with
  | zero => intro a v; rfl
  | succ n ih =>
    intro a v
    simp only [cellsOf]
    split
    · exact ih _ _
    · rename_i hb
      have h := (wf_iff _).mp (ih (a + 1) (v >>> 8))
      refine (wf_iff _).mpr ⟨List.pairwise_cons.mpr ⟨fun c hc => ?_, h.1⟩, fun c hc => ?_⟩
      · have := cellsOf_bounds n _ _ c hc; simp only; omega
      · rcases List.mem_cons.mp hc with rfl | hc
        · exact hb
        · exact h.2 c hc

/-- Cells in canonical form written over their own span keep the form. -/
theorem wf_putSpan {m : Memory} {a n : Nat} {cs : List Host.Cell} (h : Memory.wf m = true) (hc : Memory.wf cs = true)
    (hb : ∀ c ∈ cs, a ≤ c.1 ∧ c.1 < a + n) : Memory.wf (putSpan m a n cs) = true := by
  rw [wf_iff] at h hc ⊢
  refine ⟨?_, fun c hm => ?_⟩
  · refine List.pairwise_append.mpr ⟨List.pairwise_append.mpr ⟨h.1.filter _, hc.1, fun x hx y hy => ?_⟩, h.1.filter _, fun x hx y hy => ?_⟩
    · have h1 := (List.mem_filter.mp hx).2; have h2 := hb y hy; simp at h1; omega
    · have h2 := (List.mem_filter.mp hy).2; simp at h2
      rcases List.mem_append.mp hx with hx | hx
      · have h1 := (List.mem_filter.mp hx).2; simp at h1; omega
      · have := hb x hx; omega
  · rcases List.mem_append.mp hm with hm | hm
    · rcases List.mem_append.mp hm with hm | hm
      · exact h.2 c ((List.mem_filter.mp hm).1)
      · exact hc.2 c hm
    · exact h.2 c ((List.mem_filter.mp hm).1)

theorem wf_writeNat {m : Memory} (a n v : Nat) (h : Memory.wf m = true) : Memory.wf (writeNat m a n v) = true :=
  wf_putSpan h (wf_cellsOf n a v) (cellsOf_bounds n a v)

theorem wf_copySpan {m : Memory} (src dst n : Nat) (h : Memory.wf m = true) : Memory.wf (copySpan m src dst n) = true := by
  have hp := (wf_iff _).mp h
  have hspan : ∀ c ∈ m.filter (inSpan src n), src ≤ c.1 ∧ c.1 < src + n := fun c hc => by
    have := (List.mem_filter.mp hc).2; simpa [inSpan] using this
  refine wf_putSpan h ((wf_iff _).mpr ⟨?_, ?_⟩) ?_
  · rw [List.pairwise_map]
    exact List.Pairwise.imp_of_mem (fun hx hy hxy => by have h1 := hspan _ hx; have h2 := hspan _ hy; simp only; omega) (hp.1.filter _)
  · intro c hc
    obtain ⟨d, hd, rfl⟩ := List.mem_map.mp hc
    exact hp.2 d ((List.mem_filter.mp hd).1)
  · intro c hc
    obtain ⟨d, hd, rfl⟩ := List.mem_map.mp hc
    have := hspan d hd; simp only; omega

/-- Clearing a span keeps the form. -/
theorem wf_clearSpan {m : Memory} (a n : Nat) (h : Memory.wf m = true) : Memory.wf (putSpan m a n []) = true :=
  wf_putSpan h rfl (by simp)

theorem mem_insertCell (c : Host.Cell) (m : Memory) : ∀ d ∈ insertCell c m, d = c ∨ d ∈ m := by
  induction m with
  | nil => simp [insertCell]
  | cons e r ih =>
    intro d hd
    simp only [insertCell] at hd
    split at hd
    · simpa using hd
    · split at hd
      · rcases List.mem_cons.mp hd with h | h <;> simp [h]
      · rcases List.mem_cons.mp hd with h | h
        · simp [h]
        · rcases ih d h with h | h <;> simp [h]

theorem wf_insertCell (c : Host.Cell) (m : Memory) (hc : c.2 ≠ blankByte) (h : Memory.wf m = true) : Memory.wf (insertCell c m) = true := by
  induction m with
  | nil => simp [insertCell, wf_iff, hc]
  | cons e r ih =>
    have hp := (wf_iff _).mp h
    have hr := List.pairwise_cons.mp hp.1
    simp only [insertCell]
    split
    · rename_i hlt
      refine (wf_iff _).mpr ⟨List.pairwise_cons.mpr ⟨fun d hd => ?_, hp.1⟩, fun d hd => ?_⟩
      · rcases List.mem_cons.mp hd with rfl | hd
        · exact hlt
        · have := hr.1 d hd; omega
      · rcases List.mem_cons.mp hd with rfl | hd
        · exact hc
        · exact hp.2 d hd
    · split
      · rename_i heq
        refine (wf_iff _).mpr ⟨List.pairwise_cons.mpr ⟨fun d hd => by rw [heq]; exact hr.1 d hd, hr.2⟩, fun d hd => ?_⟩
        rcases List.mem_cons.mp hd with rfl | hd
        · exact hc
        · exact hp.2 d (List.mem_cons_of_mem _ hd)
      · have ht := (wf_iff _).mp (ih ((wf_iff _).mpr ⟨hr.2, fun d hd => hp.2 d (List.mem_cons_of_mem _ hd)⟩))
        refine (wf_iff _).mpr ⟨List.pairwise_cons.mpr ⟨fun d hd => ?_, ht.1⟩, fun d hd => ?_⟩
        · rcases mem_insertCell c r d hd with rfl | hd
          · omega
          · exact hr.1 d hd
        · rcases List.mem_cons.mp hd with rfl | hd
          · exact hp.2 _ (List.mem_cons_self ..)
          · exact ht.2 d hd

theorem wf_foldInsert (f : Nat → Nat) (cs : List Host.Cell) : ∀ (m : Memory), (∀ c ∈ cs, c.2 ≠ blankByte) → Memory.wf m = true →
    Memory.wf (cs.foldl (fun m c => insertCell (f c.1, c.2) m) m) = true := by
  induction cs with
  | nil => intro m _ h; exact h
  | cons c r ih =>
    intro m hc h
    exact ih _ (fun d hd => hc d (List.mem_cons_of_mem _ hd)) (wf_insertCell _ m (hc c (List.mem_cons_self ..)) h)

/-- A band's change of mode keeps the form. -/
theorem wf_flipBytes (s : State) (b : Nat) (h : Memory.wf s.mem = true) : Memory.wf (flipBytes s b) = true :=
  wf_foldInsert _ _ _ (fun c hc => ((wf_iff _).mp h).2 c (List.mem_filter.mp hc).1) (wf_filter _ h)

/-! ## Operations of the state -/

@[simp] theorem watchWrite_mem (s : State) (a n : Nat) : (watchWrite s a n).mem = s.mem := by
  unfold watchWrite; split <;> rfl

@[simp] theorem homeWrite_mem (s : State) (a n v : Nat) : (homeWrite s a n v).mem = writeNat s.mem a n v := by simp [homeWrite]
@[simp] theorem homeCopy_mem (s : State) (src dst n : Nat) : (homeCopy s src dst n).mem = copySpan s.mem src dst n := by simp [homeCopy]

theorem wf_homeWrite (s : State) (a n v : Nat) (h : Memory.wf s.mem = true) : Memory.wf (homeWrite s a n v).mem = true := by
  rw [homeWrite_mem]; exact wf_writeNat _ _ _ h
theorem wf_homeCopy (s : State) (src dst n : Nat) (h : Memory.wf s.mem = true) : Memory.wf (homeCopy s src dst n).mem = true := by
  rw [homeCopy_mem]; exact wf_copySpan _ _ _ h

/-- A fetch word placed for a program keeps the form. -/
theorem wf_placeWord (s : State) (w : Nat) (h : Memory.wf s.mem = true) : Memory.wf (placeWord s w).mem = true := wf_writeNat _ _ _ h

/-! ## What a byte reads as -/

theorem readByte_append (xs ys : Memory) (a : Nat) (h : ∀ c ∈ xs, c.1 ≠ a) : readByte (xs ++ ys) a = readByte ys a := by
  have : xs.find? (fun c => c.1 == a) = none := List.find?_eq_none.mpr (fun c hc => by simpa using h c hc)
  simp [readByte, List.find?_append, this]

theorem readByte_append_left (xs ys : Memory) (a : Nat) (h : ∀ c ∈ ys, c.1 ≠ a) : readByte (xs ++ ys) a = readByte xs a := by
  have : ys.find? (fun c => c.1 == a) = none := List.find?_eq_none.mpr (fun c hc => by simpa using h c hc)
  simp [readByte, List.find?_append, this]

theorem readByte_filter (m : Memory) (p : Nat → Bool) (a : Nat) (h : p a = true) : readByte (m.filter (fun c => p c.1)) a = readByte m a := by
  have : (m.filter (fun c => p c.1)).find? (fun c => c.1 == a) = m.find? (fun c => c.1 == a) := by
    rw [List.find?_filter]
    congr 1; funext c
    by_cases hc : c.1 = a
    · simp [hc, h]
    · simp [hc]
  simp [readByte, this]

theorem readByte_none (m : Memory) (a : Nat) (h : ∀ c ∈ m, c.1 ≠ a) : readByte m a = blankByte := by
  have := readByte_append m [] a h
  simpa [readByte] using this

/-- Outside the written span a byte reads as before. -/
theorem readByte_putSpan_outside {m : Memory} {a n b : Nat} {cs : List Host.Cell} (hb : ∀ c ∈ cs, a ≤ c.1 ∧ c.1 < a + n)
    (h : b < a ∨ a + n ≤ b) : readByte (putSpan m a n cs) b = readByte m b := by
  have hcs : ∀ c ∈ cs, c.1 ≠ b := fun c hc => by have := hb c hc; omega
  unfold putSpan
  rcases h with h | h
  · rw [readByte_append_left, readByte_append_left _ _ _ hcs]
    · exact readByte_filter m (fun x => decide (x < a)) b (by simpa using h)
    · intro c hc; have := (List.mem_filter.mp hc).2; simp at this; omega
  · rw [List.append_assoc, readByte_append, readByte_append _ _ _ hcs]
    · exact readByte_filter m (fun x => decide (a + n ≤ x)) b (by simpa using h)
    · intro c hc; have := (List.mem_filter.mp hc).2; simp at this; omega

/-- Inside it a byte reads as the written cells say. -/
theorem readByte_putSpan_inside {m : Memory} {a n b : Nat} {cs : List Host.Cell} (h : a ≤ b ∧ b < a + n) :
    readByte (putSpan m a n cs) b = readByte cs b := by
  unfold putSpan
  rw [readByte_append_left, readByte_append]
  · intro c hc; have := (List.mem_filter.mp hc).2; simp at this; omega
  · intro c hc; have := (List.mem_filter.mp hc).2; simp at this; omega

theorem readByte_cellsOf (n : Nat) : ∀ (a v i : Nat), i < n → readByte (cellsOf a v n) (a + i) = BitVec.ofNat 8 (v >>> (8 * i)) := by
  induction n with
  | zero => omega
  | succ n ih =>
    intro a v i hi
    have ht : ∀ j, j < n → readByte (cellsOf (a + 1) (v >>> 8) n) (a + (j + 1)) = BitVec.ofNat 8 (v >>> (8 * (j + 1))) := by
      intro j hj
      have := ih (a + 1) (v >>> 8) j hj
      rw [← Nat.shiftRight_add] at this
      rw [show a + (j + 1) = a + 1 + j by omega, this, show 8 + 8 * j = 8 * (j + 1) by omega]
    simp only [cellsOf]
    split
    · rename_i hb
      cases i with
      | zero => rw [readByte_none]; · simpa using hb.symm
                intro c hc; have := cellsOf_bounds n _ _ c hc; omega
      | succ j => exact ht j (by omega)
    · cases i with
      | zero => simp [readByte]
      | succ j =>
        rw [show (a, BitVec.ofNat 8 v) :: cellsOf (a + 1) (v >>> 8) n = [(a, BitVec.ofNat 8 v)] ++ cellsOf (a + 1) (v >>> 8) n from rfl,
          readByte_append _ _ _ (by simp)]
        exact ht j (by omega)

theorem readByte_writeNat_outside (m : Memory) (a n v b : Nat) (h : b < a ∨ a + n ≤ b) : readByte (writeNat m a n v) b = readByte m b :=
  readByte_putSpan_outside (cellsOf_bounds n a v) h

theorem readByte_writeNat_inside (m : Memory) (a n v i : Nat) (h : i < n) :
    readByte (writeNat m a n v) (a + i) = BitVec.ofNat 8 (v >>> (8 * i)) := by
  unfold writeNat
  rw [readByte_putSpan_inside ⟨by omega, by omega⟩]
  exact readByte_cellsOf n a v i h

end Sys2Proof.Machine
end

