-- ==== Sys2Proof/Laws/Kept.lean ====
section
/-! SUPPORT. What the shared operations do to memory: those that leave it, and that those that write it keep its canonical form. -/

namespace Sys2Proof.Machine

/-! ## Operations that leave memory -/

@[simp] theorem setCore_mem (s : State) (g : Nat) (c : Core) : (setCore s g c).mem = s.mem := by unfold setCore; split <;> rfl
@[simp] theorem updCore_mem (s : State) (g : Nat) (f : Core → Core) : (updCore s g f).mem = s.mem := setCore_mem _ _ _
@[simp] theorem updCtx_mem (s : State) (n : Nat) (f : Ctx → Ctx) : (updCtx s n f).mem = s.mem := rfl
@[simp] theorem updLaunch_mem (s : State) (cx n : Nat) (f : Launch → Launch) : (updLaunch s cx n f).mem = s.mem := rfl
@[simp] theorem dropPages_mem (s : State) (cl : Nat) (p : Page → Bool) : (dropPages s cl p).mem = s.mem := rfl
@[simp] theorem dropEverywhere_mem (s : State) (p : Page → Bool) : (dropEverywhere s p).mem = s.mem := rfl
@[simp] theorem insertPage_mem (s : State) (cl : Nat) (p : Page) : (insertPage s cl p).mem = s.mem := rfl
@[simp] theorem setCmd_mem (s : State) (c : Cmd) : (setCmd s c).mem = s.mem := rfl
@[simp] theorem sendRec_mem (s : State) (cx g : Nat) (r : Rec) : (sendRec s cx g r).mem = s.mem := rfl
@[simp] theorem reportLost_mem (s : State) (f : BitVec 8) (va : Word) : (reportLost s f va).mem = s.mem := rfl
@[simp] theorem updTask_mem (s : State) (cx g : Nat) (f : Core → Core) : (updTask s cx g f).mem = s.mem := by
  unfold updTask; dsimp only; split
  · exact updCore_mem _ _ _
  · rfl
@[simp] theorem updPort_mem (s : State) (c : Cmd) (f : Port → Port) : (updPort s c f).mem = s.mem := updTask_mem _ _ _ _
@[simp] theorem portDone_mem (s : State) (c : Cmd) : (portDone s c).mem = s.mem := updPort_mem _ _ _
@[simp] theorem leaveCore_mem (s : State) : (leaveCore s).mem = s.mem := rfl
@[simp] theorem loadTask_mem (s : State) (t : TaskState) : (loadTask s t).mem = s.mem := rfl

@[simp] theorem touchTlb_mem (s : State) (va : Nat) : (s.touchTlb va).mem = s.mem := by
  unfold State.touchTlb; split
  · rfl
  · split <;> rfl
@[simp] theorem emitAs_mem (op : Option AtomicOp) (rel : Bool) (s : State) (cx : Nat) (w : Bool) (h n : Nat) (r : Bool) :
    (emitAs op rel s cx w h n r).mem = s.mem := by unfold emitAs; split <;> rfl
@[simp] theorem emit_mem (s : State) (cx : Nat) (w : Bool) (h n : Nat) (r : Bool) : (emit s cx w h n r).mem = s.mem := emitAs_mem _ _ _ _ _ _ _ _
@[simp] theorem noteFarWrite_mem (op : Option AtomicOp) (s : State) (h n : Nat) (r : Bool) : (noteFarWrite op s h n r).mem = s.mem := by
  unfold noteFarWrite; dsimp only; split <;> exact emitAs_mem _ _ _ _ _ _ _ _
@[simp] theorem noteHostWrite_mem (s : State) (h n : Nat) (r : Bool) : (noteHostWrite s h n r).mem = s.mem := noteFarWrite_mem _ _ _ _ _
@[simp] theorem awaitAckOf_mem (nt : Bool) (b s : State) (h : Nat) : (awaitAckOf nt b s h).mem = s.mem := by unfold awaitAckOf; dsimp only; split <;> rfl
@[simp] theorem awaitAck_mem (b s : State) (h : Nat) : (awaitAck b s h).mem = s.mem := awaitAckOf_mem false b s h
@[simp] theorem loseEvicted_mem (s : State) (n : Nat) : (loseEvicted s n).mem = s.mem := by unfold loseEvicted; split <;> rfl
@[simp] theorem loadLine_mem (s : State) (a n : Nat) (al : Bool) : (loadLine s a n al).mem = s.mem := by
  unfold loadLine; split
  · exact loseEvicted_mem _ _
  · rfl
@[simp] theorem readBy_mem (s : State) (cx h n : Nat) : (readBy s cx h n).mem = s.mem := by
  unfold readBy; rw [emit_mem]
  generalize linePieces h n = l
  induction l generalizing s with
  | nil => rfl
  | cons p r ih => rw [List.foldl_cons, ih, loadLine_mem]
@[simp] theorem rehome_mem (s : State) (p : Page) (o : Option Nat) : (rehome s p o).mem = s.mem := rfl
@[simp] theorem storeLine_mem (s : State) (a n : Nat) (t : Bool) : (storeLine s a n t).mem = s.mem := by
  unfold storeLine; split
  · exact loseEvicted_mem _ _
  · rfl
@[simp] theorem dueForks_mem (s : State) : (dueForks s).mem = s.mem := by unfold dueForks; split <;> rfl
@[simp] theorem sendPacket_mem (s : State) (p : Packet) : (sendPacket s p).mem = s.mem := by
  unfold sendPacket; split
  · rfl
  · exact dueForks_mem _
theorem freeSpan_succ (s : State) (k : Nat) :
    freeSpan s (k + 1) = ((freeNext s).1.toNat + (freeSpan (freeNext s).2 k).1 * 2 ^ 64, (freeSpan (freeNext s).2 k).2) := by rw [freeSpan]
theorem freeSpan_state (k : Nat) : ∀ s : State, (freeSpan s k).2 = { s with freeCtr := s.freeCtr + k } := by
  induction k with
  | zero => exact fun _ => rfl
  | succ k ih => intro s; simp only [freeSpan_succ, ih, freeNext, Nat.add_assoc, Nat.add_comm 1 k]
@[simp] theorem freeSpan_mem (k : Nat) (s : State) : (freeSpan s k).2.mem = s.mem := by rw [freeSpan_state]
@[simp] theorem releaseMsg_mem (s : State) (m : Option Nat) : (releaseMsg s m).mem = s.mem := by unfold releaseMsg; split <;> rfl
@[simp] theorem carryThrough_mem (s : State) : (carryThrough s).mem = s.mem := by unfold carryThrough; dsimp only; split <;> rfl

@[simp] theorem enqueueFront_mem (s : State) (cx g : Nat) (e : QEntry) : (enqueueFront s cx g e).mem = s.mem := by
  unfold enqueueFront; dsimp only; split
  · exact setCore_mem _ _ _
  · split
    · exact setCore_mem _ _ _
    · rfl
@[simp] theorem enqueueShared_mem (s : State) (cx cl : Nat) (e : QEntry) : (enqueueShared s cx cl e).mem = s.mem := by
  unfold enqueueShared; dsimp only; split
  · rfl
  · split <;> rfl

/-! ## Operations that write it -/

theorem wf_ringPush (s : State) (g : Nat) (e : QEntry) (hm : Memory.wf s.mem = true) : Memory.wf (ringPush s g e).mem = true := by
  unfold ringPush; dsimp only; rw [updCore_mem]
  repeat' split
  all_goals first
    | exact wf_homeWrite _ _ _ _ hm
    | exact wf_homeWrite _ _ _ _ (by rw [freeSpan_mem]; exact hm)
/-- An entry that the core's on-core queue, or the device-memory queue, takes writes no memory; one that the overflow ring takes writes its slot. -/
theorem wf_enqueue (s : State) (cx g : Nat) (e : QEntry) (hm : Memory.wf s.mem = true) : Memory.wf (enqueue s cx g e).mem = true := by
  unfold enqueue; dsimp only
  repeat' split
  all_goals first
    | exact hm
    | (rw [setCore_mem]; exact hm)
    | exact wf_ringPush _ _ _ hm
theorem wf_raiseUpcall (s : State) (cx g : Nat) (i : TrapInfo) (hm : Memory.wf s.mem = true) : Memory.wf (raiseUpcall s cx g i).mem = true :=
  wf_enqueue _ _ _ _ hm
theorem wf_postAt (s : State) (cx : Nat) (cr name : Word) (g : Nat) (hm : Memory.wf s.mem = true) : Memory.wf (postAt s cx cr name g).mem = true := by
  unfold postAt; dsimp only
  repeat' split
  all_goals first
    | exact hm
    | exact wf_raiseUpcall _ _ _ _ hm

theorem wf_performWrite (s : State) (h n v : Nat) (t : Bool) (hm : Memory.wf s.mem = true) : Memory.wf (performWrite s h n v t).mem = true := by
  unfold performWrite; exact wf_homeWrite _ _ _ _ (by rw [storeLine_mem]; exact hm)
@[simp] theorem performWrite_mem (s : State) (h n v : Nat) (t : Bool) : (performWrite s h n v t).mem = writeNat s.mem h n v := by
  unfold performWrite; rw [homeWrite_mem, storeLine_mem]

/-- Steps that each leave memory. -/
theorem foldl_mem {α : Type} (f : State → α → State) (h : ∀ s a, (f s a).mem = s.mem) (l : List α) : ∀ s : State, (l.foldl f s).mem = s.mem := by
  induction l with
  | nil => exact fun _ => rfl
  | cons a r ih => exact fun s => (ih _).trans (h s a)

theorem wf_moveBytes (s : State) (src dst n : Nat) (hm : Memory.wf s.mem = true) : Memory.wf (moveBytes s src dst n).mem = true := by
  unfold moveBytes
  refine wf_homeCopy _ _ _ _ ?_
  rw [foldl_mem _ (fun _ _ => storeLine_mem _ _ _ _), foldl_mem _ (fun _ _ => loadLine_mem _ _ _ _)]; exact hm
theorem wf_putBytes (s : State) (dst n v : Nat) (hm : Memory.wf s.mem = true) : Memory.wf (putBytes s dst n v).mem = true :=
  wf_homeWrite _ _ _ _ (by rw [storeLine_mem]; exact hm)

theorem wf_joinDec (s : State) (cx h : Nat) (name : Word) (g : Nat) (pc : Word) (hm : Memory.wf s.mem = true) :
    Memory.wf (joinDec s cx h name g pc).mem = true := by
  have hw : ∀ v, Memory.wf (homeWrite (storeLine s h 4 false) h 4 v).mem = true := fun v => wf_homeWrite _ _ _ _ (by rw [storeLine_mem]; exact hm)
  unfold joinDec; dsimp only; split
  · exact wf_raiseUpcall _ _ _ _ hm
  · split
    · exact wf_raiseUpcall _ _ _ _ hm
    · split
      · exact wf_postAt _ _ _ _ _ (by rw [loadLine_mem]; exact hw _)
      · exact hw _
theorem wf_barrierSettle (s : State) (cx g off arr ex : Nat) (fresh : Bool) (name : Word) (i : Nat) (hm : Memory.wf s.mem = true) :
    Memory.wf (barrierSettle s cx g off arr ex fresh name i).mem = true := by
  unfold barrierSettle; dsimp only; split
  · exact wf_postAt _ _ _ _ _ (wf_homeWrite _ _ _ _ hm)
  · split
    · exact wf_raiseUpcall _ _ _ _ (wf_homeWrite _ _ _ _ hm)
    · exact wf_homeWrite _ _ _ _ hm
theorem wf_barrierArrive (s : State) (cx g off n : Nat) (name : Word) (i : Nat) (hm : Memory.wf s.mem = true) :
    Memory.wf (barrierArrive s cx g off n name i).mem = true := wf_barrierSettle _ _ _ _ _ _ _ _ _ hm
theorem wf_barrierArm (s : State) (cx g off ex : Nat) (cr name : Word) (i : Nat) (hm : Memory.wf s.mem = true) :
    Memory.wf (barrierArm s cx g off ex cr name i).mem = true := by
  unfold barrierArm; dsimp only; split
  · exact wf_raiseUpcall _ _ _ _ hm
  · exact wf_barrierSettle _ _ _ _ _ _ _ _ _ (wf_homeWrite _ _ _ _ hm)

theorem wf_resolveCow {s t : State} {p q : Page} (h : resolveCow s p = some (t, q)) (hm : Memory.wf s.mem = true) : Memory.wf t.mem = true := by
  unfold resolveCow at h; dsimp only at h; split at h
  · cases h; exact hm
  · split at h
    · cases h
    · obtain ⟨_, -, e⟩ := Option.map_eq_some_iff.1 h
      cases e; simpa using wf_homeCopy _ _ _ _ hm
theorem wf_walk {s t : State} {cx va : Nat} {w f : Bool} {p : Page} (h : walk s cx va w f = .ok (t, p)) (hm : Memory.wf s.mem = true) :
    Memory.wf t.mem = true := by
  unfold walk at h
  repeat' split at h
  all_goals first
    | (cases h; exact hm)
    | (cases h; exact wf_resolveCow ‹_› hm)
    | cases h

theorem wf_engineHome {s t : State} {c : Cmd} {va h : Nat} {w : Bool} (e : engineHome s c va w = .ok (t, h)) (hm : Memory.wf s.mem = true) :
    Memory.wf t.mem = true := by
  unfold engineHome at e
  dsimp only at e
  repeat' split at e
  all_goals first
    | (cases e; first | exact hm | (rw [insertPage_mem]; exact wf_walk (by assumption) hm))
    | cases e

/-! ## A command's pieces (04 R82, R89-R95) -/

theorem wf_movePiece (s : State) (c : Cmd) (a b n : Nat) (hm : Memory.wf s.mem = true) : Memory.wf (movePiece s c a b n).1.mem = true := by
  unfold movePiece; dsimp only
  split
  · split <;> exact hm
  · have h1 := wf_engineHome ‹_› hm
    split
    · split <;> exact h1
    · simpa using wf_moveBytes _ _ _ _ (wf_engineHome ‹_› h1)
theorem wf_fillPiece (s : State) (c : Cmd) (d n v : Nat) (hm : Memory.wf s.mem = true) : Memory.wf (fillPiece s c d n v).1.mem = true := by
  unfold fillPiece; split
  · split <;> exact hm
  · simpa using wf_putBytes _ _ _ _ (wf_engineHome ‹_› hm)
theorem wf_mcastPiece (s : State) (c : Cmd) (hm : Memory.wf s.mem = true) : Memory.wf (mcastPiece s c).1.mem = true := by
  unfold mcastPiece; dsimp only; split
  · split <;> exact hm
  · simp only [sendPacket_mem, readBy_mem]
    exact wf_engineHome ‹_› hm
theorem wf_btwalkPiece (s : State) (c : Cmd) (hm : Memory.wf s.mem = true) : Memory.wf (btwalkPiece s c).1.mem = true := by
  unfold btwalkPiece; dsimp only; split
  · split <;> exact hm
  · have h1 := wf_engineHome ‹_› hm
    have h2 : ∀ h, Memory.wf (readBy _ c.ctx h 8).mem = true := fun h => (congrArg Memory.wf (readBy_mem _ c.ctx h 8)).trans h1
    split
    · split
      · exact wf_fillPiece _ _ _ _ _ (h2 _)
      · split
        · exact h2 _
        · exact wf_movePiece _ _ _ _ _ (h2 _)
    · split
      · exact wf_fillPiece _ _ _ _ _ h1
      · split
        · exact h1
        · exact wf_movePiece _ _ _ _ _ h1
theorem wf_gatherPiece (s : State) (c : Cmd) (hm : Memory.wf s.mem = true) : Memory.wf (gatherPiece s c).1.mem = true := by
  unfold gatherPiece; dsimp only
  split
  · split <;> exact hm
  · have h1 := wf_engineHome ‹_› hm
    repeat' split
    all_goals first
      | exact h1
      | exact wf_engineHome ‹_› h1
      | exact wf_engineHome ‹_› (wf_engineHome ‹_› h1)
      | simpa using wf_moveBytes _ _ _ _ (wf_engineHome ‹_› (wf_engineHome ‹_› h1))
theorem wf_readEntry (s : State) (c : Cmd) (hm : Memory.wf s.mem = true) : Memory.wf (c.readEntry s).mem = true := by
  unfold Cmd.readEntry; split
  · exact hm
  · split
    · rw [readBy_mem]; exact wf_engineHome ‹_› hm
    · exact hm
theorem wf_layerPiece (s : State) (c : Cmd) (hm : Memory.wf s.mem = true) : Memory.wf (layerPiece s c).1.mem = true := by
  unfold layerPiece; split
  · split <;> exact hm
  · exact wf_movePiece _ _ _ _ _ (wf_readEntry _ _ hm)
theorem wf_sweepHome {s t : State} {c : Cmd} {h : Nat} (e : sweepHome s c = .ok (t, h)) (hm : Memory.wf s.mem = true) : Memory.wf t.mem = true := by
  unfold sweepHome at e
  repeat' split at e
  all_goals first
    | (cases e; first | exact hm | exact wf_engineHome ‹_› hm)
    | cases e
theorem wf_sweepPiece (s : State) (c : Cmd) (hm : Memory.wf s.mem = true) : Memory.wf (sweepPiece s c).1.mem = true := by
  unfold sweepPiece; dsimp only
  split
  · exact hm
  · split
    · split <;> exact hm
    · have h1 := wf_sweepHome ‹_› hm
      repeat' split
      all_goals first
        | exact hm
        | exact h1
        | (dsimp only; rw [loadLine_mem]; exact h1)
        | exact wf_putBytes _ _ _ _ (by rw [loadLine_mem]; exact h1)
theorem wf_evictPiece (s : State) (c : Cmd) (hm : Memory.wf s.mem = true) : Memory.wf (evictPiece s c).1.mem = true := by
  unfold evictPiece; dsimp only
  split
  · exact hm
  · exact wf_readEntry _ _ hm
theorem wf_ptloadPiece (s : State) (c : Cmd) (hm : Memory.wf s.mem = true) : Memory.wf (ptloadPiece s c).1.mem = true := by
  unfold ptloadPiece; dsimp only; split
  · split <;> exact hm
  · split <;> exact (congrArg Memory.wf (readBy_mem _ _ _ _)).trans (wf_engineHome ‹_› hm)

theorem wf_movePart (s : State) (c : Cmd) (hm : Memory.wf s.mem = true) : Memory.wf (movePart s c).1.mem = true := by
  unfold movePart; dsimp only; split
  · exact wf_movePiece _ _ _ _ _ hm
  · exact wf_movePiece _ _ _ _ _ hm
  · exact wf_fillPiece _ _ _ _ _ hm
  · exact wf_mcastPiece _ _ hm
  · exact wf_gatherPiece _ _ hm
  · exact wf_btwalkPiece _ _ hm
  · exact wf_layerPiece _ _ hm
  · exact wf_sweepPiece _ _ hm
  · exact wf_evictPiece _ _ hm
  · exact wf_ptloadPiece _ _ hm
  · exact hm
theorem wf_moveOne (s : State) (c : Cmd) (hm : Memory.wf s.mem = true) : Memory.wf (moveOne s c).1.mem = true := by
  unfold moveOne; split
  · exact hm
  · split
    · exact hm
    · exact wf_movePart _ _ hm
theorem wf_moveMany (k : Nat) : ∀ (s : State) (c : Cmd), Memory.wf s.mem = true → Memory.wf (moveMany k s c).1.mem = true := by
  induction k with
  | zero => exact fun _ _ h => h
  | succ k ih =>
    intro s c h
    unfold moveMany; dsimp only; split
    · exact wf_moveOne _ _ h
    · exact ih _ _ (wf_moveOne _ _ h)
theorem wf_finishCmds (cs : List Cmd) : ∀ s : State, Memory.wf s.mem = true → Memory.wf (finishCmds cs s).mem = true := by
  induction cs with
  | nil => exact fun _ h => h
  | cons c r ih => exact fun s h => ih _ (by rw [setCmd_mem]; exact wf_moveMany _ _ _ h)

/-! ## Accesses -/

theorem wf_settleAmong (p : Cmd → Bool) (s : State) (a n : Nat) (w : Bool) (hm : Memory.wf s.mem = true) : Memory.wf (settleAmong p s a n w).1.mem = true := by
  unfold settleAmong; dsimp only; split
  · exact hm
  · exact wf_finishCmds _ _ hm
theorem wf_settle (s : State) (a n : Nat) (w : Bool) (hm : Memory.wf s.mem = true) : Memory.wf (settle s a n w).1.mem = true := by
  unfold settle; split
  · exact hm
  · exact wf_settleAmong _ _ _ _ _ hm

/-- In a calm state an access goes on at once. -/
theorem settleAmong_calm {s : State} (hc : Calm s) (p : Cmd → Bool) (a n : Nat) (w : Bool) : settleAmong p s a n w = (s, true) := by
  simp [settleAmong, hc.cmds, sortCmds]
theorem settle_calm {s : State} (hc : Calm s) (a n : Nat) (w : Bool) : settle s a n w = (s, true) := by
  have h : lineLocked s a n = false := by
    simp only [lineLocked, lineShut, hc.waiting, List.any_nil, Bool.or_false, List.any_eq_false]; intro l hm; simp [hc.lines l hm]
  simp [settle, h, settleAmong_calm hc]
theorem behindSends_calm {s : State} (hc : Calm s) (a : Nat) : behindSends s a = false := by simp [behindSends, hc.forks, hc.sent]
theorem reach_calm {s : State} (hc : Calm s) (a n : Nat) (w : Bool) : reach s a n w = (s, true) := by
  have h : sliceShut s a = false := by simp [sliceShut, intakeStopped, hc.waiting, hc.stop]
  simp [reach, h, settle_calm hc, behindSends_calm hc, hc.waiting]
theorem loadRoom_calm {s : State} (hc : Calm s) : loadRoom s = true := by simp [loadRoom, loadRoomFor, loadsOut, hc.waiting, hc.stop]
theorem wf_reach (s : State) (a n : Nat) (w : Bool) (hm : Memory.wf s.mem = true) : Memory.wf (reach s a n w).1.mem = true := by
  unfold reach; dsimp only
  repeat' split
  all_goals first
    | exact hm
    | exact wf_settle _ _ _ _ hm
    | exact wf_settleAmong _ _ _ _ _ hm

/-- The value of an access that was issued before leaves all but the values kept. -/
theorem useValue_frame {s t : State} {va : Word} {h n v : Nat} {r : Resp} {rest : List Resp} (e : useValue s va h n r rest = .ok (t, v)) :
    t = { s with core := { s.core with sched := { s.core.sched with returns := rest } } } := by
  unfold useValue at e
  repeat' split at e
  all_goals first
    | (cases e; rfl)
    | cases e
theorem useValue_mem {s t : State} {va : Word} {h n v : Nat} {r : Resp} {rest : List Resp} (e : useValue s va h n r rest = .ok (t, v)) :
    t.mem = s.mem := by rw [useValue_frame e]
theorem farAnswer_mem {l : Bool} {op : Option AtomicOp} {s t : State} {va : Word} {h n v : Nat} (e : farAnswer l op s va h n = .ok (t, v)) :
    t.mem = s.mem := by
  unfold farAnswer at e
  repeat' split at e
  all_goals first
    | exact useValue_mem e
    | cases e
theorem wf_loadWith {a : Bool} {s t : State} {ac : Access} {v : Nat} (e : loadWith a s ac = .ok (t, v)) (hm : Memory.wf s.mem = true) :
    Memory.wf t.mem = true := by
  unfold loadWith at e
  dsimp only at e
  repeat' split at e
  all_goals first
    | (rw [useValue_mem e]; exact hm)
    | (cases e; first
        | exact hm
        | (rw [touchTlb_mem, farAnswer_mem ‹_›]; exact hm)
        | (rw [touchTlb_mem, loadLine_mem]; exact wf_reach _ _ _ _ hm))
    | cases e

theorem wf_jwrite (g : Nat) (es : List (Word × Word)) : ∀ (s : State) (i : Nat), Memory.wf s.mem = true → Memory.wf (jwrite s g i es).mem = true := by
  induction es with
  | nil => exact fun _ _ h => wf_homeWrite _ _ _ _ h
  | cons e r ih => exact fun s i h => ih _ _ (wf_homeWrite _ _ _ _ (wf_homeWrite _ _ _ _ h))
theorem wf_jappend {s t : State} {es : List (Word × Word)} (e : jappend s es = some t) (hm : Memory.wf s.mem = true) : Memory.wf t.mem = true := by
  unfold jappend at e; dsimp only at e
  repeat' split at e
  all_goals first
    | (cases e; exact wf_jwrite _ _ _ _ hm)
    | cases e
theorem wf_jstore {s t : State} {va n v : Nat} (e : jstore s va n v = some t) (hm : Memory.wf s.mem = true) : Memory.wf t.mem = true := by
  unfold jstore at e; dsimp only at e
  repeat' split at e
  all_goals first
    | (cases e; exact wf_homeWrite _ _ _ _ (wf_homeWrite _ _ _ _ hm))
    | exact wf_jappend e hm

theorem wf_actOnTarget {s t : State} {c : Cmd} (e : actOnTarget s c = .ok t) (hm : Memory.wf s.mem = true) : Memory.wf t.mem = true := by
  unfold actOnTarget at e; dsimp only at e
  repeat' split at e
  all_goals first
    | (cases e; first
        | exact hm
        | exact wf_barrierArrive _ _ _ _ _ _ _ (wf_settleAmong _ _ _ _ _ (wf_engineHome ‹_› hm))
        | exact wf_joinDec _ _ _ _ _ _ (wf_settleAmong _ _ _ _ _ (wf_engineHome ‹_› hm)))
    | cases e
theorem wf_resumedCmd {s t : State} {c r : Cmd} (e : resumedCmd s c = .ok (t, r)) (hm : Memory.wf s.mem = true) : Memory.wf t.mem = true := by
  unfold resumedCmd at e; dsimp only at e
  repeat' split at e
  all_goals first
    | (cases e; rw [readBy_mem]; exact wf_settle _ _ _ _ (wf_engineHome ‹_› hm))
    | cases e
/-- The state in which a command is accepted: a RESUME has read its record. -/
theorem wf_readRecord (s : State) (c : Cmd) (k : Nat) (hm : Memory.wf s.mem = true) :
    Memory.wf (((resumedCmd s c).toOption.map (fun r => (dropAsks r.1 c.ctx k, r.2))).getD (s, c)).1.mem = true := by
  cases e : resumedCmd s c with
  | error b => exact hm
  | ok r => exact wf_resumedCmd (t := r.1) (r := r.2) e hm
theorem wf_acceptCmd (s : State) (c : Cmd) (hm : Memory.wf s.mem = true) : Memory.wf (acceptCmd s c).mem = true := by
  have h0 : Memory.wf (if c.code = 0xA then ((resumedCmd s c).toOption.map (fun r => (dropAsks r.1 c.ctx (recordKey c.core), r.2))).getD (s, c)
      else (s, c)).1.mem = true := by
    split
    · exact wf_readRecord _ _ _ hm
    · exact hm
  unfold acceptCmd
  generalize (if c.code = 0xA then ((resumedCmd s c).toOption.map (fun r => (dropAsks r.1 c.ctx (recordKey c.core), r.2))).getD (s, c)
      else (s, c)) = r at h0
  dsimp only
  repeat' split
  all_goals first
    | exact h0
    | (rw [portDone_mem]; refine wf_actOnTarget (by assumption) ?_; exact h0)
theorem wf_acceptGo {s t : State} {w : Word} (e : acceptGo s w = .ok t) (hm : Memory.wf s.mem = true) : Memory.wf t.mem = true := by
  unfold acceptGo at e; dsimp only at e
  repeat' split at e
  all_goals first
    | (cases e; exact wf_acceptCmd _ _ hm)
    | cases e

theorem wf_jcommand {s t : State} {w : Word} (e : jcommand s w = some t) (hm : Memory.wf s.mem = true) : Memory.wf t.mem = true := by
  unfold jcommand at e; simp only [Option.map_eq_some_iff] at e
  obtain ⟨u, hu, rfl⟩ := e
  exact wf_jappend (t := u) hu hm
theorem wf_portStore {s t : State} {off : Nat} {v : Word} (e : portStore s off v = .ok t) (hm : Memory.wf s.mem = true) : Memory.wf t.mem = true := by
  unfold portStore at e; dsimp only at e
  repeat' split at e
  all_goals first
    | (cases e; first | exact hm | exact wf_jcommand ‹_› hm | exact wf_acceptGo ‹_› hm)
    | cases e
theorem wf_storeWith {a b : Bool} {s t : State} {ac : Access} {v : Nat} (e : storeWith a b s ac v = .ok t) (hm : Memory.wf s.mem = true) :
    Memory.wf t.mem = true := by
  unfold storeWith at e
  dsimp only at e
  repeat' split at e
  all_goals first
    | exact wf_portStore e hm
    | (cases e; first
        | (rw [touchTlb_mem]; exact wf_jstore ‹_› hm)
        | exact hm
        | (rw [awaitAckOf_mem, touchTlb_mem, noteHostWrite_mem]; exact wf_performWrite _ _ _ _ _ (wf_reach _ _ _ _ hm)))
    | cases e
theorem wf_atomicAt {s t : State} {ac : Access} {h v : Nat} {f : Nat → Option Nat} (e : atomicAt s ac h f = .ok (t, v)) (hm : Memory.wf s.mem = true) :
    Memory.wf t.mem = true := by
  unfold atomicAt at e
  dsimp only at e
  repeat' split at e
  all_goals first
    | (cases e; rw [touchTlb_mem]; first
        | exact wf_performWrite _ _ _ _ _ (by rw [loadLine_mem]; exact wf_reach _ _ _ _ hm)
        | (rw [loadLine_mem]; exact wf_reach _ _ _ _ hm))
    | cases e

/-! ## Exceptions -/

theorem wf_writeFrame (s : State) (g n : Nat) (t : TaskState) (k : BitVec 2) (c : BitVec 8) (x : BitVec 3) (hm : Memory.wf s.mem = true) :
    Memory.wf (writeFrame s g n t k c x).mem = true := by
  unfold writeFrame; dsimp only; rw [updCore_mem]; exact wf_homeWrite _ _ _ _ hm
theorem wf_releaseFrame (s : State) (g n : Nat) (hm : Memory.wf s.mem = true) : Memory.wf (releaseFrame s g n).mem = true := by
  unfold releaseFrame; dsimp only; rw [updCore_mem]; exact wf_homeWrite _ _ _ _ hm
theorem wf_takeOver (again : Bool) (s : State) (cx g n : Nat) (u : Bool) (c : BitVec 8) (pc : Word) (x : Nat) (hm : Memory.wf s.mem = true) :
    Memory.wf (takeOver again s cx g n u c pc x).mem = true := by
  unfold takeOver; dsimp only; rw [updTask_mem]; exact wf_homeWrite _ _ _ _ (wf_homeWrite _ _ _ _ (wf_homeWrite _ _ _ _ hm))
theorem wf_suspend (s : State) (pc : Word) (k : BitVec 2) (c : BitVec 8) (x : BitVec 3) (hm : Memory.wf s.mem = true) :
    Memory.wf (suspend s pc k c x).1.mem = true := by
  unfold suspend; split
  · exact wf_writeFrame _ _ _ _ _ _ _ hm
  · exact hm
theorem wf_takeTrap (s : State) (up : Bool) (i : TrapInfo) (r : Word) (hm : Memory.wf s.mem = true) : Memory.wf (takeTrap s up i r).mem = true := by
  unfold takeTrap
  dsimp only
  rw [leaveCore_mem]
  repeat' split
  all_goals first
    | exact wf_enqueue _ _ _ _ (wf_suspend _ _ _ _ _ hm)
    | (rw [enqueueFront_mem]; exact wf_suspend _ _ _ _ _ hm)
theorem wf_takeMiss (s : State) (va x : Word) (w f : Bool) (hm : Memory.wf s.mem = true) : Memory.wf (takeMiss s va x w f).mem = true := by
  unfold takeMiss; dsimp only
  repeat' split
  all_goals first
    | exact hm
    | exact wf_takeTrap _ _ _ _ hm
theorem wf_returnFrom {s t : State} {a : Word} (e : returnFrom s a = .ok t) (hm : Memory.wf s.mem = true) : Memory.wf t.mem = true := by
  unfold returnFrom at e; dsimp only at e
  repeat' split at e
  all_goals first
    | (cases e; exact wf_releaseFrame _ _ _ (by rw [releaseMsg_mem]; exact hm))
    | cases e

/-- However an instruction ends, memory keeps its form if its result and the states that its stops carry do. -/
theorem wf_finish {s t : State} {r : Res State} (hm : Memory.wf s.mem = true) (ho : ∀ u, r = .ok u → Memory.wf u.mem = true)
    (ht : ∀ u c a x p, r = .error (.trapIn u c a x p) → Memory.wf u.mem = true) (hs : ∀ u, r = .error (.stall u) → Memory.wf u.mem = true)
    (ha : ∀ u h l, r = .error (.ask u h l) → Memory.wf u.mem = true) (e : finish s r = .next t) : Memory.wf t.mem = true := by
  unfold finish at e
  split at e
  · cases e; exact ho _ rfl
  · cases e; exact wf_takeTrap _ _ _ _ hm
  · cases e; exact wf_takeTrap _ _ _ _ (ht _ _ _ _ _ rfl)
  · cases e; exact wf_takeMiss _ _ _ _ _ hm
  · rename_i u; cases e; exact hs u rfl
  · rename_i u h l; cases e; exact ha u h l rfl
  · cases e

end Sys2Proof.Machine
end

