-- ==== Sys2Proof/Laws/Access.lean ====
section
/-! SUPPORT. What the checks, one access at its home, an M-format operand, the end of an instruction and a trap do, said once each. -/

namespace Sys2Proof.Machine

/-! ## How an instruction ends -/

@[simp] theorem finish_ok (s t : State) : finish s (.ok t) = .next t := rfl
@[simp] theorem finish_trap (s : State) (c : BitVec 8) (a x : Word) :
    finish s (.error (.trap c a x)) = .next (takeTrap s false ⟨c, a, s.core.regs.pc, x⟩ s.core.regs.pc) := rfl
@[simp] theorem finish_stall (s t : State) : finish s (.error (.stall t)) = .next t.markStalled := rfl
@[simp] theorem finish_ask (s t : State) (h : Nat) (l : Bool) : finish s (.error (.ask t h l)) = .next (awaitAnswer t h l) := rfl
@[simp] theorem finish_miss (s : State) (va x : Word) (w f : Bool) : finish s (.error (.miss va x w f)) = .next (takeMiss s va x w f) := rfl
@[simp] theorem finish_refuse (s : State) (r : Refusal) : finish s (.error (.refuse r)) = .refused r := rfl

/-! ## The checks of 01 R18 -/

theorem checkAccess_reserved {s : State} {va : Word} {n : Nat} {k : Kind} (h : spaceOf va = .reserved) :
    checkAccess s va n k = .error (.trap cTRANSL va (translX 2 k.writes false false 0)) := by simp only [checkAccess, h]
theorem checkAccess_misaligned {s : State} {va : Word} {n : Nat} {k : Kind} (h : spaceOf va ≠ .reserved) (ha : va.toNat % n ≠ 0) :
    checkAccess s va n k = .error (.trap cALIGN va 0) := by
  have hb : (va.toNat % n != 0) = true := by simp [ha]
  unfold checkAccess
  split
  · contradiction
  · rw [if_pos hb]
theorem checkAccess_ownVault {s : State} {va : Word} {n : Nat} {k : Kind} (h : spaceOf va = .ownVault) (ha : va.toNat % n = 0) :
    checkAccess s va n k =
      if aliasAllowed s va then .ok ⟨va, n, .home (vaultHome s.core.num va.toNat)⟩ else .error (.trap cVAULT va 0) := by
  simp [checkAccess, h, ha]
theorem checkAccess_window {s : State} {va : Word} {n : Nat} {k : Kind} (h : spaceOf va = .window) (ha : va.toNat % n = 0) :
    checkAccess s va n k =
      if windowAllowed s va then .ok ⟨va, n, .home (vaultHome (windowVault va) (windowOff va))⟩ else .error (.trap cVAULT va 0) := by
  simp [checkAccess, h, ha]
theorem checkAccess_engine {s : State} {va : Word} {n : Nat} {k : Kind} (h : spaceOf va = .engine) (ha : va.toNat % n = 0) :
    checkAccess s va n k =
      if portAllowed va n k then .ok ⟨va, n, .port (va.toNat - Config.engineWindow)⟩ else .error (.trap cENGINE va 0) := by
  simp [checkAccess, h, ha]
theorem checkAccess_translated {s : State} {va : Word} {n : Nat} {k : Kind} (h : spaceOf va = .translated) (ha : va.toNat % n = 0) :
    checkAccess s va n k =
      match checkTranslated s va k.writes with
      | .ok a => .ok ⟨va, n, .home a⟩
      | .error e => .error e := by
  simp only [checkAccess, h, ha]
  cases checkTranslated s va k.writes <;> rfl

/-- An access that passes is of its address and size, aligned, in no reserved space. -/
theorem checkAccess_ok {s : State} {va : Word} {n : Nat} {k : Kind} {ac : Access} (h : checkAccess s va n k = .ok ac) :
    ac.va = va ∧ ac.n = n ∧ va.toNat % n = 0 ∧ spaceOf va ≠ .reserved := by
  unfold checkAccess at h
  repeat' split at h
  all_goals first
    | (cases h; simp_all)
    | cases h

/-- Step 6 to 8 of 01 R18: the home that a page gives. -/
theorem checkPage_ok {s : State} {va : Word} {w : Bool} {h : Nat} (e : checkPage s va w = .ok h) :
    ∃ p, lookupPage s va.toNat = some p ∧ h = p.phys va.toNat ∧ (if w then p.w = true ∧ p.cow = false else p.r = true) ∧
      isPopulated h = true ∧ (isHbm h = true → p.il = bandLocal s h) := by
  unfold checkPage at e
  split at e
  · cases e
  · rename_i p hp
    refine ⟨p, hp, ?_⟩
    cases w <;> simp only [Bool.true_and, Bool.false_and, if_true, if_false, Bool.false_eq_true] at e ⊢
    all_goals
      repeat' split at e
      any_goals cases e
      simp_all
/-- An access that has not been issued takes the page's home. -/
theorem checkTranslated_fresh {s : State} (hc : s.core.sched.checked = []) (va : Word) (w : Bool) : checkTranslated s va w = checkPage s va w := by
  simp [checkTranslated, issuedHome, hc]

/-! ## One access at its home -/

/-- A load of home bytes in a calm state, on clean words, in a task that is not of an ordered launch. -/
theorem loadWith_calm {s : State} {al : Bool} {va : Word} {n h : Nat} (hc : Calm s)
    (ho : isOrdered s = false) (hf : isFar h = false) (hp : poisonIn s.poison h n = none) :
    loadWith al s ⟨va, n, .home h⟩ = .ok ((loadLine s h n al).touchTlb va.toNat, homeRead s h n) := by
  simp [loadWith, hf, reach_calm hc, loadRoom_calm hc, hp, ho, hc.returns]

/-- A store to them, with room in its count. -/
theorem storeWith_calm {s : State} {th rel : Bool} {va : Word} {n h v : Nat} (hc : Calm s) (hr : storeRoom s = true)
    (ho : (isOrdered s && isShared s h) = false) (hf : farFault s h = none) :
    storeWith th rel s ⟨va, n, .home h⟩ v = .ok (awaitAckOf th s ((noteHostWrite (performWrite s h n v th) h n (!rel)).touchTlb va.toNat) h) := by
  simp only [storeWith, ho, hf, reach_calm hc, hr]; rfl

/-- A read-modify-write of them. -/
theorem atomicAt_calm {s : State} {ac : Access} {h : Nat} {f : Nat → Option Nat} (hc : Calm s) :
    atomicAt s ac h f = .ok ((match f (homeRead (loadLine s h ac.n true) h ac.n) with
      | some v => performWrite (loadLine s h ac.n true) h ac.n v false
      | none => loadLine s h ac.n true).touchTlb ac.va.toNat, homeRead (loadLine s h ac.n true) h ac.n) := by
  simp only [atomicAt, reach_calm hc]; rfl

/-- What a core's watch may become when a slice takes a line of another: nothing else of it changes (03 R62). -/
theorem loseWatch_core (n : Nat) (c : Core) : c.loseWatch n = { c with watch := (c.loseWatch n).watch } := by
  unfold Core.loseWatch
  repeat' split
  all_goals rfl

/-- The use of a slice's line changes its lines and trees, and loses watches. -/
theorem loadLine_frame (s : State) (a n : Nat) (al : Bool) :
    loadLine s a n al = { s with lines := (loadLine s a n al).lines, trees := (loadLine s a n al).trees, others := (loadLine s a n al).others,
                                 core := { s.core with watch := (loadLine s a n al).core.watch } } := by
  unfold loadLine loseEvicted
  repeat' split
  all_goals first
    | rfl
    | (simp only [loseWatch]; rw [loseWatch_core])

theorem usePage_frame (c : Core) (p : Page) : c.usePage p = { c with tlbTree := (c.usePage p).tlbTree } := by
  unfold Core.usePage; split <;> rfl
theorem copyPage_frame (c : Core) (p : Page) :
    c.copyPage p = { c with tlb := (c.copyPage p).tlb, tlbWays := (c.copyPage p).tlbWays, tlbTree := (c.copyPage p).tlbTree } := rfl

/-- What touching the TLBs can change: the current core's, and the marks of the cluster's. -/
theorem touchTlb_frame (s : State) (va : Nat) :
    s.touchTlb va = { s with clusterUse := (s.touchTlb va).clusterUse,
                             core := { s.core with tlb := (s.touchTlb va).core.tlb, tlbWays := (s.touchTlb va).core.tlbWays,
                                                   tlbTree := (s.touchTlb va).core.tlbTree } } := by
  unfold State.touchTlb
  split
  · dsimp only; rw [usePage_frame]
  · split
    · rfl
    · rfl
@[simp] theorem touchTlb_regs (s : State) (va : Nat) : (s.touchTlb va).core.regs = s.core.regs := by rw [touchTlb_frame]
@[simp] theorem touchTlb_num (s : State) (va : Nat) : (s.touchTlb va).core.num = s.core.num := by rw [touchTlb_frame]
@[simp] theorem touchTlb_ptr (s : State) (va : Nat) (i : BitVec 3) : (s.touchTlb va).ptr i = s.ptr i := by
  simp only [State.ptr, touchTlb_regs]

/-- The far side's answer leaves all but the answers. -/
theorem farAnswer_frame {l : Bool} {op : Option AtomicOp} {s t : State} {va : Word} {h n v : Nat} (e : farAnswer l op s va h n = .ok (t, v)) :
    t = { s with core := { s.core with sched := { s.core.sched with returns := t.core.sched.returns } } } := by
  unfold farAnswer at e
  repeat' split at e
  all_goals first
    | (have f := useValue_frame e; rw [f])
    | cases e

/-- With no answer there, the far side gives none. -/
theorem farAnswer_asks {s : State} (hr : s.core.sched.returns = []) (l : Bool) (op : Option AtomicOp) (va : Word) (h n : Nat) (t : State) (v : Nat) :
    farAnswer l op s va h n ≠ .ok (t, v) := by
  unfold farAnswer; rw [hr]; dsimp only
  repeat' split
  all_goals nofun

/-- Everything a load can do in a calm state (01 R25, 03 R62, R68, 13 R219): what is far is asked for and answers no value at once. -/
theorem loadWith_frame {s t : State} {al : Bool} {ac : Access} {v : Nat} (hc : Calm s) (e : loadWith al s ac = .ok (t, v)) :
    t = { s with lines := t.lines, trees := t.trees, clusterUse := t.clusterUse, others := t.others,
                 core := { s.core with watch := t.core.watch, tlb := t.core.tlb, tlbWays := t.core.tlbWays, tlbTree := t.core.tlbTree } } := by
  unfold loadWith at e
  split at e
  · cases e; rfl
  · simp only [reach_calm hc, hc.returns] at e
    split at e
    · split at e
      · exact absurd ‹_› (farAnswer_asks hc.returns _ _ _ _ _ _ _)
      · cases e
    · repeat' split at e
      all_goals first
        | (cases e; rw [touchTlb_frame, loadLine_frame])
        | cases e

/-- An M-format operand's load, from its access. -/
theorem loadOperand_of_access {s s1 : State} {m : MOp} {k : Kind} {ac : Access} {v : Nat} (ha : checkAccess s (effAddr s m) (sizeBytes m.sz) k = .ok ac)
    (hv : loadAt s ac = .ok (s1, v)) : loadOperand s m k = .ok ((movePtr s1 m (nextAddr s m)).advance, v) := by
  simp [loadOperand, ha, hv]
/-- An operand that fails its checks. -/
theorem loadOperand_of_error {s : State} {m : MOp} {k : Kind} {e : Stop} (ha : checkAccess s (effAddr s m) (sizeBytes m.sz) k = .error e) :
    loadOperand s m k = .error e := by simp [loadOperand, ha]

/-! ## A write at a home -/

/-- What a write at a home leaves of a core (03 R62, 26 R371). -/
theorem watchWrite_core (a n : Nat) (c : Core) :
    c.watchWrite a n = { c with watch := (c.watchWrite a n).watch, mx := (c.watchWrite a n).mx,
                                sluice := { c.sluice with shadow := (c.watchWrite a n).sluice.shadow } } := by
  unfold Core.watchWrite Core.voidBypass
  have h : c.seeWrite a n = { c with watch := (c.seeWrite a n).watch } := by
    unfold Core.seeWrite
    repeat' split
    all_goals rfl
  rw [h]; dsimp only
  split <;> rfl
@[simp] theorem watchWrite_regs (s : State) (a n : Nat) : (watchWrite s a n).core.regs = s.core.regs := by
  unfold watchWrite; split
  · rfl
  · show (s.core.watchWrite a n).regs = _; rw [watchWrite_core]
@[simp] theorem homeWrite_regs (s : State) (a n v : Nat) : (homeWrite s a n v).core.regs = s.core.regs := watchWrite_regs _ _ _
@[simp] theorem homeCopy_regs (s : State) (a b n : Nat) : (homeCopy s a b n).core.regs = s.core.regs := watchWrite_regs _ _ _
@[simp] theorem performWrite_regs (s : State) (h n v : Nat) (t : Bool) : (performWrite s h n v t).core.regs = s.core.regs := by
  unfold performWrite
  rw [homeWrite_regs]
  unfold storeLine loseEvicted
  repeat' split
  all_goals first
    | rfl
    | (simp only [loseWatch]; rw [loseWatch_core])

/-- Bytes outside a write read as before. -/
theorem readByte_homeWrite_outside (s : State) (h n v a : Nat) (ha : a < h ∨ h + n ≤ a) :
    readByte (homeWrite s h n v).mem a = readByte s.mem a := by
  rw [homeWrite_mem]; exact readByte_writeNat_outside _ _ _ _ _ ha

/-! ## Taking a trap (19 R320, R321, R325) -/

@[simp] theorem setCore_regs (s : State) (g : Nat) (c : Core) (h : c.regs = (coreOf s g).regs) : (setCore s g c).core.regs = s.core.regs := by
  unfold setCore; split
  · rename_i e; show c.regs = _; rw [h]; simp [coreOf, e]
  · rfl
theorem leaveCore_idle (s : State) : (leaveCore s).core.sched.running = false ∧ (leaveCore s).core.sched.msg = none := ⟨rfl, rfl⟩
/-- After a trap or upcall with a frame, no task runs on the core. -/
theorem takeTrap_leaves (s : State) (up : Bool) (i : TrapInfo) (r : Word) : (takeTrap s up i r).core.sched.running = false := rfl
theorem suspend_frame {s : State} {n : Nat} (h : freeFrameOf s s.core.num = some n) (pc : Word) (k : BitVec 2) (c : BitVec 8) (x : BitVec 3) :
    suspend s pc k c x = (writeFrame s s.core.num n (taskState s pc) k c x, .frame n) := by simp [suspend, h]
theorem suspend_away {s : State} (h : freeFrameOf s s.core.num = none) (pc : Word) (k : BitVec 2) (c : BitVec 8) (x : BitVec 3) :
    suspend s pc k c x = (s, .away (taskState s pc) k c x) := by simp [suspend, h]
/-- A precise trap changes no byte of memory outside its frame; with no frame free, none. -/
theorem takeTrap_outside (s : State) (i : TrapInfo) (r : Word) (a : Nat)
    (h : ∀ n, freeFrameOf s s.core.num = some n → a < frameHome s.core.num n ∨ frameHome s.core.num n + 128 ≤ a) :
    readByte (takeTrap s false i r).mem a = readByte s.mem a := by
  have key : ∀ (pc : Word) (k : BitVec 2) (c : BitVec 8) (x : BitVec 3), readByte (suspend s pc k c x).1.mem a = readByte s.mem a := by
    intro pc k c x
    unfold suspend
    split
    · rename_i n hn
      unfold writeFrame
      dsimp only
      rw [updCore_mem]
      exact readByte_homeWrite_outside _ _ _ _ _ (h n hn)
    · rfl
  unfold takeTrap
  dsimp only
  rw [leaveCore_mem]
  simp only [Bool.false_eq_true, if_false]; rw [enqueueFront_mem]; exact key _ _ _ _

end Sys2Proof.Machine
end

