-- ==== Sys2Proof/Laws/State.lean ====
section
/-! SUPPORT. One lemma per field per update of the state, each true by unfolding the update, and what pointers read after them. -/

namespace Sys2Proof.Machine

/-! ### setA -/

@[simp] theorem setA_regs_a (s : State) (v : Word) : (s.setA v).core.regs.a = v := rfl
@[simp] theorem setA_regs_p (s : State) (v : Word) : (s.setA v).core.regs.p = s.core.regs.p := rfl
@[simp] theorem setA_regs_t (s : State) (v : Word) : (s.setA v).core.regs.t = s.core.regs.t := rfl
@[simp] theorem setA_regs_c (s : State) (v : Word) : (s.setA v).core.regs.c = s.core.regs.c := rfl
@[simp] theorem setA_regs_vl (s : State) (v : Word) : (s.setA v).core.regs.vl = s.core.regs.vl := rfl
@[simp] theorem setA_regs_frm (s : State) (v : Word) : (s.setA v).core.regs.frm = s.core.regs.frm := rfl
@[simp] theorem setA_regs_fflags (s : State) (v : Word) : (s.setA v).core.regs.fflags = s.core.regs.fflags := rfl
@[simp] theorem setA_regs_pc (s : State) (v : Word) : (s.setA v).core.regs.pc = s.core.regs.pc := rfl
@[simp] theorem setA_core_num (s : State) (v : Word) : (s.setA v).core.num = s.core.num := rfl
@[simp] theorem setA_core_ctx (s : State) (v : Word) : (s.setA v).core.ctx = s.core.ctx := rfl
@[simp] theorem setA_core_id (s : State) (v : Word) : (s.setA v).core.id = s.core.id := rfl
@[simp] theorem setA_core_csr (s : State) (v : Word) : (s.setA v).core.csr = s.core.csr := rfl
@[simp] theorem setA_core_sluice (s : State) (v : Word) : (s.setA v).core.sluice = s.core.sluice := rfl
@[simp] theorem setA_core_mx (s : State) (v : Word) : (s.setA v).core.mx = s.core.mx := rfl
@[simp] theorem setA_core_nest (s : State) (v : Word) : (s.setA v).core.nest = s.core.nest := rfl
@[simp] theorem setA_core_port (s : State) (v : Word) : (s.setA v).core.port = s.core.port := rfl
@[simp] theorem setA_core_watch (s : State) (v : Word) : (s.setA v).core.watch = s.core.watch := rfl
@[simp] theorem setA_core_rank (s : State) (v : Word) : (s.setA v).core.rank = s.core.rank := rfl
@[simp] theorem setA_core_sched (s : State) (v : Word) : (s.setA v).core.sched = s.core.sched := rfl
@[simp] theorem setA_core_tlb (s : State) (v : Word) : (s.setA v).core.tlb = s.core.tlb := rfl
@[simp] theorem setA_core_tlbWays (s : State) (v : Word) : (s.setA v).core.tlbWays = s.core.tlbWays := rfl
@[simp] theorem setA_core_tlbTree (s : State) (v : Word) : (s.setA v).core.tlbTree = s.core.tlbTree := rfl
@[simp] theorem setA_core_icache (s : State) (v : Word) : (s.setA v).core.icache = s.core.icache := rfl
@[simp] theorem setA_others (s : State) (v : Word) : (s.setA v).others = s.others := rfl
@[simp] theorem setA_mem (s : State) (v : Word) : (s.setA v).mem = s.mem := rfl
@[simp] theorem setA_poison (s : State) (v : Word) : (s.setA v).poison = s.poison := rfl
@[simp] theorem setA_lines (s : State) (v : Word) : (s.setA v).lines = s.lines := rfl
@[simp] theorem setA_trees (s : State) (v : Word) : (s.setA v).trees = s.trees := rfl
@[simp] theorem setA_waiting (s : State) (v : Word) : (s.setA v).waiting = s.waiting := rfl
@[simp] theorem setA_responses (s : State) (v : Word) : (s.setA v).responses = s.responses := rfl
@[simp] theorem setA_mcast (s : State) (v : Word) : (s.setA v).mcast = s.mcast := rfl
@[simp] theorem setA_forks (s : State) (v : Word) : (s.setA v).forks = s.forks := rfl
@[simp] theorem setA_sends (s : State) (v : Word) : (s.setA v).sends = s.sends := rfl
@[simp] theorem setA_stop (s : State) (v : Word) : (s.setA v).stop = s.stop := rfl
@[simp] theorem setA_bands (s : State) (v : Word) : (s.setA v).bands = s.bands := rfl
@[simp] theorem setA_clock (s : State) (v : Word) : (s.setA v).clock = s.clock := rfl
@[simp] theorem setA_ctxs (s : State) (v : Word) : (s.setA v).ctxs = s.ctxs := rfl
@[simp] theorem setA_clusterQ (s : State) (v : Word) : (s.setA v).clusterQ = s.clusterQ := rfl
@[simp] theorem setA_clusterTlb (s : State) (v : Word) : (s.setA v).clusterTlb = s.clusterTlb := rfl
@[simp] theorem setA_clusterUse (s : State) (v : Word) : (s.setA v).clusterUse = s.clusterUse := rfl
@[simp] theorem setA_flumes (s : State) (v : Word) : (s.setA v).flumes = s.flumes := rfl
@[simp] theorem setA_engines (s : State) (v : Word) : (s.setA v).engines = s.engines := rfl
@[simp] theorem setA_patterns (s : State) (v : Word) : (s.setA v).patterns = s.patterns := rfl
@[simp] theorem setA_pool (s : State) (v : Word) : (s.setA v).pool = s.pool := rfl
@[simp] theorem setA_migrations (s : State) (v : Word) : (s.setA v).migrations = s.migrations := rfl
@[simp] theorem setA_rankNet (s : State) (v : Word) : (s.setA v).rankNet = s.rankNet := rfl
@[simp] theorem setA_net (s : State) (v : Word) : (s.setA v).net = s.net := rfl
@[simp] theorem setA_out (s : State) (v : Word) : (s.setA v).out = s.out := rfl
@[simp] theorem setA_saves (s : State) (v : Word) : (s.setA v).saves = s.saves := rfl
@[simp] theorem setA_turns (s : State) (v : Word) : (s.setA v).turns = s.turns := rfl
@[simp] theorem setA_pending (s : State) (v : Word) : (s.setA v).pending = s.pending := rfl
@[simp] theorem setA_unit (s : State) (v : Word) : (s.setA v).unit = s.unit := rfl
@[simp] theorem setA_freeCtr (s : State) (v : Word) : (s.setA v).freeCtr = s.freeCtr := rfl
@[simp] theorem setA_beat (s : State) (v : Word) : (s.setA v).beat = s.beat := rfl

/-! ### setT -/

@[simp] theorem setT_regs_a (s : State) (v : Bool) : (s.setT v).core.regs.a = s.core.regs.a := rfl
@[simp] theorem setT_regs_p (s : State) (v : Bool) : (s.setT v).core.regs.p = s.core.regs.p := rfl
@[simp] theorem setT_regs_t (s : State) (v : Bool) : (s.setT v).core.regs.t = v := rfl
@[simp] theorem setT_regs_c (s : State) (v : Bool) : (s.setT v).core.regs.c = s.core.regs.c := rfl
@[simp] theorem setT_regs_vl (s : State) (v : Bool) : (s.setT v).core.regs.vl = s.core.regs.vl := rfl
@[simp] theorem setT_regs_frm (s : State) (v : Bool) : (s.setT v).core.regs.frm = s.core.regs.frm := rfl
@[simp] theorem setT_regs_fflags (s : State) (v : Bool) : (s.setT v).core.regs.fflags = s.core.regs.fflags := rfl
@[simp] theorem setT_regs_pc (s : State) (v : Bool) : (s.setT v).core.regs.pc = s.core.regs.pc := rfl
@[simp] theorem setT_core_num (s : State) (v : Bool) : (s.setT v).core.num = s.core.num := rfl
@[simp] theorem setT_core_ctx (s : State) (v : Bool) : (s.setT v).core.ctx = s.core.ctx := rfl
@[simp] theorem setT_core_id (s : State) (v : Bool) : (s.setT v).core.id = s.core.id := rfl
@[simp] theorem setT_core_csr (s : State) (v : Bool) : (s.setT v).core.csr = s.core.csr := rfl
@[simp] theorem setT_core_sluice (s : State) (v : Bool) : (s.setT v).core.sluice = s.core.sluice := rfl
@[simp] theorem setT_core_mx (s : State) (v : Bool) : (s.setT v).core.mx = s.core.mx := rfl
@[simp] theorem setT_core_nest (s : State) (v : Bool) : (s.setT v).core.nest = s.core.nest := rfl
@[simp] theorem setT_core_port (s : State) (v : Bool) : (s.setT v).core.port = s.core.port := rfl
@[simp] theorem setT_core_watch (s : State) (v : Bool) : (s.setT v).core.watch = s.core.watch := rfl
@[simp] theorem setT_core_rank (s : State) (v : Bool) : (s.setT v).core.rank = s.core.rank := rfl
@[simp] theorem setT_core_sched (s : State) (v : Bool) : (s.setT v).core.sched = s.core.sched := rfl
@[simp] theorem setT_core_tlb (s : State) (v : Bool) : (s.setT v).core.tlb = s.core.tlb := rfl
@[simp] theorem setT_core_tlbWays (s : State) (v : Bool) : (s.setT v).core.tlbWays = s.core.tlbWays := rfl
@[simp] theorem setT_core_tlbTree (s : State) (v : Bool) : (s.setT v).core.tlbTree = s.core.tlbTree := rfl
@[simp] theorem setT_core_icache (s : State) (v : Bool) : (s.setT v).core.icache = s.core.icache := rfl
@[simp] theorem setT_others (s : State) (v : Bool) : (s.setT v).others = s.others := rfl
@[simp] theorem setT_mem (s : State) (v : Bool) : (s.setT v).mem = s.mem := rfl
@[simp] theorem setT_poison (s : State) (v : Bool) : (s.setT v).poison = s.poison := rfl
@[simp] theorem setT_lines (s : State) (v : Bool) : (s.setT v).lines = s.lines := rfl
@[simp] theorem setT_trees (s : State) (v : Bool) : (s.setT v).trees = s.trees := rfl
@[simp] theorem setT_waiting (s : State) (v : Bool) : (s.setT v).waiting = s.waiting := rfl
@[simp] theorem setT_responses (s : State) (v : Bool) : (s.setT v).responses = s.responses := rfl
@[simp] theorem setT_mcast (s : State) (v : Bool) : (s.setT v).mcast = s.mcast := rfl
@[simp] theorem setT_forks (s : State) (v : Bool) : (s.setT v).forks = s.forks := rfl
@[simp] theorem setT_sends (s : State) (v : Bool) : (s.setT v).sends = s.sends := rfl
@[simp] theorem setT_stop (s : State) (v : Bool) : (s.setT v).stop = s.stop := rfl
@[simp] theorem setT_bands (s : State) (v : Bool) : (s.setT v).bands = s.bands := rfl
@[simp] theorem setT_clock (s : State) (v : Bool) : (s.setT v).clock = s.clock := rfl
@[simp] theorem setT_ctxs (s : State) (v : Bool) : (s.setT v).ctxs = s.ctxs := rfl
@[simp] theorem setT_clusterQ (s : State) (v : Bool) : (s.setT v).clusterQ = s.clusterQ := rfl
@[simp] theorem setT_clusterTlb (s : State) (v : Bool) : (s.setT v).clusterTlb = s.clusterTlb := rfl
@[simp] theorem setT_clusterUse (s : State) (v : Bool) : (s.setT v).clusterUse = s.clusterUse := rfl
@[simp] theorem setT_flumes (s : State) (v : Bool) : (s.setT v).flumes = s.flumes := rfl
@[simp] theorem setT_engines (s : State) (v : Bool) : (s.setT v).engines = s.engines := rfl
@[simp] theorem setT_patterns (s : State) (v : Bool) : (s.setT v).patterns = s.patterns := rfl
@[simp] theorem setT_pool (s : State) (v : Bool) : (s.setT v).pool = s.pool := rfl
@[simp] theorem setT_migrations (s : State) (v : Bool) : (s.setT v).migrations = s.migrations := rfl
@[simp] theorem setT_rankNet (s : State) (v : Bool) : (s.setT v).rankNet = s.rankNet := rfl
@[simp] theorem setT_net (s : State) (v : Bool) : (s.setT v).net = s.net := rfl
@[simp] theorem setT_out (s : State) (v : Bool) : (s.setT v).out = s.out := rfl
@[simp] theorem setT_saves (s : State) (v : Bool) : (s.setT v).saves = s.saves := rfl
@[simp] theorem setT_turns (s : State) (v : Bool) : (s.setT v).turns = s.turns := rfl
@[simp] theorem setT_pending (s : State) (v : Bool) : (s.setT v).pending = s.pending := rfl
@[simp] theorem setT_unit (s : State) (v : Bool) : (s.setT v).unit = s.unit := rfl
@[simp] theorem setT_freeCtr (s : State) (v : Bool) : (s.setT v).freeCtr = s.freeCtr := rfl
@[simp] theorem setT_beat (s : State) (v : Bool) : (s.setT v).beat = s.beat := rfl

/-! ### setC -/

@[simp] theorem setC_regs_a (s : State) (v : Bool) : (s.setC v).core.regs.a = s.core.regs.a := rfl
@[simp] theorem setC_regs_p (s : State) (v : Bool) : (s.setC v).core.regs.p = s.core.regs.p := rfl
@[simp] theorem setC_regs_t (s : State) (v : Bool) : (s.setC v).core.regs.t = s.core.regs.t := rfl
@[simp] theorem setC_regs_c (s : State) (v : Bool) : (s.setC v).core.regs.c = v := rfl
@[simp] theorem setC_regs_vl (s : State) (v : Bool) : (s.setC v).core.regs.vl = s.core.regs.vl := rfl
@[simp] theorem setC_regs_frm (s : State) (v : Bool) : (s.setC v).core.regs.frm = s.core.regs.frm := rfl
@[simp] theorem setC_regs_fflags (s : State) (v : Bool) : (s.setC v).core.regs.fflags = s.core.regs.fflags := rfl
@[simp] theorem setC_regs_pc (s : State) (v : Bool) : (s.setC v).core.regs.pc = s.core.regs.pc := rfl
@[simp] theorem setC_core_num (s : State) (v : Bool) : (s.setC v).core.num = s.core.num := rfl
@[simp] theorem setC_core_ctx (s : State) (v : Bool) : (s.setC v).core.ctx = s.core.ctx := rfl
@[simp] theorem setC_core_id (s : State) (v : Bool) : (s.setC v).core.id = s.core.id := rfl
@[simp] theorem setC_core_csr (s : State) (v : Bool) : (s.setC v).core.csr = s.core.csr := rfl
@[simp] theorem setC_core_sluice (s : State) (v : Bool) : (s.setC v).core.sluice = s.core.sluice := rfl
@[simp] theorem setC_core_mx (s : State) (v : Bool) : (s.setC v).core.mx = s.core.mx := rfl
@[simp] theorem setC_core_nest (s : State) (v : Bool) : (s.setC v).core.nest = s.core.nest := rfl
@[simp] theorem setC_core_port (s : State) (v : Bool) : (s.setC v).core.port = s.core.port := rfl
@[simp] theorem setC_core_watch (s : State) (v : Bool) : (s.setC v).core.watch = s.core.watch := rfl
@[simp] theorem setC_core_rank (s : State) (v : Bool) : (s.setC v).core.rank = s.core.rank := rfl
@[simp] theorem setC_core_sched (s : State) (v : Bool) : (s.setC v).core.sched = s.core.sched := rfl
@[simp] theorem setC_core_tlb (s : State) (v : Bool) : (s.setC v).core.tlb = s.core.tlb := rfl
@[simp] theorem setC_core_tlbWays (s : State) (v : Bool) : (s.setC v).core.tlbWays = s.core.tlbWays := rfl
@[simp] theorem setC_core_tlbTree (s : State) (v : Bool) : (s.setC v).core.tlbTree = s.core.tlbTree := rfl
@[simp] theorem setC_core_icache (s : State) (v : Bool) : (s.setC v).core.icache = s.core.icache := rfl
@[simp] theorem setC_others (s : State) (v : Bool) : (s.setC v).others = s.others := rfl
@[simp] theorem setC_mem (s : State) (v : Bool) : (s.setC v).mem = s.mem := rfl
@[simp] theorem setC_poison (s : State) (v : Bool) : (s.setC v).poison = s.poison := rfl
@[simp] theorem setC_lines (s : State) (v : Bool) : (s.setC v).lines = s.lines := rfl
@[simp] theorem setC_trees (s : State) (v : Bool) : (s.setC v).trees = s.trees := rfl
@[simp] theorem setC_waiting (s : State) (v : Bool) : (s.setC v).waiting = s.waiting := rfl
@[simp] theorem setC_responses (s : State) (v : Bool) : (s.setC v).responses = s.responses := rfl
@[simp] theorem setC_mcast (s : State) (v : Bool) : (s.setC v).mcast = s.mcast := rfl
@[simp] theorem setC_forks (s : State) (v : Bool) : (s.setC v).forks = s.forks := rfl
@[simp] theorem setC_sends (s : State) (v : Bool) : (s.setC v).sends = s.sends := rfl
@[simp] theorem setC_stop (s : State) (v : Bool) : (s.setC v).stop = s.stop := rfl
@[simp] theorem setC_bands (s : State) (v : Bool) : (s.setC v).bands = s.bands := rfl
@[simp] theorem setC_clock (s : State) (v : Bool) : (s.setC v).clock = s.clock := rfl
@[simp] theorem setC_ctxs (s : State) (v : Bool) : (s.setC v).ctxs = s.ctxs := rfl
@[simp] theorem setC_clusterQ (s : State) (v : Bool) : (s.setC v).clusterQ = s.clusterQ := rfl
@[simp] theorem setC_clusterTlb (s : State) (v : Bool) : (s.setC v).clusterTlb = s.clusterTlb := rfl
@[simp] theorem setC_clusterUse (s : State) (v : Bool) : (s.setC v).clusterUse = s.clusterUse := rfl
@[simp] theorem setC_flumes (s : State) (v : Bool) : (s.setC v).flumes = s.flumes := rfl
@[simp] theorem setC_engines (s : State) (v : Bool) : (s.setC v).engines = s.engines := rfl
@[simp] theorem setC_patterns (s : State) (v : Bool) : (s.setC v).patterns = s.patterns := rfl
@[simp] theorem setC_pool (s : State) (v : Bool) : (s.setC v).pool = s.pool := rfl
@[simp] theorem setC_migrations (s : State) (v : Bool) : (s.setC v).migrations = s.migrations := rfl
@[simp] theorem setC_rankNet (s : State) (v : Bool) : (s.setC v).rankNet = s.rankNet := rfl
@[simp] theorem setC_net (s : State) (v : Bool) : (s.setC v).net = s.net := rfl
@[simp] theorem setC_out (s : State) (v : Bool) : (s.setC v).out = s.out := rfl
@[simp] theorem setC_saves (s : State) (v : Bool) : (s.setC v).saves = s.saves := rfl
@[simp] theorem setC_turns (s : State) (v : Bool) : (s.setC v).turns = s.turns := rfl
@[simp] theorem setC_pending (s : State) (v : Bool) : (s.setC v).pending = s.pending := rfl
@[simp] theorem setC_unit (s : State) (v : Bool) : (s.setC v).unit = s.unit := rfl
@[simp] theorem setC_freeCtr (s : State) (v : Bool) : (s.setC v).freeCtr = s.freeCtr := rfl
@[simp] theorem setC_beat (s : State) (v : Bool) : (s.setC v).beat = s.beat := rfl

/-! ### setPc -/

@[simp] theorem setPc_regs_a (s : State) (v : Word) : (s.setPc v).core.regs.a = s.core.regs.a := rfl
@[simp] theorem setPc_regs_p (s : State) (v : Word) : (s.setPc v).core.regs.p = s.core.regs.p := rfl
@[simp] theorem setPc_regs_t (s : State) (v : Word) : (s.setPc v).core.regs.t = s.core.regs.t := rfl
@[simp] theorem setPc_regs_c (s : State) (v : Word) : (s.setPc v).core.regs.c = s.core.regs.c := rfl
@[simp] theorem setPc_regs_vl (s : State) (v : Word) : (s.setPc v).core.regs.vl = s.core.regs.vl := rfl
@[simp] theorem setPc_regs_frm (s : State) (v : Word) : (s.setPc v).core.regs.frm = s.core.regs.frm := rfl
@[simp] theorem setPc_regs_fflags (s : State) (v : Word) : (s.setPc v).core.regs.fflags = s.core.regs.fflags := rfl
@[simp] theorem setPc_regs_pc (s : State) (v : Word) : (s.setPc v).core.regs.pc = v := rfl
@[simp] theorem setPc_core_num (s : State) (v : Word) : (s.setPc v).core.num = s.core.num := rfl
@[simp] theorem setPc_core_ctx (s : State) (v : Word) : (s.setPc v).core.ctx = s.core.ctx := rfl
@[simp] theorem setPc_core_id (s : State) (v : Word) : (s.setPc v).core.id = s.core.id := rfl
@[simp] theorem setPc_core_csr (s : State) (v : Word) : (s.setPc v).core.csr = s.core.csr := rfl
@[simp] theorem setPc_core_sluice (s : State) (v : Word) : (s.setPc v).core.sluice = s.core.sluice := rfl
@[simp] theorem setPc_core_mx (s : State) (v : Word) : (s.setPc v).core.mx = s.core.mx := rfl
@[simp] theorem setPc_core_nest (s : State) (v : Word) : (s.setPc v).core.nest = s.core.nest := rfl
@[simp] theorem setPc_core_port (s : State) (v : Word) : (s.setPc v).core.port = s.core.port := rfl
@[simp] theorem setPc_core_watch (s : State) (v : Word) : (s.setPc v).core.watch = s.core.watch := rfl
@[simp] theorem setPc_core_rank (s : State) (v : Word) : (s.setPc v).core.rank = s.core.rank := rfl
@[simp] theorem setPc_core_sched (s : State) (v : Word) : (s.setPc v).core.sched = s.core.sched := rfl
@[simp] theorem setPc_core_tlb (s : State) (v : Word) : (s.setPc v).core.tlb = s.core.tlb := rfl
@[simp] theorem setPc_core_tlbWays (s : State) (v : Word) : (s.setPc v).core.tlbWays = s.core.tlbWays := rfl
@[simp] theorem setPc_core_tlbTree (s : State) (v : Word) : (s.setPc v).core.tlbTree = s.core.tlbTree := rfl
@[simp] theorem setPc_core_icache (s : State) (v : Word) : (s.setPc v).core.icache = s.core.icache := rfl
@[simp] theorem setPc_others (s : State) (v : Word) : (s.setPc v).others = s.others := rfl
@[simp] theorem setPc_mem (s : State) (v : Word) : (s.setPc v).mem = s.mem := rfl
@[simp] theorem setPc_poison (s : State) (v : Word) : (s.setPc v).poison = s.poison := rfl
@[simp] theorem setPc_lines (s : State) (v : Word) : (s.setPc v).lines = s.lines := rfl
@[simp] theorem setPc_trees (s : State) (v : Word) : (s.setPc v).trees = s.trees := rfl
@[simp] theorem setPc_waiting (s : State) (v : Word) : (s.setPc v).waiting = s.waiting := rfl
@[simp] theorem setPc_responses (s : State) (v : Word) : (s.setPc v).responses = s.responses := rfl
@[simp] theorem setPc_mcast (s : State) (v : Word) : (s.setPc v).mcast = s.mcast := rfl
@[simp] theorem setPc_forks (s : State) (v : Word) : (s.setPc v).forks = s.forks := rfl
@[simp] theorem setPc_sends (s : State) (v : Word) : (s.setPc v).sends = s.sends := rfl
@[simp] theorem setPc_stop (s : State) (v : Word) : (s.setPc v).stop = s.stop := rfl
@[simp] theorem setPc_bands (s : State) (v : Word) : (s.setPc v).bands = s.bands := rfl
@[simp] theorem setPc_clock (s : State) (v : Word) : (s.setPc v).clock = s.clock := rfl
@[simp] theorem setPc_ctxs (s : State) (v : Word) : (s.setPc v).ctxs = s.ctxs := rfl
@[simp] theorem setPc_clusterQ (s : State) (v : Word) : (s.setPc v).clusterQ = s.clusterQ := rfl
@[simp] theorem setPc_clusterTlb (s : State) (v : Word) : (s.setPc v).clusterTlb = s.clusterTlb := rfl
@[simp] theorem setPc_clusterUse (s : State) (v : Word) : (s.setPc v).clusterUse = s.clusterUse := rfl
@[simp] theorem setPc_flumes (s : State) (v : Word) : (s.setPc v).flumes = s.flumes := rfl
@[simp] theorem setPc_engines (s : State) (v : Word) : (s.setPc v).engines = s.engines := rfl
@[simp] theorem setPc_patterns (s : State) (v : Word) : (s.setPc v).patterns = s.patterns := rfl
@[simp] theorem setPc_pool (s : State) (v : Word) : (s.setPc v).pool = s.pool := rfl
@[simp] theorem setPc_migrations (s : State) (v : Word) : (s.setPc v).migrations = s.migrations := rfl
@[simp] theorem setPc_rankNet (s : State) (v : Word) : (s.setPc v).rankNet = s.rankNet := rfl
@[simp] theorem setPc_net (s : State) (v : Word) : (s.setPc v).net = s.net := rfl
@[simp] theorem setPc_out (s : State) (v : Word) : (s.setPc v).out = s.out := rfl
@[simp] theorem setPc_saves (s : State) (v : Word) : (s.setPc v).saves = s.saves := rfl
@[simp] theorem setPc_turns (s : State) (v : Word) : (s.setPc v).turns = s.turns := rfl
@[simp] theorem setPc_pending (s : State) (v : Word) : (s.setPc v).pending = s.pending := rfl
@[simp] theorem setPc_unit (s : State) (v : Word) : (s.setPc v).unit = s.unit := rfl
@[simp] theorem setPc_freeCtr (s : State) (v : Word) : (s.setPc v).freeCtr = s.freeCtr := rfl
@[simp] theorem setPc_beat (s : State) (v : Word) : (s.setPc v).beat = s.beat := rfl

/-! ### advance -/

@[simp] theorem advance_regs_a (s : State) : s.advance.core.regs.a = s.core.regs.a := rfl
@[simp] theorem advance_regs_p (s : State) : s.advance.core.regs.p = s.core.regs.p := rfl
@[simp] theorem advance_regs_t (s : State) : s.advance.core.regs.t = s.core.regs.t := rfl
@[simp] theorem advance_regs_c (s : State) : s.advance.core.regs.c = s.core.regs.c := rfl
@[simp] theorem advance_regs_vl (s : State) : s.advance.core.regs.vl = s.core.regs.vl := rfl
@[simp] theorem advance_regs_frm (s : State) : s.advance.core.regs.frm = s.core.regs.frm := rfl
@[simp] theorem advance_regs_fflags (s : State) : s.advance.core.regs.fflags = s.core.regs.fflags := rfl
@[simp] theorem advance_regs_pc (s : State) : s.advance.core.regs.pc = s.core.regs.pc + 4 := rfl
@[simp] theorem advance_core_num (s : State) : s.advance.core.num = s.core.num := rfl
@[simp] theorem advance_core_ctx (s : State) : s.advance.core.ctx = s.core.ctx := rfl
@[simp] theorem advance_core_id (s : State) : s.advance.core.id = s.core.id := rfl
@[simp] theorem advance_core_csr (s : State) : s.advance.core.csr = s.core.csr := rfl
@[simp] theorem advance_core_sluice (s : State) : s.advance.core.sluice = s.core.sluice := rfl
@[simp] theorem advance_core_mx (s : State) : s.advance.core.mx = s.core.mx := rfl
@[simp] theorem advance_core_nest (s : State) : s.advance.core.nest = s.core.nest := rfl
@[simp] theorem advance_core_port (s : State) : s.advance.core.port = s.core.port := rfl
@[simp] theorem advance_core_watch (s : State) : s.advance.core.watch = s.core.watch := rfl
@[simp] theorem advance_core_rank (s : State) : s.advance.core.rank = s.core.rank := rfl
@[simp] theorem advance_core_sched (s : State) : s.advance.core.sched = s.core.sched := rfl
@[simp] theorem advance_core_tlb (s : State) : s.advance.core.tlb = s.core.tlb := rfl
@[simp] theorem advance_core_tlbWays (s : State) : s.advance.core.tlbWays = s.core.tlbWays := rfl
@[simp] theorem advance_core_tlbTree (s : State) : s.advance.core.tlbTree = s.core.tlbTree := rfl
@[simp] theorem advance_core_icache (s : State) : s.advance.core.icache = s.core.icache := rfl
@[simp] theorem advance_others (s : State) : s.advance.others = s.others := rfl
@[simp] theorem advance_mem (s : State) : s.advance.mem = s.mem := rfl
@[simp] theorem advance_poison (s : State) : s.advance.poison = s.poison := rfl
@[simp] theorem advance_lines (s : State) : s.advance.lines = s.lines := rfl
@[simp] theorem advance_trees (s : State) : s.advance.trees = s.trees := rfl
@[simp] theorem advance_waiting (s : State) : s.advance.waiting = s.waiting := rfl
@[simp] theorem advance_responses (s : State) : s.advance.responses = s.responses := rfl
@[simp] theorem advance_mcast (s : State) : s.advance.mcast = s.mcast := rfl
@[simp] theorem advance_forks (s : State) : s.advance.forks = s.forks := rfl
@[simp] theorem advance_sends (s : State) : s.advance.sends = s.sends := rfl
@[simp] theorem advance_stop (s : State) : s.advance.stop = s.stop := rfl
@[simp] theorem advance_bands (s : State) : s.advance.bands = s.bands := rfl
@[simp] theorem advance_clock (s : State) : s.advance.clock = s.clock := rfl
@[simp] theorem advance_ctxs (s : State) : s.advance.ctxs = s.ctxs := rfl
@[simp] theorem advance_clusterQ (s : State) : s.advance.clusterQ = s.clusterQ := rfl
@[simp] theorem advance_clusterTlb (s : State) : s.advance.clusterTlb = s.clusterTlb := rfl
@[simp] theorem advance_clusterUse (s : State) : s.advance.clusterUse = s.clusterUse := rfl
@[simp] theorem advance_flumes (s : State) : s.advance.flumes = s.flumes := rfl
@[simp] theorem advance_engines (s : State) : s.advance.engines = s.engines := rfl
@[simp] theorem advance_patterns (s : State) : s.advance.patterns = s.patterns := rfl
@[simp] theorem advance_pool (s : State) : s.advance.pool = s.pool := rfl
@[simp] theorem advance_migrations (s : State) : s.advance.migrations = s.migrations := rfl
@[simp] theorem advance_rankNet (s : State) : s.advance.rankNet = s.rankNet := rfl
@[simp] theorem advance_net (s : State) : s.advance.net = s.net := rfl
@[simp] theorem advance_out (s : State) : s.advance.out = s.out := rfl
@[simp] theorem advance_saves (s : State) : s.advance.saves = s.saves := rfl
@[simp] theorem advance_turns (s : State) : s.advance.turns = s.turns := rfl
@[simp] theorem advance_pending (s : State) : s.advance.pending = s.pending := rfl
@[simp] theorem advance_unit (s : State) : s.advance.unit = s.unit := rfl
@[simp] theorem advance_freeCtr (s : State) : s.advance.freeCtr = s.freeCtr := rfl
@[simp] theorem advance_beat (s : State) : s.advance.beat = s.beat := rfl

/-! ### addFlags -/

@[simp] theorem addFlags_regs_a (s : State) (v : BitVec 5) : (s.addFlags v).core.regs.a = s.core.regs.a := rfl
@[simp] theorem addFlags_regs_p (s : State) (v : BitVec 5) : (s.addFlags v).core.regs.p = s.core.regs.p := rfl
@[simp] theorem addFlags_regs_t (s : State) (v : BitVec 5) : (s.addFlags v).core.regs.t = s.core.regs.t := rfl
@[simp] theorem addFlags_regs_c (s : State) (v : BitVec 5) : (s.addFlags v).core.regs.c = s.core.regs.c := rfl
@[simp] theorem addFlags_regs_vl (s : State) (v : BitVec 5) : (s.addFlags v).core.regs.vl = s.core.regs.vl := rfl
@[simp] theorem addFlags_regs_frm (s : State) (v : BitVec 5) : (s.addFlags v).core.regs.frm = s.core.regs.frm := rfl
@[simp] theorem addFlags_regs_fflags (s : State) (v : BitVec 5) : (s.addFlags v).core.regs.fflags = s.core.regs.fflags ||| v := rfl
@[simp] theorem addFlags_regs_pc (s : State) (v : BitVec 5) : (s.addFlags v).core.regs.pc = s.core.regs.pc := rfl
@[simp] theorem addFlags_core_num (s : State) (v : BitVec 5) : (s.addFlags v).core.num = s.core.num := rfl
@[simp] theorem addFlags_core_ctx (s : State) (v : BitVec 5) : (s.addFlags v).core.ctx = s.core.ctx := rfl
@[simp] theorem addFlags_core_id (s : State) (v : BitVec 5) : (s.addFlags v).core.id = s.core.id := rfl
@[simp] theorem addFlags_core_csr (s : State) (v : BitVec 5) : (s.addFlags v).core.csr = s.core.csr := rfl
@[simp] theorem addFlags_core_sluice (s : State) (v : BitVec 5) : (s.addFlags v).core.sluice = s.core.sluice := rfl
@[simp] theorem addFlags_core_mx (s : State) (v : BitVec 5) : (s.addFlags v).core.mx = s.core.mx := rfl
@[simp] theorem addFlags_core_nest (s : State) (v : BitVec 5) : (s.addFlags v).core.nest = s.core.nest := rfl
@[simp] theorem addFlags_core_port (s : State) (v : BitVec 5) : (s.addFlags v).core.port = s.core.port := rfl
@[simp] theorem addFlags_core_watch (s : State) (v : BitVec 5) : (s.addFlags v).core.watch = s.core.watch := rfl
@[simp] theorem addFlags_core_rank (s : State) (v : BitVec 5) : (s.addFlags v).core.rank = s.core.rank := rfl
@[simp] theorem addFlags_core_sched (s : State) (v : BitVec 5) : (s.addFlags v).core.sched = s.core.sched := rfl
@[simp] theorem addFlags_core_tlb (s : State) (v : BitVec 5) : (s.addFlags v).core.tlb = s.core.tlb := rfl
@[simp] theorem addFlags_core_tlbWays (s : State) (v : BitVec 5) : (s.addFlags v).core.tlbWays = s.core.tlbWays := rfl
@[simp] theorem addFlags_core_tlbTree (s : State) (v : BitVec 5) : (s.addFlags v).core.tlbTree = s.core.tlbTree := rfl
@[simp] theorem addFlags_core_icache (s : State) (v : BitVec 5) : (s.addFlags v).core.icache = s.core.icache := rfl
@[simp] theorem addFlags_others (s : State) (v : BitVec 5) : (s.addFlags v).others = s.others := rfl
@[simp] theorem addFlags_mem (s : State) (v : BitVec 5) : (s.addFlags v).mem = s.mem := rfl
@[simp] theorem addFlags_poison (s : State) (v : BitVec 5) : (s.addFlags v).poison = s.poison := rfl
@[simp] theorem addFlags_lines (s : State) (v : BitVec 5) : (s.addFlags v).lines = s.lines := rfl
@[simp] theorem addFlags_trees (s : State) (v : BitVec 5) : (s.addFlags v).trees = s.trees := rfl
@[simp] theorem addFlags_waiting (s : State) (v : BitVec 5) : (s.addFlags v).waiting = s.waiting := rfl
@[simp] theorem addFlags_responses (s : State) (v : BitVec 5) : (s.addFlags v).responses = s.responses := rfl
@[simp] theorem addFlags_mcast (s : State) (v : BitVec 5) : (s.addFlags v).mcast = s.mcast := rfl
@[simp] theorem addFlags_forks (s : State) (v : BitVec 5) : (s.addFlags v).forks = s.forks := rfl
@[simp] theorem addFlags_sends (s : State) (v : BitVec 5) : (s.addFlags v).sends = s.sends := rfl
@[simp] theorem addFlags_stop (s : State) (v : BitVec 5) : (s.addFlags v).stop = s.stop := rfl
@[simp] theorem addFlags_bands (s : State) (v : BitVec 5) : (s.addFlags v).bands = s.bands := rfl
@[simp] theorem addFlags_clock (s : State) (v : BitVec 5) : (s.addFlags v).clock = s.clock := rfl
@[simp] theorem addFlags_ctxs (s : State) (v : BitVec 5) : (s.addFlags v).ctxs = s.ctxs := rfl
@[simp] theorem addFlags_clusterQ (s : State) (v : BitVec 5) : (s.addFlags v).clusterQ = s.clusterQ := rfl
@[simp] theorem addFlags_clusterTlb (s : State) (v : BitVec 5) : (s.addFlags v).clusterTlb = s.clusterTlb := rfl
@[simp] theorem addFlags_clusterUse (s : State) (v : BitVec 5) : (s.addFlags v).clusterUse = s.clusterUse := rfl
@[simp] theorem addFlags_flumes (s : State) (v : BitVec 5) : (s.addFlags v).flumes = s.flumes := rfl
@[simp] theorem addFlags_engines (s : State) (v : BitVec 5) : (s.addFlags v).engines = s.engines := rfl
@[simp] theorem addFlags_patterns (s : State) (v : BitVec 5) : (s.addFlags v).patterns = s.patterns := rfl
@[simp] theorem addFlags_pool (s : State) (v : BitVec 5) : (s.addFlags v).pool = s.pool := rfl
@[simp] theorem addFlags_migrations (s : State) (v : BitVec 5) : (s.addFlags v).migrations = s.migrations := rfl
@[simp] theorem addFlags_rankNet (s : State) (v : BitVec 5) : (s.addFlags v).rankNet = s.rankNet := rfl
@[simp] theorem addFlags_net (s : State) (v : BitVec 5) : (s.addFlags v).net = s.net := rfl
@[simp] theorem addFlags_out (s : State) (v : BitVec 5) : (s.addFlags v).out = s.out := rfl
@[simp] theorem addFlags_saves (s : State) (v : BitVec 5) : (s.addFlags v).saves = s.saves := rfl
@[simp] theorem addFlags_turns (s : State) (v : BitVec 5) : (s.addFlags v).turns = s.turns := rfl
@[simp] theorem addFlags_pending (s : State) (v : BitVec 5) : (s.addFlags v).pending = s.pending := rfl
@[simp] theorem addFlags_unit (s : State) (v : BitVec 5) : (s.addFlags v).unit = s.unit := rfl
@[simp] theorem addFlags_freeCtr (s : State) (v : BitVec 5) : (s.addFlags v).freeCtr = s.freeCtr := rfl
@[simp] theorem addFlags_beat (s : State) (v : BitVec 5) : (s.addFlags v).beat = s.beat := rfl

/-! ### setPtr -/

@[simp] theorem setPtr_regs_a (s : State) (i : BitVec 3) (v : Ptr) : (s.setPtr i v).core.regs.a = s.core.regs.a := rfl
@[simp] theorem setPtr_regs_p (s : State) (i : BitVec 3) (v : Ptr) : (s.setPtr i v).core.regs.p = s.core.regs.p.set i.toNat v i.isLt := rfl
@[simp] theorem setPtr_regs_t (s : State) (i : BitVec 3) (v : Ptr) : (s.setPtr i v).core.regs.t = s.core.regs.t := rfl
@[simp] theorem setPtr_regs_c (s : State) (i : BitVec 3) (v : Ptr) : (s.setPtr i v).core.regs.c = s.core.regs.c := rfl
@[simp] theorem setPtr_regs_vl (s : State) (i : BitVec 3) (v : Ptr) : (s.setPtr i v).core.regs.vl = s.core.regs.vl := rfl
@[simp] theorem setPtr_regs_frm (s : State) (i : BitVec 3) (v : Ptr) : (s.setPtr i v).core.regs.frm = s.core.regs.frm := rfl
@[simp] theorem setPtr_regs_fflags (s : State) (i : BitVec 3) (v : Ptr) : (s.setPtr i v).core.regs.fflags = s.core.regs.fflags := rfl
@[simp] theorem setPtr_regs_pc (s : State) (i : BitVec 3) (v : Ptr) : (s.setPtr i v).core.regs.pc = s.core.regs.pc := rfl
@[simp] theorem setPtr_core_num (s : State) (i : BitVec 3) (v : Ptr) : (s.setPtr i v).core.num = s.core.num := rfl
@[simp] theorem setPtr_core_ctx (s : State) (i : BitVec 3) (v : Ptr) : (s.setPtr i v).core.ctx = s.core.ctx := rfl
@[simp] theorem setPtr_core_id (s : State) (i : BitVec 3) (v : Ptr) : (s.setPtr i v).core.id = s.core.id := rfl
@[simp] theorem setPtr_core_csr (s : State) (i : BitVec 3) (v : Ptr) : (s.setPtr i v).core.csr = s.core.csr := rfl
@[simp] theorem setPtr_core_sluice (s : State) (i : BitVec 3) (v : Ptr) : (s.setPtr i v).core.sluice = s.core.sluice := rfl
@[simp] theorem setPtr_core_mx (s : State) (i : BitVec 3) (v : Ptr) : (s.setPtr i v).core.mx = s.core.mx := rfl
@[simp] theorem setPtr_core_nest (s : State) (i : BitVec 3) (v : Ptr) : (s.setPtr i v).core.nest = s.core.nest := rfl
@[simp] theorem setPtr_core_port (s : State) (i : BitVec 3) (v : Ptr) : (s.setPtr i v).core.port = s.core.port := rfl
@[simp] theorem setPtr_core_watch (s : State) (i : BitVec 3) (v : Ptr) : (s.setPtr i v).core.watch = s.core.watch := rfl
@[simp] theorem setPtr_core_rank (s : State) (i : BitVec 3) (v : Ptr) : (s.setPtr i v).core.rank = s.core.rank := rfl
@[simp] theorem setPtr_core_sched (s : State) (i : BitVec 3) (v : Ptr) : (s.setPtr i v).core.sched = s.core.sched := rfl
@[simp] theorem setPtr_core_tlb (s : State) (i : BitVec 3) (v : Ptr) : (s.setPtr i v).core.tlb = s.core.tlb := rfl
@[simp] theorem setPtr_core_tlbWays (s : State) (i : BitVec 3) (v : Ptr) : (s.setPtr i v).core.tlbWays = s.core.tlbWays := rfl
@[simp] theorem setPtr_core_tlbTree (s : State) (i : BitVec 3) (v : Ptr) : (s.setPtr i v).core.tlbTree = s.core.tlbTree := rfl
@[simp] theorem setPtr_core_icache (s : State) (i : BitVec 3) (v : Ptr) : (s.setPtr i v).core.icache = s.core.icache := rfl
@[simp] theorem setPtr_others (s : State) (i : BitVec 3) (v : Ptr) : (s.setPtr i v).others = s.others := rfl
@[simp] theorem setPtr_mem (s : State) (i : BitVec 3) (v : Ptr) : (s.setPtr i v).mem = s.mem := rfl
@[simp] theorem setPtr_poison (s : State) (i : BitVec 3) (v : Ptr) : (s.setPtr i v).poison = s.poison := rfl
@[simp] theorem setPtr_lines (s : State) (i : BitVec 3) (v : Ptr) : (s.setPtr i v).lines = s.lines := rfl
@[simp] theorem setPtr_trees (s : State) (i : BitVec 3) (v : Ptr) : (s.setPtr i v).trees = s.trees := rfl
@[simp] theorem setPtr_waiting (s : State) (i : BitVec 3) (v : Ptr) : (s.setPtr i v).waiting = s.waiting := rfl
@[simp] theorem setPtr_responses (s : State) (i : BitVec 3) (v : Ptr) : (s.setPtr i v).responses = s.responses := rfl
@[simp] theorem setPtr_mcast (s : State) (i : BitVec 3) (v : Ptr) : (s.setPtr i v).mcast = s.mcast := rfl
@[simp] theorem setPtr_forks (s : State) (i : BitVec 3) (v : Ptr) : (s.setPtr i v).forks = s.forks := rfl
@[simp] theorem setPtr_sends (s : State) (i : BitVec 3) (v : Ptr) : (s.setPtr i v).sends = s.sends := rfl
@[simp] theorem setPtr_stop (s : State) (i : BitVec 3) (v : Ptr) : (s.setPtr i v).stop = s.stop := rfl
@[simp] theorem setPtr_bands (s : State) (i : BitVec 3) (v : Ptr) : (s.setPtr i v).bands = s.bands := rfl
@[simp] theorem setPtr_clock (s : State) (i : BitVec 3) (v : Ptr) : (s.setPtr i v).clock = s.clock := rfl
@[simp] theorem setPtr_ctxs (s : State) (i : BitVec 3) (v : Ptr) : (s.setPtr i v).ctxs = s.ctxs := rfl
@[simp] theorem setPtr_clusterQ (s : State) (i : BitVec 3) (v : Ptr) : (s.setPtr i v).clusterQ = s.clusterQ := rfl
@[simp] theorem setPtr_clusterTlb (s : State) (i : BitVec 3) (v : Ptr) : (s.setPtr i v).clusterTlb = s.clusterTlb := rfl
@[simp] theorem setPtr_clusterUse (s : State) (i : BitVec 3) (v : Ptr) : (s.setPtr i v).clusterUse = s.clusterUse := rfl
@[simp] theorem setPtr_flumes (s : State) (i : BitVec 3) (v : Ptr) : (s.setPtr i v).flumes = s.flumes := rfl
@[simp] theorem setPtr_engines (s : State) (i : BitVec 3) (v : Ptr) : (s.setPtr i v).engines = s.engines := rfl
@[simp] theorem setPtr_patterns (s : State) (i : BitVec 3) (v : Ptr) : (s.setPtr i v).patterns = s.patterns := rfl
@[simp] theorem setPtr_pool (s : State) (i : BitVec 3) (v : Ptr) : (s.setPtr i v).pool = s.pool := rfl
@[simp] theorem setPtr_migrations (s : State) (i : BitVec 3) (v : Ptr) : (s.setPtr i v).migrations = s.migrations := rfl
@[simp] theorem setPtr_rankNet (s : State) (i : BitVec 3) (v : Ptr) : (s.setPtr i v).rankNet = s.rankNet := rfl
@[simp] theorem setPtr_net (s : State) (i : BitVec 3) (v : Ptr) : (s.setPtr i v).net = s.net := rfl
@[simp] theorem setPtr_out (s : State) (i : BitVec 3) (v : Ptr) : (s.setPtr i v).out = s.out := rfl
@[simp] theorem setPtr_saves (s : State) (i : BitVec 3) (v : Ptr) : (s.setPtr i v).saves = s.saves := rfl
@[simp] theorem setPtr_turns (s : State) (i : BitVec 3) (v : Ptr) : (s.setPtr i v).turns = s.turns := rfl
@[simp] theorem setPtr_pending (s : State) (i : BitVec 3) (v : Ptr) : (s.setPtr i v).pending = s.pending := rfl
@[simp] theorem setPtr_unit (s : State) (i : BitVec 3) (v : Ptr) : (s.setPtr i v).unit = s.unit := rfl
@[simp] theorem setPtr_freeCtr (s : State) (i : BitVec 3) (v : Ptr) : (s.setPtr i v).freeCtr = s.freeCtr := rfl
@[simp] theorem setPtr_beat (s : State) (i : BitVec 3) (v : Ptr) : (s.setPtr i v).beat = s.beat := rfl

/-! ### setAddr -/

@[simp] theorem setAddr_regs_a (s : State) (i : BitVec 3) (v : Word) : (s.setAddr i v).core.regs.a = s.core.regs.a := rfl
@[simp] theorem setAddr_regs_p (s : State) (i : BitVec 3) (v : Word) : (s.setAddr i v).core.regs.p = s.core.regs.p.set i.toNat { s.ptr i with addr := v } i.isLt := rfl
@[simp] theorem setAddr_regs_t (s : State) (i : BitVec 3) (v : Word) : (s.setAddr i v).core.regs.t = s.core.regs.t := rfl
@[simp] theorem setAddr_regs_c (s : State) (i : BitVec 3) (v : Word) : (s.setAddr i v).core.regs.c = s.core.regs.c := rfl
@[simp] theorem setAddr_regs_vl (s : State) (i : BitVec 3) (v : Word) : (s.setAddr i v).core.regs.vl = s.core.regs.vl := rfl
@[simp] theorem setAddr_regs_frm (s : State) (i : BitVec 3) (v : Word) : (s.setAddr i v).core.regs.frm = s.core.regs.frm := rfl
@[simp] theorem setAddr_regs_fflags (s : State) (i : BitVec 3) (v : Word) : (s.setAddr i v).core.regs.fflags = s.core.regs.fflags := rfl
@[simp] theorem setAddr_regs_pc (s : State) (i : BitVec 3) (v : Word) : (s.setAddr i v).core.regs.pc = s.core.regs.pc := rfl
@[simp] theorem setAddr_core_num (s : State) (i : BitVec 3) (v : Word) : (s.setAddr i v).core.num = s.core.num := rfl
@[simp] theorem setAddr_core_ctx (s : State) (i : BitVec 3) (v : Word) : (s.setAddr i v).core.ctx = s.core.ctx := rfl
@[simp] theorem setAddr_core_id (s : State) (i : BitVec 3) (v : Word) : (s.setAddr i v).core.id = s.core.id := rfl
@[simp] theorem setAddr_core_csr (s : State) (i : BitVec 3) (v : Word) : (s.setAddr i v).core.csr = s.core.csr := rfl
@[simp] theorem setAddr_core_sluice (s : State) (i : BitVec 3) (v : Word) : (s.setAddr i v).core.sluice = s.core.sluice := rfl
@[simp] theorem setAddr_core_mx (s : State) (i : BitVec 3) (v : Word) : (s.setAddr i v).core.mx = s.core.mx := rfl
@[simp] theorem setAddr_core_nest (s : State) (i : BitVec 3) (v : Word) : (s.setAddr i v).core.nest = s.core.nest := rfl
@[simp] theorem setAddr_core_port (s : State) (i : BitVec 3) (v : Word) : (s.setAddr i v).core.port = s.core.port := rfl
@[simp] theorem setAddr_core_watch (s : State) (i : BitVec 3) (v : Word) : (s.setAddr i v).core.watch = s.core.watch := rfl
@[simp] theorem setAddr_core_rank (s : State) (i : BitVec 3) (v : Word) : (s.setAddr i v).core.rank = s.core.rank := rfl
@[simp] theorem setAddr_core_sched (s : State) (i : BitVec 3) (v : Word) : (s.setAddr i v).core.sched = s.core.sched := rfl
@[simp] theorem setAddr_core_tlb (s : State) (i : BitVec 3) (v : Word) : (s.setAddr i v).core.tlb = s.core.tlb := rfl
@[simp] theorem setAddr_core_tlbWays (s : State) (i : BitVec 3) (v : Word) : (s.setAddr i v).core.tlbWays = s.core.tlbWays := rfl
@[simp] theorem setAddr_core_tlbTree (s : State) (i : BitVec 3) (v : Word) : (s.setAddr i v).core.tlbTree = s.core.tlbTree := rfl
@[simp] theorem setAddr_core_icache (s : State) (i : BitVec 3) (v : Word) : (s.setAddr i v).core.icache = s.core.icache := rfl
@[simp] theorem setAddr_others (s : State) (i : BitVec 3) (v : Word) : (s.setAddr i v).others = s.others := rfl
@[simp] theorem setAddr_mem (s : State) (i : BitVec 3) (v : Word) : (s.setAddr i v).mem = s.mem := rfl
@[simp] theorem setAddr_poison (s : State) (i : BitVec 3) (v : Word) : (s.setAddr i v).poison = s.poison := rfl
@[simp] theorem setAddr_lines (s : State) (i : BitVec 3) (v : Word) : (s.setAddr i v).lines = s.lines := rfl
@[simp] theorem setAddr_trees (s : State) (i : BitVec 3) (v : Word) : (s.setAddr i v).trees = s.trees := rfl
@[simp] theorem setAddr_waiting (s : State) (i : BitVec 3) (v : Word) : (s.setAddr i v).waiting = s.waiting := rfl
@[simp] theorem setAddr_responses (s : State) (i : BitVec 3) (v : Word) : (s.setAddr i v).responses = s.responses := rfl
@[simp] theorem setAddr_mcast (s : State) (i : BitVec 3) (v : Word) : (s.setAddr i v).mcast = s.mcast := rfl
@[simp] theorem setAddr_forks (s : State) (i : BitVec 3) (v : Word) : (s.setAddr i v).forks = s.forks := rfl
@[simp] theorem setAddr_sends (s : State) (i : BitVec 3) (v : Word) : (s.setAddr i v).sends = s.sends := rfl
@[simp] theorem setAddr_stop (s : State) (i : BitVec 3) (v : Word) : (s.setAddr i v).stop = s.stop := rfl
@[simp] theorem setAddr_bands (s : State) (i : BitVec 3) (v : Word) : (s.setAddr i v).bands = s.bands := rfl
@[simp] theorem setAddr_clock (s : State) (i : BitVec 3) (v : Word) : (s.setAddr i v).clock = s.clock := rfl
@[simp] theorem setAddr_ctxs (s : State) (i : BitVec 3) (v : Word) : (s.setAddr i v).ctxs = s.ctxs := rfl
@[simp] theorem setAddr_clusterQ (s : State) (i : BitVec 3) (v : Word) : (s.setAddr i v).clusterQ = s.clusterQ := rfl
@[simp] theorem setAddr_clusterTlb (s : State) (i : BitVec 3) (v : Word) : (s.setAddr i v).clusterTlb = s.clusterTlb := rfl
@[simp] theorem setAddr_clusterUse (s : State) (i : BitVec 3) (v : Word) : (s.setAddr i v).clusterUse = s.clusterUse := rfl
@[simp] theorem setAddr_flumes (s : State) (i : BitVec 3) (v : Word) : (s.setAddr i v).flumes = s.flumes := rfl
@[simp] theorem setAddr_engines (s : State) (i : BitVec 3) (v : Word) : (s.setAddr i v).engines = s.engines := rfl
@[simp] theorem setAddr_patterns (s : State) (i : BitVec 3) (v : Word) : (s.setAddr i v).patterns = s.patterns := rfl
@[simp] theorem setAddr_pool (s : State) (i : BitVec 3) (v : Word) : (s.setAddr i v).pool = s.pool := rfl
@[simp] theorem setAddr_migrations (s : State) (i : BitVec 3) (v : Word) : (s.setAddr i v).migrations = s.migrations := rfl
@[simp] theorem setAddr_rankNet (s : State) (i : BitVec 3) (v : Word) : (s.setAddr i v).rankNet = s.rankNet := rfl
@[simp] theorem setAddr_net (s : State) (i : BitVec 3) (v : Word) : (s.setAddr i v).net = s.net := rfl
@[simp] theorem setAddr_out (s : State) (i : BitVec 3) (v : Word) : (s.setAddr i v).out = s.out := rfl
@[simp] theorem setAddr_saves (s : State) (i : BitVec 3) (v : Word) : (s.setAddr i v).saves = s.saves := rfl
@[simp] theorem setAddr_turns (s : State) (i : BitVec 3) (v : Word) : (s.setAddr i v).turns = s.turns := rfl
@[simp] theorem setAddr_pending (s : State) (i : BitVec 3) (v : Word) : (s.setAddr i v).pending = s.pending := rfl
@[simp] theorem setAddr_unit (s : State) (i : BitVec 3) (v : Word) : (s.setAddr i v).unit = s.unit := rfl
@[simp] theorem setAddr_freeCtr (s : State) (i : BitVec 3) (v : Word) : (s.setAddr i v).freeCtr = s.freeCtr := rfl
@[simp] theorem setAddr_beat (s : State) (i : BitVec 3) (v : Word) : (s.setAddr i v).beat = s.beat := rfl

/-! ### withRegs -/

@[simp] theorem withRegs_core_num (s : State) (v : Regs) : (s.withRegs v).core.num = s.core.num := rfl
@[simp] theorem withRegs_core_ctx (s : State) (v : Regs) : (s.withRegs v).core.ctx = s.core.ctx := rfl
@[simp] theorem withRegs_core_regs (s : State) (v : Regs) : (s.withRegs v).core.regs = v := rfl
@[simp] theorem withRegs_core_id (s : State) (v : Regs) : (s.withRegs v).core.id = s.core.id := rfl
@[simp] theorem withRegs_core_csr (s : State) (v : Regs) : (s.withRegs v).core.csr = s.core.csr := rfl
@[simp] theorem withRegs_core_sluice (s : State) (v : Regs) : (s.withRegs v).core.sluice = s.core.sluice := rfl
@[simp] theorem withRegs_core_mx (s : State) (v : Regs) : (s.withRegs v).core.mx = s.core.mx := rfl
@[simp] theorem withRegs_core_nest (s : State) (v : Regs) : (s.withRegs v).core.nest = s.core.nest := rfl
@[simp] theorem withRegs_core_port (s : State) (v : Regs) : (s.withRegs v).core.port = s.core.port := rfl
@[simp] theorem withRegs_core_watch (s : State) (v : Regs) : (s.withRegs v).core.watch = s.core.watch := rfl
@[simp] theorem withRegs_core_rank (s : State) (v : Regs) : (s.withRegs v).core.rank = s.core.rank := rfl
@[simp] theorem withRegs_core_sched (s : State) (v : Regs) : (s.withRegs v).core.sched = s.core.sched := rfl
@[simp] theorem withRegs_core_tlb (s : State) (v : Regs) : (s.withRegs v).core.tlb = s.core.tlb := rfl
@[simp] theorem withRegs_core_tlbWays (s : State) (v : Regs) : (s.withRegs v).core.tlbWays = s.core.tlbWays := rfl
@[simp] theorem withRegs_core_tlbTree (s : State) (v : Regs) : (s.withRegs v).core.tlbTree = s.core.tlbTree := rfl
@[simp] theorem withRegs_core_icache (s : State) (v : Regs) : (s.withRegs v).core.icache = s.core.icache := rfl
@[simp] theorem withRegs_others (s : State) (v : Regs) : (s.withRegs v).others = s.others := rfl
@[simp] theorem withRegs_mem (s : State) (v : Regs) : (s.withRegs v).mem = s.mem := rfl
@[simp] theorem withRegs_poison (s : State) (v : Regs) : (s.withRegs v).poison = s.poison := rfl
@[simp] theorem withRegs_lines (s : State) (v : Regs) : (s.withRegs v).lines = s.lines := rfl
@[simp] theorem withRegs_trees (s : State) (v : Regs) : (s.withRegs v).trees = s.trees := rfl
@[simp] theorem withRegs_waiting (s : State) (v : Regs) : (s.withRegs v).waiting = s.waiting := rfl
@[simp] theorem withRegs_responses (s : State) (v : Regs) : (s.withRegs v).responses = s.responses := rfl
@[simp] theorem withRegs_mcast (s : State) (v : Regs) : (s.withRegs v).mcast = s.mcast := rfl
@[simp] theorem withRegs_forks (s : State) (v : Regs) : (s.withRegs v).forks = s.forks := rfl
@[simp] theorem withRegs_sends (s : State) (v : Regs) : (s.withRegs v).sends = s.sends := rfl
@[simp] theorem withRegs_stop (s : State) (v : Regs) : (s.withRegs v).stop = s.stop := rfl
@[simp] theorem withRegs_bands (s : State) (v : Regs) : (s.withRegs v).bands = s.bands := rfl
@[simp] theorem withRegs_clock (s : State) (v : Regs) : (s.withRegs v).clock = s.clock := rfl
@[simp] theorem withRegs_ctxs (s : State) (v : Regs) : (s.withRegs v).ctxs = s.ctxs := rfl
@[simp] theorem withRegs_clusterQ (s : State) (v : Regs) : (s.withRegs v).clusterQ = s.clusterQ := rfl
@[simp] theorem withRegs_clusterTlb (s : State) (v : Regs) : (s.withRegs v).clusterTlb = s.clusterTlb := rfl
@[simp] theorem withRegs_clusterUse (s : State) (v : Regs) : (s.withRegs v).clusterUse = s.clusterUse := rfl
@[simp] theorem withRegs_flumes (s : State) (v : Regs) : (s.withRegs v).flumes = s.flumes := rfl
@[simp] theorem withRegs_engines (s : State) (v : Regs) : (s.withRegs v).engines = s.engines := rfl
@[simp] theorem withRegs_patterns (s : State) (v : Regs) : (s.withRegs v).patterns = s.patterns := rfl
@[simp] theorem withRegs_pool (s : State) (v : Regs) : (s.withRegs v).pool = s.pool := rfl
@[simp] theorem withRegs_migrations (s : State) (v : Regs) : (s.withRegs v).migrations = s.migrations := rfl
@[simp] theorem withRegs_rankNet (s : State) (v : Regs) : (s.withRegs v).rankNet = s.rankNet := rfl
@[simp] theorem withRegs_net (s : State) (v : Regs) : (s.withRegs v).net = s.net := rfl
@[simp] theorem withRegs_out (s : State) (v : Regs) : (s.withRegs v).out = s.out := rfl
@[simp] theorem withRegs_saves (s : State) (v : Regs) : (s.withRegs v).saves = s.saves := rfl
@[simp] theorem withRegs_turns (s : State) (v : Regs) : (s.withRegs v).turns = s.turns := rfl
@[simp] theorem withRegs_pending (s : State) (v : Regs) : (s.withRegs v).pending = s.pending := rfl
@[simp] theorem withRegs_unit (s : State) (v : Regs) : (s.withRegs v).unit = s.unit := rfl
@[simp] theorem withRegs_freeCtr (s : State) (v : Regs) : (s.withRegs v).freeCtr = s.freeCtr := rfl
@[simp] theorem withRegs_beat (s : State) (v : Regs) : (s.withRegs v).beat = s.beat := rfl

/-! ### setMx -/

@[simp] theorem setMx_core_num (s : State) (v : Matrix) : (s.setMx v).core.num = s.core.num := rfl
@[simp] theorem setMx_core_ctx (s : State) (v : Matrix) : (s.setMx v).core.ctx = s.core.ctx := rfl
@[simp] theorem setMx_core_regs (s : State) (v : Matrix) : (s.setMx v).core.regs = s.core.regs := rfl
@[simp] theorem setMx_core_id (s : State) (v : Matrix) : (s.setMx v).core.id = s.core.id := rfl
@[simp] theorem setMx_core_csr (s : State) (v : Matrix) : (s.setMx v).core.csr = s.core.csr := rfl
@[simp] theorem setMx_core_sluice (s : State) (v : Matrix) : (s.setMx v).core.sluice = s.core.sluice := rfl
@[simp] theorem setMx_core_mx (s : State) (v : Matrix) : (s.setMx v).core.mx = v := rfl
@[simp] theorem setMx_core_nest (s : State) (v : Matrix) : (s.setMx v).core.nest = s.core.nest := rfl
@[simp] theorem setMx_core_port (s : State) (v : Matrix) : (s.setMx v).core.port = s.core.port := rfl
@[simp] theorem setMx_core_watch (s : State) (v : Matrix) : (s.setMx v).core.watch = s.core.watch := rfl
@[simp] theorem setMx_core_rank (s : State) (v : Matrix) : (s.setMx v).core.rank = s.core.rank := rfl
@[simp] theorem setMx_core_sched (s : State) (v : Matrix) : (s.setMx v).core.sched = s.core.sched := rfl
@[simp] theorem setMx_core_tlb (s : State) (v : Matrix) : (s.setMx v).core.tlb = s.core.tlb := rfl
@[simp] theorem setMx_core_tlbWays (s : State) (v : Matrix) : (s.setMx v).core.tlbWays = s.core.tlbWays := rfl
@[simp] theorem setMx_core_tlbTree (s : State) (v : Matrix) : (s.setMx v).core.tlbTree = s.core.tlbTree := rfl
@[simp] theorem setMx_core_icache (s : State) (v : Matrix) : (s.setMx v).core.icache = s.core.icache := rfl
@[simp] theorem setMx_others (s : State) (v : Matrix) : (s.setMx v).others = s.others := rfl
@[simp] theorem setMx_mem (s : State) (v : Matrix) : (s.setMx v).mem = s.mem := rfl
@[simp] theorem setMx_poison (s : State) (v : Matrix) : (s.setMx v).poison = s.poison := rfl
@[simp] theorem setMx_lines (s : State) (v : Matrix) : (s.setMx v).lines = s.lines := rfl
@[simp] theorem setMx_trees (s : State) (v : Matrix) : (s.setMx v).trees = s.trees := rfl
@[simp] theorem setMx_waiting (s : State) (v : Matrix) : (s.setMx v).waiting = s.waiting := rfl
@[simp] theorem setMx_responses (s : State) (v : Matrix) : (s.setMx v).responses = s.responses := rfl
@[simp] theorem setMx_mcast (s : State) (v : Matrix) : (s.setMx v).mcast = s.mcast := rfl
@[simp] theorem setMx_forks (s : State) (v : Matrix) : (s.setMx v).forks = s.forks := rfl
@[simp] theorem setMx_sends (s : State) (v : Matrix) : (s.setMx v).sends = s.sends := rfl
@[simp] theorem setMx_stop (s : State) (v : Matrix) : (s.setMx v).stop = s.stop := rfl
@[simp] theorem setMx_bands (s : State) (v : Matrix) : (s.setMx v).bands = s.bands := rfl
@[simp] theorem setMx_clock (s : State) (v : Matrix) : (s.setMx v).clock = s.clock := rfl
@[simp] theorem setMx_ctxs (s : State) (v : Matrix) : (s.setMx v).ctxs = s.ctxs := rfl
@[simp] theorem setMx_clusterQ (s : State) (v : Matrix) : (s.setMx v).clusterQ = s.clusterQ := rfl
@[simp] theorem setMx_clusterTlb (s : State) (v : Matrix) : (s.setMx v).clusterTlb = s.clusterTlb := rfl
@[simp] theorem setMx_clusterUse (s : State) (v : Matrix) : (s.setMx v).clusterUse = s.clusterUse := rfl
@[simp] theorem setMx_flumes (s : State) (v : Matrix) : (s.setMx v).flumes = s.flumes := rfl
@[simp] theorem setMx_engines (s : State) (v : Matrix) : (s.setMx v).engines = s.engines := rfl
@[simp] theorem setMx_patterns (s : State) (v : Matrix) : (s.setMx v).patterns = s.patterns := rfl
@[simp] theorem setMx_pool (s : State) (v : Matrix) : (s.setMx v).pool = s.pool := rfl
@[simp] theorem setMx_migrations (s : State) (v : Matrix) : (s.setMx v).migrations = s.migrations := rfl
@[simp] theorem setMx_rankNet (s : State) (v : Matrix) : (s.setMx v).rankNet = s.rankNet := rfl
@[simp] theorem setMx_net (s : State) (v : Matrix) : (s.setMx v).net = s.net := rfl
@[simp] theorem setMx_out (s : State) (v : Matrix) : (s.setMx v).out = s.out := rfl
@[simp] theorem setMx_saves (s : State) (v : Matrix) : (s.setMx v).saves = s.saves := rfl
@[simp] theorem setMx_turns (s : State) (v : Matrix) : (s.setMx v).turns = s.turns := rfl
@[simp] theorem setMx_pending (s : State) (v : Matrix) : (s.setMx v).pending = s.pending := rfl
@[simp] theorem setMx_unit (s : State) (v : Matrix) : (s.setMx v).unit = s.unit := rfl
@[simp] theorem setMx_freeCtr (s : State) (v : Matrix) : (s.setMx v).freeCtr = s.freeCtr := rfl
@[simp] theorem setMx_beat (s : State) (v : Matrix) : (s.setMx v).beat = s.beat := rfl

/-! ### setNest -/

@[simp] theorem setNest_core_num (s : State) (v : Option Nest) : (s.setNest v).core.num = s.core.num := rfl
@[simp] theorem setNest_core_ctx (s : State) (v : Option Nest) : (s.setNest v).core.ctx = s.core.ctx := rfl
@[simp] theorem setNest_core_regs (s : State) (v : Option Nest) : (s.setNest v).core.regs = s.core.regs := rfl
@[simp] theorem setNest_core_id (s : State) (v : Option Nest) : (s.setNest v).core.id = s.core.id := rfl
@[simp] theorem setNest_core_csr (s : State) (v : Option Nest) : (s.setNest v).core.csr = s.core.csr := rfl
@[simp] theorem setNest_core_sluice (s : State) (v : Option Nest) : (s.setNest v).core.sluice = s.core.sluice := rfl
@[simp] theorem setNest_core_mx (s : State) (v : Option Nest) : (s.setNest v).core.mx = s.core.mx := rfl
@[simp] theorem setNest_core_nest (s : State) (v : Option Nest) : (s.setNest v).core.nest = v := rfl
@[simp] theorem setNest_core_port (s : State) (v : Option Nest) : (s.setNest v).core.port = s.core.port := rfl
@[simp] theorem setNest_core_watch (s : State) (v : Option Nest) : (s.setNest v).core.watch = s.core.watch := rfl
@[simp] theorem setNest_core_rank (s : State) (v : Option Nest) : (s.setNest v).core.rank = s.core.rank := rfl
@[simp] theorem setNest_core_sched (s : State) (v : Option Nest) : (s.setNest v).core.sched = s.core.sched := rfl
@[simp] theorem setNest_core_tlb (s : State) (v : Option Nest) : (s.setNest v).core.tlb = s.core.tlb := rfl
@[simp] theorem setNest_core_tlbWays (s : State) (v : Option Nest) : (s.setNest v).core.tlbWays = s.core.tlbWays := rfl
@[simp] theorem setNest_core_tlbTree (s : State) (v : Option Nest) : (s.setNest v).core.tlbTree = s.core.tlbTree := rfl
@[simp] theorem setNest_core_icache (s : State) (v : Option Nest) : (s.setNest v).core.icache = s.core.icache := rfl
@[simp] theorem setNest_others (s : State) (v : Option Nest) : (s.setNest v).others = s.others := rfl
@[simp] theorem setNest_mem (s : State) (v : Option Nest) : (s.setNest v).mem = s.mem := rfl
@[simp] theorem setNest_poison (s : State) (v : Option Nest) : (s.setNest v).poison = s.poison := rfl
@[simp] theorem setNest_lines (s : State) (v : Option Nest) : (s.setNest v).lines = s.lines := rfl
@[simp] theorem setNest_trees (s : State) (v : Option Nest) : (s.setNest v).trees = s.trees := rfl
@[simp] theorem setNest_waiting (s : State) (v : Option Nest) : (s.setNest v).waiting = s.waiting := rfl
@[simp] theorem setNest_responses (s : State) (v : Option Nest) : (s.setNest v).responses = s.responses := rfl
@[simp] theorem setNest_mcast (s : State) (v : Option Nest) : (s.setNest v).mcast = s.mcast := rfl
@[simp] theorem setNest_forks (s : State) (v : Option Nest) : (s.setNest v).forks = s.forks := rfl
@[simp] theorem setNest_sends (s : State) (v : Option Nest) : (s.setNest v).sends = s.sends := rfl
@[simp] theorem setNest_stop (s : State) (v : Option Nest) : (s.setNest v).stop = s.stop := rfl
@[simp] theorem setNest_bands (s : State) (v : Option Nest) : (s.setNest v).bands = s.bands := rfl
@[simp] theorem setNest_clock (s : State) (v : Option Nest) : (s.setNest v).clock = s.clock := rfl
@[simp] theorem setNest_ctxs (s : State) (v : Option Nest) : (s.setNest v).ctxs = s.ctxs := rfl
@[simp] theorem setNest_clusterQ (s : State) (v : Option Nest) : (s.setNest v).clusterQ = s.clusterQ := rfl
@[simp] theorem setNest_clusterTlb (s : State) (v : Option Nest) : (s.setNest v).clusterTlb = s.clusterTlb := rfl
@[simp] theorem setNest_clusterUse (s : State) (v : Option Nest) : (s.setNest v).clusterUse = s.clusterUse := rfl
@[simp] theorem setNest_flumes (s : State) (v : Option Nest) : (s.setNest v).flumes = s.flumes := rfl
@[simp] theorem setNest_engines (s : State) (v : Option Nest) : (s.setNest v).engines = s.engines := rfl
@[simp] theorem setNest_patterns (s : State) (v : Option Nest) : (s.setNest v).patterns = s.patterns := rfl
@[simp] theorem setNest_pool (s : State) (v : Option Nest) : (s.setNest v).pool = s.pool := rfl
@[simp] theorem setNest_migrations (s : State) (v : Option Nest) : (s.setNest v).migrations = s.migrations := rfl
@[simp] theorem setNest_rankNet (s : State) (v : Option Nest) : (s.setNest v).rankNet = s.rankNet := rfl
@[simp] theorem setNest_net (s : State) (v : Option Nest) : (s.setNest v).net = s.net := rfl
@[simp] theorem setNest_out (s : State) (v : Option Nest) : (s.setNest v).out = s.out := rfl
@[simp] theorem setNest_saves (s : State) (v : Option Nest) : (s.setNest v).saves = s.saves := rfl
@[simp] theorem setNest_turns (s : State) (v : Option Nest) : (s.setNest v).turns = s.turns := rfl
@[simp] theorem setNest_pending (s : State) (v : Option Nest) : (s.setNest v).pending = s.pending := rfl
@[simp] theorem setNest_unit (s : State) (v : Option Nest) : (s.setNest v).unit = s.unit := rfl
@[simp] theorem setNest_freeCtr (s : State) (v : Option Nest) : (s.setNest v).freeCtr = s.freeCtr := rfl
@[simp] theorem setNest_beat (s : State) (v : Option Nest) : (s.setNest v).beat = s.beat := rfl

/-! ### setWatch -/

@[simp] theorem setWatch_core_num (s : State) (v : Option Watch) : (s.setWatch v).core.num = s.core.num := rfl
@[simp] theorem setWatch_core_ctx (s : State) (v : Option Watch) : (s.setWatch v).core.ctx = s.core.ctx := rfl
@[simp] theorem setWatch_core_regs (s : State) (v : Option Watch) : (s.setWatch v).core.regs = s.core.regs := rfl
@[simp] theorem setWatch_core_id (s : State) (v : Option Watch) : (s.setWatch v).core.id = s.core.id := rfl
@[simp] theorem setWatch_core_csr (s : State) (v : Option Watch) : (s.setWatch v).core.csr = s.core.csr := rfl
@[simp] theorem setWatch_core_sluice (s : State) (v : Option Watch) : (s.setWatch v).core.sluice = s.core.sluice := rfl
@[simp] theorem setWatch_core_mx (s : State) (v : Option Watch) : (s.setWatch v).core.mx = s.core.mx := rfl
@[simp] theorem setWatch_core_nest (s : State) (v : Option Watch) : (s.setWatch v).core.nest = s.core.nest := rfl
@[simp] theorem setWatch_core_port (s : State) (v : Option Watch) : (s.setWatch v).core.port = s.core.port := rfl
@[simp] theorem setWatch_core_watch (s : State) (v : Option Watch) : (s.setWatch v).core.watch = v := rfl
@[simp] theorem setWatch_core_rank (s : State) (v : Option Watch) : (s.setWatch v).core.rank = s.core.rank := rfl
@[simp] theorem setWatch_core_sched (s : State) (v : Option Watch) : (s.setWatch v).core.sched = s.core.sched := rfl
@[simp] theorem setWatch_core_tlb (s : State) (v : Option Watch) : (s.setWatch v).core.tlb = s.core.tlb := rfl
@[simp] theorem setWatch_core_tlbWays (s : State) (v : Option Watch) : (s.setWatch v).core.tlbWays = s.core.tlbWays := rfl
@[simp] theorem setWatch_core_tlbTree (s : State) (v : Option Watch) : (s.setWatch v).core.tlbTree = s.core.tlbTree := rfl
@[simp] theorem setWatch_core_icache (s : State) (v : Option Watch) : (s.setWatch v).core.icache = s.core.icache := rfl
@[simp] theorem setWatch_others (s : State) (v : Option Watch) : (s.setWatch v).others = s.others := rfl
@[simp] theorem setWatch_mem (s : State) (v : Option Watch) : (s.setWatch v).mem = s.mem := rfl
@[simp] theorem setWatch_poison (s : State) (v : Option Watch) : (s.setWatch v).poison = s.poison := rfl
@[simp] theorem setWatch_lines (s : State) (v : Option Watch) : (s.setWatch v).lines = s.lines := rfl
@[simp] theorem setWatch_trees (s : State) (v : Option Watch) : (s.setWatch v).trees = s.trees := rfl
@[simp] theorem setWatch_waiting (s : State) (v : Option Watch) : (s.setWatch v).waiting = s.waiting := rfl
@[simp] theorem setWatch_responses (s : State) (v : Option Watch) : (s.setWatch v).responses = s.responses := rfl
@[simp] theorem setWatch_mcast (s : State) (v : Option Watch) : (s.setWatch v).mcast = s.mcast := rfl
@[simp] theorem setWatch_forks (s : State) (v : Option Watch) : (s.setWatch v).forks = s.forks := rfl
@[simp] theorem setWatch_sends (s : State) (v : Option Watch) : (s.setWatch v).sends = s.sends := rfl
@[simp] theorem setWatch_stop (s : State) (v : Option Watch) : (s.setWatch v).stop = s.stop := rfl
@[simp] theorem setWatch_bands (s : State) (v : Option Watch) : (s.setWatch v).bands = s.bands := rfl
@[simp] theorem setWatch_clock (s : State) (v : Option Watch) : (s.setWatch v).clock = s.clock := rfl
@[simp] theorem setWatch_ctxs (s : State) (v : Option Watch) : (s.setWatch v).ctxs = s.ctxs := rfl
@[simp] theorem setWatch_clusterQ (s : State) (v : Option Watch) : (s.setWatch v).clusterQ = s.clusterQ := rfl
@[simp] theorem setWatch_clusterTlb (s : State) (v : Option Watch) : (s.setWatch v).clusterTlb = s.clusterTlb := rfl
@[simp] theorem setWatch_clusterUse (s : State) (v : Option Watch) : (s.setWatch v).clusterUse = s.clusterUse := rfl
@[simp] theorem setWatch_flumes (s : State) (v : Option Watch) : (s.setWatch v).flumes = s.flumes := rfl
@[simp] theorem setWatch_engines (s : State) (v : Option Watch) : (s.setWatch v).engines = s.engines := rfl
@[simp] theorem setWatch_patterns (s : State) (v : Option Watch) : (s.setWatch v).patterns = s.patterns := rfl
@[simp] theorem setWatch_pool (s : State) (v : Option Watch) : (s.setWatch v).pool = s.pool := rfl
@[simp] theorem setWatch_migrations (s : State) (v : Option Watch) : (s.setWatch v).migrations = s.migrations := rfl
@[simp] theorem setWatch_rankNet (s : State) (v : Option Watch) : (s.setWatch v).rankNet = s.rankNet := rfl
@[simp] theorem setWatch_net (s : State) (v : Option Watch) : (s.setWatch v).net = s.net := rfl
@[simp] theorem setWatch_out (s : State) (v : Option Watch) : (s.setWatch v).out = s.out := rfl
@[simp] theorem setWatch_saves (s : State) (v : Option Watch) : (s.setWatch v).saves = s.saves := rfl
@[simp] theorem setWatch_turns (s : State) (v : Option Watch) : (s.setWatch v).turns = s.turns := rfl
@[simp] theorem setWatch_pending (s : State) (v : Option Watch) : (s.setWatch v).pending = s.pending := rfl
@[simp] theorem setWatch_unit (s : State) (v : Option Watch) : (s.setWatch v).unit = s.unit := rfl
@[simp] theorem setWatch_freeCtr (s : State) (v : Option Watch) : (s.setWatch v).freeCtr = s.freeCtr := rfl
@[simp] theorem setWatch_beat (s : State) (v : Option Watch) : (s.setWatch v).beat = s.beat := rfl

/-! ### setRank -/

@[simp] theorem setRank_core_num (s : State) (f : Rank → Rank) : (s.setRank f).core.num = s.core.num := rfl
@[simp] theorem setRank_core_ctx (s : State) (f : Rank → Rank) : (s.setRank f).core.ctx = s.core.ctx := rfl
@[simp] theorem setRank_core_regs (s : State) (f : Rank → Rank) : (s.setRank f).core.regs = s.core.regs := rfl
@[simp] theorem setRank_core_id (s : State) (f : Rank → Rank) : (s.setRank f).core.id = s.core.id := rfl
@[simp] theorem setRank_core_csr (s : State) (f : Rank → Rank) : (s.setRank f).core.csr = s.core.csr := rfl
@[simp] theorem setRank_core_sluice (s : State) (f : Rank → Rank) : (s.setRank f).core.sluice = s.core.sluice := rfl
@[simp] theorem setRank_core_mx (s : State) (f : Rank → Rank) : (s.setRank f).core.mx = s.core.mx := rfl
@[simp] theorem setRank_core_nest (s : State) (f : Rank → Rank) : (s.setRank f).core.nest = s.core.nest := rfl
@[simp] theorem setRank_core_port (s : State) (f : Rank → Rank) : (s.setRank f).core.port = s.core.port := rfl
@[simp] theorem setRank_core_watch (s : State) (f : Rank → Rank) : (s.setRank f).core.watch = s.core.watch := rfl
@[simp] theorem setRank_core_rank (s : State) (f : Rank → Rank) : (s.setRank f).core.rank = f s.core.rank := rfl
@[simp] theorem setRank_core_sched (s : State) (f : Rank → Rank) : (s.setRank f).core.sched = s.core.sched := rfl
@[simp] theorem setRank_core_tlb (s : State) (f : Rank → Rank) : (s.setRank f).core.tlb = s.core.tlb := rfl
@[simp] theorem setRank_core_tlbWays (s : State) (f : Rank → Rank) : (s.setRank f).core.tlbWays = s.core.tlbWays := rfl
@[simp] theorem setRank_core_tlbTree (s : State) (f : Rank → Rank) : (s.setRank f).core.tlbTree = s.core.tlbTree := rfl
@[simp] theorem setRank_core_icache (s : State) (f : Rank → Rank) : (s.setRank f).core.icache = s.core.icache := rfl
@[simp] theorem setRank_others (s : State) (f : Rank → Rank) : (s.setRank f).others = s.others := rfl
@[simp] theorem setRank_mem (s : State) (f : Rank → Rank) : (s.setRank f).mem = s.mem := rfl
@[simp] theorem setRank_poison (s : State) (f : Rank → Rank) : (s.setRank f).poison = s.poison := rfl
@[simp] theorem setRank_lines (s : State) (f : Rank → Rank) : (s.setRank f).lines = s.lines := rfl
@[simp] theorem setRank_trees (s : State) (f : Rank → Rank) : (s.setRank f).trees = s.trees := rfl
@[simp] theorem setRank_waiting (s : State) (f : Rank → Rank) : (s.setRank f).waiting = s.waiting := rfl
@[simp] theorem setRank_responses (s : State) (f : Rank → Rank) : (s.setRank f).responses = s.responses := rfl
@[simp] theorem setRank_mcast (s : State) (f : Rank → Rank) : (s.setRank f).mcast = s.mcast := rfl
@[simp] theorem setRank_forks (s : State) (f : Rank → Rank) : (s.setRank f).forks = s.forks := rfl
@[simp] theorem setRank_sends (s : State) (f : Rank → Rank) : (s.setRank f).sends = s.sends := rfl
@[simp] theorem setRank_stop (s : State) (f : Rank → Rank) : (s.setRank f).stop = s.stop := rfl
@[simp] theorem setRank_bands (s : State) (f : Rank → Rank) : (s.setRank f).bands = s.bands := rfl
@[simp] theorem setRank_clock (s : State) (f : Rank → Rank) : (s.setRank f).clock = s.clock := rfl
@[simp] theorem setRank_ctxs (s : State) (f : Rank → Rank) : (s.setRank f).ctxs = s.ctxs := rfl
@[simp] theorem setRank_clusterQ (s : State) (f : Rank → Rank) : (s.setRank f).clusterQ = s.clusterQ := rfl
@[simp] theorem setRank_clusterTlb (s : State) (f : Rank → Rank) : (s.setRank f).clusterTlb = s.clusterTlb := rfl
@[simp] theorem setRank_clusterUse (s : State) (f : Rank → Rank) : (s.setRank f).clusterUse = s.clusterUse := rfl
@[simp] theorem setRank_flumes (s : State) (f : Rank → Rank) : (s.setRank f).flumes = s.flumes := rfl
@[simp] theorem setRank_engines (s : State) (f : Rank → Rank) : (s.setRank f).engines = s.engines := rfl
@[simp] theorem setRank_patterns (s : State) (f : Rank → Rank) : (s.setRank f).patterns = s.patterns := rfl
@[simp] theorem setRank_pool (s : State) (f : Rank → Rank) : (s.setRank f).pool = s.pool := rfl
@[simp] theorem setRank_migrations (s : State) (f : Rank → Rank) : (s.setRank f).migrations = s.migrations := rfl
@[simp] theorem setRank_rankNet (s : State) (f : Rank → Rank) : (s.setRank f).rankNet = s.rankNet := rfl
@[simp] theorem setRank_net (s : State) (f : Rank → Rank) : (s.setRank f).net = s.net := rfl
@[simp] theorem setRank_out (s : State) (f : Rank → Rank) : (s.setRank f).out = s.out := rfl
@[simp] theorem setRank_saves (s : State) (f : Rank → Rank) : (s.setRank f).saves = s.saves := rfl
@[simp] theorem setRank_turns (s : State) (f : Rank → Rank) : (s.setRank f).turns = s.turns := rfl
@[simp] theorem setRank_pending (s : State) (f : Rank → Rank) : (s.setRank f).pending = s.pending := rfl
@[simp] theorem setRank_unit (s : State) (f : Rank → Rank) : (s.setRank f).unit = s.unit := rfl
@[simp] theorem setRank_freeCtr (s : State) (f : Rank → Rank) : (s.setRank f).freeCtr = s.freeCtr := rfl
@[simp] theorem setRank_beat (s : State) (f : Rank → Rank) : (s.setRank f).beat = s.beat := rfl

/-! ### setSluice -/

@[simp] theorem setSluice_core_num (s : State) (f : Sluice → Sluice) : (s.setSluice f).core.num = s.core.num := rfl
@[simp] theorem setSluice_core_ctx (s : State) (f : Sluice → Sluice) : (s.setSluice f).core.ctx = s.core.ctx := rfl
@[simp] theorem setSluice_core_regs (s : State) (f : Sluice → Sluice) : (s.setSluice f).core.regs = s.core.regs := rfl
@[simp] theorem setSluice_core_id (s : State) (f : Sluice → Sluice) : (s.setSluice f).core.id = s.core.id := rfl
@[simp] theorem setSluice_core_csr (s : State) (f : Sluice → Sluice) : (s.setSluice f).core.csr = s.core.csr := rfl
@[simp] theorem setSluice_core_sluice (s : State) (f : Sluice → Sluice) : (s.setSluice f).core.sluice = f s.core.sluice := rfl
@[simp] theorem setSluice_core_mx (s : State) (f : Sluice → Sluice) : (s.setSluice f).core.mx = s.core.mx := rfl
@[simp] theorem setSluice_core_nest (s : State) (f : Sluice → Sluice) : (s.setSluice f).core.nest = s.core.nest := rfl
@[simp] theorem setSluice_core_port (s : State) (f : Sluice → Sluice) : (s.setSluice f).core.port = s.core.port := rfl
@[simp] theorem setSluice_core_watch (s : State) (f : Sluice → Sluice) : (s.setSluice f).core.watch = s.core.watch := rfl
@[simp] theorem setSluice_core_rank (s : State) (f : Sluice → Sluice) : (s.setSluice f).core.rank = s.core.rank := rfl
@[simp] theorem setSluice_core_sched (s : State) (f : Sluice → Sluice) : (s.setSluice f).core.sched = s.core.sched := rfl
@[simp] theorem setSluice_core_tlb (s : State) (f : Sluice → Sluice) : (s.setSluice f).core.tlb = s.core.tlb := rfl
@[simp] theorem setSluice_core_tlbWays (s : State) (f : Sluice → Sluice) : (s.setSluice f).core.tlbWays = s.core.tlbWays := rfl
@[simp] theorem setSluice_core_tlbTree (s : State) (f : Sluice → Sluice) : (s.setSluice f).core.tlbTree = s.core.tlbTree := rfl
@[simp] theorem setSluice_core_icache (s : State) (f : Sluice → Sluice) : (s.setSluice f).core.icache = s.core.icache := rfl
@[simp] theorem setSluice_others (s : State) (f : Sluice → Sluice) : (s.setSluice f).others = s.others := rfl
@[simp] theorem setSluice_mem (s : State) (f : Sluice → Sluice) : (s.setSluice f).mem = s.mem := rfl
@[simp] theorem setSluice_poison (s : State) (f : Sluice → Sluice) : (s.setSluice f).poison = s.poison := rfl
@[simp] theorem setSluice_lines (s : State) (f : Sluice → Sluice) : (s.setSluice f).lines = s.lines := rfl
@[simp] theorem setSluice_trees (s : State) (f : Sluice → Sluice) : (s.setSluice f).trees = s.trees := rfl
@[simp] theorem setSluice_waiting (s : State) (f : Sluice → Sluice) : (s.setSluice f).waiting = s.waiting := rfl
@[simp] theorem setSluice_responses (s : State) (f : Sluice → Sluice) : (s.setSluice f).responses = s.responses := rfl
@[simp] theorem setSluice_mcast (s : State) (f : Sluice → Sluice) : (s.setSluice f).mcast = s.mcast := rfl
@[simp] theorem setSluice_forks (s : State) (f : Sluice → Sluice) : (s.setSluice f).forks = s.forks := rfl
@[simp] theorem setSluice_sends (s : State) (f : Sluice → Sluice) : (s.setSluice f).sends = s.sends := rfl
@[simp] theorem setSluice_stop (s : State) (f : Sluice → Sluice) : (s.setSluice f).stop = s.stop := rfl
@[simp] theorem setSluice_bands (s : State) (f : Sluice → Sluice) : (s.setSluice f).bands = s.bands := rfl
@[simp] theorem setSluice_clock (s : State) (f : Sluice → Sluice) : (s.setSluice f).clock = s.clock := rfl
@[simp] theorem setSluice_ctxs (s : State) (f : Sluice → Sluice) : (s.setSluice f).ctxs = s.ctxs := rfl
@[simp] theorem setSluice_clusterQ (s : State) (f : Sluice → Sluice) : (s.setSluice f).clusterQ = s.clusterQ := rfl
@[simp] theorem setSluice_clusterTlb (s : State) (f : Sluice → Sluice) : (s.setSluice f).clusterTlb = s.clusterTlb := rfl
@[simp] theorem setSluice_clusterUse (s : State) (f : Sluice → Sluice) : (s.setSluice f).clusterUse = s.clusterUse := rfl
@[simp] theorem setSluice_flumes (s : State) (f : Sluice → Sluice) : (s.setSluice f).flumes = s.flumes := rfl
@[simp] theorem setSluice_engines (s : State) (f : Sluice → Sluice) : (s.setSluice f).engines = s.engines := rfl
@[simp] theorem setSluice_patterns (s : State) (f : Sluice → Sluice) : (s.setSluice f).patterns = s.patterns := rfl
@[simp] theorem setSluice_pool (s : State) (f : Sluice → Sluice) : (s.setSluice f).pool = s.pool := rfl
@[simp] theorem setSluice_migrations (s : State) (f : Sluice → Sluice) : (s.setSluice f).migrations = s.migrations := rfl
@[simp] theorem setSluice_rankNet (s : State) (f : Sluice → Sluice) : (s.setSluice f).rankNet = s.rankNet := rfl
@[simp] theorem setSluice_net (s : State) (f : Sluice → Sluice) : (s.setSluice f).net = s.net := rfl
@[simp] theorem setSluice_out (s : State) (f : Sluice → Sluice) : (s.setSluice f).out = s.out := rfl
@[simp] theorem setSluice_saves (s : State) (f : Sluice → Sluice) : (s.setSluice f).saves = s.saves := rfl
@[simp] theorem setSluice_turns (s : State) (f : Sluice → Sluice) : (s.setSluice f).turns = s.turns := rfl
@[simp] theorem setSluice_pending (s : State) (f : Sluice → Sluice) : (s.setSluice f).pending = s.pending := rfl
@[simp] theorem setSluice_unit (s : State) (f : Sluice → Sluice) : (s.setSluice f).unit = s.unit := rfl
@[simp] theorem setSluice_freeCtr (s : State) (f : Sluice → Sluice) : (s.setSluice f).freeCtr = s.freeCtr := rfl
@[simp] theorem setSluice_beat (s : State) (f : Sluice → Sluice) : (s.setSluice f).beat = s.beat := rfl

/-! ### withCsr -/

@[simp] theorem withCsr_core_num (s : State) (f : Csrs → Csrs) : (s.withCsr f).core.num = s.core.num := rfl
@[simp] theorem withCsr_core_ctx (s : State) (f : Csrs → Csrs) : (s.withCsr f).core.ctx = s.core.ctx := rfl
@[simp] theorem withCsr_core_regs (s : State) (f : Csrs → Csrs) : (s.withCsr f).core.regs = s.core.regs := rfl
@[simp] theorem withCsr_core_id (s : State) (f : Csrs → Csrs) : (s.withCsr f).core.id = s.core.id := rfl
@[simp] theorem withCsr_core_csr (s : State) (f : Csrs → Csrs) : (s.withCsr f).core.csr = f s.core.csr := rfl
@[simp] theorem withCsr_core_sluice (s : State) (f : Csrs → Csrs) : (s.withCsr f).core.sluice = s.core.sluice := rfl
@[simp] theorem withCsr_core_mx (s : State) (f : Csrs → Csrs) : (s.withCsr f).core.mx = s.core.mx := rfl
@[simp] theorem withCsr_core_nest (s : State) (f : Csrs → Csrs) : (s.withCsr f).core.nest = s.core.nest := rfl
@[simp] theorem withCsr_core_port (s : State) (f : Csrs → Csrs) : (s.withCsr f).core.port = s.core.port := rfl
@[simp] theorem withCsr_core_watch (s : State) (f : Csrs → Csrs) : (s.withCsr f).core.watch = s.core.watch := rfl
@[simp] theorem withCsr_core_rank (s : State) (f : Csrs → Csrs) : (s.withCsr f).core.rank = s.core.rank := rfl
@[simp] theorem withCsr_core_sched (s : State) (f : Csrs → Csrs) : (s.withCsr f).core.sched = s.core.sched := rfl
@[simp] theorem withCsr_core_tlb (s : State) (f : Csrs → Csrs) : (s.withCsr f).core.tlb = s.core.tlb := rfl
@[simp] theorem withCsr_core_tlbWays (s : State) (f : Csrs → Csrs) : (s.withCsr f).core.tlbWays = s.core.tlbWays := rfl
@[simp] theorem withCsr_core_tlbTree (s : State) (f : Csrs → Csrs) : (s.withCsr f).core.tlbTree = s.core.tlbTree := rfl
@[simp] theorem withCsr_core_icache (s : State) (f : Csrs → Csrs) : (s.withCsr f).core.icache = s.core.icache := rfl
@[simp] theorem withCsr_others (s : State) (f : Csrs → Csrs) : (s.withCsr f).others = s.others := rfl
@[simp] theorem withCsr_mem (s : State) (f : Csrs → Csrs) : (s.withCsr f).mem = s.mem := rfl
@[simp] theorem withCsr_poison (s : State) (f : Csrs → Csrs) : (s.withCsr f).poison = s.poison := rfl
@[simp] theorem withCsr_lines (s : State) (f : Csrs → Csrs) : (s.withCsr f).lines = s.lines := rfl
@[simp] theorem withCsr_trees (s : State) (f : Csrs → Csrs) : (s.withCsr f).trees = s.trees := rfl
@[simp] theorem withCsr_waiting (s : State) (f : Csrs → Csrs) : (s.withCsr f).waiting = s.waiting := rfl
@[simp] theorem withCsr_responses (s : State) (f : Csrs → Csrs) : (s.withCsr f).responses = s.responses := rfl
@[simp] theorem withCsr_mcast (s : State) (f : Csrs → Csrs) : (s.withCsr f).mcast = s.mcast := rfl
@[simp] theorem withCsr_forks (s : State) (f : Csrs → Csrs) : (s.withCsr f).forks = s.forks := rfl
@[simp] theorem withCsr_sends (s : State) (f : Csrs → Csrs) : (s.withCsr f).sends = s.sends := rfl
@[simp] theorem withCsr_stop (s : State) (f : Csrs → Csrs) : (s.withCsr f).stop = s.stop := rfl
@[simp] theorem withCsr_bands (s : State) (f : Csrs → Csrs) : (s.withCsr f).bands = s.bands := rfl
@[simp] theorem withCsr_clock (s : State) (f : Csrs → Csrs) : (s.withCsr f).clock = s.clock := rfl
@[simp] theorem withCsr_ctxs (s : State) (f : Csrs → Csrs) : (s.withCsr f).ctxs = s.ctxs := rfl
@[simp] theorem withCsr_clusterQ (s : State) (f : Csrs → Csrs) : (s.withCsr f).clusterQ = s.clusterQ := rfl
@[simp] theorem withCsr_clusterTlb (s : State) (f : Csrs → Csrs) : (s.withCsr f).clusterTlb = s.clusterTlb := rfl
@[simp] theorem withCsr_clusterUse (s : State) (f : Csrs → Csrs) : (s.withCsr f).clusterUse = s.clusterUse := rfl
@[simp] theorem withCsr_flumes (s : State) (f : Csrs → Csrs) : (s.withCsr f).flumes = s.flumes := rfl
@[simp] theorem withCsr_engines (s : State) (f : Csrs → Csrs) : (s.withCsr f).engines = s.engines := rfl
@[simp] theorem withCsr_patterns (s : State) (f : Csrs → Csrs) : (s.withCsr f).patterns = s.patterns := rfl
@[simp] theorem withCsr_pool (s : State) (f : Csrs → Csrs) : (s.withCsr f).pool = s.pool := rfl
@[simp] theorem withCsr_migrations (s : State) (f : Csrs → Csrs) : (s.withCsr f).migrations = s.migrations := rfl
@[simp] theorem withCsr_rankNet (s : State) (f : Csrs → Csrs) : (s.withCsr f).rankNet = s.rankNet := rfl
@[simp] theorem withCsr_net (s : State) (f : Csrs → Csrs) : (s.withCsr f).net = s.net := rfl
@[simp] theorem withCsr_out (s : State) (f : Csrs → Csrs) : (s.withCsr f).out = s.out := rfl
@[simp] theorem withCsr_saves (s : State) (f : Csrs → Csrs) : (s.withCsr f).saves = s.saves := rfl
@[simp] theorem withCsr_turns (s : State) (f : Csrs → Csrs) : (s.withCsr f).turns = s.turns := rfl
@[simp] theorem withCsr_pending (s : State) (f : Csrs → Csrs) : (s.withCsr f).pending = s.pending := rfl
@[simp] theorem withCsr_unit (s : State) (f : Csrs → Csrs) : (s.withCsr f).unit = s.unit := rfl
@[simp] theorem withCsr_freeCtr (s : State) (f : Csrs → Csrs) : (s.withCsr f).freeCtr = s.freeCtr := rfl
@[simp] theorem withCsr_beat (s : State) (f : Csrs → Csrs) : (s.withCsr f).beat = s.beat := rfl

/-! ### setWaited -/

@[simp] theorem setWaited_core_num (s : State) (v : Nat) : (s.setWaited v).core.num = s.core.num := rfl
@[simp] theorem setWaited_core_ctx (s : State) (v : Nat) : (s.setWaited v).core.ctx = s.core.ctx := rfl
@[simp] theorem setWaited_core_regs (s : State) (v : Nat) : (s.setWaited v).core.regs = s.core.regs := rfl
@[simp] theorem setWaited_core_id (s : State) (v : Nat) : (s.setWaited v).core.id = s.core.id := rfl
@[simp] theorem setWaited_core_csr (s : State) (v : Nat) : (s.setWaited v).core.csr = s.core.csr := rfl
@[simp] theorem setWaited_core_sluice (s : State) (v : Nat) : (s.setWaited v).core.sluice = s.core.sluice := rfl
@[simp] theorem setWaited_core_mx (s : State) (v : Nat) : (s.setWaited v).core.mx = s.core.mx := rfl
@[simp] theorem setWaited_core_nest (s : State) (v : Nat) : (s.setWaited v).core.nest = s.core.nest := rfl
@[simp] theorem setWaited_core_port (s : State) (v : Nat) : (s.setWaited v).core.port = s.core.port := rfl
@[simp] theorem setWaited_core_watch (s : State) (v : Nat) : (s.setWaited v).core.watch = s.core.watch := rfl
@[simp] theorem setWaited_core_rank (s : State) (v : Nat) : (s.setWaited v).core.rank = s.core.rank := rfl
@[simp] theorem setWaited_core_sched (s : State) (v : Nat) : (s.setWaited v).core.sched = { s.core.sched with mwaited := v } := rfl
@[simp] theorem setWaited_core_tlb (s : State) (v : Nat) : (s.setWaited v).core.tlb = s.core.tlb := rfl
@[simp] theorem setWaited_core_tlbWays (s : State) (v : Nat) : (s.setWaited v).core.tlbWays = s.core.tlbWays := rfl
@[simp] theorem setWaited_core_tlbTree (s : State) (v : Nat) : (s.setWaited v).core.tlbTree = s.core.tlbTree := rfl
@[simp] theorem setWaited_core_icache (s : State) (v : Nat) : (s.setWaited v).core.icache = s.core.icache := rfl
@[simp] theorem setWaited_others (s : State) (v : Nat) : (s.setWaited v).others = s.others := rfl
@[simp] theorem setWaited_mem (s : State) (v : Nat) : (s.setWaited v).mem = s.mem := rfl
@[simp] theorem setWaited_poison (s : State) (v : Nat) : (s.setWaited v).poison = s.poison := rfl
@[simp] theorem setWaited_lines (s : State) (v : Nat) : (s.setWaited v).lines = s.lines := rfl
@[simp] theorem setWaited_trees (s : State) (v : Nat) : (s.setWaited v).trees = s.trees := rfl
@[simp] theorem setWaited_waiting (s : State) (v : Nat) : (s.setWaited v).waiting = s.waiting := rfl
@[simp] theorem setWaited_responses (s : State) (v : Nat) : (s.setWaited v).responses = s.responses := rfl
@[simp] theorem setWaited_mcast (s : State) (v : Nat) : (s.setWaited v).mcast = s.mcast := rfl
@[simp] theorem setWaited_forks (s : State) (v : Nat) : (s.setWaited v).forks = s.forks := rfl
@[simp] theorem setWaited_sends (s : State) (v : Nat) : (s.setWaited v).sends = s.sends := rfl
@[simp] theorem setWaited_stop (s : State) (v : Nat) : (s.setWaited v).stop = s.stop := rfl
@[simp] theorem setWaited_bands (s : State) (v : Nat) : (s.setWaited v).bands = s.bands := rfl
@[simp] theorem setWaited_clock (s : State) (v : Nat) : (s.setWaited v).clock = s.clock := rfl
@[simp] theorem setWaited_ctxs (s : State) (v : Nat) : (s.setWaited v).ctxs = s.ctxs := rfl
@[simp] theorem setWaited_clusterQ (s : State) (v : Nat) : (s.setWaited v).clusterQ = s.clusterQ := rfl
@[simp] theorem setWaited_clusterTlb (s : State) (v : Nat) : (s.setWaited v).clusterTlb = s.clusterTlb := rfl
@[simp] theorem setWaited_clusterUse (s : State) (v : Nat) : (s.setWaited v).clusterUse = s.clusterUse := rfl
@[simp] theorem setWaited_flumes (s : State) (v : Nat) : (s.setWaited v).flumes = s.flumes := rfl
@[simp] theorem setWaited_engines (s : State) (v : Nat) : (s.setWaited v).engines = s.engines := rfl
@[simp] theorem setWaited_patterns (s : State) (v : Nat) : (s.setWaited v).patterns = s.patterns := rfl
@[simp] theorem setWaited_pool (s : State) (v : Nat) : (s.setWaited v).pool = s.pool := rfl
@[simp] theorem setWaited_migrations (s : State) (v : Nat) : (s.setWaited v).migrations = s.migrations := rfl
@[simp] theorem setWaited_rankNet (s : State) (v : Nat) : (s.setWaited v).rankNet = s.rankNet := rfl
@[simp] theorem setWaited_net (s : State) (v : Nat) : (s.setWaited v).net = s.net := rfl
@[simp] theorem setWaited_out (s : State) (v : Nat) : (s.setWaited v).out = s.out := rfl
@[simp] theorem setWaited_saves (s : State) (v : Nat) : (s.setWaited v).saves = s.saves := rfl
@[simp] theorem setWaited_turns (s : State) (v : Nat) : (s.setWaited v).turns = s.turns := rfl
@[simp] theorem setWaited_pending (s : State) (v : Nat) : (s.setWaited v).pending = s.pending := rfl
@[simp] theorem setWaited_unit (s : State) (v : Nat) : (s.setWaited v).unit = s.unit := rfl
@[simp] theorem setWaited_freeCtr (s : State) (v : Nat) : (s.setWaited v).freeCtr = s.freeCtr := rfl
@[simp] theorem setWaited_beat (s : State) (v : Nat) : (s.setWaited v).beat = s.beat := rfl

/-! ### setStepDone -/

@[simp] theorem setStepDone_core_num (s : State) (v : Bool) : (s.setStepDone v).core.num = s.core.num := rfl
@[simp] theorem setStepDone_core_ctx (s : State) (v : Bool) : (s.setStepDone v).core.ctx = s.core.ctx := rfl
@[simp] theorem setStepDone_core_regs (s : State) (v : Bool) : (s.setStepDone v).core.regs = s.core.regs := rfl
@[simp] theorem setStepDone_core_id (s : State) (v : Bool) : (s.setStepDone v).core.id = s.core.id := rfl
@[simp] theorem setStepDone_core_csr (s : State) (v : Bool) : (s.setStepDone v).core.csr = s.core.csr := rfl
@[simp] theorem setStepDone_core_sluice (s : State) (v : Bool) : (s.setStepDone v).core.sluice = s.core.sluice := rfl
@[simp] theorem setStepDone_core_mx (s : State) (v : Bool) : (s.setStepDone v).core.mx = s.core.mx := rfl
@[simp] theorem setStepDone_core_nest (s : State) (v : Bool) : (s.setStepDone v).core.nest = s.core.nest := rfl
@[simp] theorem setStepDone_core_port (s : State) (v : Bool) : (s.setStepDone v).core.port = s.core.port := rfl
@[simp] theorem setStepDone_core_watch (s : State) (v : Bool) : (s.setStepDone v).core.watch = s.core.watch := rfl
@[simp] theorem setStepDone_core_rank (s : State) (v : Bool) : (s.setStepDone v).core.rank = s.core.rank := rfl
@[simp] theorem setStepDone_core_sched (s : State) (v : Bool) : (s.setStepDone v).core.sched = { s.core.sched with stepDone := v } := rfl
@[simp] theorem setStepDone_core_tlb (s : State) (v : Bool) : (s.setStepDone v).core.tlb = s.core.tlb := rfl
@[simp] theorem setStepDone_core_tlbWays (s : State) (v : Bool) : (s.setStepDone v).core.tlbWays = s.core.tlbWays := rfl
@[simp] theorem setStepDone_core_tlbTree (s : State) (v : Bool) : (s.setStepDone v).core.tlbTree = s.core.tlbTree := rfl
@[simp] theorem setStepDone_core_icache (s : State) (v : Bool) : (s.setStepDone v).core.icache = s.core.icache := rfl
@[simp] theorem setStepDone_others (s : State) (v : Bool) : (s.setStepDone v).others = s.others := rfl
@[simp] theorem setStepDone_mem (s : State) (v : Bool) : (s.setStepDone v).mem = s.mem := rfl
@[simp] theorem setStepDone_poison (s : State) (v : Bool) : (s.setStepDone v).poison = s.poison := rfl
@[simp] theorem setStepDone_lines (s : State) (v : Bool) : (s.setStepDone v).lines = s.lines := rfl
@[simp] theorem setStepDone_trees (s : State) (v : Bool) : (s.setStepDone v).trees = s.trees := rfl
@[simp] theorem setStepDone_waiting (s : State) (v : Bool) : (s.setStepDone v).waiting = s.waiting := rfl
@[simp] theorem setStepDone_responses (s : State) (v : Bool) : (s.setStepDone v).responses = s.responses := rfl
@[simp] theorem setStepDone_mcast (s : State) (v : Bool) : (s.setStepDone v).mcast = s.mcast := rfl
@[simp] theorem setStepDone_forks (s : State) (v : Bool) : (s.setStepDone v).forks = s.forks := rfl
@[simp] theorem setStepDone_sends (s : State) (v : Bool) : (s.setStepDone v).sends = s.sends := rfl
@[simp] theorem setStepDone_stop (s : State) (v : Bool) : (s.setStepDone v).stop = s.stop := rfl
@[simp] theorem setStepDone_bands (s : State) (v : Bool) : (s.setStepDone v).bands = s.bands := rfl
@[simp] theorem setStepDone_clock (s : State) (v : Bool) : (s.setStepDone v).clock = s.clock := rfl
@[simp] theorem setStepDone_ctxs (s : State) (v : Bool) : (s.setStepDone v).ctxs = s.ctxs := rfl
@[simp] theorem setStepDone_clusterQ (s : State) (v : Bool) : (s.setStepDone v).clusterQ = s.clusterQ := rfl
@[simp] theorem setStepDone_clusterTlb (s : State) (v : Bool) : (s.setStepDone v).clusterTlb = s.clusterTlb := rfl
@[simp] theorem setStepDone_clusterUse (s : State) (v : Bool) : (s.setStepDone v).clusterUse = s.clusterUse := rfl
@[simp] theorem setStepDone_flumes (s : State) (v : Bool) : (s.setStepDone v).flumes = s.flumes := rfl
@[simp] theorem setStepDone_engines (s : State) (v : Bool) : (s.setStepDone v).engines = s.engines := rfl
@[simp] theorem setStepDone_patterns (s : State) (v : Bool) : (s.setStepDone v).patterns = s.patterns := rfl
@[simp] theorem setStepDone_pool (s : State) (v : Bool) : (s.setStepDone v).pool = s.pool := rfl
@[simp] theorem setStepDone_migrations (s : State) (v : Bool) : (s.setStepDone v).migrations = s.migrations := rfl
@[simp] theorem setStepDone_rankNet (s : State) (v : Bool) : (s.setStepDone v).rankNet = s.rankNet := rfl
@[simp] theorem setStepDone_net (s : State) (v : Bool) : (s.setStepDone v).net = s.net := rfl
@[simp] theorem setStepDone_out (s : State) (v : Bool) : (s.setStepDone v).out = s.out := rfl
@[simp] theorem setStepDone_saves (s : State) (v : Bool) : (s.setStepDone v).saves = s.saves := rfl
@[simp] theorem setStepDone_turns (s : State) (v : Bool) : (s.setStepDone v).turns = s.turns := rfl
@[simp] theorem setStepDone_pending (s : State) (v : Bool) : (s.setStepDone v).pending = s.pending := rfl
@[simp] theorem setStepDone_unit (s : State) (v : Bool) : (s.setStepDone v).unit = s.unit := rfl
@[simp] theorem setStepDone_freeCtr (s : State) (v : Bool) : (s.setStepDone v).freeCtr = s.freeCtr := rfl
@[simp] theorem setStepDone_beat (s : State) (v : Bool) : (s.setStepDone v).beat = s.beat := rfl

/-! ### released -/

@[simp] theorem released_core_num (s : State) : s.released.core.num = s.core.num := rfl
@[simp] theorem released_core_ctx (s : State) : s.released.core.ctx = s.core.ctx := rfl
@[simp] theorem released_core_regs (s : State) : s.released.core.regs = s.core.regs := rfl
@[simp] theorem released_core_id (s : State) : s.released.core.id = s.core.id := rfl
@[simp] theorem released_core_csr (s : State) : s.released.core.csr = s.core.csr := rfl
@[simp] theorem released_core_sluice (s : State) : s.released.core.sluice = s.core.sluice := rfl
@[simp] theorem released_core_mx (s : State) : s.released.core.mx = s.core.mx := rfl
@[simp] theorem released_core_nest (s : State) : s.released.core.nest = s.core.nest := rfl
@[simp] theorem released_core_port (s : State) : s.released.core.port = s.core.port := rfl
@[simp] theorem released_core_watch (s : State) : s.released.core.watch = s.core.watch := rfl
@[simp] theorem released_core_rank (s : State) : s.released.core.rank = s.core.rank := rfl
@[simp] theorem released_core_sched (s : State) : s.released.core.sched = { s.core.sched with wrote := 0 } := rfl
@[simp] theorem released_core_tlb (s : State) : s.released.core.tlb = s.core.tlb := rfl
@[simp] theorem released_core_tlbWays (s : State) : s.released.core.tlbWays = s.core.tlbWays := rfl
@[simp] theorem released_core_tlbTree (s : State) : s.released.core.tlbTree = s.core.tlbTree := rfl
@[simp] theorem released_core_icache (s : State) : s.released.core.icache = s.core.icache := rfl
@[simp] theorem released_others (s : State) : s.released.others = s.others := rfl
@[simp] theorem released_mem (s : State) : s.released.mem = s.mem := rfl
@[simp] theorem released_poison (s : State) : s.released.poison = s.poison := rfl
@[simp] theorem released_lines (s : State) : s.released.lines = s.lines := rfl
@[simp] theorem released_trees (s : State) : s.released.trees = s.trees := rfl
@[simp] theorem released_waiting (s : State) : s.released.waiting = s.waiting := rfl
@[simp] theorem released_responses (s : State) : s.released.responses = s.responses := rfl
@[simp] theorem released_mcast (s : State) : s.released.mcast = s.mcast := rfl
@[simp] theorem released_forks (s : State) : s.released.forks = s.forks := rfl
@[simp] theorem released_sends (s : State) : s.released.sends = s.sends := rfl
@[simp] theorem released_stop (s : State) : s.released.stop = s.stop := rfl
@[simp] theorem released_bands (s : State) : s.released.bands = s.bands := rfl
@[simp] theorem released_clock (s : State) : s.released.clock = s.clock := rfl
@[simp] theorem released_ctxs (s : State) : s.released.ctxs = s.ctxs := rfl
@[simp] theorem released_clusterQ (s : State) : s.released.clusterQ = s.clusterQ := rfl
@[simp] theorem released_clusterTlb (s : State) : s.released.clusterTlb = s.clusterTlb := rfl
@[simp] theorem released_clusterUse (s : State) : s.released.clusterUse = s.clusterUse := rfl
@[simp] theorem released_flumes (s : State) : s.released.flumes = s.flumes := rfl
@[simp] theorem released_engines (s : State) : s.released.engines = s.engines := rfl
@[simp] theorem released_patterns (s : State) : s.released.patterns = s.patterns := rfl
@[simp] theorem released_pool (s : State) : s.released.pool = s.pool := rfl
@[simp] theorem released_migrations (s : State) : s.released.migrations = s.migrations := rfl
@[simp] theorem released_rankNet (s : State) : s.released.rankNet = s.rankNet := rfl
@[simp] theorem released_net (s : State) : s.released.net = s.net := rfl
@[simp] theorem released_out (s : State) : s.released.out = s.out := rfl
@[simp] theorem released_saves (s : State) : s.released.saves = s.saves := rfl
@[simp] theorem released_turns (s : State) : s.released.turns = s.turns := rfl
@[simp] theorem released_pending (s : State) : s.released.pending = s.pending := rfl
@[simp] theorem released_unit (s : State) : s.released.unit = s.unit := rfl
@[simp] theorem released_freeCtr (s : State) : s.released.freeCtr = s.freeCtr := rfl
@[simp] theorem released_beat (s : State) : s.released.beat = s.beat := rfl

/-! ### noteEntry -/

@[simp] theorem noteEntry_core_num (s : State) (v : Nat) : (s.noteEntry v).core.num = s.core.num := rfl
@[simp] theorem noteEntry_core_ctx (s : State) (v : Nat) : (s.noteEntry v).core.ctx = s.core.ctx := rfl
@[simp] theorem noteEntry_core_regs (s : State) (v : Nat) : (s.noteEntry v).core.regs = s.core.regs := rfl
@[simp] theorem noteEntry_core_id (s : State) (v : Nat) : (s.noteEntry v).core.id = s.core.id := rfl
@[simp] theorem noteEntry_core_csr (s : State) (v : Nat) : (s.noteEntry v).core.csr = s.core.csr := rfl
@[simp] theorem noteEntry_core_sluice (s : State) (v : Nat) : (s.noteEntry v).core.sluice = s.core.sluice := rfl
@[simp] theorem noteEntry_core_mx (s : State) (v : Nat) : (s.noteEntry v).core.mx = s.core.mx := rfl
@[simp] theorem noteEntry_core_nest (s : State) (v : Nat) : (s.noteEntry v).core.nest = s.core.nest := rfl
@[simp] theorem noteEntry_core_port (s : State) (v : Nat) : (s.noteEntry v).core.port = s.core.port := rfl
@[simp] theorem noteEntry_core_watch (s : State) (v : Nat) : (s.noteEntry v).core.watch = s.core.watch := rfl
@[simp] theorem noteEntry_core_rank (s : State) (v : Nat) : (s.noteEntry v).core.rank = s.core.rank := rfl
@[simp] theorem noteEntry_core_sched (s : State) (v : Nat) : (s.noteEntry v).core.sched = { s.core.sched with journalPcs := (jcount s s.core.num - v, s.core.regs.pc) :: s.core.sched.journalPcs } := rfl
@[simp] theorem noteEntry_core_tlb (s : State) (v : Nat) : (s.noteEntry v).core.tlb = s.core.tlb := rfl
@[simp] theorem noteEntry_core_tlbWays (s : State) (v : Nat) : (s.noteEntry v).core.tlbWays = s.core.tlbWays := rfl
@[simp] theorem noteEntry_core_tlbTree (s : State) (v : Nat) : (s.noteEntry v).core.tlbTree = s.core.tlbTree := rfl
@[simp] theorem noteEntry_core_icache (s : State) (v : Nat) : (s.noteEntry v).core.icache = s.core.icache := rfl
@[simp] theorem noteEntry_others (s : State) (v : Nat) : (s.noteEntry v).others = s.others := rfl
@[simp] theorem noteEntry_mem (s : State) (v : Nat) : (s.noteEntry v).mem = s.mem := rfl
@[simp] theorem noteEntry_poison (s : State) (v : Nat) : (s.noteEntry v).poison = s.poison := rfl
@[simp] theorem noteEntry_lines (s : State) (v : Nat) : (s.noteEntry v).lines = s.lines := rfl
@[simp] theorem noteEntry_trees (s : State) (v : Nat) : (s.noteEntry v).trees = s.trees := rfl
@[simp] theorem noteEntry_waiting (s : State) (v : Nat) : (s.noteEntry v).waiting = s.waiting := rfl
@[simp] theorem noteEntry_responses (s : State) (v : Nat) : (s.noteEntry v).responses = s.responses := rfl
@[simp] theorem noteEntry_mcast (s : State) (v : Nat) : (s.noteEntry v).mcast = s.mcast := rfl
@[simp] theorem noteEntry_forks (s : State) (v : Nat) : (s.noteEntry v).forks = s.forks := rfl
@[simp] theorem noteEntry_sends (s : State) (v : Nat) : (s.noteEntry v).sends = s.sends := rfl
@[simp] theorem noteEntry_stop (s : State) (v : Nat) : (s.noteEntry v).stop = s.stop := rfl
@[simp] theorem noteEntry_bands (s : State) (v : Nat) : (s.noteEntry v).bands = s.bands := rfl
@[simp] theorem noteEntry_clock (s : State) (v : Nat) : (s.noteEntry v).clock = s.clock := rfl
@[simp] theorem noteEntry_ctxs (s : State) (v : Nat) : (s.noteEntry v).ctxs = s.ctxs := rfl
@[simp] theorem noteEntry_clusterQ (s : State) (v : Nat) : (s.noteEntry v).clusterQ = s.clusterQ := rfl
@[simp] theorem noteEntry_clusterTlb (s : State) (v : Nat) : (s.noteEntry v).clusterTlb = s.clusterTlb := rfl
@[simp] theorem noteEntry_clusterUse (s : State) (v : Nat) : (s.noteEntry v).clusterUse = s.clusterUse := rfl
@[simp] theorem noteEntry_flumes (s : State) (v : Nat) : (s.noteEntry v).flumes = s.flumes := rfl
@[simp] theorem noteEntry_engines (s : State) (v : Nat) : (s.noteEntry v).engines = s.engines := rfl
@[simp] theorem noteEntry_patterns (s : State) (v : Nat) : (s.noteEntry v).patterns = s.patterns := rfl
@[simp] theorem noteEntry_pool (s : State) (v : Nat) : (s.noteEntry v).pool = s.pool := rfl
@[simp] theorem noteEntry_migrations (s : State) (v : Nat) : (s.noteEntry v).migrations = s.migrations := rfl
@[simp] theorem noteEntry_rankNet (s : State) (v : Nat) : (s.noteEntry v).rankNet = s.rankNet := rfl
@[simp] theorem noteEntry_net (s : State) (v : Nat) : (s.noteEntry v).net = s.net := rfl
@[simp] theorem noteEntry_out (s : State) (v : Nat) : (s.noteEntry v).out = s.out := rfl
@[simp] theorem noteEntry_saves (s : State) (v : Nat) : (s.noteEntry v).saves = s.saves := rfl
@[simp] theorem noteEntry_turns (s : State) (v : Nat) : (s.noteEntry v).turns = s.turns := rfl
@[simp] theorem noteEntry_pending (s : State) (v : Nat) : (s.noteEntry v).pending = s.pending := rfl
@[simp] theorem noteEntry_unit (s : State) (v : Nat) : (s.noteEntry v).unit = s.unit := rfl
@[simp] theorem noteEntry_freeCtr (s : State) (v : Nat) : (s.noteEntry v).freeCtr = s.freeCtr := rfl
@[simp] theorem noteEntry_beat (s : State) (v : Nat) : (s.noteEntry v).beat = s.beat := rfl

/-! ### withRank -/

@[simp] theorem withRank_core_num (s : State) (f : Rank → Rank) : (s.withRank f).core.num = s.core.num := rfl
@[simp] theorem withRank_core_ctx (s : State) (f : Rank → Rank) : (s.withRank f).core.ctx = s.core.ctx := rfl
@[simp] theorem withRank_core_regs (s : State) (f : Rank → Rank) : (s.withRank f).core.regs = s.core.regs := rfl
@[simp] theorem withRank_core_id (s : State) (f : Rank → Rank) : (s.withRank f).core.id = s.core.id := rfl
@[simp] theorem withRank_core_csr (s : State) (f : Rank → Rank) : (s.withRank f).core.csr = s.core.csr := rfl
@[simp] theorem withRank_core_sluice (s : State) (f : Rank → Rank) : (s.withRank f).core.sluice = s.core.sluice := rfl
@[simp] theorem withRank_core_mx (s : State) (f : Rank → Rank) : (s.withRank f).core.mx = s.core.mx := rfl
@[simp] theorem withRank_core_nest (s : State) (f : Rank → Rank) : (s.withRank f).core.nest = s.core.nest := rfl
@[simp] theorem withRank_core_port (s : State) (f : Rank → Rank) : (s.withRank f).core.port = s.core.port := rfl
@[simp] theorem withRank_core_watch (s : State) (f : Rank → Rank) : (s.withRank f).core.watch = s.core.watch := rfl
@[simp] theorem withRank_core_rank (s : State) (f : Rank → Rank) : (s.withRank f).core.rank = f s.core.rank := rfl
@[simp] theorem withRank_core_sched (s : State) (f : Rank → Rank) : (s.withRank f).core.sched = s.core.sched := rfl
@[simp] theorem withRank_core_tlb (s : State) (f : Rank → Rank) : (s.withRank f).core.tlb = s.core.tlb := rfl
@[simp] theorem withRank_core_tlbWays (s : State) (f : Rank → Rank) : (s.withRank f).core.tlbWays = s.core.tlbWays := rfl
@[simp] theorem withRank_core_tlbTree (s : State) (f : Rank → Rank) : (s.withRank f).core.tlbTree = s.core.tlbTree := rfl
@[simp] theorem withRank_core_icache (s : State) (f : Rank → Rank) : (s.withRank f).core.icache = s.core.icache := rfl
@[simp] theorem withRank_others (s : State) (f : Rank → Rank) : (s.withRank f).others = s.others := rfl
@[simp] theorem withRank_mem (s : State) (f : Rank → Rank) : (s.withRank f).mem = s.mem := rfl
@[simp] theorem withRank_poison (s : State) (f : Rank → Rank) : (s.withRank f).poison = s.poison := rfl
@[simp] theorem withRank_lines (s : State) (f : Rank → Rank) : (s.withRank f).lines = s.lines := rfl
@[simp] theorem withRank_trees (s : State) (f : Rank → Rank) : (s.withRank f).trees = s.trees := rfl
@[simp] theorem withRank_waiting (s : State) (f : Rank → Rank) : (s.withRank f).waiting = s.waiting := rfl
@[simp] theorem withRank_responses (s : State) (f : Rank → Rank) : (s.withRank f).responses = s.responses := rfl
@[simp] theorem withRank_mcast (s : State) (f : Rank → Rank) : (s.withRank f).mcast = s.mcast := rfl
@[simp] theorem withRank_forks (s : State) (f : Rank → Rank) : (s.withRank f).forks = s.forks := rfl
@[simp] theorem withRank_sends (s : State) (f : Rank → Rank) : (s.withRank f).sends = s.sends := rfl
@[simp] theorem withRank_stop (s : State) (f : Rank → Rank) : (s.withRank f).stop = s.stop := rfl
@[simp] theorem withRank_bands (s : State) (f : Rank → Rank) : (s.withRank f).bands = s.bands := rfl
@[simp] theorem withRank_clock (s : State) (f : Rank → Rank) : (s.withRank f).clock = s.clock := rfl
@[simp] theorem withRank_ctxs (s : State) (f : Rank → Rank) : (s.withRank f).ctxs = s.ctxs := rfl
@[simp] theorem withRank_clusterQ (s : State) (f : Rank → Rank) : (s.withRank f).clusterQ = s.clusterQ := rfl
@[simp] theorem withRank_clusterTlb (s : State) (f : Rank → Rank) : (s.withRank f).clusterTlb = s.clusterTlb := rfl
@[simp] theorem withRank_clusterUse (s : State) (f : Rank → Rank) : (s.withRank f).clusterUse = s.clusterUse := rfl
@[simp] theorem withRank_flumes (s : State) (f : Rank → Rank) : (s.withRank f).flumes = s.flumes := rfl
@[simp] theorem withRank_engines (s : State) (f : Rank → Rank) : (s.withRank f).engines = s.engines := rfl
@[simp] theorem withRank_patterns (s : State) (f : Rank → Rank) : (s.withRank f).patterns = s.patterns := rfl
@[simp] theorem withRank_pool (s : State) (f : Rank → Rank) : (s.withRank f).pool = s.pool := rfl
@[simp] theorem withRank_migrations (s : State) (f : Rank → Rank) : (s.withRank f).migrations = s.migrations := rfl
@[simp] theorem withRank_rankNet (s : State) (f : Rank → Rank) : (s.withRank f).rankNet = s.rankNet := rfl
@[simp] theorem withRank_net (s : State) (f : Rank → Rank) : (s.withRank f).net = s.net := rfl
@[simp] theorem withRank_out (s : State) (f : Rank → Rank) : (s.withRank f).out = s.out := rfl
@[simp] theorem withRank_saves (s : State) (f : Rank → Rank) : (s.withRank f).saves = s.saves := rfl
@[simp] theorem withRank_turns (s : State) (f : Rank → Rank) : (s.withRank f).turns = s.turns := rfl
@[simp] theorem withRank_pending (s : State) (f : Rank → Rank) : (s.withRank f).pending = s.pending := rfl
@[simp] theorem withRank_unit (s : State) (f : Rank → Rank) : (s.withRank f).unit = s.unit := rfl
@[simp] theorem withRank_freeCtr (s : State) (f : Rank → Rank) : (s.withRank f).freeCtr = s.freeCtr := rfl
@[simp] theorem withRank_beat (s : State) (f : Rank → Rank) : (s.withRank f).beat = s.beat := rfl

/-! ### withSluice -/

@[simp] theorem withSluice_core_num (s : State) (f : Sluice → Sluice) : (s.withSluice f).core.num = s.core.num := rfl
@[simp] theorem withSluice_core_ctx (s : State) (f : Sluice → Sluice) : (s.withSluice f).core.ctx = s.core.ctx := rfl
@[simp] theorem withSluice_core_regs (s : State) (f : Sluice → Sluice) : (s.withSluice f).core.regs = s.core.regs := rfl
@[simp] theorem withSluice_core_id (s : State) (f : Sluice → Sluice) : (s.withSluice f).core.id = s.core.id := rfl
@[simp] theorem withSluice_core_csr (s : State) (f : Sluice → Sluice) : (s.withSluice f).core.csr = s.core.csr := rfl
@[simp] theorem withSluice_core_sluice (s : State) (f : Sluice → Sluice) : (s.withSluice f).core.sluice = f s.core.sluice := rfl
@[simp] theorem withSluice_core_mx (s : State) (f : Sluice → Sluice) : (s.withSluice f).core.mx = s.core.mx := rfl
@[simp] theorem withSluice_core_nest (s : State) (f : Sluice → Sluice) : (s.withSluice f).core.nest = s.core.nest := rfl
@[simp] theorem withSluice_core_port (s : State) (f : Sluice → Sluice) : (s.withSluice f).core.port = s.core.port := rfl
@[simp] theorem withSluice_core_watch (s : State) (f : Sluice → Sluice) : (s.withSluice f).core.watch = s.core.watch := rfl
@[simp] theorem withSluice_core_rank (s : State) (f : Sluice → Sluice) : (s.withSluice f).core.rank = s.core.rank := rfl
@[simp] theorem withSluice_core_sched (s : State) (f : Sluice → Sluice) : (s.withSluice f).core.sched = s.core.sched := rfl
@[simp] theorem withSluice_core_tlb (s : State) (f : Sluice → Sluice) : (s.withSluice f).core.tlb = s.core.tlb := rfl
@[simp] theorem withSluice_core_tlbWays (s : State) (f : Sluice → Sluice) : (s.withSluice f).core.tlbWays = s.core.tlbWays := rfl
@[simp] theorem withSluice_core_tlbTree (s : State) (f : Sluice → Sluice) : (s.withSluice f).core.tlbTree = s.core.tlbTree := rfl
@[simp] theorem withSluice_core_icache (s : State) (f : Sluice → Sluice) : (s.withSluice f).core.icache = s.core.icache := rfl
@[simp] theorem withSluice_others (s : State) (f : Sluice → Sluice) : (s.withSluice f).others = s.others := rfl
@[simp] theorem withSluice_mem (s : State) (f : Sluice → Sluice) : (s.withSluice f).mem = s.mem := rfl
@[simp] theorem withSluice_poison (s : State) (f : Sluice → Sluice) : (s.withSluice f).poison = s.poison := rfl
@[simp] theorem withSluice_lines (s : State) (f : Sluice → Sluice) : (s.withSluice f).lines = s.lines := rfl
@[simp] theorem withSluice_trees (s : State) (f : Sluice → Sluice) : (s.withSluice f).trees = s.trees := rfl
@[simp] theorem withSluice_waiting (s : State) (f : Sluice → Sluice) : (s.withSluice f).waiting = s.waiting := rfl
@[simp] theorem withSluice_responses (s : State) (f : Sluice → Sluice) : (s.withSluice f).responses = s.responses := rfl
@[simp] theorem withSluice_mcast (s : State) (f : Sluice → Sluice) : (s.withSluice f).mcast = s.mcast := rfl
@[simp] theorem withSluice_forks (s : State) (f : Sluice → Sluice) : (s.withSluice f).forks = s.forks := rfl
@[simp] theorem withSluice_sends (s : State) (f : Sluice → Sluice) : (s.withSluice f).sends = s.sends := rfl
@[simp] theorem withSluice_stop (s : State) (f : Sluice → Sluice) : (s.withSluice f).stop = s.stop := rfl
@[simp] theorem withSluice_bands (s : State) (f : Sluice → Sluice) : (s.withSluice f).bands = s.bands := rfl
@[simp] theorem withSluice_clock (s : State) (f : Sluice → Sluice) : (s.withSluice f).clock = s.clock := rfl
@[simp] theorem withSluice_ctxs (s : State) (f : Sluice → Sluice) : (s.withSluice f).ctxs = s.ctxs := rfl
@[simp] theorem withSluice_clusterQ (s : State) (f : Sluice → Sluice) : (s.withSluice f).clusterQ = s.clusterQ := rfl
@[simp] theorem withSluice_clusterTlb (s : State) (f : Sluice → Sluice) : (s.withSluice f).clusterTlb = s.clusterTlb := rfl
@[simp] theorem withSluice_clusterUse (s : State) (f : Sluice → Sluice) : (s.withSluice f).clusterUse = s.clusterUse := rfl
@[simp] theorem withSluice_flumes (s : State) (f : Sluice → Sluice) : (s.withSluice f).flumes = s.flumes := rfl
@[simp] theorem withSluice_engines (s : State) (f : Sluice → Sluice) : (s.withSluice f).engines = s.engines := rfl
@[simp] theorem withSluice_patterns (s : State) (f : Sluice → Sluice) : (s.withSluice f).patterns = s.patterns := rfl
@[simp] theorem withSluice_pool (s : State) (f : Sluice → Sluice) : (s.withSluice f).pool = s.pool := rfl
@[simp] theorem withSluice_migrations (s : State) (f : Sluice → Sluice) : (s.withSluice f).migrations = s.migrations := rfl
@[simp] theorem withSluice_rankNet (s : State) (f : Sluice → Sluice) : (s.withSluice f).rankNet = s.rankNet := rfl
@[simp] theorem withSluice_net (s : State) (f : Sluice → Sluice) : (s.withSluice f).net = s.net := rfl
@[simp] theorem withSluice_out (s : State) (f : Sluice → Sluice) : (s.withSluice f).out = s.out := rfl
@[simp] theorem withSluice_saves (s : State) (f : Sluice → Sluice) : (s.withSluice f).saves = s.saves := rfl
@[simp] theorem withSluice_turns (s : State) (f : Sluice → Sluice) : (s.withSluice f).turns = s.turns := rfl
@[simp] theorem withSluice_pending (s : State) (f : Sluice → Sluice) : (s.withSluice f).pending = s.pending := rfl
@[simp] theorem withSluice_unit (s : State) (f : Sluice → Sluice) : (s.withSluice f).unit = s.unit := rfl
@[simp] theorem withSluice_freeCtr (s : State) (f : Sluice → Sluice) : (s.withSluice f).freeCtr = s.freeCtr := rfl
@[simp] theorem withSluice_beat (s : State) (f : Sluice → Sluice) : (s.withSluice f).beat = s.beat := rfl

/-! ### markStalled -/

@[simp] theorem markStalled_core_num (s : State) : s.markStalled.core.num = s.core.num := rfl
@[simp] theorem markStalled_core_ctx (s : State) : s.markStalled.core.ctx = s.core.ctx := rfl
@[simp] theorem markStalled_core_regs (s : State) : s.markStalled.core.regs = s.core.regs := rfl
@[simp] theorem markStalled_core_id (s : State) : s.markStalled.core.id = s.core.id := rfl
@[simp] theorem markStalled_core_csr (s : State) : s.markStalled.core.csr = s.core.csr := rfl
@[simp] theorem markStalled_core_sluice (s : State) : s.markStalled.core.sluice = s.core.sluice := rfl
@[simp] theorem markStalled_core_mx (s : State) : s.markStalled.core.mx = s.core.mx := rfl
@[simp] theorem markStalled_core_nest (s : State) : s.markStalled.core.nest = s.core.nest := rfl
@[simp] theorem markStalled_core_port (s : State) : s.markStalled.core.port = s.core.port := rfl
@[simp] theorem markStalled_core_watch (s : State) : s.markStalled.core.watch = s.core.watch := rfl
@[simp] theorem markStalled_core_rank (s : State) : s.markStalled.core.rank = s.core.rank := rfl
@[simp] theorem markStalled_core_sched (s : State) : s.markStalled.core.sched = { s.core.sched with stalled := true } := rfl
@[simp] theorem markStalled_core_tlb (s : State) : s.markStalled.core.tlb = s.core.tlb := rfl
@[simp] theorem markStalled_core_tlbWays (s : State) : s.markStalled.core.tlbWays = s.core.tlbWays := rfl
@[simp] theorem markStalled_core_tlbTree (s : State) : s.markStalled.core.tlbTree = s.core.tlbTree := rfl
@[simp] theorem markStalled_core_icache (s : State) : s.markStalled.core.icache = s.core.icache := rfl
@[simp] theorem markStalled_others (s : State) : s.markStalled.others = s.others := rfl
@[simp] theorem markStalled_mem (s : State) : s.markStalled.mem = s.mem := rfl
@[simp] theorem markStalled_poison (s : State) : s.markStalled.poison = s.poison := rfl
@[simp] theorem markStalled_lines (s : State) : s.markStalled.lines = s.lines := rfl
@[simp] theorem markStalled_trees (s : State) : s.markStalled.trees = s.trees := rfl
@[simp] theorem markStalled_waiting (s : State) : s.markStalled.waiting = s.waiting := rfl
@[simp] theorem markStalled_responses (s : State) : s.markStalled.responses = s.responses := rfl
@[simp] theorem markStalled_mcast (s : State) : s.markStalled.mcast = s.mcast := rfl
@[simp] theorem markStalled_forks (s : State) : s.markStalled.forks = s.forks := rfl
@[simp] theorem markStalled_sends (s : State) : s.markStalled.sends = s.sends := rfl
@[simp] theorem markStalled_stop (s : State) : s.markStalled.stop = s.stop := rfl
@[simp] theorem markStalled_bands (s : State) : s.markStalled.bands = s.bands := rfl
@[simp] theorem markStalled_clock (s : State) : s.markStalled.clock = s.clock := rfl
@[simp] theorem markStalled_ctxs (s : State) : s.markStalled.ctxs = s.ctxs := rfl
@[simp] theorem markStalled_clusterQ (s : State) : s.markStalled.clusterQ = s.clusterQ := rfl
@[simp] theorem markStalled_clusterTlb (s : State) : s.markStalled.clusterTlb = s.clusterTlb := rfl
@[simp] theorem markStalled_clusterUse (s : State) : s.markStalled.clusterUse = s.clusterUse := rfl
@[simp] theorem markStalled_flumes (s : State) : s.markStalled.flumes = s.flumes := rfl
@[simp] theorem markStalled_engines (s : State) : s.markStalled.engines = s.engines := rfl
@[simp] theorem markStalled_patterns (s : State) : s.markStalled.patterns = s.patterns := rfl
@[simp] theorem markStalled_pool (s : State) : s.markStalled.pool = s.pool := rfl
@[simp] theorem markStalled_migrations (s : State) : s.markStalled.migrations = s.migrations := rfl
@[simp] theorem markStalled_rankNet (s : State) : s.markStalled.rankNet = s.rankNet := rfl
@[simp] theorem markStalled_net (s : State) : s.markStalled.net = s.net := rfl
@[simp] theorem markStalled_out (s : State) : s.markStalled.out = s.out := rfl
@[simp] theorem markStalled_saves (s : State) : s.markStalled.saves = s.saves := rfl
@[simp] theorem markStalled_turns (s : State) : s.markStalled.turns = s.turns := rfl
@[simp] theorem markStalled_pending (s : State) : s.markStalled.pending = s.pending := rfl
@[simp] theorem markStalled_unit (s : State) : s.markStalled.unit = s.unit := rfl
@[simp] theorem markStalled_freeCtr (s : State) : s.markStalled.freeCtr = s.freeCtr := rfl
@[simp] theorem markStalled_beat (s : State) : s.markStalled.beat = s.beat := rfl

/-! ### clearStalled -/

@[simp] theorem clearStalled_core_num (s : State) : s.clearStalled.core.num = s.core.num := rfl
@[simp] theorem clearStalled_core_ctx (s : State) : s.clearStalled.core.ctx = s.core.ctx := rfl
@[simp] theorem clearStalled_core_regs (s : State) : s.clearStalled.core.regs = s.core.regs := rfl
@[simp] theorem clearStalled_core_id (s : State) : s.clearStalled.core.id = s.core.id := rfl
@[simp] theorem clearStalled_core_csr (s : State) : s.clearStalled.core.csr = s.core.csr := rfl
@[simp] theorem clearStalled_core_sluice (s : State) : s.clearStalled.core.sluice = s.core.sluice := rfl
@[simp] theorem clearStalled_core_mx (s : State) : s.clearStalled.core.mx = s.core.mx := rfl
@[simp] theorem clearStalled_core_nest (s : State) : s.clearStalled.core.nest = s.core.nest := rfl
@[simp] theorem clearStalled_core_port (s : State) : s.clearStalled.core.port = s.core.port := rfl
@[simp] theorem clearStalled_core_watch (s : State) : s.clearStalled.core.watch = s.core.watch := rfl
@[simp] theorem clearStalled_core_rank (s : State) : s.clearStalled.core.rank = s.core.rank := rfl
@[simp] theorem clearStalled_core_sched (s : State) : s.clearStalled.core.sched = { s.core.sched with stalled := false } := rfl
@[simp] theorem clearStalled_core_tlb (s : State) : s.clearStalled.core.tlb = s.core.tlb := rfl
@[simp] theorem clearStalled_core_tlbWays (s : State) : s.clearStalled.core.tlbWays = s.core.tlbWays := rfl
@[simp] theorem clearStalled_core_tlbTree (s : State) : s.clearStalled.core.tlbTree = s.core.tlbTree := rfl
@[simp] theorem clearStalled_core_icache (s : State) : s.clearStalled.core.icache = s.core.icache := rfl
@[simp] theorem clearStalled_others (s : State) : s.clearStalled.others = s.others := rfl
@[simp] theorem clearStalled_mem (s : State) : s.clearStalled.mem = s.mem := rfl
@[simp] theorem clearStalled_poison (s : State) : s.clearStalled.poison = s.poison := rfl
@[simp] theorem clearStalled_lines (s : State) : s.clearStalled.lines = s.lines := rfl
@[simp] theorem clearStalled_trees (s : State) : s.clearStalled.trees = s.trees := rfl
@[simp] theorem clearStalled_waiting (s : State) : s.clearStalled.waiting = s.waiting := rfl
@[simp] theorem clearStalled_responses (s : State) : s.clearStalled.responses = s.responses := rfl
@[simp] theorem clearStalled_mcast (s : State) : s.clearStalled.mcast = s.mcast := rfl
@[simp] theorem clearStalled_forks (s : State) : s.clearStalled.forks = s.forks := rfl
@[simp] theorem clearStalled_sends (s : State) : s.clearStalled.sends = s.sends := rfl
@[simp] theorem clearStalled_stop (s : State) : s.clearStalled.stop = s.stop := rfl
@[simp] theorem clearStalled_bands (s : State) : s.clearStalled.bands = s.bands := rfl
@[simp] theorem clearStalled_clock (s : State) : s.clearStalled.clock = s.clock := rfl
@[simp] theorem clearStalled_ctxs (s : State) : s.clearStalled.ctxs = s.ctxs := rfl
@[simp] theorem clearStalled_clusterQ (s : State) : s.clearStalled.clusterQ = s.clusterQ := rfl
@[simp] theorem clearStalled_clusterTlb (s : State) : s.clearStalled.clusterTlb = s.clusterTlb := rfl
@[simp] theorem clearStalled_clusterUse (s : State) : s.clearStalled.clusterUse = s.clusterUse := rfl
@[simp] theorem clearStalled_flumes (s : State) : s.clearStalled.flumes = s.flumes := rfl
@[simp] theorem clearStalled_engines (s : State) : s.clearStalled.engines = s.engines := rfl
@[simp] theorem clearStalled_patterns (s : State) : s.clearStalled.patterns = s.patterns := rfl
@[simp] theorem clearStalled_pool (s : State) : s.clearStalled.pool = s.pool := rfl
@[simp] theorem clearStalled_migrations (s : State) : s.clearStalled.migrations = s.migrations := rfl
@[simp] theorem clearStalled_rankNet (s : State) : s.clearStalled.rankNet = s.rankNet := rfl
@[simp] theorem clearStalled_net (s : State) : s.clearStalled.net = s.net := rfl
@[simp] theorem clearStalled_out (s : State) : s.clearStalled.out = s.out := rfl
@[simp] theorem clearStalled_saves (s : State) : s.clearStalled.saves = s.saves := rfl
@[simp] theorem clearStalled_turns (s : State) : s.clearStalled.turns = s.turns := rfl
@[simp] theorem clearStalled_pending (s : State) : s.clearStalled.pending = s.pending := rfl
@[simp] theorem clearStalled_unit (s : State) : s.clearStalled.unit = s.unit := rfl
@[simp] theorem clearStalled_freeCtr (s : State) : s.clearStalled.freeCtr = s.freeCtr := rfl
@[simp] theorem clearStalled_beat (s : State) : s.clearStalled.beat = s.beat := rfl

/-! ### clearFirst -/

@[simp] theorem clearFirst_core_num (s : State) : s.clearFirst.core.num = s.core.num := rfl
@[simp] theorem clearFirst_core_ctx (s : State) : s.clearFirst.core.ctx = s.core.ctx := rfl
@[simp] theorem clearFirst_core_regs (s : State) : s.clearFirst.core.regs = s.core.regs := rfl
@[simp] theorem clearFirst_core_id (s : State) : s.clearFirst.core.id = s.core.id := rfl
@[simp] theorem clearFirst_core_csr (s : State) : s.clearFirst.core.csr = s.core.csr := rfl
@[simp] theorem clearFirst_core_sluice (s : State) : s.clearFirst.core.sluice = s.core.sluice := rfl
@[simp] theorem clearFirst_core_mx (s : State) : s.clearFirst.core.mx = s.core.mx := rfl
@[simp] theorem clearFirst_core_nest (s : State) : s.clearFirst.core.nest = s.core.nest := rfl
@[simp] theorem clearFirst_core_port (s : State) : s.clearFirst.core.port = s.core.port := rfl
@[simp] theorem clearFirst_core_watch (s : State) : s.clearFirst.core.watch = s.core.watch := rfl
@[simp] theorem clearFirst_core_rank (s : State) : s.clearFirst.core.rank = s.core.rank := rfl
@[simp] theorem clearFirst_core_sched (s : State) : s.clearFirst.core.sched = { s.core.sched with first := none } := rfl
@[simp] theorem clearFirst_core_tlb (s : State) : s.clearFirst.core.tlb = s.core.tlb := rfl
@[simp] theorem clearFirst_core_tlbWays (s : State) : s.clearFirst.core.tlbWays = s.core.tlbWays := rfl
@[simp] theorem clearFirst_core_tlbTree (s : State) : s.clearFirst.core.tlbTree = s.core.tlbTree := rfl
@[simp] theorem clearFirst_core_icache (s : State) : s.clearFirst.core.icache = s.core.icache := rfl
@[simp] theorem clearFirst_others (s : State) : s.clearFirst.others = s.others := rfl
@[simp] theorem clearFirst_mem (s : State) : s.clearFirst.mem = s.mem := rfl
@[simp] theorem clearFirst_poison (s : State) : s.clearFirst.poison = s.poison := rfl
@[simp] theorem clearFirst_lines (s : State) : s.clearFirst.lines = s.lines := rfl
@[simp] theorem clearFirst_trees (s : State) : s.clearFirst.trees = s.trees := rfl
@[simp] theorem clearFirst_waiting (s : State) : s.clearFirst.waiting = s.waiting := rfl
@[simp] theorem clearFirst_responses (s : State) : s.clearFirst.responses = s.responses := rfl
@[simp] theorem clearFirst_mcast (s : State) : s.clearFirst.mcast = s.mcast := rfl
@[simp] theorem clearFirst_forks (s : State) : s.clearFirst.forks = s.forks := rfl
@[simp] theorem clearFirst_sends (s : State) : s.clearFirst.sends = s.sends := rfl
@[simp] theorem clearFirst_stop (s : State) : s.clearFirst.stop = s.stop := rfl
@[simp] theorem clearFirst_bands (s : State) : s.clearFirst.bands = s.bands := rfl
@[simp] theorem clearFirst_clock (s : State) : s.clearFirst.clock = s.clock := rfl
@[simp] theorem clearFirst_ctxs (s : State) : s.clearFirst.ctxs = s.ctxs := rfl
@[simp] theorem clearFirst_clusterQ (s : State) : s.clearFirst.clusterQ = s.clusterQ := rfl
@[simp] theorem clearFirst_clusterTlb (s : State) : s.clearFirst.clusterTlb = s.clusterTlb := rfl
@[simp] theorem clearFirst_clusterUse (s : State) : s.clearFirst.clusterUse = s.clusterUse := rfl
@[simp] theorem clearFirst_flumes (s : State) : s.clearFirst.flumes = s.flumes := rfl
@[simp] theorem clearFirst_engines (s : State) : s.clearFirst.engines = s.engines := rfl
@[simp] theorem clearFirst_patterns (s : State) : s.clearFirst.patterns = s.patterns := rfl
@[simp] theorem clearFirst_pool (s : State) : s.clearFirst.pool = s.pool := rfl
@[simp] theorem clearFirst_migrations (s : State) : s.clearFirst.migrations = s.migrations := rfl
@[simp] theorem clearFirst_rankNet (s : State) : s.clearFirst.rankNet = s.rankNet := rfl
@[simp] theorem clearFirst_net (s : State) : s.clearFirst.net = s.net := rfl
@[simp] theorem clearFirst_out (s : State) : s.clearFirst.out = s.out := rfl
@[simp] theorem clearFirst_saves (s : State) : s.clearFirst.saves = s.saves := rfl
@[simp] theorem clearFirst_turns (s : State) : s.clearFirst.turns = s.turns := rfl
@[simp] theorem clearFirst_pending (s : State) : s.clearFirst.pending = s.pending := rfl
@[simp] theorem clearFirst_unit (s : State) : s.clearFirst.unit = s.unit := rfl
@[simp] theorem clearFirst_freeCtr (s : State) : s.clearFirst.freeCtr = s.freeCtr := rfl
@[simp] theorem clearFirst_beat (s : State) : s.clearFirst.beat = s.beat := rfl

/-! ### Pointers -/

@[simp] theorem ptr_setA (s : State) (v : Word) (i : BitVec 3) : (s.setA v).ptr i = s.ptr i := rfl
@[simp] theorem ptr_setT (s : State) (v : Bool) (i : BitVec 3) : (s.setT v).ptr i = s.ptr i := rfl
@[simp] theorem ptr_setC (s : State) (v : Bool) (i : BitVec 3) : (s.setC v).ptr i = s.ptr i := rfl
@[simp] theorem ptr_setPc (s : State) (v : Word) (i : BitVec 3) : (s.setPc v).ptr i = s.ptr i := rfl
@[simp] theorem ptr_advance (s : State) (i : BitVec 3) : s.advance.ptr i = s.ptr i := rfl
@[simp] theorem ptr_addFlags (s : State) (v : BitVec 5) (i : BitVec 3) : (s.addFlags v).ptr i = s.ptr i := rfl

/-- The pointer written reads as written, the others as before. -/
@[simp] theorem ptr_setPtr (s : State) (i j : BitVec 3) (v : Ptr) : (s.setPtr i v).ptr j = if i = j then v else s.ptr j := by
  by_cases h : i = j
  · subst h; simp [State.ptr, Regs.ptr, State.setPtr, State.withRegs]
  · have hn : i.toNat ≠ j.toNat := fun e => h (BitVec.eq_of_toNat_eq e)
    simp [State.ptr, Regs.ptr, State.setPtr, State.withRegs, h, Vector.getElem_set_ne _ _ hn]
/-- A pointer's address written: its stride and the other pointers are as before. -/
@[simp] theorem ptr_setAddr (s : State) (i j : BitVec 3) (v : Word) :
    (s.setAddr i v).ptr j = if i = j then { s.ptr i with addr := v } else s.ptr j := ptr_setPtr s i j _

/-! ### Updates of updates -/

@[simp] theorem withRegs_withRegs (s : State) (r q : Regs) : (s.withRegs r).withRegs q = s.withRegs q := rfl
@[simp] theorem withRegs_self (s : State) : s.withRegs s.core.regs = s := rfl
theorem setPc_setPc (s : State) (v w : Word) : (s.setPc v).setPc w = s.setPc w := rfl
theorem setA_setPc (s : State) (v w : Word) : (s.setA v).setPc w = (s.setPc w).setA v := rfl
theorem setA_advance (s : State) (v : Word) : (s.setA v).advance = s.advance.setA v := rfl

/-! ### The current core among the cores -/

/-- A core's own update reads back through its number. -/
@[simp] theorem coreOf_current (s : State) : coreOf s s.core.num = s.core := by simp [coreOf]
/-- Setting the current core leaves the others. -/
theorem setCore_current (s : State) (c : Core) : setCore s s.core.num c = { s with core := c } := by simp [setCore]
theorem updCore_current (s : State) (f : Core → Core) : updCore s s.core.num f = { s with core := f s.core } := by simp [updCore, setCore]

end Sys2Proof.Machine
end

