-- ==== Sys2Proof/Tests/Slice0.lean ====
section
/-! SUPPORT. Tests: words of the manual decode, ill-formed terms are refused, small steps give the manual's worked results, and for each
statement a state and operands that meet its hypotheses. -/

namespace Sys2Proof.Tests

set_option Elab.async false

open Sys2Proof.Machine Sys2Proof.Says

/-! ## States that the tests start from -/

/-- A page of 64 KiB that may be read, written and run. -/
def page (va pa : Nat) : Page :=
  { va := va, size := 1, ctx := 1, pa := pa, cow := false, tier := 0, il := false, mig := false, x := true, w := true, r := true }

/-- Context 1 on the first two clusters. -/
def ctx : Ctx :=
  { newCtx State.reset { (default : CtxSpec) with num := 1, queueCap := 16 } with grant := 3, part := 3, wants := 0, running := true }

/-- Core 0 runs a task of context 1; p0 and p1 address its vault, p2 translated space, p3 core 5's vault by its window, p7 a stack. -/
def base : State :=
  let c := Core.reset 0
  let ps : Vector Ptr 8 := #v[⟨0x100, 8⟩, ⟨0x140, 8⟩, ⟨0x200000000, 16⟩, ⟨windowAddr 5 0x200, 8⟩, ⟨0x108, 4⟩, ⟨0x180, 8⟩, ⟨0, 0⟩, ⟨0x800, 8⟩]
  { State.reset with
    ctxs := [ctx], mem := writeNat [] (vaultHome 0 0x100) 8 0x1122334455667788,
    core := { c with ctx := 1, tlb := [page 0x200000000 0x40000], regs := { c.regs with pc := 0x200000000, p := ps },
                     sched := { c.sched with running := true, user := true } } }

/-- The same with a value in a. -/
def withA (a : Word) : State := base.setA a
/-- The same with n low bytes of v at an offset of core 0's vault. -/
def withV (s : State) (off n v : Nat) : State := { s with mem := writeNat s.mem (vaultHome 0 off) n v }
/-- The same in firmware mode. -/
def firm (s : State) : State := { s with core := { s.core with sched := { s.core.sched with user := false } } }
/-- The same with every feature accepted. -/
def allOn (s : State) : State := { s with out := { s.out with accept := some (-1) } }
/-- A doubleword operand through pointer p. -/
def m8 (p : BitVec 3) : MOp := ⟨p, 0, 3, 0⟩
/-- A word operand through pointer p. -/
def m4 (p : BitVec 3) : MOp := ⟨p, 0, 2, 0⟩

/-- A state in which nothing is under way. -/
theorem quiet_of (s : State) (hc : allCmds s = []) (hl : s.lines = []) (hm : Memory.wf s.mem = true) (hw : s.waiting = [] := by rfl)
    (hs : s.stop = [] := by rfl) (hd : deliveries s = [] := by rfl) (ho : storesOut s < 255 := by decide) (hf : s.forks = [] := by rfl)
    (hr : s.core.sched.returns = [] := by rfl) (hk : s.core.sched.checked = [] := by rfl) : Quiet s :=
  ⟨⟨hc, by rw [hl]; simp, hw, hs, hf, hd, hr, hk⟩, ho, hm⟩

theorem quiet_base : Quiet base := quiet_of _ (by decide) rfl (by decide)

/-- An answer that is .ok, read off its evaluation. -/
theorem exists_ok {α β : Type} {r : Except α β} (h : r.toOption.isSome = true) : ∃ v, r = .ok v := by
  cases r with
  | error e => simp [Except.toOption] at h
  | ok v => exact ⟨v, rfl⟩
/-- An answer that is .ok with a value. -/
theorem is_ok {α β : Type} {r : Except α β} {v : β} (h : r.toOption = some v) : r = .ok v := by
  cases r with
  | error e => simp [Except.toOption] at h
  | ok w => simp [Except.toOption] at h; rw [h]
/-- An outcome that is a next state. -/
theorem exists_next {r : Host.Outcome State Fault Refusal} (h : (match r with | .next _ => true | _ => false) = true) : ∃ t, r = .next t := by
  cases r with
  | next t => exact ⟨t, rfl⟩
  | fault f => simp at h
  | refused q => simp at h

/-- The same with its value. -/
theorem exists_ok_val {α : Type} {v : α} {r : Res (State × α)} (h : r.toOption.map (·.2) = some v) : ∃ t, r = .ok (t, v) := by
  cases r with
  | error e => simp [Except.toOption] at h
  | ok w => exact ⟨w.1, by simp [Except.toOption] at h; rw [← h]⟩

/-- The same with its state. -/
theorem exists_ok_at {α : Type} {s : State} {r : Res (State × α)} (h : r.toOption.map (·.1) = some s) : ∃ v, r = .ok (s, v) := by
  cases r with
  | error e => simp [Except.toOption] at h
  | ok v => exact ⟨v.2, by simp [Except.toOption] at h; rw [← h]⟩

/-! ## Hypotheses of the statements about operands and arithmetic -/

theorem test_meets_OperandLoads : Quiet base ∧ InVault base (effAddr base (m8 0)) 8 ∧ MappedAt base (effAddr base (m8 2)) 8 false 0x40000 ∧
    (∃ t v, loadOperand base (m8 0) .probe = .ok (t, v)) := by
  refine ⟨quiet_base, by unfold InVault; decide, ⟨page 0x200000000 0x40000, by decide⟩, _, _, rfl⟩

/-- A state for each fault of an operand load: the reserved space, a misaligned address, an engine window, an ungranted vault. -/
theorem test_meets_OperandLoadTraps :
    spaceOf (effAddr (base.setAddr 0 0x0100000000000000) (m8 0)) = .reserved ∧ (effAddr (base.setAddr 0 0x101) (m8 0)).toNat % 8 ≠ 0 ∧
    spaceOf (effAddr (base.setAddr 0 0x200000) (m8 0)) = .engine ∧
    (spaceOf (windowAddr 16 0) = .window ∧ windowAllowed base (windowAddr 16 0) = false) ∧
    (∃ p, lookupPage { base with core := { base.core with tlb := [{ page 0x200000000 0 with r := false }] } } 0x200000000 = some p ∧ p.r = false) ∧
    poisonIn [(vaultHome 0 0x100) / 8] (vaultHome 0 (effAddr base (m8 0)).toNat) 8 = some ((vaultHome 0 0x100) / 8) ∧
    (spaceOf (0x80000 : Word) = .ownVault ∧ vaultSize 1024 ≤ (0x80000 : Word).toNat) := by
  refine ⟨by decide, by decide, by decide, by decide, ⟨_, rfl, rfl⟩, by decide, by decide⟩

theorem test_meets_IntegerResults : (∃ t, loadOperand base (m8 0) .probe = .ok (t, 0x1122334455667788)) ∧ 0x1122334455667788 < 2 ^ (8 * sizeBytes (m8 0).sz) :=
  ⟨exists_ok_val (by decide +kernel), by decide⟩

theorem test_meets_DivisionIdentity : (∃ t, loadOperand (withV (withA (BitVec.intMin 64)) 0x100 8 (2 ^ 64 - 1)) (m8 0) .probe = .ok (t, 2 ^ 64 - 1)) ∧
    ∃ t, loadOperand (withV base 0x100 8 0) (m8 0) .probe = .ok (t, 0) :=
  ⟨exists_ok_val (by decide +kernel), exists_ok_val (by decide +kernel)⟩

theorem test_meets_FloatSpecialCases :
    (num64 0x7FF0000000000001).isSig = true ∧ (num64 0x8000000000000000).isZero = true ∧ (num64 0x3FF0000000000000).isZero = false ∧
    (num64 0xBFF0000000000000).neg = true ∧ (num64 0x43E0000000000000) = .fin false (2 ^ 52) 11 := by decide

/-- Values at and beyond the bounds of FCVT's integers, 2.5, and the infinities (12 R209). -/
theorem test_meets_FloatSpecialCases_values : num64 0x43F0000000000000 = .fin false (2 ^ 52) 12 ∧ num64 0xC3E0000000000001 = .fin true (2 ^ 52 + 1) 11 ∧
    num64 0x4004000000000000 = .fin false (5 * 2 ^ 50) (-51) ∧ num64 0xBFF0000000000000 = .fin true (2 ^ 52) (-52) ∧ num64 0x7FF0000000000000 = .inf false ∧
    num64 0xFFF0000000000000 = .inf true := by decide

theorem test_meets_NumberFormatLaws : (fmtDecode 3 0x08).isNan = false ∧ (fmtDecode 4 0x7C).isInf = true ∧ (num64 1).isNan = false ∧
    (num32 0x3F800000).isNan = false ∧ (0x3F800000 : W32).toNat % 2 ^ 11 = 0 := by decide

theorem test_meets_LoadResults : (∃ t, loadOperand base (m8 0) .load = .ok (t, 0x1122334455667788)) ∧
    (∃ t v, loadOperand base (m4 0) .probe = .ok (t, v) ∧ (fp32.decode v).isNan = false) ∧
    ∃ t v, loadOperand (withV base 0x100 4 0x7F800001) (m4 0) .probe = .ok (t, v) ∧ (fp32.decode v).isNan = true :=
  ⟨exists_ok_val (by decide +kernel), (exists_ok_val (v := 0x55667788) (by decide +kernel)).imp fun _ h => ⟨_, h, by decide⟩,
    (exists_ok_val (v := 0x7F800001) (by decide +kernel)).imp fun _ h => ⟨_, h, by decide⟩⟩

theorem test_meets_HomesOfAddresses : InVault base 0x1FFFF8 8 ∧ windowAddr 15 0x1FFFF8 = BitVec.ofNat 64 (0x100000000 + 15 * 0x200000 + 0x1FFFF8) ∧
    ctx.grant.getLsbD (15 / 8) = true ∧ 8 ∣ 0x200000 ∧ MappedAt base 0x20000FFF8 8 true 0x4FFF8 := by
  refine ⟨by unfold InVault; decide, by decide, by decide, by decide, page 0x200000000 0x40000, by decide⟩

/-- Core 0 about to store to EGO with these words in its shadow set, n commands waiting at its port, and a page that only the host holds. -/
def ported (w0 w1 w2 : Word) (n : Nat) : State :=
  let s := allOn (base.setAddr 0 0x200020)
  { s with ctxs := [{ ctx with hostGaps := [page 0x220000000 Config.hostBase] }],
           core := { s.core with port := { base.core.port with ecw0 := w0, ecw1 := w1, ecw2 := w2, waiting := List.replicate n (default : Cmd) } } }
def goFaultOf (s : State) : Option GoStop := goFault s (goCmd s 0) true

/-- A COPY of 64 bytes is accepted, one of none at once, a RESUME of a record that is not there waits, and a firmware command is refused. -/
theorem test_meets_StoreResults_port : effAddr (ported 0 0 0 0) (m8 0) = 0x200020 ∧ (match goFaultOf (ported 0x4000000001 0x200000000 0x140 0) with
      | none => (goCmd (ported 0x4000000001 0x200000000 0x140 0) 0).total (ported 0x4000000001 0x200000000 0x140 0)
      | _ => 0) = 64 ∧
    (match goFaultOf (ported 1 0x200000000 0x140 0) with
      | none => (goCmd (ported 1 0x200000000 0x140 0) 0).total (ported 1 0x200000000 0x140 0)
      | _ => 1) = 0 ∧
    (match goFaultOf (ported 0xA 0x220000000 0 0) with
      | some .wait => true
      | _ => false) = true ∧
    (match goFaultOf (ported 8 0x100 0 0) with
      | some (.fault f a x) => (f, a, x)
      | _ => (0, 0, 0)) = (0x12, 0x200020, 3) ∧
    (ported 0x8001 0 0 0).core.port.ecw0.getLsbD 15 = true ∧ (goCmd (ported 0x0C 0 0 0) 0).code = 0x0C ∧ portFull (ported 1 0 0 0) = false ∧ portFull (ported 1 0 0 4) = true ∧
    standsHere (ported 1 0 0 0) 1 0 = true ∧ (ported 1 0 0 0).saves = [] ∧ effAddr (base.setAddr 0 0x200028) (m8 0) = 0x200028 := by decide +kernel

/-- A store's home in the own vault, in another vault and in HBM4E. -/
theorem test_meets_StoreResults : homeOf base (effAddr base (m8 0)) 8 .store = some (vaultHome 0 0x100) ∧
    homeOf base (effAddr base (m8 3)) 8 .store = some (vaultHome 5 0x200) ∧ homeOf base (effAddr base (m8 2)) 8 .store = some 0x40000 ∧
    WritesHome base (vaultHome 0 0x100) ∧ WritesHome base 0x40000 :=
  ⟨by decide, by decide, by decide, ⟨quiet_base, by decide, by decide⟩, quiet_base, by decide, by decide⟩

theorem acts_base (h n : Nat) (hf : isFar h = false) (hp : farFault base h = none) : ActsAt base h n :=
  ⟨⟨quiet_base, rfl, hp⟩, hf, by simp [poisonIn, base, State.reset]⟩

theorem test_meets_AtomicResults : homeOf base (effAddr base (m8 0)) 8 .atomic = some (vaultHome 0 0x100) ∧ ActsAt base (vaultHome 0 0x100) 8 ∧
    homeOf base (base.ptr 1).addr 4 .atomic = some (vaultHome 0 0x140) ∧ homeOf base (base.ptr 2).addr 4 .probe = some 0x40000 ∧
    ActsAt base (vaultHome 0 0x140) 4 ∧ ActsAt base 0x40000 4 :=
  ⟨by decide, acts_base _ _ (by decide) (by decide), by decide, by decide, acts_base _ _ (by decide) (by decide), acts_base _ _ (by decide) (by decide)⟩

/-! ## Hypotheses of the statements about stamped words, pointers, transfers and waits -/

/-- Class 3 of 07 R131's example: λ = 0.75, the table's entries λ^(2^k). -/
def decay3 : List (List W32) := List.replicate 16 ([0x3F400000, 0x3F100000, 0x3EA20000, 0x3DCD0800] ++ List.replicate 20 0)
/-- A context whose region of class 3 is the 64 bytes at offset 0x100 of each vault, at step `held`. -/
def stampCtx (held : Word) : Ctx := { ctx with held := held, gstep := held, decay := some decay3, regions := some [some ⟨0x100, 0x40, 3⟩] }
/-- R131's example: W holds 4.0 in class 3, stamped at step 100. -/
def stamped (held w : Word) : State := { withV base 0x100 8 w.toNat with ctxs := [stampCtx held] }

/-- SADD.N of 0.5 at step 105 leaves W as 07 R131 gives it. -/
theorem test_saddN_example : (match exec (.saddN (m8 0)) ((stamped 105 0x0000643040800000).setA 0x3F000000) with
    | .next t => homeWord t (vaultHome 0 0x100)
    | _ => 0) = 0x000069303FB98000 := by decide
/-- SLD at step 107 returns 1.449218... × 0.5625. -/
theorem test_sld_example : (match exec (.sld (m8 0)) (stamped 107 0x000069303FB98000) with
    | .next t => t.core.regs.a
    | _ => 0) = 0x00006B303F50B000 := by decide
/-- SMRG at step 108 with 1.0 of step 106. -/
theorem test_smrg_example : (match exec (.smrg (m8 0)) ((stamped 108 0x000069303FB98000).setA 0x00006A303F800000) with
    | .next t => homeWord t (vaultHome 0 0x100)
    | _ => 0) = 0x00006A3040059000 := by decide

theorem test_meets_StampedResults : let s := (stamped 105 0x0000643040800000).setA 0x0000643040800000
    homeOf s (effAddr s (m8 0)) 8 .atomic = some (vaultHome 0 0x100) ∧ homeOf s (effAddr s (m8 0)) 8 .probe = some (vaultHome 0 0x100) ∧
    Quiet s ∧ s.poison = [] ∧ farFault s (vaultHome 0 0x100) = none ∧ myCtx s = some (stampCtx 105) ∧
    regionClass (stampCtx 105) 0x100 (vaultHome 0 0x100) = some 3 ∧
    (∀ fn ∈ [0, 1, 2, 4, 5, 6], stampCheck (stampCtx 105).decay 3 (nowOf 105) fn (homeWord s (vaultHome 0 0x100)) s.core.regs.a = none) ∧
    stampCheck (stampCtx 105).decay 3 (nowOf 105) 0 0x0000644040800000 0 ≠ none :=
  ⟨by decide, by decide, quiet_of _ (by decide) rfl (by decide), by decide, by decide, by decide, by decide, by decide, by decide⟩

/-- A word of another class, for every stamped operation, and an address outside every region. -/
theorem test_meets_StampedResults_failures : (∀ fn ∈ [0, 1, 2, 3, 4, 5, 6], stampCheck (stampCtx 105).decay 3 (nowOf 105) fn 0x0000644040800000 0 = some 3) ∧
    regionClass (stampCtx 105) 0x140 (vaultHome 0 0x140) = none ∧ homeOf (stamped 105 0) (effAddr (stamped 105 0) (m8 1)) 8 .atomic = some (vaultHome 0 0x140) := by decide

theorem test_meets_StampedWordLaws : ((0x105 : BitVec 24) - stampOf 0x0001043040800000).toNat ≤ ((0x105 : BitVec 24) - 0x100).toNat ∧
    ((0x105 : BitVec 24) - 0x100).toNat < ((0x105 : BitVec 24) - stampOf 0x0000643040800000).toNat := by decide

theorem test_meets_PointerResults : (0xFFFFFFFF80000000 : Word).toInt = -(2 ^ 31) ∧ (0x7FFFFFFF : Word).toInt + 1 = 2 ^ 31 ∧
    (0x80000000 : Word).toInt = 2 ^ 31 ∧ isOrdered base = false := by decide

theorem test_meets_TransferResults : homeOf base ((base.ptr 7).addr - 8) 8 .atomic = some (vaultHome 0 0x7F8) ∧
    homeOf base (base.ptr 7).addr 8 .probe = some (vaultHome 0 0x800) ∧ WritesHome base (vaultHome 0 0x7F8) ∧ ActsAt base (vaultHome 0 0x800) 8 ∧
    base.core.regs.pc.toNat % 4 = 0 ∧ (homeWord base (vaultHome 0 0x800)).toNat % 4 = 0 ∧
    (homeWord (withV base 0x800 8 2) (vaultHome 0 0x800)).toNat % 4 ≠ 0 :=
  ⟨by decide, by decide, ⟨quiet_base, by decide, by decide⟩, acts_base _ _ (by decide) (by decide), by decide, by decide, by decide⟩

/-- 12 R217's nest: two levels of 3 and 2, strides 8 and 64. -/
def nest : Nest :=
  { nl := 2, ns := 1, bound := [3, 2, 0, 0], base := [0x4000, 0, 0, 0], str := [8, 64] ++ List.replicate 14 0, idx := [0, 0, 0, 0] }
/-- Its record at offset 0x140. -/
def nestWords : List Word := [0x12, 3, 2, 0, 0, 0x4000, 0, 0, 0, 0x4000000008] ++ List.replicate 7 0
def nestRecord : State :=
  withV (withV (withV (withV base 0x140 8 0x12) 0x148 16 (3 + 2 * 2 ^ 64)) 0x168 8 0x4000) 0x188 8 0x4000000008

theorem test_lnset_record : nestOf nestWords = some nest := by decide
/-- After the last index of both levels the nest starts over with T = 0. -/
theorem test_lnext_wraps : exec .lnext (base.setNest (some { nest with idx := [2, 1, 0, 0] })) =
    .next (((base.setNest (some nest)).setT false).advance) := rfl

theorem test_meets_LoopNestResults : (loadWords nestRecord (nestRecord.ptr 1).addr 17).toOption.map (·.2) = some nestWords ∧ (nestRecord.ptr 1).addr.toNat % 8 = 0 ∧
    nestOf (0x10 :: nestWords.tail) = none ∧ nestWithin nest.idx nest.bound nest.nl ∧ (base.setNest (some nest)).core.nest = some nest ∧ base.core.nest = none := by
  refine ⟨by decide +kernel, by decide, by decide, ⟨by decide, by decide, trivial⟩, rfl, rfl⟩

def storing : State := { base with core := { base.core with sched := { base.core.sched with acks := [⟨10, some (vaultHome 0 0), base.core.port.owner⟩] } } }
theorem test_meets_FenceAndWaitResults_out : base.core.sched.acks = [] ∧ storesOut base = 0 ∧ ⟨10, some (vaultHome 0 0), storing.core.port.owner⟩ ∈ storing.core.sched.acks ∧
    storing.core.csr.here < 10 ∧ isVaultHome (vaultHome 0 0) = true ∧ isFar (vaultHome 0 0) = false ∧ storesOut storing ≠ 0 := by decide
theorem test_meets_FenceAndWaitResults : copiesOf base = 0 ∧ tileOps base = 0 ∧
    tileOps { base with core := { base.core with mx := { base.core.mx with ops := 1 } } } = 1 := by decide

/-- The task has written link 0's host and no other, and its answer is or is not there. -/
theorem test_meets_FenceAndWaitResults_host : let s : State := { base with core := { base.core with sched := { base.core.sched with wrote := 1 } } }
    s.core.sched.wrote = 1 <<< 0 ∧ s.out.hostUp.getLsbD 0 = true ∧ s.core.sched.returns = [] ∧ storesOut s = 0 ∧ loadRoom base = true ∧ bankWaits base (0x40000 / 128) = 0 := by decide

theorem test_meets_WatchResults : homeOf base (base.ptr 0).addr 1 .probe = some (vaultHome 0 0x100) ∧ Quiet base ∧
    ((vaultHome 0 0x100) / 128 ≤ (vaultHome 0 0x100) / 128 ∧ (vaultHome 0 0x100) / 128 ≤ (vaultHome 0 0x100 + 8 - 1) / 128) ∧ base.core.watch = none :=
  ⟨by decide, quiet_base, by decide, rfl⟩

theorem test_meets_CacheControlResults : homeOf base (base.ptr 2).addr 1 .probe = some 0x40000 ∧ isSliced 0x40000 = true ∧
    homeOf base (base.ptr 0).addr 1 .probe = some (vaultHome 0 0x100) ∧ isSliced (vaultHome 0 0x100) = false ∧ canAllocate base (0x40000 / 128) = true := by decide

/-- STEP at the last count of an interval, and while sweeps of an earlier base run. -/
theorem test_meets_StepResult : myCtx base = some ctx ∧ base.core.sched.stepDone = false ∧ ctx.sweeps = 0 ∧
    ctx.held.toNat / 2 ^ 20 = (ctx.gstep + 1).toNat / 2 ^ 20 ∧
    (let x : Ctx := { ctx with sweeps := 1, gstep := 0x3FFFFF }
     x.sweeps ≠ 0 ∧ x.sweepStart.toNat + 2 ^ 22 ≤ x.gstep.toNat + 1) := by decide

/-! ## Hypotheses of the statements about system instructions and exceptions -/

theorem test_meets_StatusReads : myCtx base = some ctx ∧ base.core.num < 1024 ∧ tileOps base < 256 ∧ copiesOf base < 256 := by decide

/-- Boundary values of the writable CSRs. -/
theorem test_meets_StatusWrites : (1 ≤ (4096 : Word).toNat ∧ (4096 : Word).toNat ≤ 4096) ∧ 4096 < (4097 : Word).toNat ∧ (3 : Word).toNat ≤ 3 ∧
    (31 : Word).toNat < 32 ∧ (7 : Word).toNat < 8 ∧ 16 ≤ (16 : Word).toNat ∧ (0x7F7FFFFF : Word).toNat < 0x7F800000 ∧
    ((0x00FFFFFFFFFFFFFC : Word).toNat % 4 = 0 ∧ (0x00FFFFFFFFFFFFFC : Word).toNat < 2 ^ 56) ∧ 2 ^ 56 ≤ (0x0100000000000000 : Word).toNat := by decide

/-- The image of a table of DECAYB or SRTB is read; told of a bad entry, and of none. -/
theorem test_meets_StatusWrites_tables : ((readImage { base with core := { base.core with id := { base.core.id with slot := 63 } } } 0x200000000 128).toOption.map (fun r => r.2.length)) = some 128 ∧
    (0x200000000 : Word).toNat % 1024 = 0 ∧ (0x200000040 : Word).toNat % 128 ≠ 0 ∧ base.core.sched.tableDone = none ∧ myCtx base = some ctx ∧ ctx.loading = [] := by decide +kernel

theorem test_meets_PrivilegedInUserMode : base.core.sched.user = true ∧ 0x800 ≤ (0x880 : BitVec 12).toNat ∧ encode .csave = some 0x18F ∧
    encode (.mfs 0x880) = some 0x88000F := by decide

/-- The service core of cluster 0 with an entry image in its vault. -/
def svc (w0 w1 : Nat) : State :=
  withVault ({ firm base with core := { (firm base).core with num := 1024, regs := { base.core.regs with a := 0x100 } } }) (w0 + w1 * 2 ^ 64)
where
  withVault (s : State) (v : Nat) : State := { s with mem := writeNat s.mem (vaultHome 1024 0x100) 16 v }

theorem test_meets_TranslationControl : isCompute (firm base).core.num = true ∧ (firm base).core.sched.user = false ∧
    isCompute (svc 0 0).core.num = false ∧ Quiet (svc 0x200000401 0x40807) ∧ InVault (svc 0x200000401 0x40807) 0x100 16 ∧
    (∃ p, imagePage 0x200000401 0x40807 = some p) ∧ imagePage 0x2000004C1 0x40807 = none ∧ (0x40807 : Word).getLsbD 11 = true ∧
    bits (0x100000001 : Word) 31 6 = 0 ∧ bits (0x100000041 : Word) 31 6 ≠ 0 ∧ (0x200010000 : Word).toNat % 4096 = 0 := by
  refine ⟨by decide, by decide, by decide, quiet_of _ (by decide) rfl (by decide), by unfold InVault; decide, ⟨_, rfl⟩, by decide, by decide, by decide, by decide, by decide⟩

/-- A page with lines that an MREAD has still to read, and one without. -/
theorem test_meets_TranslationControl_owed :
    linesOwed { base with mcast := [{ (default : MEntry) with req := { (default : MReq) with lines := [(0x40000 / 128, 0)] } }] } 0x40000 (pageBytes 1) = true ∧
    linesOwed base 0x40000 (pageBytes 1) = false ∧ (page 0x200000000 0x40000).va < 0x200000000 + 4096 ∧ base.core.sched.asked = false := by decide +kernel

/-- An image with V clear; one of the second tier, accepted and not. -/
theorem test_meets_TranslationControl_images : (imagePage 0x200000401 0x40007).isSome = true ∧ (0x40007 : Word).getLsbD 11 = false ∧
    (∀ c ∈ (firm base).core :: (firm base).others.map (·.2) ++ (firm base).saves.map (·.2), c.sched.checked = []) := by decide

/-- CSAVE waits for an acknowledgement on its way, and for none. -/
theorem test_meets_SaveAndRestoreCore_waits : saveWaits storing 1 storing.core = true ∧ saveWaits base 1 base.core = false := by decide
theorem test_meets_SaveAndRestoreCore : Memory.wf (firm base).mem = true ∧ (firm base).core.mx.run = none ∧ (firm base).core.sched.user = false ∧ (0x2001 : Word).toNat % 8192 ≠ 0 ∧
    ((0x7FFFFCE000 : Word).toNat % 8192 = 0 ∧ (0x7FFFFCE000 : Word).toNat + 0x32000 = 0x8000000000) ∧
    ∃ e, ({ base with saves := [(saveKey 0x2000, base.core)] } : State).saves.find? (fun e => e.1 == saveKey 0x2000) = some e := by
  refine ⟨by decide, rfl, by decide, by decide, by decide, _, rfl⟩

theorem test_meets_RuleLoad : spaceOf 0x200000040 = .translated ∧ spaceOf (windowAddr 5 0x40) = .window ∧ spaceOf 0x40 = .ownVault ∧
    (∀ l ∈ ctx.loading, l.core ≠ base.core.num) ∧ base.core.sched.tableDone = none ∧ spaceOf 0x41 ≠ .reserved := by decide

theorem test_meets_TrapEntry : freeFrameOf base base.core.num = some 0 ∧ ctxOf base base.core.ctx = some ctx ∧ ctx.running = true ∧
    awayHas ctx base.core.num 0 = false ∧ base.core.sched.ring = [] ∧ atLevel base.core.sched.queue 0 < 32 := by decide

/-- A state whose first queue entry is a trap, with a handler to start. -/
def trapped : State :=
  let t := takeTrap base false ⟨0x14, 0, 0x200000000, 5⟩ 0x200000004
  { t with core := { t.core with csr := { t.core.csr with trapv := 0x200000100, upcv := 0x200000200 } } }

theorem test_meets_HandlerStarts : mayStart trapped trapped.core.num = true ∧ ctxOf trapped trapped.core.ctx = some ctx ∧ ctx.queue = [] ∧
    trapped.core.sched.ring = [] ∧ trapped.core.sched.queue = [⟨0, .handler false ⟨0x14, 0, 0x200000000, 5⟩ (.frame 0), 0, false, none⟩] ∧
    trapped.core.csr.trapv ≠ 0 ∧ trapped.core.csr.upcv ≠ 0 := by decide

/-- 19 R328's example: TRAP 5 of task 3 with a = 7 and T = 1 leaves this word at 0x70 of frame 0. -/
theorem test_trap_frame_word : (match exec (.trap 5) { (base.setA 7).setT true with core := { ((base.setA 7).setT true).core with id := ⟨3, 0, 0, 63, 0⟩ } } with
    | .next t => homeRead t (frameHome 0 0 + 0x70) 8
    | _ => 0) = 0x000000031400B000 := by decide

theorem test_meets_ReturnFromTrap : frameKind trapped 0 0 = 1 ∧ frameKind base 0 0 = 0 ∧ (0x1000 : Word).toNat = 4096 ∧ (0x81 : Word).toNat % 128 ≠ 0 := by decide

theorem test_meets_TrapThenReturn : Memory.wf trapped.mem = true ∧ Memory.wf base.mem = true ∧ trapped.core.num = base.core.num ∧
    trapped.core.ctx = base.core.ctx ∧ trapped.ctxs = (takeTrap base false ⟨0x14, 0, 0x200000000, 5⟩ 0x200000004).ctxs ∧
    (trapped.setA 0).core.regs.a = BitVec.ofNat 64 (128 * 0) := by decide

/-! ## Encodings -/

/-- Worked words of 12 R215, 13 R220-R223, 16 R280, 18 R310 and others decode to their instructions, one or more of every family. -/
theorem test_decode_scalar : decode 0x00001844 = .ok (.fadd ⟨1, 0, 3, 0⟩) ∧ decode 0x00001A43 = .ok (.add ⟨1, 1, 3, 0⟩) ∧ decode 0x02000045 = .ok (.lui 0x4000) ∧
    decode 0x00001C09 = .ok (.pget 6 0) := ⟨rfl, rfl, rfl, rfl⟩
theorem test_decode_memory : decode 0x00009881 = .ok (.ldAcqDev ⟨2, 0, 3, 0⟩) ∧ decode 0x000476C2 = .ok (.stRelSys ⟨3, 3, 2, 1⟩) ∧
    decode 0x00085641 = .ok (.lda ⟨1, 3, 2, 2⟩) ∧ decode 0x0006220D = .ok (.acas 4 1 2) := ⟨rfl, rfl, rfl, rfl⟩
theorem test_decode_system : decode 0x00000020 = .error 2 ∧ decode 0x0000114F = .ok (.tlbi 1) ∧ decode 0x000031CF = .ok (.crst 3) ∧
    decode 0x0005300F = .ok (.mfs 0x053) := ⟨rfl, rfl, rfl, rfl⟩
theorem test_decode_tile : decode 0x000D1031 = .ok (.mma 0 1 2 3) ∧ decode 0x00080030 = .ok (.tcfg 0 2) ∧ decode 0x000030F2 = .ok (.tqnt 0 3 0) ∧
    decode 0x00383473 = .ok (.awupd 1 2 3 0) := ⟨rfl, rfl, rfl, rfl⟩

/-- Each of R196's reasons, and words that WellFormed refuses: operands that no word encodes. -/
theorem test_vcvt_unused : Instr.wf (.vcvt 0 0 0 0x14) = false ∧ decode 0x14200033 = .error 0x08 := ⟨by decide, rfl⟩
theorem test_illformed : Instr.wf (.add ⟨1, 0, 3, 5⟩) = false ∧ Instr.wf (.fadd ⟨1, 0, 1, 0⟩) = false ∧ Instr.wf (.sld ⟨1, 0, 2, 0⟩) = false ∧ Instr.wf (.vexp2 1 0 0 0) = false ∧ Instr.wf (.bcc 9 0) = false ∧
    Instr.wf (.acas 1 0 0) = false ∧ Instr.wf (.mfs 0x006) = false ∧ Instr.wf (.lwait 5 1) = false := ⟨by decide, by decide, by decide, by decide, by decide, by decide, by decide, by decide⟩

theorem test_meets_encoding : Instr.wf (.add ⟨7, 3, 3, 0x3FFF⟩) = true ∧ (encode (.add ⟨7, 3, 3, 0x3FFF⟩)).isSome = true ∧
    Instr.wf (.bcc 8 0x200000) = true ∧ (encode (.bcc 8 0x200000)).isSome = true := ⟨rfl, rfl, rfl, rfl⟩

/-! ## Hypotheses of the statements about a step -/

/-- Core 0's turn with a word to fetch. -/
def turnOf (w : Nat) : State := base.withFetchWord 32 w
/-- What its fetch answers. -/
def fetchOf (w : Nat) : Option (State × W32) := (fetchWord (onTurn { turnOf w with turns := [] }).clearStalled (turnOf w).core.regs.pc).toOption

theorem test_meets_Step : let s := turnOf 0x00401805
    s.core.num < 1152 ∧ Awake s ∧ s.turns = [.core s.core.num] := ⟨by decide, ⟨rfl, rfl, rfl, rfl, rfl, rfl, rfl, rfl, by decide, rfl, by decide⟩, rfl⟩
/-- A scalar word, a tile word with the sluice off and the engine free, and a word that is no instruction are fetched. -/
theorem test_meets_Step_words : (fetchOf 0x00401805).map (·.2) = some 0x00401805 ∧ isTile (.li 0x803) = false ∧
    (fetchOf 0x00080030).map (·.2) = some 0x00080030 ∧ isTile (.tcfg 0 2) = true ∧
    (fetchOf 0x00080030).all (fun r => r.1.core.mx.ops == 0 && !r.1.core.sluice.en) = true ∧
    (fetchOf 0x00000020).map (·.2) = some 0x00000020 := by decide +kernel

/-- A step of the machine runs the word at PC. -/
theorem test_step_runs_li : (match step (turnOf 0x00401805) with
    | .next t => (t.core.regs.a, t.core.regs.pc)
    | _ => (0, 0)) = (0x803, 0x200000004) := by decide +kernel
/-- After reset with a word placed, the step runs it. -/
theorem test_step_runs_lui : (match step (State.reset.withFetchWord 32 0x02000045) with
    | .next t => (t.core.regs.a, t.core.regs.pc)
    | _ => (0, 0)) = (0x4000, 0x200000004) := by decide +kernel

/-- FADD takes four cycles and its operand from the own vault three; TCFG keeps the engine for four, of two clock units each (01 R19, 12 R218,
16 R281). -/
theorem test_step_cycles : (match step (turnOf 0x00001844) with
    | .next t => t.core.csr.cyc.toNat - (turnOf 0).core.csr.cyc.toNat
    | _ => 0) = 7 ∧
    (match step (turnOf 0x00080030) with
    | .next t => t.core.mx.doneAt - t.clock
    | _ => 0) = 8 := by decide +kernel

theorem test_meets_Boundary : base.core.sched.running = true ∧ base.core.sched.halted = false ∧ base.core.sched.first = none ∧
    base.core.sched.stepDone = false ∧ base.core.sched.tableDone = none ∧ (∀ x ∈ base.ctxs, x.stepReq = []) := by decide

theorem test_meets_Memory : Memory.wf base.mem = true ∧ (match step (turnOf 0x00401805) with
    | .next _ => true
    | _ => false) = true := by decide +kernel

/-! ## Hypotheses of the statements about the matrix engine -/

/-- A state with view records at offsets 0x1000 and 0x1040, addressed by p1 and p5. -/
def views (m : Matrix) (r1 r2 : Nat) : State :=
  let s := withV (withV base 0x1000 48 r1) 0x1040 48 r2
  ({ s with core := { s.core with mx := m } }.setAddr 1 0x1000).setAddr 5 0x1040
/-- The record of a view without scales: base, stride, rows, columns, format, flags. -/
def record (b stride rows cols fmt flags : Nat) : Nat := b + (stride * 2 ^ 32 + rows * 2 ^ 16 + cols) * 2 ^ 64 + (fmt * 256 + flags) * 2 ^ 128

/-- Tile 0 as 128 by 64 of FP32, tile 2 of INT32. -/
def mx : Matrix := { base.core.mx with tiles := base.core.mx.tiles.set 2 { Tile.reset with fmt := 2, live := true } }

theorem free_views (m : Matrix) (r1 r2 : Nat) (hm : m.ops = 0) (hw : Memory.wf (views m r1 r2).mem = true) : EngineFree (views m r1 r2) :=
  ⟨hm, quiet_of _ rfl rfl hw rfl rfl rfl (by show storesOut base < 255; decide), rfl⟩

theorem test_meets_TileConfiguration : mx.ops = 0 ∧ (3 ≤ 3 ∨ 3 ≤ 0) ∧ (1 : BitVec 2).getLsbD 0 = true ∧ (2 ≤ (mx.tile 2).shape.toNat) = False ∧
    (∃ n ∈ ([2] : List (BitVec 2)), (mx.tile n).live = true) ∧ (∀ n ∈ ([0, 1] : List (BitVec 2)), (mx.tile n).live = false) := by
  refine ⟨rfl, by decide, rfl, by decide, by decide, by decide⟩

theorem test_meets_TileInPlace : EngineFree (views mx 0 0) ∧ InVault (views mx 0 0) ((views mx 0 0).ptr 0).addr 4 ∧ (mx.tile 0).fmt ≠ 2 ∧
    (mx.tile 2).fmt = 2 := ⟨free_views _ _ _ rfl (by decide), by unfold InVault; decide, by decide, by decide⟩

/-- A view of 128 by 64 FP32 elements at 0x10000, and one of BF16. -/
def wide : Nat := record 0x10000 256 128 64 0 0
def half : Nat := record 0x20000 128 128 64 1 0
/-- Their fields. -/
def view (b stride rows cols fmt : Nat) : View :=
  { base := BitVec.ofNat 64 b, stride := stride, rows := rows, cols := cols, fmt := fmt, cmp := false, cpt := false, cm := false, scaleb := 0, cptb := 0 }

theorem test_meets_TileLoadAndStore : EngineFree (views mx wide half) ∧ ViewAt (views mx wide half) 1 (view 0x10000 256 128 64 0) 0x10000 0 ∧
    ViewAt (views mx wide half) 5 (view 0x20000 128 128 64 1) 0x20000 0 ∧ accCode (mx.tile 0).fmt = 0 ∧ mx.nr 0 = 128 ∧ mx.nc 0 = 64 ∧
    ApartFrom (view 0x10000 256 128 64 0) 0x10000 0 0 ∧ checkOperand (views mx wide half) 0x1000 (4 * 64) = .ok 0x1000 := by
  refine ⟨free_views _ _ _ rfl (by decide), ⟨rfl, rfl, rfl⟩, ⟨rfl, rfl, rfl⟩, rfl, rfl, rfl, ?_, is_ok (by decide +kernel)⟩
  intro k _; exact .inl rfl

/-- The view with strip scales that TQNT writes: T8 at 0x10000, scales at 0x30000. -/
def strips : Nat := record 0x10000 64 128 64 7 0 + 0x30000 * 2 ^ 192
theorem test_meets_TileQuantize : EngineFree (views mx strips 0) ∧ ViewAt (views mx strips 0) 1 { view 0x10000 64 128 64 7 with scaleb := 0x30000 } 0x10000 0x30000 ∧
    fmtIsInt 7 = decide ((mx.tile 0).fmt = 2) ∧ ({ view 0x10000 64 128 64 7 with scaleb := 0x30000 } : View).stripBytes = 128 ∧
    ApartFrom { view 0x10000 64 128 64 7 with scaleb := 0x30000 } 0x10000 0x30000 128 := by
  refine ⟨free_views _ _ _ rfl (by decide), ⟨rfl, rfl, rfl⟩, by decide, rfl, ?_⟩
  intro k hk
  have hk : k < 128 := hk
  right; right
  show 0x10000 + k * 64 + 64 ≤ 0x30000
  omega

/-- A dense view of one row of four BF16 and its compressed form with its metadata at 0x30000. -/
theorem test_meets_Compression : let s := views mx (record 0x10000 8 1 4 1 0) (record 0x20000 4 1 2 1 4 + 0x30000 * 2 ^ 256)
    let w : View := { view 0x20000 4 1 2 1 with cmp := true, cptb := 0x30000 }
    EngineFree s ∧ readView s (s.ptr 1).addr = .ok (s, view 0x10000 8 1 4 1) ∧ readView s (s.ptr 5).addr = .ok (s, w) ∧
    viewPlace s (view 0x10000 8 1 4 1) = .ok 0x10000 ∧ viewPlace s w = .ok 0x20000 ∧ checkOperand s w.cptb 1 = .ok 0x30000 ∧
    ApartFrom w 0x20000 0x30000 1 := by
  refine ⟨free_views _ _ _ rfl (by decide), rfl, rfl, rfl, rfl, rfl, ?_⟩
  intro k hk
  have hk : k < 1 := hk
  right; right
  show 0x20000 + k * 4 + 4 ≤ 0x30000
  omega

/-- A view in FP64, which no TCMPR takes. -/
theorem test_meets_Compression_format : readView (views mx (record 0x10000 64 1 8 9 0) 0) 0x1000 = .ok (views mx (record 0x10000 64 1 8 9 0) 0, view 0x10000 64 1 8 9) ∧
    8 < (view 0x10000 64 1 8 9).fmt ∧ (view 0x10000 8 1 4 1).fmt ≤ 8 := ⟨rfl, by decide, by decide⟩

/-- MMA of 128 by 16 by 64 in BF16. -/
theorem test_meets_Mma : let s := views mx (record 0x10000 32 128 16 1 0) (record 0x20000 128 16 64 1 0)
    EngineFree s ∧ (∃ p, mmaPlan false 0 1 5 0 s = .ok (s, p)) ∧ s.out.alarm = false :=
  ⟨free_views _ _ _ rfl (by decide), exists_ok_at (by decide +kernel), rfl⟩
theorem test_meets_Mma_faults : readView (views mx (record 0x10000 64 128 16 0 0) half) 0x1000 =
    .ok (views mx (record 0x10000 64 128 16 0 0) half, view 0x10000 64 128 16 0) := rfl

/-! ## Hypotheses of the statements about vectors, the sort unit and the rank unit -/

/-- A range of the own vault is checked: offset o. -/
abbrev Range (s : State) (p : BitVec 3) (len algn o : Nat) : Prop := ownRange s (s.ptr p).addr len algn = .ok o
/-- VL set. -/
def withVl (s : State) (n : BitVec 13) : State := { s with core := { s.core with regs := { s.core.regs with vl := n } } }

/-- At VL = 1 and VL = 4,096 the operands of the element-wise and converting forms fit the vault. -/
theorem test_meets_VectorResults : Quiet (withVl base 1) ∧ (withVl base 1).poison = [] ∧ 1 ≤ (withVl base 1).core.regs.vl.toNat ∧
    Range (withVl base 1) 0 4 4 0x100 ∧ Range (withVl base 1) 1 4 4 0x140 ∧ Range (withVl base 1) 5 1 1 0x180 ∧
    Range base 0 (4096 * 4) 4 0x100 ∧ Range base 1 (4096 * 4) 4 0x140 ∧ base.core.regs.vl = 4096 ∧
    vcvtPair 3 6 = true ∧ vcvtPair 3 8 = false ∧ Range base 0 (runBytes 6 4096) 1 0x100 := by
  refine ⟨quiet_of _ rfl rfl (by decide), rfl, by decide, is_ok (by decide +kernel), is_ok (by decide +kernel), is_ok (by decide +kernel),
    is_ok (by decide +kernel), is_ok (by decide +kernel), rfl, rfl, rfl, is_ok (by decide +kernel)⟩

/-- Indices −1 and 1 at p5. -/
def indexed : State := withV (withVl base 2) 0x180 8 (1 * 2 ^ 32 + 0xFFFFFFFF)
theorem test_meets_ReductionGatherScatter : Quiet indexed ∧ Range indexed 0 4 4 0x100 ∧ Range indexed 1 8 4 0x140 ∧ Range indexed 5 8 4 0x180 ∧
    (∀ k, k < 2 → ownRange indexed ((indexed.ptr 1).addr + (BitVec.ofNat 32 (vElem indexed 0x180 4 k)).signExtend 64 * BitVec.ofNat 64 4) 4 4 =
      .ok (0x13C + 8 * k)) ∧ ∀ k, k < 2 → 0x13C + 8 * k + 4 ≤ 0x1C0 ∨ 0x1C0 + 2 * 4 ≤ 0x13C + 8 * k := by
  refine ⟨quiet_of _ rfl rfl (by decide), is_ok (by decide +kernel), is_ok (by decide +kernel), is_ok (by decide +kernel), ?_, by omega⟩
  intro k hk
  have : k = 0 ∨ k = 1 := by omega
  rcases this with rfl | rfl <;> exact is_ok (by decide +kernel)

/-- Four stamped words of class 3 at p0, for VSAD with VL = 2 and AWUPD with VL = 2. -/
def moments : State := (withVl (withV (stamped 105 0) 0x100 32 (0x0000643040800000 * (1 + 2 ^ 64 + 2 ^ 128 + 2 ^ 192))) 2).setA 0x200
theorem test_meets_StampedVectorResults : Quiet moments ∧ moments.poison = [] ∧ myCtx moments = some (stampCtx 105) ∧
    Range moments 0 16 8 0x100 ∧ Range moments 5 8 4 0x180 ∧ ownRange moments 0x200 16 16 = .ok 0x200 ∧ Range moments 1 8 4 0x140 ∧
    Range moments 0 32 16 0x100 ∧ regionClass (stampCtx 105) 0x140 (vaultHome 0 0x140) = none ∧
    (∀ k : Fin 4, regionClass (stampCtx 105) (0x100 + 8 * k.val) (vaultHome 0 (0x100 + 8 * k.val)) = some 3 ∧
      stampCheck (stampCtx 105).decay 3 (nowOf 105) 2 (homeWord moments (vaultHome 0 (0x100 + 8 * k.val))) 0 = none ∧
      storedFault (stampCtx 105).decay 3 (nowOf 105) (homeWord moments (vaultHome 0 (0x100 + 8 * k.val))) = none) := by
  refine ⟨quiet_of _ rfl rfl (by decide), rfl, rfl, is_ok (by decide +kernel), is_ok (by decide +kernel), is_ok (by decide +kernel),
    is_ok (by decide +kernel), is_ok (by decide +kernel), by decide, by decide⟩

/-- The second word is of another class, or outside every region; the first passes its check. -/
theorem test_meets_StampedVectorResults_failures :
    let s := withV moments 0x108 8 0x0000644040800000
    stampCheck (stampCtx 105).decay 3 (nowOf 105) 2 (homeWord s (vaultHome 0 0x100)) 0 = none ∧
    stampCheck (stampCtx 105).decay 3 (nowOf 105) 2 (homeWord s (vaultHome 0 0x108)) 0 = some 3 ∧
    storedFault (stampCtx 105).decay 3 (nowOf 105) (homeWord s (vaultHome 0 0x100)) = none ∧
    storedFault (stampCtx 105).decay 3 (nowOf 105) (homeWord s (vaultHome 0 0x108)) = some 3 ∧
    regionClass { stampCtx 105 with regions := some [some ⟨0x100, 8, 3⟩] } 0x108 (vaultHome 0 0x108) = none := by decide

/-- Hands with K = 2 and K = 4,096's bounds: headers at p0 and p1. -/
def hands : State := withV (withV (withVl base 3) 0x100 8 0x00010002) 0x140 8 0x00020002
theorem test_meets_SortResults : Quiet hands ∧ Range hands 0 12 4 0x100 ∧ Range hands 1 24 4 0x140 ∧ Range hands 5 (16 + 8 * 256) 8 0x180 ∧
    (∃ h, readHand 0 hands (hands.ptr 0).addr = .ok (hands, h)) ∧ (∃ h, readHand 0 hands (hands.ptr 1).addr = .ok (hands, h)) ∧
    Range hands 0 (4 * 4096) 4 0x100 ∧ numBelow (keyNum 0 false 0x40000000) (keyNum 0 false 0x3F800000) = false := by
  refine ⟨quiet_of _ rfl rfl (by decide), is_ok (by decide +kernel), is_ok (by decide +kernel), is_ok (by decide +kernel), exists_ok_at (by decide +kernel),
    exists_ok_at (by decide +kernel), is_ok (by decide +kernel), by decide⟩

/-- A stream with core 0 as its one producer of N channels and its receiver, with rows of J words; its record at p7. -/
def rkRecord (n j : Nat) : Nat :=
  (1 * 2 ^ 8 + j * 2 ^ 32) + (0x10000 + 0x20000 * 2 ^ 64 + 0x30000 * 2 ^ 128 + 0x40000 * 2 ^ 192) * 2 ^ 128 + n * 2 ^ 1024
def ranked (n j : Nat) (f : Rank → Rank) : State := (withV base 0x800 256 (rkRecord n j)).setRank f
def rkCfg (n j : Nat) : RkCfg :=
  { (default : RkCfg) with p := 1, eref := 0, j := j, rcore := 0, wbase := 0x10000, logb := 0x20000, dwb := 0x30000, gxb := 0x40000, src := 0x800,
                           prods := [(0, 0, n)] }

/-- The record is read, with one channel and 4,096; each state of the unit that a clause needs. -/
theorem test_meets_RankInstructionResults : Quiet (ranked 1 1 id) ∧ (readRkCfg (ranked 1 1 id) 0x800).toOption = some (ranked 1 1 id, rkCfg 1 1) ∧
    (readRkCfg (ranked 4096 64 id) 0x800).toOption = some (ranked 4096 64 id, rkCfg 4096 64) ∧
    (ranked 1 1 id).core.rank.state = .idle ∧ (ranked 1 1 id).core.rank.emitting = false ∧
    ownRange base 0x800 2048 64 = .ok 0x800 ∧ ownRange base 0x800 (4 * 4096) 4 = .ok 0x800 ∧ ownRange base 0x10000 (4096 * 64 * 4) 4 = .ok 0x10000 ∧
    (∀ i, i < 512 → (BitVec.ofNat 32 (vElem base 0x800 4 i)).toNat < 0x7F800000 ∧
      (i % 256 ≠ 0 → (BitVec.ofNat 32 (vElem base 0x800 4 i)).toNat ≤ (BitVec.ofNat 32 (vElem base 0x800 4 (i - 1))).toNat)) := by
  refine ⟨quiet_of _ rfl rfl (by decide +kernel), by decide +kernel, by decide +kernel, rfl, rfl, is_ok (by decide +kernel), is_ok (by decide +kernel),
    is_ok (by decide +kernel), by decide +kernel⟩

/-- A stream of core 5's channels to core 0. -/
def rkStream (n j : Nat) : RkCfg := { rkCfg n j with prods := [(5, 0, n)], goff := 0x1000, slim := 3 }
/-- The log of one arrival from its last channel has been kept. -/
def logged : State := (withV base 0x20000 4 3).setRank (fun k => { k with state := .idle, loaded := true, recv := some (rkStream 4 2), cnt := 1, endc := 1 })
theorem test_meets_RankBackward_room : storesOut logged + (rkStream 4 2).n ≤ 255 ∧ logged.core.rank.endc ≠ 0 ∧ logged.core.rank.bwd = none ∧ logged.core.rank.recv = some (rkStream 4 2) := by
  refine ⟨by decide, by decide, rfl, rfl⟩
def unlogged : State := base.setRank (fun k => { k with loaded := true })
theorem test_meets_RankInstruction_none_ended : unlogged.core.rank.state = .idle ∧ unlogged.core.rank.bwd = none ∧ unlogged.core.rank.loaded = true ∧
    unlogged.core.rank.endc = 0 := by decide
theorem test_meets_RankBackward : Quiet logged ∧ logged.poison = [] ∧ isOrdered logged = false ∧ (rkStream 4 2).n = 4 ∧
    ownRange logged 0x10000 (4 * 2 * 4) 4 = .ok 0x10000 ∧ ownRange logged 0x30000 (4 * 2 * 4) 4 = .ok 0x30000 ∧ ownRange logged 0x20000 16 4 = .ok 0x20000 ∧
    ownRange logged 0x40000 16 4 = .ok 0x40000 ∧ Range logged 0 8 4 0x100 ∧ vElem logged 0x20000 4 0 = 3 ∧
    (∀ e ∈ (rkStream 4 2).prods, e.1 < 1024 ∧ e.1 ≠ logged.core.num ∧ granted logged 1 e.1 = true ∧ e.2.1 + e.2.2 ≤ 4 ∧ (rkStream 4 2).goff % 4 = 0 ∧ 1 ≤ e.2.2 ∧
      (rkStream 4 2).goff + 4 * e.2.2 ≤ 0x200000) ∧ ((rkStream 4 2).prods.map (·.1)).Nodup := by
  refine ⟨quiet_of _ rfl rfl (by decide), rfl, rfl, by decide, is_ok (by decide +kernel), is_ok (by decide +kernel), is_ok (by decide +kernel),
    is_ok (by decide +kernel), is_ok (by decide +kernel), by decide, by decide, by decide⟩

/-- Core 0 emits to itself; a packet for it is on the way; its unit takes entries of slot 3. -/
def emits : State := base.setRank (fun k => { k with emit := some (rkCfg 4 2), emitting := true, unsent := [0x00030001] })
def packet : RkPacket := { ctx := 1, src := 5, dst := 0, stream := 0, p := 0, entries := [0x00030001] }
def receives : State := { base.setRank (fun k => { k with recv := some (rkStream 4 2), state := .recv, slot := 3, queues := [[[0x00030001]]], racc := [0, 0] }) with rankNet := [packet] }
theorem test_meets_RankTraffic_entries : packet.entries ≠ [entryStop] := by decide
theorem test_meets_RankTraffic : Quiet emits ∧ emits.core.rank.unsent ≠ [] ∧ ctxRuns emits 0 = true ∧ receives.rankNet = [packet] ∧ packet.dst = receives.unit ∧
    (coreOf receives receives.unit).ctx = packet.ctx ∧ receives.core.rank.queues[0]? = some ((0x00030001 :: []) :: []) ∧ (0x00030001 : W32).toNat / 2 ^ 30 = 0 ∧
    (0x00030001 : W32).toNat / 2 ^ 16 % 64 = receives.core.rank.slot ∧ receives.core.rank.slot ≤ (rkStream 4 2).slim ∧ receives.core.rank.watch.toNat ≠ receives.core.rank.cnt + 1 ∧
    receives.core.rank.racc.length = (rkStream 4 2).j ∧ ownOffset 0x10000 + 4 * 2 * (1 + 1) ≤ vaultSize 0 ∧ (rkStream 4 2).prods[0]? = some (5, 0, 4) := by
  refine ⟨quiet_of _ rfl rfl (by decide), by decide, by decide, by decide, by decide, by decide, by decide, by decide, by decide, by decide, by decide, by decide, by decide, by decide⟩

/-- A STOP of core 5's stream is on its way to core 0's emission; core 5 still waits for the END, or has had it. -/
def stops (seen : Bool) : State :=
  let k := { (Core.reset 5).rank with state := .drain, endSeen := [seen] }
  { emits with rankNet := [{ packet with dst := 0, entries := [entryStop] }], others := [(5, { Core.reset 5 with rank := k })] }
theorem test_meets_RankTraffic_stop : ((stops false).rankNet.find? (fun e => e.src == 5 && e.dst == 0 && e.stream == 0 && e.entries == [0xC0000000])).isSome = true ∧
    endOwed { stops false with rankNet := [] } 5 0 { packet with dst := 0, entries := [entryStop] } = true ∧
    endOwed { stops true with rankNet := [] } 5 0 { packet with dst := 0, entries := [entryStop] } = false ∧ (stops false).core.rank.emitP = packet.p := by decide

/-! ## Hypotheses of the statements about tasks, messages and launches -/

/-- A launch record: two tasks of level 2 on core 0; and the live launch that it becomes. -/
def launchWords : List Word := [0x200000000, 5, 0x100010002, 0x200, 0x10000, 0, 0, 0]
def launchBytes : Nat := 0x200000000 + 5 * 2 ^ 64 + 0x100010002 * 2 ^ 128 + 0x200 * 2 ^ 192 + 0x10000 * 2 ^ 256
def liveLaunch : Launch := launchFrom ctx (lrecOf launchWords) [] 0 0x800 0

theorem test_meets_SendResults :
    (base.ptr 4).addr.toNat % 32 ≠ 0 ∧ (loadWords base 0x100 4).toOption.map (·.1) = some base ∧ (loadWords base 0x100 7).toOption.map (·.1) = some base ∧
    inPart ctx 0 = true ∧ inPart ctx 15 = true ∧ launchOf base 1 0 = none ∧ ctx.queue.length < ctx.queueCap ∧ ({ ctx with queueCap := 0 } : Ctx).queueCap ≤ 0 ∧
    (loadWords (withV base 0x800 64 launchBytes) 0x800 8).toOption = some (withV base 0x800 64 launchBytes, launchWords) ∧
    lrecReason base ctx launchWords (lrecOf launchWords) [] = none ∧ (lrecOf launchWords).place ≠ 1 ∧ (lrecOf launchWords).total = 2 ∧ freeSlot ctx = some 0 := by
  decide +kernel

/-- The driver's queue of two entries, free and full. -/
theorem test_meets_SendResults_host : ({ newFn { (default : CtxSpec) with num := 1 } with mqSize := 2 } : HostFn).mqFull = false ∧
    ({ newFn { (default : CtxSpec) with num := 1 } with mqSize := 2, mqHead := 1 } : HostFn).mqFull = true := by decide

/-- The next entry of a driver's queue lies in the host window, whose link is up. -/
theorem test_meets_SendResults_ring : isHost (hostRingHome base 0 0x3000 1) = true ∧ farFault base (hostRingHome base 0 0x3000 1) = none ∧
    base.core.sched.wrote = 0 ∧ (newFn { (default : CtxSpec) with num := 1 }).mqWaits = [] := by decide

/-- Work on its way to core 0. -/
def flight (w : Work) : Flight := { dst := 0, ctx := 1, ent := { level := 1, work := w, entered := 0, aged := false } }
def arriving (w : Work) : State := { base with net := [flight w], ctxs := [{ ctx with launches := [liveLaunch] }] }

theorem test_meets_ArrivalResults : let s := arriving (.message 0x200000000 5 (List.replicate 48 1))
    s.net = [flight (.message 0x200000000 5 (List.replicate 48 1))] ∧ s.unit = 0 ∧ (ctxOf s 1).isSome = true ∧ ctx.running = true ∧ ctx.queue = [] ∧
    freeMsgFrame (coreOf s 0) = some 0 ∧ (coreOf s 0).sched.ring = [] ∧ atLevel (coreOf s 0).sched.queue 1 < 32 ∧ (coreOf s 0).sched.landing = false ∧
    s.clusterQ = [] ∧ launchOf s 1 0 = some liveLaunch ∧ nextTask s { ctx with launches := [liveLaunch] } liveLaunch = some (0, 0) ∧
    (coreOf { s with core := { s.core with sched := { s.core.sched with ring := [(flight (.resume 0)).ent] } } } 0).sched.ring.length = 1 ∧
    ({ liveLaunch with ended := 2 } : Launch).ended = liveLaunch.total ∧ liveLaunch.ordered = false ∧ liveLaunch.join = 0 := by decide +kernel

/-- A task of the launch, with values on flume 0 of core 0 and of its neighbour behind. -/
def task : State :=
  let s := (withA 15).setAddr 2 0x4000
  { s with ctxs := [{ ctx with launches := [liveLaunch] }], flumes := [⟨0, 0, [1], [2], 1⟩, ⟨7, 0, [3], [], 0⟩],
           core := { s.core with id := { s.core.id with slot := 0, seq := 0, tid := 1 } } }
theorem test_meets_LeaveAndFlume : freeFrameOf task 0 = some 0 ∧ atLevel task.core.sched.queue 3 < 32 ∧ awayHas ctx 0 3 = false ∧ task.core.sched.ring = [] ∧
    launchOf task 1 task.core.id.slot.toNat = some liveLaunch ∧ liveLaunch.seq = task.core.id.seq ∧ isOrdered task = false ∧ task.poison = [] ∧
    inPart ctx 15 = true ∧ (task.ptr 2).addr.toNat % 64 = 0 ∧ 0x4000 ≤ (task.ptr 2).addr.toNat ∧ inPart ctx (flumeNext 0 0) = true ∧
    flumePrev 0 0 = 7 ∧ flumeUsed (flumeOf task 0 0) < 16 ∧ (flumeOf task 7 0).present = [3] ∧ (flumeOf task 5 0).present = [] ∧
    flumeUsed ⟨0, 0, List.replicate 8 1, List.replicate 8 2, 0⟩ = 16 ∧
    isOrdered { task with ctxs := [{ ctx with launches := [{ liveLaunch with ordered := true }] }] } = true := by decide +kernel

theorem quiet_task : Quiet task := quiet_of _ rfl rfl (by decide)

/-- Join words and barrier objects at p0: two to go, the last, and none. -/
theorem test_meets_CountingResults : Quiet (withV base 0x100 8 2) ∧ isOrdered base = false ∧ homeOf (withV base 0x100 8 2) 0x100 8 .atomic = some (vaultHome 0 0x100) ∧
    readNat (withV base 0x100 8 2).mem (vaultHome 0 0x100) 8 = 2 ∧ readNat (withV base 0x100 8 (2 ^ 32 - 1)).mem (vaultHome 0 0x100) 8 = 2 ^ 32 - 1 ∧
    homeWord (withV base 0x100 16 (1 + (windowAddr 15 0x200).toNat * 2 ^ 64)) (vaultHome 0 0x100 + 8) = windowAddr 15 0x200 ∧
    inPart ctx (windowVault (windowAddr 15 0x200)) = true ∧ spaceOf (windowAddr 15 0x200) = .window ∧
    readNat (withV base 0x100 8 0).mem (vaultHome 0 0x100) 8 = 0 ∧ 1 ≤ (withA 0xFFFFFFFF).core.regs.a.toNat ∧
    (base.ptr 4).addr.toNat % 16 ≠ 0 ∧ ctx.grant.getLsbD (15 / 8) = true ∧ 0 / 2 ^ 32 < (withA 1).core.regs.a.toNat := by
  refine ⟨quiet_of _ rfl rfl (by decide), rfl, by decide, by decide, by decide, by decide, by decide, by decide, by decide, by decide, by decide, by decide, by decide⟩

/-- An ordered launch whose tasks 0 and 1, on cores 0 and 1, wrote byte 0 of one doubleword of HBM4E, and are both at OBAR. -/
def orderedLaunch : Launch := { launchFrom ctx { lrecOf launchWords with ord := true, pbase := 0x20000 } [] 0 0x800 0 with atObar := 2 }
def jentry (core tid : Nat) (s : State) : State :=
  { s with mem := writeNat s.mem (vaultHome core Config.journalBase) 48 (2 + (3 + tid * 2 ^ 64) * 2 ^ 128 + (jhead 0 1 0x200000000).toNat * 2 ^ 256) }
def merging (m : Option (Option (Nat × Nat × Nat))) (q : List Parked) : State :=
  jentry 0 0 (jentry 1 1 { task with ctxs := [{ ctx with launches := [{ orderedLaunch with merging := m }], parked := q, pages := [page 0x200000000 0x40000] }] })
def parkedTask : Parked := { core := 0, layer := none, frame := .frame 0, pc := 0x200000000, slot := 0 }
theorem test_meets_OrderedLaunch : isOrdered (merging none []) = true ∧ freeFrameOf (merging none []) 0 = some 0 ∧
    launchOf (merging none []) 1 0 = some orderedLaunch ∧ orderedLaunch.ordered = true ∧ orderedLaunch.ended + orderedLaunch.atObar = orderedLaunch.total ∧
    conflictOf ((launchEntries (merging (some none) []) orderedLaunch).flatMap (entryBytes (merging (some none) []) 1)) = some (0x200000000, 0, 1) ∧
    launchEntries task orderedLaunch = [] ∧ orderedLaunch.ended ≠ orderedLaunch.total ∧ ctx.running = true ∧ ctx.queue = [] ∧ ctx.home = 0 ∧
    (coreOf task 0).sched.ring = [] ∧ atLevel (coreOf task 0).sched.queue 1 < 32 ∧ parkedTask.layer = none ∧ parkedTask.slot = 0 := by decide +kernel

/-- A merge that has written link 1's host, and that has no command to wait for. -/
theorem test_meets_OrderedLaunch_release : ({ orderedLaunch with wrote := 2 } : Launch).wrote ≠ 0 ∧ orderedLaunch.wrote = 0 ∧ orderedLaunch.cmds = none ∧
    orderedLaunch.merging = none := by decide

/-- The journal of core 0 with one STORE of a whole doubleword of HBM4E by task 0. -/
def journaled : State :=
  { base with ctxs := [{ ctx with launches := [{ orderedLaunch with merging := some none }], pages := [page 0x200000000 0x40000] }],
              mem := writeNat [] (vaultHome 0 Config.journalBase) 48 (2 + 3 * 2 ^ 128 + (jhead 0 255 0x200000000).toNat * 2 ^ 256 + 7 * 2 ^ 320) }
theorem test_meets_OrderedLaunch_store : Quiet journaled ∧ (launchEntries journaled orderedLaunch).map (fun e => (e.1, e.2.kind, e.2.mask, e.2.data)) = [(0, 3, 0, 0), (0, 0, 255, 7)] ∧
    (entryHome journaled 1 0 0x200000000).toOption.map (·.2) = some 0x40000 ∧ ({ orderedLaunch with ended := 2, atObar := 0 } : Launch).ended = orderedLaunch.total ∧
    orderedLaunch.join = 0 := by
  refine ⟨quiet_of _ rfl rfl (by decide +kernel), by decide +kernel, by decide +kernel, by decide, by decide⟩

/-! ## Hypotheses of the statements about multicast and the homes -/

/-- A descriptor at p0: 128 bytes at offset 0x1000, or at the start of translated space, to offset 0x2000 of cores 1 and 15, barrier object 0x180. -/
def descWords (src : Word) (bobj : Nat) : List Word := [src, BitVec.ofNat 64 (bobj * 2 ^ 32 + 0x2000), 0x8002, BitVec.ofNat 64 (2 ^ 48 + 128)]
def desc (src bobj : Nat) : State := withV base 0x100 32 (src + (bobj * 2 ^ 32 + 0x2000) * 2 ^ 64 + 0x8002 * 2 ^ 128 + (2 ^ 48 + 128) * 2 ^ 192)
def mread1 : MReq := { src := 0, id := 0, slice := homeSlice base 0x40000, lines := [(0x40000 / 128, 0x2000)], qset := 1, pos := 0x8002, bobj := some 0x180 }
def entry1 (w : Bool) : MEntry := { req := mread1, window := w, sent := 0, isOpen := true, late := [] }
def delivery (o : Option Nat) : Delivery := { issuer := 0, ctx := 1, vault := 15, off := 0x2000, data := List.replicate 128 7, bad := [], bobj := o, cmd := none, src := 0 }
/-- A packet with this copy at the stop of its core, and with one more for the vault of core 1. -/
def packet1 (more : Bool) : Packet :=
  { quad := 0, place := coreStop 15, src := 0, cls := .req, way := none, parts := delivery none :: (if more then [{ delivery none with vault := 1 }] else []) }

theorem test_meets_MulticastResults : (desc 0x1000 0x180).poison = [] ∧ myCtx base = some ctx ∧ (base.ptr 4).addr.toNat % 32 ≠ 0 ∧
    (loadWords (desc 0x1000 0x180) 0x100 4).toOption = some (desc 0x1000 0x180, descWords 0x1000 0x180) ∧
    (descOf (descWords 0x1000 0x180) 0x200000).map Desc.cores = some [1, 15] ∧ inPart ctx 1 = true ∧ inPart ctx 15 = true ∧
    (checkOperand base 0x1000 128).toOption = some 0x1000 ∧ readNat (desc 0x1000 0x180).mem (vaultHome 15 0x180) 8 = 0 ∧
    (loadWords (desc 0x200000000 0x180) 0x100 4).toOption = some (desc 0x200000000 0x180, descWords 0x200000000 0x180) ∧
    (descOf (descWords 0x200000000 0x180) 8192).isSome = true ∧ (mreadLines (desc 0x200000000 0x180) 0x100 [0x200000000]).toOption = some [0x40000] ∧
    mread1.ok base = true ∧ homeSlice base 0x40000 < 64 ∧ (entry1 false).req.lines[0]? = some (0x40000 / 128, 0x2000) ∧ 0x40000 / 128 * 128 < 0x8000000000 ∧
    quadrantOf 15 = (packet1 true).quad ∧ quadrantOf 1 = (packet1 true).quad ∧ coreStop 1 ≠ (packet1 true).place ∧ tileOps base < 255 ∧
    (List.replicate 16 (entry1 true)).length = 16 ∧
    (delivery (some 0x180)).ok = true ∧ (delivery none).ok = true := by decide +kernel

/-- A transmission of core 0, and a copy of its source in the vault's pipe. -/
theorem test_meets_MulticastResults_send :
    let y : Send := { id := 0, core := 0, ctx := 1, owner := base.core.port.owner, off := 0x1000, dst := 0x2000, qset := 1, pos := 0x8002, bobj := none, count := 2, sent := 1 }
    let s : State := { base with sends := [y], unit := 64, pending := [(15, .vaultDelivery (delivery none))], forks := [packet1 false] }
    s.unit = 64 + y.core ∧ (∃ e ∈ s.pending, ∃ q, e.2 = .vaultDelivery q ∧ q.vault = (delivery none).vault ∧ q.src = (delivery none).src) ∧
      base.pending = [] ∧ (packet1 false).parts = [delivery none] :=
  ⟨rfl, ⟨_, List.mem_singleton.2 rfl, _, rfl, rfl, rfl⟩, rfl, rfl⟩

theorem quiet_desc : Quiet (desc 0x1000 0x180) := quiet_of _ rfl rfl (by decide)

/-- The barrier object of vault 15: not armed, 128 bytes or 256 to come, or fewer than a line. -/
theorem test_meets_MulticastResults_counts : let k := vaultHome 15 0x180
    let bar (n : Nat) : State := { base with mem := writeNat base.mem k 16 (n + (windowAddr 1 0x200).toNat * 2 ^ 64) }
    readNat (bar 256).mem k 8 % 2 ^ 32 = 256 ∧ readNat (bar 128).mem k 8 % 2 ^ 32 = 128 ∧ homeWord (bar 128) (k + 8) = windowAddr 1 0x200 ∧
    inPart ctx (windowVault (windowAddr 1 0x200)) = true ∧ readNat (bar 0x40).mem k 8 % 2 ^ 32 = 0x40 ∧ ctxOf base (coreOf base 0).ctx = some ctx ∧
    0x180 + 16 ≤ 0x2000 := by decide +kernel

/-- Requests of a port: a doubleword of HBM4E whose line the slice holds, of a vault, and of a stamped region. -/
def port (op : ReqOp) (a : Nat) : Req := { src := 0xFFFF, op := op, addr := a, size := 8, data := 5 }
def slice (l : List Line) (w : List Req) : State := { base with lines := l, waiting := w, unit := 0x40000 / 128 }
def line (v d : BitVec 16) (k : Bool) : Line := { num := 0x40000 / 128, way := 0, valid := v, dirty := d, pinned := false, locked := k, behind := [] }

theorem test_meets_HomeEvents : (port .load 0x40000).ok = true ∧ isSliced 0x40000 = true ∧ needsFill (slice [line 0xFFFF 0 false] []) (port .load 0x40000) = false ∧
    needsFill (slice [] []) (port .store 0x40000) = false ∧ inSomeVault (port .load (vaultHome 1023 0x1FFFF8)) = true ∧
    (port (.atom 0x19) 0x40000).ok = true ∧ (port (.cas 5) (vaultHome 0 0x100)).ok = true ∧ needsFill (slice [] []) (port .load 0x40000) = true ∧
    regionClass (stampCtx 105) 0x100 (vaultHome 0 0x100) = some 3 ∧
    (stampAt (stamped 105 0x0000643040800000) (stampCtx 105) 3 (vaultHome 0 0x100) 0 0x3F000000).toOption.isSome = true ∧
    (slice [line 0 0 true] [port .store 0x40000]).unit = (line 0 0 true).num ∧ (lineOf (slice [line 0xFFFF 1 true] []).lines (0x40000 / 128)).isSome = true ∧
    (coreOf { base with core := { base.core with watch := some ⟨0x40000 / 128, 0, false⟩, sched := { base.core.sched with asked := true, mwaited := 1 } } } 0).sched.asked = true ∧
    poisonIn base.poison 0x40000 8 = none ∧ 1152 ≤ (port .load 0x40000).src := by decide +kernel

/-- A bank with 32 requests waiting; an answer that core 0, running or halted, waits for. -/
theorem test_meets_HomeEvents_waits :
    ((List.replicate 32 (port .load 0x40000)).filter (fun q => homeSlice base q.addr == homeSlice base 0x40000 && bankOf base (q.addr / 128) == bankOf base (0x40000 / 128))).length = 32 ∧
    (coreOf base 0).num = 0 ∧ (coreOf base 0).ctx = 1 ∧ base.core.sched.returns = [] ∧ homeSlice base (0x40000 + 128) = homeSlice base 0x40000 := by decide +kernel

theorem quiet_slice : Quiet (slice [line 0xFFFF 0 false] []) := by
  refine ⟨⟨rfl, ?_, rfl, rfl, rfl, rfl, rfl, rfl⟩, by decide, by decide⟩
  intro l h
  have h : l ∈ [line 0xFFFF 0 false] := h
  rw [List.mem_singleton] at h
  rw [h]
  rfl

/-! ## Hypotheses of the statements about engines -/

/-- A command of core 0 and context 1; and engine 0 at work on it, with the page of p2 in its cluster's TLB. -/
def cmd (code len param : Nat) (w1 w2 w3 : Word) : Cmd :=
  { (default : Cmd) with ecw0 := BitVec.ofNat 64 (code + param * 2 ^ 16 + len * 2 ^ 32), ecw1 := w1, ecw2 := w2, ecw3 := w3, ctx := 1, key := 1, byPort := true }
def atWork (s : State) (c : Cmd) : State :=
  { s with engines := s.engines.set! 0 { (default : Engine) with running := [c] }, clusterTlb := [(0, page 0x200000000 0x40000)] }
def work (c : Cmd) : State := atWork base c

/-- One command of each kind is under way. -/
theorem test_meets_EngineMoves : (∀ c ∈ [cmd 1 200 0 0x200000000 0x140 0, { cmd 1 200 0 0x200000000 0x140 0 with resumed := true }, cmd 1 8 0 0 0x0100000000000000 0,
      cmd 2 16 0 0x200000000 0x140 (2 ^ 48 + 64 * 2 ^ 24 + 32), cmd 3 4294967288 0 7 0x140 0, cmd 4 128 1 0x200000000 0x2000 0x8002,
      cmd 5 4 0 0x200000000 0x2000 0, cmd 6 128 3 0x140 0x2000 0, cmd 7 128 1 0x140 0 0, cmd 8 64 1 0x200000000 0 0, cmd 9 64 1 0x140 0 0, cmd 11 0 0 0x140 0 0],
    OneCmd (work c) 0 c) ∧ (engineHome (work (cmd 1 200 0 0x200000000 0x140 0)) (cmd 1 200 0 0x200000000 0x140 0) 0x200000000 false).toOption =
      some (work (cmd 1 200 0 0x200000000 0x140 0), 0x40000) ∧
    (match engineHome (work (cmd 1 8 0 0 0x0100000000000000 0)) (cmd 1 8 0 0 0x0100000000000000 0) 0x0100000000000000 true with
      | .error e => e
      | .ok _ => (0, 0)) = (4, 2) ∧ (cmd 4 128 1 0x200000000 0x2000 0x8002).vaults = [1, 15] ∧ isHbm 0x40000 = true := by
  refine ⟨?_, by decide +kernel, by decide +kernel, by decide +kernel, by decide⟩
  unfold OneCmd
  decide +kernel

/-- A COPY of one piece into the own vault, whose destination a RECALL names. -/
theorem test_meets_EngineMoves_recall : let c := cmd 1 64 0 0x200000000 0x180 0
    OneCmd (work c) 0 c ∧ (engineHome (work c) c 0x180 true).toOption.map (·.2) = some (vaultHome 0 0x180) ∧ spaceOf (BitVec.ofNat 64 (c.a2 + c.done)) = .ownVault ∧
    c.len - c.done = min (c.len - c.done) (min (128 - 0x180 % 128) (4096 - 0x200000000 % 4096)) ∧ vaultHome 0 0x180 ≤ vaultHome 0 0x1BF ∧
    vaultHome 0 0x1BF < vaultHome 0 0x180 + 64 := by
  refine ⟨?_, by decide +kernel, by decide, by decide +kernel, by decide, by decide⟩
  unfold OneCmd
  decide +kernel

/-- A GATHERT with its pattern; a SWEEP over a stamped region; a layer's entry read by LAYERIN; and PTLOAD's words, good and of no rows. -/
def gather : State := { work (cmd 5 4 0 0x200000000 0x2000 0) with
  patterns := [{ unit := 0, entry := 0, rstride := 4, cstride := 16, rows := 1, cols := 1, esize := 2 }], bands := 1 }
def sweeping : State :=
  { work (cmd 8 64 1 0x200000000 0 0) with ctxs := [{ stampCtx (BitVec.ofNat 64 (2 ^ 20)) with regions := some [some ⟨0x200000000, 0x40, 3⟩] }],
                                           mem := writeNat [] 0x40000 8 0x0000643040800000 }
theorem test_meets_EngineMoves_more : patternOf gather 0x40000 (cmd 5 4 0 0x200000000 0x2000 0) = gather.patterns.head? ∧ bandLocal gather 0x40000 = true ∧
    (((sweeping.ctxs.head?.bind (·.regions)).getD []).getD 0 none).map (·.cls) = some 3 ∧
    storedFault (stampCtx 105).decay 3 (nowOf (BitVec.ofNat 64 (2 ^ 20))) 0x0000643040800000 = none ∧
    (nowOf (BitVec.ofNat 64 (2 ^ 20)) - baseOf (BitVec.ofNat 64 (2 ^ 20))).toNat < (nowOf (BitVec.ofNat 64 (2 ^ 20)) - stampOf 0x0000643040800000).toNat ∧
    readNat (withV base 0x148 8 (2 ^ 32 + 2 ^ 16)).mem (vaultHome 0 0x148) 8 / 2 ^ 32 = 1 ∧ readNat base.mem (vaultHome 0 0x148) 8 / 2 ^ 32 = 0 := by decide +kernel

/-- A word to sweep in a region and outside every one; a GATHERT element at an address that its size does not divide, or in another unit. -/
theorem test_meets_EngineMoves_places : ctxOf sweeping 1 = sweeping.ctxs.head? ∧ (sweeping.ctxs.head?.bind (fun x => regionClass x 0x200000000 0x40000)) = some 3 ∧
    (sweeping.ctxs.head?.bind (fun x => regionClass x 0x200000040 0x40040)) = none ∧ spaceOf (cmd 8 64 1 0x200000000 0 0).ecw1 ≠ .ownVault ∧
    (engineHome sweeping { cmd 8 64 1 0x200000000 0 0 with ctx := 1 } 0x200000000 true).toOption.map (·.2) = some 0x40000 ∧
    (0x200000002 : Nat) % 4 ≠ 0 ∧ homeSlice gather 0x40000 / 8 ≠ homeSlice gather (0x40000 + 2 ^ 30) / 8 ∧ storedFault (stampCtx 105).decay 3 (nowOf 105) 0x0000644040800000 ≠ none := by decide

/-- Commands at their ends: done, stopped, waiting at the port, with joins and barrier objects. -/
def finishedCmd (t : Word) (ck : Bool) : Cmd := { cmd (if ck then 0x4001 else 1) 64 0 0x100 0x140 0 with done := 64, target := t }
theorem test_meets_EngineEnds : Quiet { base with engines := Vector.replicate 32 default } ∧ (finishedCmd 0 false).total base ≤ (finishedCmd 0 false).done ∧
    (work (finishedCmd 0 false)).engines = (Vector.replicate 32 default).set! 0 { (default : Engine) with running := [finishedCmd 0 false] } ∧
    (engineHome (withV base 0x180 8 2) { finishedCmd 0x180 false with ecw0 := 1 } 0x180 true).toOption.map (·.2) = some (vaultHome 0 0x180) ∧
    isFar (vaultHome 0 0x180) = false ∧ (finishedCmd 0x180 false).ck = false ∧ (finishedCmd 0 false).byPort = true ∧
    (engineOf { base with engines := base.engines.set! 0 { (default : Engine) with queue := [finishedCmd 0 false] } } 0).running.length < 8 ∧
    (engineHome (work (finishedCmd 0 false)) (finishedCmd 0 false) 0x200000000 true).toOption.map (·.2) = some 0x40000 ∧
    readNat (work (finishedCmd 0 false)).mem (0x40000 + 0x38) 1 = 0 ∧ (work (finishedCmd 0 false)).unit < 32 := by
  refine ⟨quiet_of _ (by decide) rfl (by decide), by decide +kernel, by decide +kernel, by decide +kernel, by decide, by decide, rfl, by decide +kernel, by decide +kernel,
    by decide +kernel, by decide⟩

/-- A command of the engine's own that waits to start; a finished LAYERIN whose bytes were good, and poisoned. -/
theorem test_meets_EngineEnds_own : let c := { finishedCmd 0 false with byPort := false }
    let l := { cmd 7 128 1 0x200000000 0 0 with done := 128, byPort := false }
    let s : State := { base with engines := base.engines.set! 0 { (default : Engine) with own := [c] } }
    (engineOf s 0).own = [c] ∧ (engineOf s 0).queue = [] ∧ c.core = s.core.num ∧ standsHere base 1 0 = true ∧ (finishedCmd 0 false).acceptor % 2 ^ 32 = 0 ∧
    layerinErr (work l) { l with poison := true } = 4 ∧ layerinErr (work l) l = 0 ∧ l.entryWaits (work l) = false ∧ layerinErr base l = 2 := by decide +kernel

/-! ## Hypotheses of the statements about layers and paging -/

/-- A context of two layers, their entries at 0x40000, the first's source in LPDDR and 128 bytes for 0x300000000. -/
def layerCtx : Ctx :=
  { ctx with layerBase := 0x200000000, layerCount := 2, budget := 256, layerWait := 4,
             pages := [page 0x200000000 0x40000, { page 0x210000000 Config.tierBase with tier := 1 }] }
/-- Layer 0 with a flag word and waiters. -/
def layered (flag waiters : Nat) : State :=
  let h := 0x200000000
  let word := flag + (h + 0x10000000) * 2 ^ 64 + 0x300000000 * 2 ^ 128 + (128 * 2 ^ 32 + 0xFFFF * 2 ^ 16) * 2 ^ 192 + waiters <<< 320
  { base with ctxs := [layerCtx], mem := writeNat (writeNat [] 0x40000 64 word) Config.tierBase 128 0x99AABBCCDDEEFF, unit := 1, pool := 0x10000 }
def parkedLayer : Parked := { core := 0, layer := some 0, frame := .frame 0, pc := 0x200000000, slot := 0 }
def entry (flag : Nat) : Layer :=
  { home := 0x40000, flag := flag, srca := 0x210000000, dsta := 0x300000000, len := 128, next := 0xFFFF, srck := 0, zero := true }

theorem quiet_layered : Quiet (layered 2 0) ∧ Quiet (layered 0xFFFFFFFE00000002 0) := ⟨quiet_of _ rfl rfl (by decide), quiet_of _ rfl rfl (by decide)⟩
theorem test_meets_LayerResults : (∀ st ∈ [0, 1, 2, 3, 4], layerOf (layered st 0) layerCtx 0 = some (entry st)) ∧ layerCtx.num < 64 ∧
    layerOf (layered 0xFFFFFFFE00000002 0) layerCtx 0 = some (entry 0xFFFFFFFE00000002) ∧ ctxOf (layered 2 0) 1 = some layerCtx ∧
    (0 : Nat) < layerCtx.layerCount ∧ layerCtx.running = true ∧ layerCtx.queue = [] ∧ layerCtx.home = 0 ∧ layerCtx.layerCount ≤ (2 : BitVec 12).toNat ∧
    freeFrameOf (layered 0 0) 0 = some 0 ∧ layerCtx.demands = [] ∧ malformed layerCtx (entry 0) = false ∧ frameBytes (entry 0) ≤ (layered 0 0).pool ∧
    heldBytes (layered 0 0) layerCtx (fun _ => true) + 128 ≤ layerCtx.budget ∧ poolUsed (layered 0 0) (fun _ => true) + frameBytes (entry 0) ≤ (layered 0 0).pool ∧
    (poolFrames (layered 0 0) (entry 0)).map List.length = some 1 ∧ ({ layerCtx with budget := 127 } : Ctx).budget < (entry 0).len ∧
    (∀ o ∈ layersOf (layered 0 0) layerCtx, o.1 ≠ 0 → held o.2 = true → spansMeet (entry 0) o.2 = false) ∧
    layerCtx.layerWait * cycleLength (layered 0 0) ((partCores layerCtx).headD 0) < 10 - 0 ∧ parkedLayer.layer = some 0 ∧ atLevel (coreOf (layered 1 1) 0).sched.queue 1 < 32 ∧
    1 ≤ readNat (layered 1 1).mem (0x40000 + 0x28) 4 := by decide +kernel

/-- LWAIT of layer 0 stands at PC, its line in the instruction cache: the fetch changes only what the TLB keeps of its use. -/
def cached : State := { layered 2 0 with core := { (layered 2 0).core with icache := [(0x40000 / 128, 0x3A)] } }
theorem test_meets_LayerResults_at_home : decode 0x3A = .ok (.lwait 0 0) ∧ cached.core.num < 1152 ∧ cached.core.sched.running = true ∧ cached.core.sched.halted = false ∧
    (match fetchWord cached cached.core.regs.pc with
      | .ok (u, w) => decide (w = 0x3A ∧ u = { cached with clusterUse := u.clusterUse, core := { cached.core with tlb := u.core.tlb, tlbWays := u.core.tlbWays, tlbTree := u.core.tlbTree } })
      | .error _ => false) = true ∧ freeFrameOf cached 0 = some 0 := ⟨rfl, by decide, rfl, rfl, by decide +kernel, by decide⟩

/-- A fill of core 0 that waits, with the page mapped, in a layer that is away, or asked of the host; and migrations of a page. -/
def fill : Fill := { core := 0, va := 0x200000000, write := false, fetch := false, cow := false, frame := .frame 0, status := none, told := false, host := false, since := 0, cmd := none }
def filling (f : Fill) (ps gs : List Page) : State := { base with ctxs := [{ ctx with fills := [f], pages := ps, hostGaps := gs }] }
def hostPage : Page := { page 0x200000000 Config.hostBase with tier := 2 }

theorem quiet_filling (f : Fill) (ps gs : List Page) : Quiet (filling f ps gs) :=
  quiet_of _ rfl rfl (by show Memory.wf base.mem = true; decide) rfl rfl rfl (by show storesOut base < 255; decide)
theorem test_meets_PagingResults : (page 0x200000000 0x40000).accepted = true ∧ (page 0x200000000 0x40000).has 1 0x200000000 = true ∧
    (0 : Nat) - 0 < ctx.fillLimit * cycleLength (filling fill [] []) 0 ∧ fill.cmd = none ∧ fill.told = false ∧ ({ fill with frame := .none } : Fill).frame = .none ∧
    (∀ b ∈ [0, 1, 4, 5], featureOn (allOn base) b = true ∧ featureOn base b = false) ∧ issuedThrough base (fun _ => true) 0x40000 (pageBytes 1) = false ∧ linesOwed base (63 * 2 ^ 33) (2 ^ 33) = false ∧
    linesOwed base 0x40000 (pageBytes 1) = false ∧ keptByLayer base ctx (page 0x200000000 0x40000) = false ∧
    (coreOf (filling fill [] []) 0).sched.ring = [] ∧ atLevel (coreOf (filling fill [] []) 0).sched.queue 0 < 32 ∧
    inAbsentLayer (filling fill [] []) ctx 0x200000000 = false ∧ inAbsentLayer (layered 0 0) layerCtx 0x300000000 = true ∧ hostPage.has 1 0x20000FFFF = true ∧
    hostPage.accepted = true ∧ mayMigrate (allOn (filling fill [page 0x200000000 0x40000] [])) { ctx with pages := [page 0x200000000 0x40000] } (page 0x200000000 0x40000) Config.tierBase = true ∧
    (page 0x200000000 0x40000).pa % 2 ^ 12 = 0 ∧ pageBytes 1 = 0x10000 ∧ (filling fill [] []).bands.getLsbD 63 ≠ true ∧ fill.frame ≠ .none ∧
    ({ ctx with fillLimit := 1 } : Ctx).fillLimit * cycleLength (filling fill [] []) 0 ≤ 2 - 0 := by decide +kernel

/-! ## Hypotheses of the statements about steps, contexts, power, the host and the owner -/

/-- Context 1 with a change, at its unit. -/
def ctxTurn (f : Ctx → Ctx) : State := { base with ctxs := [f ctx], unit := 1 }
def ruleLoad (ws : List Word) : Load := { kind := 0x208, core := 0, owner := base.core.port.owner, addr := 0x200000000, words := ws }
def zeros : List Word := List.replicate 512 0

theorem test_meets_DeviceSteps : ctxOf (ctxTurn id) (ctxTurn id).unit = some ctx ∧ ctx.num = 1 ∧ (coreOf (ctxTurn id) 0).ctx = 1 ∧
    ({ ctx with stepReq := [0], sweeps := 1, gstep := BitVec.ofNat 64 (2 ^ 22) } : Ctx).sweepStart.toNat + 2 ^ 22 ≤ (BitVec.ofNat 64 (2 ^ 22 - 1)).toNat + 1 ∧
    (5 : Word).toNat / 2 ^ 20 = (BitVec.ofNat 64 (2 ^ 20 - 1)).toNat / 2 ^ 20 ∧ (BitVec.ofNat 64 (2 ^ 20 - 1)).toNat / 2 ^ 20 ≠ (BitVec.ofNat 64 (2 ^ 20)).toNat / 2 ^ 20 ∧
    (ruleLoad zeros).words.length = 512 ∧ ruleOk (zeros.take 8) = true ∧ ruleOk (List.replicate 8 (1 : Word)) = false ∧
    (coreOf base 0).sluice.shadow = none ∧ (coreOf base 0).sched.halted = false ∧ (coreOf base 0).mx.doneAt ≤ base.clock ∧ base.core.port.owner = (ruleLoad zeros).owner := by decide +kernel

/-- Tables of decay records and of regions whose entries are good, and whose first or second is not. -/
theorem test_meets_DeviceSteps_tables : decayOk (zeros.take 16) = true ∧ decayOk (List.replicate 16 (1 : Word)) = false ∧
    (∀ i < 15, ((zeros.take 240).drop (16 * i)).take 16 = zeros.take 16) ∧ (zeros.take 240).length = 240 ∧ (zeros.take 128).length = 128 ∧
    regionFails ctx (List.replicate 64 [0, 0]) = none ∧ regionFails ctx ([[0, 0], [1, 0]] ++ List.replicate 62 [0, 0]) = some 1 ∧ standsHere (ctxTurn id) 1 0 = true := by decide +kernel

/-- A group at work in the sluice. -/
theorem test_meets_DeviceSteps_group : let s := { base with core := { base.core with sluice := { base.core.sluice with shadow := some ⟨base.core.mx, 0, 3, 2, 4⟩ } } }
    ∃ sh, (coreOf s s.unit).sluice.shadow = some sh ∧ (coreOf s s.unit).mx.doneAt ≤ s.clock ∧ sh.n ≠ 0 := ⟨_, rfl, by decide⟩

/-- Context 2, of higher priority, that waits for context 1's clusters. -/
def rival : Ctx := { ctx with num := 2, priority := 1, grant := 0, part := 0, wants := 3, running := false }
def spec (n : Nat) : CtxSpec := { (default : CtxSpec) with num := n, grant := 4, queueCap := 16, vf := 63 }
def owned (s : State) : State := { s with out := { s.out with owner := some 7, accept := some (-1) } }
def halted (s : State) : State :=
  let h := fun (c : Core) => { c with ctx := 1, sched := { c.sched with halted := true } }
  { s with core := h s.core, others := (List.range 15).map (fun i => (i + 1, h (Core.reset (i + 1)))) }

theorem test_meets_ContextResults : (ctxTurn id).ctxs.head?.map (·.running) = some true ∧ inPart ctx 0 = true ∧ (coreOf (ctxTurn id) 0).sched.ring = [] ∧
    (ctxTurn id).clusterQ = [] ∧ (∀ g ∈ partCores ctx, (coreOf (halted (ctxTurn id)) g).sched.halted = true) ∧ ctx.part ≠ 0 ∧ (ctxTurn id).rankNet = [] ∧
    ctx.part &&& rival.wants ≠ 0 ∧ ctx.priority < rival.priority ∧ ctx.waited + 2 ^ 20 * 21 ≤ 22020096 ∧ vaultsBusy (ctxTurn id) ctx = false ∧
    allCmds (ctxTurn id) = [] ∧ (ctxTurn id).out.fenced = 0 ∧ rival.part = 0 ∧ rival.wants ≠ 0 ∧ rival.home = 0 ∧ mayCreate (owned (ctxTurn id)) (spec 63) = true ∧
    (coreOf (ctxTurn id) 0).mx.run = none ∧ (coreOf (ctxTurn id) 0).mx.faults = [] ∧ (coreOf (ctxTurn id) 0).sched.wdCount < watchdogLimit (coreOf (ctxTurn id) 0) ∧
    mayCreate (owned (ctxTurn id)) (spec 64) = false ∧ (ctxTurn id).out.owner = none ∧ (owned (ctxTurn id)).out.owner ≠ none := by decide +kernel

/-- What a halt, a save, a resumption and a hand-over still ask of the device: nothing is due at core 0, nothing is awaited, nothing is hot. -/
theorem test_meets_ContextResults_more : ctx.num < 64 ∧ (coreOf (ctxTurn id) 0).sched.stepped = none ∧ stalledFill ctx 0 = none ∧
    (∀ g ∈ partCores ctx, saveWaits (halted (ctxTurn id)) 1 (coreOf (halted (ctxTurn id)) g) = false) ∧ (ctxTurn id).out.hot = 0 ∧ rival.home = 0 ∧ rival.part = 0 ∧
    (∀ y ∈ [{ ctx with part := 0 }], y.part &&& rival.wants = 0) ∧ rival.wants &&& ctx.part ≠ 0 ∧ ctxOf { ctxTurn id with ctxs := [ctx, rival] } rival.num = some rival ∧
    rival.num ≠ ctx.num := by decide

/-- No core's engine is at work. -/
theorem test_meets_ContextResults_engines : ∀ g, (coreOf base g).mx.run = none := by
  intro g
  unfold coreOf
  split
  · rfl
  · rfl

theorem test_meets_PowerAndOwner : (owned base).out.owner ≠ none ∧ ((owned base).out.accept.getD 0).getLsbD 5 = true ∧ (owned base).out.fenced = 0 ∧
    ctx.part &&& quadrantMask 15 = 0 ∧ ctx.part &&& quadrantMask 0 ≠ 0 ∧ (engineOf base 31).running = [] ∧ (engineOf base 31).held = [] ∧
    base.out.hostUp.getLsbD 1 = true ∧ base.out.fwGood = true ∧ base.out.owner = none ∧ 0 + 2100000000 ≤ 2100000000 ∧ (2099999999 : Nat) < 0 + 2100000000 ∧
    (0 : BitVec 128) &&& ~~~base.out.feat = 0 ∧ (-1 : BitVec 128) &&& ~~~base.out.feat ≠ 0 ∧ State.reset.ctxs = [] := by decide +kernel

/-- Owner 7 and another master ask; a quadrant, a junction and a stack that are hot. -/
theorem test_meets_PowerAndOwner_requests : ownerOnly (.acceptWrite 0) = true ∧ (owned base).out.owner = some 7 ∧ (owned base).out.owner ≠ some 8 ∧ (owned base).out.fwGood = true ∧
    (exec (.acceptWrite 0) { owned base with turns := [], unit := 0 } = .next { owned base with turns := [], unit := 0, out := { (owned base).out with accept := some 0 } }) ∧
    (0 : Nat) < 16 ∧ (105 : Nat) ≤ 105 ∧ ¬ (104 : Nat) ≥ 105 ∧ base.out.hot = 0 ∧ (base.out.clockStep.getD 15 (0, 0)).1 = 0 := by
  refine ⟨rfl, rfl, by decide, rfl, by rfl, by decide, by decide, by decide, rfl, by decide⟩

/-- A peer that may reach the last byte of a range, and the driver's rings. -/
def peerState : State := { owned base with out := { (owned base).out with opened := [(7, 0x40000, 8)] } }
def hostFn : HostFn := { newFn { (default : CtxSpec) with num := 1 } with lqBase := 0, lqSize := 2, miBase := 0x1000, miSize := 2, mqSize := 2 }
def hostState : State :=
  let s := { base with out := { base.out with fns := [hostFn] }, ctxs := [{ ctx with pages := [page 0x200000000 0x40000] }] }
  { s with mem := writeNat (writeNat s.mem (hostRingHome s 0 0 0) 64 launchBytes) (hostRingHome s 0 0x1000 0) 64 (0x200000000 + (15 * 2 ^ 32 + 48) * 2 ^ 64 + 5 * 2 ^ 128) }

theorem test_meets_HostResults : peerMay peerState 7 0x40007 = true ∧ peerMay peerState 7 0x40008 = false ∧ (port .load 0x40000).ok = true ∧
    needsFill peerState (port .store 0x40000) = false ∧ (coreOf { base with core := { base.core with sched := { base.core.sched with asked := true, askHome := some Config.hostBase } } } 0).awaits
      { core := 0, ctx := 1, owner := base.core.port.owner, value := none, refused := false, bad := false } = true ∧ base.out.heldIn = [] ∧
    inLayerAt hostState ctx hostFn.aperture (fun st => st == 4) = false ∧ base.out.peerUp.getLsbD 7 = true ∧
    fnOf hostState 1 = some hostFn ∧ hostFn.aperture % 8 = 0 ∧ (page 0x200000000 0x40000).accepted = true ∧ (page 0x200000000 0x40000).has 1 hostFn.aperture = true ∧
    fnOf base 1 = none ∧ ringWords hostState hostFn 0 0 = launchWords ∧ lrecReason hostState ctx launchWords (lrecOf launchWords) [] = none ∧
    miOk ctx (ringWords hostState hostFn 0x1000 0) = true ∧ ({ hostFn with mqWaits := [[1]] } : HostFn).mqWaits = [[1]] ∧ (hostFn.mqHead + 1) % hostFn.mqSize ≠ hostFn.mqTail ∧
    farFault hostState (hostRingHome hostState hostFn.link hostFn.mqBase hostFn.mqHead) = none ∧ hostFn.lqHead = hostFn.lqTail ∧ (freeMsgFrame (coreOf hostState 15)).isSome = true ∧ (1 : Nat) < hostFn.lqSize ∧ hostFn.lqHead ≠ 1 ∧
    hostFn.miSize ≤ 2 ∧ needsFill { hostState with lines := [line 0xFFFF 0 false] } (port .load 0x40000) = false := by decide +kernel

/-! ## Rings and trees (02 R37, R41-R50) -/

/-- 02 R46: core 5 to slice 16 by turnout H, one stop clockwise and then three the other way. -/
theorem test_route_core5_slice16 :
    route 0 (coreStop 5) 4 (sliceStop 16) = [⟨0, false, .cluster 0, .turnout .h⟩, ⟨4, true, .turnout .h, .slice 0⟩] ∧
    goesClockwise false (.cluster 0) (.turnout .h) = true ∧ ringHops false (.cluster 0) (.turnout .h) = 1 ∧
    goesClockwise true (.turnout .h) (.slice 0) = false ∧ ringHops true (.turnout .h) (.slice 0) = 3 := by decide
/-- 02 R46: quadrant 1 to quadrant 14 goes through E to 2, H to 6, V to 14. -/
theorem test_route_1_14 : exits 1 14 = [.e, .h, .v] ∧ quadrants 1 (exits 1 14) = [1, 2, 6, 14] := by decide
/-- 02 R45, R46: every quadrant is reached from every other. -/
theorem test_routes_arrive : ∀ q < 16, ∀ r < 16, (quadrants q (exits q r)).getLast? = some r := by decide
/-- A packet for vaults at a stop of quadrant 0. -/
def fanAt (x : RingStop) (w : Option Bool) (vs : List Nat) : Packet :=
  { packet1 false with place := x, way := w, parts := vs.map (fun g => { delivery none with vault := g, data := [] }) }
/-- 02, after R52: slice 1's lines leave by turnout W and travel clockwise, cluster 1's stop before cluster 0's. -/
theorem test_fork_order : let all := [8, 9, 10, 11, 12, 0, 1, 2, 3, 4, 5]
    let ways := fun (p : Packet) => (forkBranches p).map (fun b => (b.1, b.2.map (·.vault)))
    ways (fanAt (sliceStop 1) none all) = [(.hop 0 (.turnout .w) none, all)] ∧ ways (fanAt (.turnout .w) none all) = [(.hop 0 (.cluster 1) (some true), all)] ∧
    ways (fanAt (.cluster 1) (some true) all) = [(.here, [8, 9, 10, 11, 12]), (.hop 0 (.cluster 0) (some true), [0, 1, 2, 3, 4, 5])] := by decide +kernel
/-- 02 R37: a way just used goes last of all, one left in the least-recently-used position goes next. -/
theorem test_tree : victimWay 4 (fun _ => true) (treeTouch 4 false 0 0) = some 8 ∧ victimWay 4 (fun _ => true) (treeTouch 4 true 0 13) = some 13 ∧
    victimWay 4 (fun w => w == 5) 0 = some 5 ∧ victimWay 4 (fun _ => false) 0 = none := by decide

/-- The longest evaluation stands last. -/
theorem test_meets_RuleLoad_image : ∃ r, readImage base 0x200000000 512 = .ok r := exists_ok (by decide +kernel)

end Sys2Proof.Tests
end

section
/-! SUPPORT. Memory as a function of its addresses: a memory in canonical form is known by its bytes, a number written reads back, and a copy carries
the source's bytes over (00 R7, 01 R25). -/

namespace Sys2Proof.Machine

/-! ## Memories in canonical form are known by their bytes -/

/-- A cell that memory lists is what its address reads as. -/
theorem readByte_of_mem {m : Memory} {c : Host.Cell} (h : Memory.wf m = true) (hc : c ∈ m) : readByte m c.1 = c.2 := by
  obtain ⟨hrise, -⟩ := (wf_iff m).mp h
  clear h
  induction m with
  | nil => simp at hc
  | cons d r ih =>
    obtain ⟨hfirst, hrest⟩ := List.pairwise_cons.mp hrise
    rcases List.mem_cons.mp hc with rfl | hc
    · simp [readByte]
    · have hlt := hfirst c hc
      have hskip : readByte (d :: r) c.1 = readByte r c.1 := readByte_append [d] r c.1 (by simp; omega)
      rw [hskip, ih hc hrest]

/-- An address that does not read as blank is listed, with the byte it reads as. -/
theorem mem_of_readByte {m : Memory} {a : Nat} (h : readByte m a ≠ blankByte) : (a, readByte m a) ∈ m := by
  unfold readByte at h ⊢
  split at h
  next c hfind =>
    have hkey : c.1 = a := by simpa using List.find?_some hfind
    simpa [hfind, ← hkey] using List.mem_of_find?_eq_some hfind
  next => exact absurd rfl h

/-- What canonical memory lists: the addresses that do not read as blank, each with its byte. -/
theorem mem_iff_readByte {m : Memory} (h : Memory.wf m = true) (c : Host.Cell) :
    c ∈ m ↔ readByte m c.1 = c.2 ∧ c.2 ≠ blankByte := by
  constructor
  · exact fun hc => ⟨readByte_of_mem h hc, ((wf_iff m).mp h).2 c hc⟩
  · rintro ⟨hread, hblank⟩
    have hmem := mem_of_readByte (m := m) (a := c.1) (by rwa [hread])
    rwa [hread] at hmem

theorem wf_nodup {m : Memory} (h : Memory.wf m = true) : m.Nodup :=
  ((wf_iff m).mp h).1.imp (fun hlt heq => by rw [heq] at hlt; exact Nat.lt_irrefl _ hlt)

/-- Two canonical memories that read the same are the same list: both list the same cells in rising order. -/
theorem eq_of_readByte_eq {m k : Memory} (hm : Memory.wf m = true) (hk : Memory.wf k = true)
    (h : ∀ a, readByte m a = readByte k a) : m = k := by
  have hcells : ∀ c, c ∈ m ↔ c ∈ k := fun c => by rw [mem_iff_readByte hm, mem_iff_readByte hk, h]
  have hperm : m.Perm k := (List.perm_ext_iff_of_nodup (wf_nodup hm) (wf_nodup hk)).mpr hcells
  exact List.Perm.eq_of_pairwise (fun _ _ _ _ hab hba => absurd hab (Nat.lt_asymm hba))
    ((wf_iff m).mp hm).1 ((wf_iff k).mp hk).1 hperm

/-! ## A number written reads back -/

/-- The cells of a span that has just been written are the written ones. -/
theorem filter_inSpan_putSpan {m : Memory} {a n : Nat} {cs : List Host.Cell} (hb : ∀ c ∈ cs, a ≤ c.1 ∧ c.1 < a + n) :
    (putSpan m a n cs).filter (inSpan a n) = cs := by
  have hbelow : (m.filter (fun c => c.1 < a)).filter (inSpan a n) = [] := by simp [inSpan]; omega
  have habove : (m.filter (fun c => a + n ≤ c.1)).filter (inSpan a n) = [] := by simp [inSpan]
  have hin : cs.filter (inSpan a n) = cs := List.filter_eq_self.mpr (fun c hc => by simpa [inSpan] using hb c hc)
  simp only [putSpan, List.filter_append, hbelow, habove, hin, List.nil_append, List.append_nil]

/-- The cells of a number's low n bytes have its value, shifted by how far above the span's start they lie. -/
theorem spanNat_cellsOf (a n : Nat) : ∀ (d v : Nat), spanNat a (cellsOf (a + d) v n) = v % 2 ^ (8 * n) * 2 ^ (8 * d) := by
  induction n with
  | zero => simp [cellsOf, spanNat, Nat.mod_one]
  | succ n ih =>
    intro d v
    have htail : spanNat a (cellsOf (a + d + 1) (v >>> 8) n) = v / 256 % 2 ^ (8 * n) * (256 * 2 ^ (8 * d)) := by
      rw [Nat.add_assoc, ih, Nat.shiftRight_eq_div_pow, show 8 * (d + 1) = 8 + 8 * d by omega, Nat.pow_add]
    have hvalue : v % 2 ^ (8 * (n + 1)) = v % 256 + 256 * (v / 256 % 2 ^ (8 * n)) := by
      rw [show 8 * (n + 1) = 8 + 8 * n by omega, Nat.pow_add]
      exact Nat.mod_mul
    have hsum : spanNat a (cellsOf (a + d) v (n + 1)) = v % 256 * 2 ^ (8 * d) + spanNat a (cellsOf (a + d + 1) (v >>> 8) n) := by
      simp only [cellsOf]
      split
      next hblank =>
        have hzero : v % 256 = 0 := by simpa [blankByte] using congrArg BitVec.toNat hblank
        simp [hzero]
      next => simp [spanNat, Nat.shiftLeft_eq]
    rw [hsum, htail, hvalue, Nat.add_mul, Nat.mul_comm 256 (v / 256 % 2 ^ (8 * n)), Nat.mul_assoc _ 256]

/-- Read after write, little-endian: a span that has just been written reads as the low bytes of the number (00 R7). -/
theorem readNat_writeNat_same (m : Memory) (a n v : Nat) : readNat (writeNat m a n v) a n = v % 2 ^ (8 * n) := by
  rw [readNat, writeNat, filter_inSpan_putSpan (cellsOf_bounds n a v)]
  simpa using spanNat_cellsOf a n 0 v

/-! ## A copy carries the source's bytes over -/

/-- The cells that a copy writes: the source's, moved to the destination. -/
def movedCells (m : Memory) (src dst n : Nat) : List Host.Cell :=
  (m.filter (inSpan src n)).map (fun c => (c.1 - src + dst, c.2))

theorem copySpan_eq (m : Memory) (src dst n : Nat) : copySpan m src dst n = putSpan m dst n (movedCells m src dst n) := rfl

theorem movedCells_bounds (m : Memory) (src dst n : Nat) : ∀ c ∈ movedCells m src dst n, dst ≤ c.1 ∧ c.1 < dst + n := by
  intro c hc
  obtain ⟨e, he, rfl⟩ := List.mem_map.mp hc
  have hspan : src ≤ e.1 ∧ e.1 < src + n := by simpa [inSpan] using (List.mem_filter.mp he).2
  dsimp only
  omega

/-- The moved cells read at the destination as memory reads at the source. -/
theorem readByte_movedCells (m : Memory) (src dst n i : Nat) (hi : i < n) :
    readByte (movedCells m src dst n) (dst + i) = readByte m (src + i) := by
  have hfind : (movedCells m src dst n).find? (fun c => c.1 == dst + i) =
      (m.find? (fun c => c.1 == src + i)).map (fun c => (c.1 - src + dst, c.2)) := by
    rw [movedCells, List.find?_map, List.find?_filter]
    congr 2
    funext c
    rw [Bool.eq_iff_iff]
    simp only [inSpan, Function.comp_apply, Bool.and_eq_true, decide_eq_true_eq, beq_iff_eq]
    omega
  rw [readByte, readByte, hfind]
  cases m.find? (fun c => c.1 == src + i) <;> rfl

theorem readByte_copySpan_inside (m : Memory) (src dst n i : Nat) (hi : i < n) :
    readByte (copySpan m src dst n) (dst + i) = readByte m (src + i) := by
  rw [copySpan_eq, readByte_putSpan_inside ⟨by omega, by omega⟩, readByte_movedCells m src dst n i hi]

theorem readByte_copySpan_outside (m : Memory) (src dst n b : Nat) (h : b < dst ∨ dst + n ≤ b) :
    readByte (copySpan m src dst n) b = readByte m b :=
  readByte_putSpan_outside (movedCells_bounds m src dst n) h

/-! ## Memory's form and laws -/

/-- Settles O36: two canonical memories that read alike list the same cells; the operations keep the form; and a span written, or copied to, reads as
what was put there, every other byte as before. -/
theorem memoryFormAndLaws : Obligations.MemoryFormAndLaws := by
  unfold Obligations.MemoryFormAndLaws
  refine ⟨⟨?ext, ?keep, wf_flipBytes⟩, fun m a n v => ⟨readNat_writeNat_same m a n v, ?inside, ?outside, ?copy⟩⟩
  case ext => exact fun m k hm hk h => eq_of_readByte_eq hm hk h
  case keep => exact fun m a b n v h => ⟨wf_writeNat a n v h, wf_copySpan a b n h⟩
  case inside => exact fun i hi => by rw [readByte_writeNat_inside m a n v i hi, Nat.shiftRight_eq_div_pow]
  case outside => exact fun b hb => readByte_writeNat_outside m a n v b (by omega)
  case copy =>
    exact fun d _ => ⟨fun i hi => readByte_copySpan_inside m a d n i hi, fun b hb => readByte_copySpan_outside m a d n b (by omega)⟩

end Sys2Proof.Machine
end

section
/-! SUPPORT. Requests that ports send to the homes: what is written in a part of a span, cores and lines set and found again, a request performed and
answered, held back or given a fill, and the responses and watches that reach a core (02 R33-R40, 01 R21, 03 R53, R62). -/

namespace Sys2Proof.Machine

open Sys2Proof.Says

/-! ## A part of a span that has been written -/

/-- The cells of a number's low bytes, then those of the bytes above them. -/
theorem cellsOf_add (j k : Nat) : ∀ (a v : Nat), cellsOf a v (j + k) = cellsOf a v j ++ cellsOf (a + j) (v >>> (8 * j)) k := by
  induction j with
  | zero => simp [cellsOf]
  | succ j ih =>
    intro a v
    have hrest : cellsOf (a + 1) (v >>> 8) (j + k) = cellsOf (a + 1) (v >>> 8) j ++ cellsOf (a + (j + 1)) (v >>> (8 * (j + 1))) k := by
      rw [ih, ← Nat.shiftRight_add, show a + 1 + j = a + (j + 1) by omega, show 8 + 8 * j = 8 * (j + 1) by omega]
    rw [show j + 1 + k = j + k + 1 by omega]
    simp only [cellsOf, hrest]
    split <;> rfl

/-- Cells that all lie outside a span leave nothing in it. -/
theorem filter_inSpan_outside {a n b k : Nat} {cs : List Host.Cell} (hb : ∀ c ∈ cs, b ≤ c.1 ∧ c.1 < b + k) (h : b + k ≤ a ∨ a + n ≤ b) :
    cs.filter (inSpan a n) = [] := by
  refine List.filter_eq_nil_iff.mpr (fun c hc => ?_)
  have hin := hb c hc
  simp only [inSpan, Bool.and_eq_true, decide_eq_true_eq]
  omega

/-- n bytes from the d-th of a span that has been written read as the number's bytes there (00 R7). -/
theorem readNat_writeNat_part (m : Memory) (a v d n k : Nat) :
    readNat (writeNat m a (d + (n + k)) v) (a + d) n = v >>> (8 * d) % 2 ^ (8 * n) := by
  have hcells : (cellsOf a v (d + (n + k))).filter (inSpan (a + d) n) = cellsOf (a + d) (v >>> (8 * d)) n := by
    rw [cellsOf_add, cellsOf_add n k, List.filter_append, List.filter_append,
      filter_inSpan_outside (cellsOf_bounds d a v) (by omega), filter_inSpan_outside (cellsOf_bounds k _ _) (by omega),
      List.filter_eq_self.mpr (fun c hc => by simpa [inSpan] using cellsOf_bounds n _ _ c hc)]
    simp
  have hbelow : (m.filter (fun c => c.1 < a)).filter (inSpan (a + d) n) = [] := by simp [inSpan]; omega
  have habove : (m.filter (fun c => a + (d + (n + k)) ≤ c.1)).filter (inSpan (a + d) n) = [] := by simp [inSpan]; omega
  rw [readNat, writeNat, putSpan, List.filter_append, List.filter_append, hbelow, habove, hcells]
  simpa using spanNat_cellsOf (a + d) n 0 (v >>> (8 * d))

/-! ## Cores set and found again -/

theorem otherCore_putOther (g : Nat) (c : Core) (l : List (Nat × Core)) : otherCore (putOther g c l) g = c := by
  induction l with
  | nil => simp [putOther, otherCore]
  | cons e r ih =>
    simp only [putOther]
    split
    · simp [otherCore]
    · split
      · simp [otherCore]
      · have hne : e.1 ≠ g := by omega
        simp [otherCore, hne, ih]

/-- A core that has been changed is what the change made of it, as long as it keeps its number. -/
theorem coreOf_updCore (s : State) (g : Nat) (f : Core → Core) (hnum : (f (coreOf s g)).num = (coreOf s g).num) :
    coreOf (updCore s g f) g = f (coreOf s g) := by
  unfold updCore setCore
  split
  next hcur =>
    rw [show coreOf s g = s.core by simp [coreOf, hcur]] at hnum ⊢
    exact if_pos (hnum.trans hcur)
  next hcur => exact (if_neg hcur).trans (otherCore_putOther _ _ _)

@[simp] theorem updCore_responses (s : State) (g : Nat) (f : Core → Core) : (updCore s g f).responses = s.responses := by
  unfold updCore setCore; split <;> rfl

@[simp] theorem core_watchWrite_num (a n : Nat) (c : Core) : (c.watchWrite a n).num = c.num := by rw [watchWrite_core]
@[simp] theorem core_watchWrite_sched (a n : Nat) (c : Core) : (c.watchWrite a n).sched = c.sched := by rw [watchWrite_core]
@[simp] theorem core_watchWrite_regs (a n : Nat) (c : Core) : (c.watchWrite a n).regs = c.regs := by rw [watchWrite_core]

theorem otherCore_watchWrite_sched (a n g : Nat) (l : List (Nat × Core)) :
    (otherCore (l.map (fun e => (e.1, e.2.watchWrite a n))) g).sched = (otherCore l g).sched := by
  induction l with
  | nil => rfl
  | cons e r ih =>
    simp only [List.map_cons, otherCore]
    split
    · exact core_watchWrite_sched _ _ _
    · exact ih

/-- A write at a home changes no core's scheduling. -/
theorem coreOf_homeWrite_sched (s : State) (a n v g : Nat) : (coreOf (homeWrite s a n v) g).sched = (coreOf s g).sched := by
  unfold homeWrite watchWrite
  split
  · rfl
  · simp only [coreOf, core_watchWrite_num]
    split
    · exact core_watchWrite_sched _ _ _
    · exact otherCore_watchWrite_sched _ _ _ _

/-! ## Lines set and found again -/

theorem lineOf_putLine_of_num {l : Line} {n : Nat} (hnum : l.num = n) (ls : List Line) : lineOf (putLine l ls) n = some l := by
  subst hnum
  induction ls with
  | nil => simp [lineOf, putLine]
  | cons x r ih =>
    simp only [putLine]
    split
    · simp [lineOf]
    · split
      · simp [lineOf]
      · have hne : x.num ≠ l.num := by omega
        simpa [lineOf, List.find?_cons, hne] using ih

theorem num_of_lineOf {ls : List Line} {n : Nat} {l : Line} (h : lineOf ls n = some l) : l.num = n := by
  simpa using List.find?_some h
theorem mem_of_lineOf {ls : List Line} {n : Nat} {l : Line} (h : lineOf ls n = some l) : l ∈ ls := List.mem_of_find?_eq_some h
theorem num_ne_of_lineOf_none {ls : List Line} {n : Nat} (h : lineOf ls n = none) : ∀ l ∈ ls, l.num ≠ n := fun l hl => by
  simpa using List.find?_eq_none.mp h l hl

@[simp] theorem lineAt_num (s : State) (n w : Nat) : (lineAt s n w).num = n := by
  unfold lineAt
  cases h : lineOf s.lines n with
  | none => rfl
  | some l => exact num_of_lineOf h

theorem wayFor_of_present {s : State} {n : Nat} {l : Line} (h : lineOf s.lines n = some l) : wayFor s n = some l.way := by simp [wayFor, h]
theorem lineAt_of_present {s : State} {n : Nat} {l : Line} (h : lineOf s.lines n = some l) (w : Nat) : lineAt s n w = l := by simp [lineAt, h]

/-- A request that waits for a line takes no way from it: it locks only that line itself (02 R33, R37). -/
theorem wayFor_awaited (s : State) (q : Req) : wayFor { s with waiting := s.waiting ++ [q] } (q.addr / 128) = wayFor s (q.addr / 128) := by
  cases hline : lineOf s.lines (q.addr / 128) with
  | some l => rw [wayFor_of_present hline]; exact wayFor_of_present hline
  | none =>
    have hlock : ∀ l ∈ setLines s (q.addr / 128), holdsLock { s with waiting := s.waiting ++ [q] } l = holdsLock s l := by
      intro l hl
      have hne : (q.addr / 128 == l.num) = false := beq_false_of_ne (num_ne_of_lineOf_none hline l (List.mem_filter.mp hl).1).symm
      simp [holdsLock, hne]
    have hset : setLines { s with waiting := s.waiting ++ [q] } (q.addr / 128) = setLines s (q.addr / 128) := rfl
    have hbusy : ∀ w, (setLines s (q.addr / 128)).any (fun l => l.way == w && (l.pinned || holdsLock { s with waiting := s.waiting ++ [q] } l)) =
        (setLines s (q.addr / 128)).any (fun l => l.way == w && (l.pinned || holdsLock s l)) := fun w => by
      rw [Bool.eq_iff_iff, List.any_eq_true, List.any_eq_true]
      exact exists_congr fun l => and_congr_right fun hl => by rw [hlock l hl]
    simp only [wayFor, hline, hset, hbusy]
    rfl

/-- In a calm state no way is locked. -/
theorem setBusy_calm {s : State} (hc : Calm s) (n : Nat) : setBusy s n = false := by
  have hany : (setLines s n).any (holdsLock s) = false := List.any_eq_false.mpr (fun l hl => by
    simp [holdsLock, hc.waiting, hc.lines l (List.mem_filter.mp hl).1])
  simp [setBusy, hany]

/-! ## What a home's part in a request leaves -/

/-- The queues of requests and responses, and the current core's registers, are as before. -/
structure QueuesKept (s t : State) : Prop where
  responses : t.responses = s.responses
  waiting   : t.waiting = s.waiting
  stop      : t.stop = s.stop
  regs      : t.core.regs = s.core.regs

theorem QueuesKept.refl (s : State) : QueuesKept s s := ⟨rfl, rfl, rfl, rfl⟩
theorem QueuesKept.trans {s t u : State} (h : QueuesKept s t) (k : QueuesKept t u) : QueuesKept s u :=
  ⟨k.responses.trans h.responses, k.waiting.trans h.waiting, k.stop.trans h.stop, k.regs.trans h.regs⟩
theorem QueuesKept.withLines {s t : State} (h : QueuesKept s t) (ls : List Line) (ts : List (Nat × BitVec 64)) :
    QueuesKept s { t with lines := ls, trees := ts } := ⟨h.responses, h.waiting, h.stop, h.regs⟩

theorem loseWatch_kept (s : State) (n : Nat) : QueuesKept s (loseWatch s n) :=
  ⟨rfl, rfl, rfl, by show (s.core.loseWatch n).regs = _; rw [loseWatch_core]⟩
theorem loseEvicted_kept (s : State) (n : Nat) : QueuesKept s (loseEvicted s n) := by
  unfold loseEvicted; split
  · exact loseWatch_kept _ _
  · exact .refl _
theorem loadLine_kept (s : State) (a n : Nat) (al : Bool) : QueuesKept s (loadLine s a n al) := by
  unfold loadLine; split
  · exact (loseEvicted_kept _ _).withLines _ _
  · exact .refl _
theorem storeLine_kept (s : State) (a n : Nat) (th : Bool) : QueuesKept s (storeLine s a n th) := by
  unfold storeLine; split
  · exact (loseEvicted_kept _ _).withLines _ _
  · exact .refl _
theorem homeWrite_kept (s : State) (a n v : Nat) : QueuesKept s (homeWrite s a n v) := by
  unfold homeWrite watchWrite; split
  · exact ⟨rfl, rfl, rfl, rfl⟩
  · exact ⟨rfl, rfl, rfl, core_watchWrite_regs _ _ _⟩
theorem performWrite_kept (s : State) (a n v : Nat) (th : Bool) : QueuesKept s (performWrite s a n v th) :=
  (storeLine_kept s a n th).trans (homeWrite_kept _ _ _ _)

theorem flushLine_kept (s : State) (n : Nat) : QueuesKept s (flushLine s n) ∧ (flushLine s n).mem = s.mem := by
  unfold flushLine; split
  · exact ⟨.refl _, rfl⟩
  · split
    · exact ⟨(QueuesKept.refl s).withLines _ _, rfl⟩
    · exact ⟨(loseWatch_kept s n).withLines _ _, rfl⟩
theorem pinLine_kept (s : State) (n : Nat) : QueuesKept s (pinLine s n).1 ∧ (pinLine s n).1.mem = s.mem := by
  unfold pinLine; split
  · exact ⟨(loseEvicted_kept _ _).withLines _ _, loseEvicted_mem _ _⟩
  · exact ⟨.refl _, rfl⟩
theorem unpinLine_kept (s : State) (n : Nat) : QueuesKept s (unpinLine s n) ∧ (unpinLine s n).mem = s.mem := by
  unfold unpinLine; split
  · exact ⟨.refl _, rfl⟩
  · exact ⟨(QueuesKept.refl s).withLines _ _, rfl⟩
theorem prefetchLine_kept (s : State) (n : Nat) : QueuesKept s (prefetchLine s n) ∧ (prefetchLine s n).mem = s.mem := by
  unfold prefetchLine; split
  · exact ⟨(loseEvicted_kept _ _).withLines _ _, loseEvicted_mem _ _⟩
  · exact ⟨.refl _, rfl⟩

theorem stampAt_kept {s u : State} {x : Ctx} {cls h fn : Nat} {o w : Word} (e : stampAt s x cls h fn o = .ok (u, w)) : QueuesKept s u := by
  unfold stampAt at e
  dsimp only at e
  split at e
  · cases e
  · split at e <;> cases e
    · exact (loadLine_kept _ _ _ _).trans (performWrite_kept _ _ _ _ _)
    · exact loadLine_kept _ _ _ _

/-! ## A request performed and answered -/

/-- The step of a request goes on to this state, with the request's response under way and the queues else as before. -/
def Answered (s : State) (r : Req) (i : Instr) (v : Option Word) (t : State) : Prop :=
  exec i s = .next t ∧ (r.src, Instr.accessResponse) ∈ t.pending ∧ t.responses = s.responses ++ [r.answer v] ∧ t.waiting = s.waiting ∧
    t.core.regs = s.core.regs

/-- It is answered, and memory is as before. -/
def AnsweredKeeping (s : State) (r : Req) (i : Instr) (v : Option Word) : Prop := ∃ t, Answered s r i v t ∧ t.mem = s.mem

/-- It is answered, and its bytes, and no others, are written with a number. -/
def AnsweredWriting (s : State) (r : Req) (i : Instr) (v : Option Word) (n : Nat) : Prop :=
  ∃ t, Answered s r i v t ∧ readNat t.mem r.addr r.size = n ∧ OutsideKept s t r.addr r.size

/-- A request of no core has its response on the way once it is performed. -/
theorem serve_port {s u : State} {r : Req} {v : Option Word} (hsrc : 1152 ≤ r.src) (hperf : performReq s r = (u, r.answer v)) :
    serve s r = { u with responses := u.responses ++ [r.answer v], pending := u.pending ++ [(r.src, .accessResponse)] } := by
  have hcore : ¬ r.src < Config.nVaults := by simpa [Config.nVaults] using hsrc
  simp [serve, hperf, armWatch, respond, hcore, Req.answer]

section
variable {s u : State} {r : Req} {i : Instr} {v : Option Word} (hexec : exec i s = .next (serve s r)) (hsrc : 1152 ≤ r.src)
include hexec hsrc

theorem answered_of_performed (hperf : performReq s r = (u, r.answer v)) (hkept : QueuesKept s u) :
    Answered s r i v (serve s r) ∧ (serve s r).mem = u.mem := by
  unfold Answered
  rw [hexec, serve_port hsrc hperf]
  exact ⟨⟨rfl, by simp, congrArg (· ++ [r.answer v]) hkept.responses, hkept.waiting, hkept.regs⟩, rfl⟩

theorem answeredKeeping_of_performed (hperf : performReq s r = (u, r.answer v)) (hkept : QueuesKept s u ∧ u.mem = s.mem) :
    AnsweredKeeping s r i v :=
  have ⟨hans, hmem⟩ := answered_of_performed hexec hsrc hperf hkept.1
  ⟨_, hans, hmem.trans hkept.2⟩

theorem answeredWriting_of_performed {n : Nat} {th : Bool} (hperf : performReq s r = (performWrite u r.addr r.size n th, r.answer v))
    (hkept : QueuesKept s u ∧ u.mem = s.mem) : AnsweredWriting s r i v (n % 2 ^ (8 * r.size)) := by
  obtain ⟨hans, hmem⟩ := answered_of_performed hexec hsrc hperf (hkept.1.trans (performWrite_kept _ _ _ _ _))
  rw [performWrite_mem, hkept.2] at hmem
  refine ⟨_, hans, ?_, fun a ha => ?_⟩
  · rw [hmem, readNat_writeNat_same]
  · rw [hmem, readByte_writeNat_outside _ _ _ _ _ (by omega)]

end

/-- What acts on a line only where a slice homes it leaves the queues and memory if its act on the line does. -/
theorem onLine_kept {s u : State} (sliced : Bool) (h : QueuesKept s u ∧ u.mem = s.mem) :
    QueuesKept s (if sliced then u else s) ∧ (if sliced then u else s).mem = s.mem := by
  split
  · exact h
  · exact ⟨.refl s, rfl⟩

section
variable {s : State} {r : Req} {i : Instr} (hexec : exec i s = .next (serve s r)) (hsrc : 1152 ≤ r.src)
  (hclean : poisonIn s.poison r.addr r.size = none)
include hexec hsrc hclean

theorem load_answered (hop : r.op = .load) : AnsweredKeeping s r i (some (BitVec.ofNat 64 (readNat s.mem r.addr r.size))) :=
  answeredKeeping_of_performed hexec hsrc (u := loadLine s r.addr r.size true) (by simp [performReq, hclean, hop, homeRead])
    ⟨loadLine_kept _ _ _ _, loadLine_mem _ _ _ _⟩

theorem store_answered (hop : r.op = .store ∨ r.op = .storeNt) : AnsweredWriting s r i none r.value := by
  have hval : r.value % 2 ^ (8 * r.size) = r.value := Nat.mod_mod _ _
  rw [← hval]
  rcases hop with hop | hop
  · exact answeredWriting_of_performed hexec hsrc (th := false) (by simp [performReq, hclean, hop]) ⟨.refl s, rfl⟩
  · exact answeredWriting_of_performed hexec hsrc (th := true) (by simp [performReq, hclean, hop]) ⟨.refl s, rfl⟩

theorem atom_answered {fn : BitVec 5} (hop : r.op = .atom fn) :
    AnsweredWriting s r i (if fn.toNat < 16 then some (atomExt (fn.toNat % 16) r.size (readNat s.mem r.addr r.size)) else none)
      (atomOp (fn.toNat % 16) r.size (readNat s.mem r.addr r.size) r.value % 2 ^ (8 * r.size)) :=
  answeredWriting_of_performed hexec hsrc (u := loadLine s r.addr r.size true) (th := false)
    (by simp [performReq, hclean, hop, modifyAt, homeRead]) ⟨loadLine_kept _ _ _ _, loadLine_mem _ _ _ _⟩

theorem cas_answered_equal {c : Word} (hop : r.op = .cas c) (heq : readNat s.mem r.addr r.size = c.toNat % 2 ^ (8 * r.size)) :
    AnsweredWriting s r i (some (BitVec.ofNat 64 (readNat s.mem r.addr r.size))) r.value := by
  have hval : r.value % 2 ^ (8 * r.size) = r.value := Nat.mod_mod _ _
  rw [← hval]
  exact answeredWriting_of_performed hexec hsrc (u := loadLine s r.addr r.size true) (th := false)
    (by simp [performReq, hclean, hop, modifyAt, homeRead, heq]) ⟨loadLine_kept _ _ _ _, loadLine_mem _ _ _ _⟩

theorem cas_answered_different {c : Word} (hop : r.op = .cas c) (hne : readNat s.mem r.addr r.size ≠ c.toNat % 2 ^ (8 * r.size)) :
    AnsweredKeeping s r i (some (BitVec.ofNat 64 (readNat s.mem r.addr r.size))) :=
  answeredKeeping_of_performed hexec hsrc (u := loadLine s r.addr r.size true)
    (by simp [performReq, hclean, hop, modifyAt, homeRead, hne]) ⟨loadLine_kept _ _ _ _, loadLine_mem _ _ _ _⟩

theorem cpin_answered (hop : r.op = .cpin) :
    AnsweredKeeping s r i (some (if isSliced r.addr && canAllocate s (r.addr / 128) then 1 else 0)) :=
  answeredKeeping_of_performed hexec hsrc (by simp [performReq, hclean, hop])
    (onLine_kept (isSliced r.addr) (pinLine_kept s (r.addr / 128)))

theorem stamp_answered {cx fn cls : Nat} {va w : Word} {x : Ctx} {u : State} (hop : r.op = .stamp cx va fn) (hx : ctxOf s cx = some x)
    (hcls : regionClass x va.toNat r.addr = some cls) (hat : stampAt s x cls r.addr fn r.data = .ok (u, w)) :
    ∃ t, Answered s r i (if fn = 1 ∨ fn = 3 then none else some w) t ∧ t.mem = u.mem :=
  ⟨_, answered_of_performed hexec hsrc (by simp [performReq, hclean, hop, stampReq, hx, hcls, hat]) (stampAt_kept hat)⟩

theorem control_answered (hop : r.op = .cflush ∨ r.op = .cunpin ∨ r.op = .cpref ∨ r.op = .watch) : AnsweredKeeping s r i none := by
  rcases hop with hop | hop | hop | hop
  case inl =>
    exact answeredKeeping_of_performed hexec hsrc (by simp [performReq, hclean, hop])
      (onLine_kept (isSliced r.addr) (flushLine_kept s (r.addr / 128)))
  case inr.inl =>
    exact answeredKeeping_of_performed hexec hsrc (by simp [performReq, hclean, hop])
      (onLine_kept (isSliced r.addr) (unpinLine_kept s (r.addr / 128)))
  case inr.inr.inl =>
    exact answeredKeeping_of_performed hexec hsrc (by simp [performReq, hclean, hop])
      (onLine_kept (isSliced r.addr) (prefetchLine_kept s (r.addr / 128)))
  case inr.inr.inr =>
    exact answeredKeeping_of_performed hexec hsrc (by simp [performReq, hclean, hop])
      ⟨loadLine_kept s r.addr r.size true, loadLine_mem _ _ _ _⟩

end

/-! ## A request taken up, held back, or given a fill -/

theorem size_pos_of_ok {r : Req} (hok : r.ok = true) : 0 < r.size := by
  unfold Req.ok at hok
  rw [Bool.and_eq_true, Bool.and_eq_true] at hok
  obtain ⟨⟨hsize, -⟩, -⟩ := hok
  have hmem : r.size ∈ [1, 2, 4, 8] := List.contains_iff_mem.mp hsize
  simp only [List.mem_cons, List.not_mem_nil, or_false] at hmem
  omega

/-- A home takes no MREAD as a request, and nothing that a core holds back itself. -/
theorem op_of_ok {r : Req} (hok : r.ok = true) : (∀ m, r.op ≠ .mread m) ∧ r.op ≠ .hold := by
  unfold Req.ok at hok
  rw [Bool.and_eq_true] at hok
  obtain ⟨-, hexists⟩ := hok
  refine ⟨fun m hop => ?_, fun hop => ?_⟩ <;> rw [hop] at hexists <;> exact Bool.false_ne_true hexists

/-- When a request reached its slice decides its order there, and not what it is or does. -/
theorem ok_stamp (r : Req) (k : Nat) : ({ r with stamp := k } : Req).ok = r.ok := rfl
theorem needsFill_stamp (s : State) (r : Req) (k : Nat) : needsFill s { r with stamp := k } = needsFill s r := rfl
theorem serve_stamp (s : State) (r : Req) (k : Nat) : serve s { r with stamp := k } = serve s r := rfl

theorem bankOf_lt (s : State) (n : Nat) : bankOf s n < 4 :=
  Nat.xor_lt_two_pow (n := 2) (Nat.mod_lt _ (by decide)) (Nat.mod_lt _ (by decide))

theorem arrive_of_ok {r : Req} (hok : r.ok = true) (s : State) : arrive s r = arriveOther s r := by
  obtain ⟨hmread, hhold⟩ := op_of_ok hok
  unfold arrive
  split
  next m hop => exact absurd hop (hmread m)
  next hop => exact absurd hop hhold
  next => rfl

/-- In a calm state nothing is before a request. -/
theorem heldBack_calm {s : State} (hc : Calm s) (r : Req) : heldBack s r = false := by
  have hline : lineLocked s r.addr r.size = false := by
    simp only [lineLocked, lineShut, hc.waiting, List.any_nil, Bool.or_false, List.any_eq_false]
    exact fun l hl => by simp [hc.lines l hl]
  simp [heldBack, hline, setBusy_calm hc, sourceWaits, hc.waiting, hc.stop]

/-- A request that needs no fill is performed where nothing is before it (02 R34). -/
theorem arrive_calm {s : State} {r : Req} (hc : Calm s) (hok : r.ok = true) (hfill : needsFill s r = false) : arrive s r = serve s r := by
  simp [arrive_of_ok hok, arriveOther, heldBack_calm hc, hfill, settleAmong_calm hc]

/-- One that needs a fill waits for it (02 R35, R36). -/
theorem arrive_fill {s : State} {r : Req} (hc : Calm s) (hok : r.ok = true) (hfill : needsFill s r = true) :
    arrive s r = startFill { s with waiting := s.waiting ++ [r] } (r.addr / 128) := by
  simp [arrive_of_ok hok, arriveOther, heldBack_calm hc, hfill]

theorem arrive_heldBack {s : State} {r : Req} (hok : r.ok = true) (hheld : heldBack s r = true) :
    arrive s r = { s with waiting := s.waiting ++ [r] } := by
  simp [arrive_of_ok hok, arriveOther, hheld]

/-- While no request waits at a slice's stop and fewer than 32 wait in all, it takes requests (02 R32). -/
theorem intakeStopped_few {s : State} (hstop : s.stop = []) (hfew : s.waiting.length < 32) (a : Nat) : intakeStopped s a = false := by
  simp only [intakeStopped, hstop, List.any_nil, Bool.false_or, List.any_eq_false, decide_eq_true_eq, Nat.not_le]
  exact fun b _ => Nat.lt_of_le_of_lt (List.length_filter_le _ _) hfew

/-- A conflict queue of 32 stops its slice, whichever bank's it is. -/
theorem intakeStopped_full {s : State} {a b : Nat}
    (hfull : 32 ≤ (s.waiting.filter (fun q => homeSlice s q.addr == homeSlice s a && bankOf s (q.addr / 128) == b)).length) :
    intakeStopped s a = true := by
  obtain ⟨q, hq⟩ := List.exists_mem_of_length_pos (Nat.lt_of_lt_of_le (by decide : 0 < 32) hfull)
  have hbank : bankOf s (q.addr / 128) = b := by
    have hkeys := (List.mem_filter.mp hq).2
    simp only [Bool.and_eq_true, beq_iff_eq] at hkeys
    exact hkeys.2
  have hany : (List.range 4).any (fun b => decide (32 ≤ (s.waiting.filter (fun q => homeSlice s q.addr == homeSlice s a &&
      bankOf s (q.addr / 128) == b)).length)) = true :=
    List.any_eq_true.mpr ⟨b, List.mem_range.mpr (hbank ▸ bankOf_lt _ _), decide_eq_true hfull⟩
  simp only [intakeStopped, hany, Bool.or_true]

theorem exec_sliceRequest {s : State} {r : Req} (hok : r.ok = true) (hsl : isSliced r.addr = true) :
    exec (.sliceRequest r) s = .next (intake s { r with stamp := arrivalKey s }) := by
  show execSliceRequest r s = _
  simp [execSliceRequest, hok, hsl]

/-- With few requests waiting and none at the stop, a slice's request arrives in its bank at once. -/
theorem exec_sliceRequest_arrives {s : State} {r : Req} (hok : r.ok = true) (hsl : isSliced r.addr = true) (hstop : s.stop = [])
    (hfew : s.waiting.length < 32) : exec (.sliceRequest r) s = .next (arrive s { r with stamp := arrivalKey s }) := by
  simp [exec_sliceRequest hok hsl, intake, intakeStopped_few hstop hfew]

theorem exec_sliceRequest_serves {s : State} {r : Req} (hc : Calm s) (hok : r.ok = true) (hsl : isSliced r.addr = true)
    (hfill : needsFill s r = false) : exec (.sliceRequest r) s = .next (serve s r) := by
  rw [exec_sliceRequest_arrives hok hsl hc.stop (by simp [hc.waiting]),
    arrive_calm hc ((ok_stamp r _).trans hok) ((needsFill_stamp s r _).trans hfill), serve_stamp]

/-- A vault's controller performs a request where no claim is before it (01 R21). -/
theorem exec_vaultAccess_serves {s : State} {r : Req} (hc : Calm s) (hok : r.ok = true) (hin : inSomeVault r = true) :
    exec (.vaultAccess r) s = .next (serve s r) := by
  show execVaultAccess r s = _
  simp [execVaultAccess, hok, hin, settle_calm hc]

/-! ## Fills and write-backs -/

/-- A fill locks its line, which is then due, and leaves memory (02 R36). -/
theorem startFill_locks {s : State} {n w : Nat} (hway : wayFor s n = some w) :
    (∃ l, lineOf (startFill s n).lines n = some l ∧ l.locked = true) ∧ (n, Instr.mergingFill) ∈ (startFill s n).pending ∧
      (startFill s n).waiting = s.waiting ∧ (startFill s n).mem = s.mem := by
  have hnum : ({ lineAt s n w with locked := true } : Line).num = n := lineAt_num s n w
  simp only [startFill, hway]
  exact ⟨⟨_, lineOf_putLine_of_num (by exact hnum) _, rfl⟩, by simp, (loseEvicted_kept s n).waiting, loseEvicted_mem _ _⟩

theorem sliceRequest_fills {s : State} {r : Req} (hc : Calm s) (hok : r.ok = true) (hsl : isSliced r.addr = true) (hfill : needsFill s r = true) :
    ∃ t l, exec (.sliceRequest r) s = .next t ∧ t.waiting = [{ r with stamp := arrivalKey s }] ∧ lineOf t.lines (r.addr / 128) = some l ∧
      l.locked = true ∧ (r.addr / 128, Instr.mergingFill) ∈ t.pending ∧ t.mem = s.mem := by
  have hroom : canAllocate s (r.addr / 128) = true := by
    simp only [needsFill, Bool.and_eq_true] at hfill
    exact hfill.1.2
  obtain ⟨w, hway⟩ := Option.isSome_iff_exists.mp hroom
  rw [← wayFor_awaited s { r with stamp := arrivalKey s }] at hway
  obtain ⟨⟨l, hline, hlocked⟩, hdue, hwait, hmem⟩ := startFill_locks hway
  refine ⟨_, l, ?_, ?_, hline, hlocked, hdue, hmem⟩
  · rw [exec_sliceRequest_arrives hok hsl hc.stop (by simp [hc.waiting]),
      arrive_fill hc ((ok_stamp r _).trans hok) ((needsFill_stamp s r _).trans hfill)]
  · rw [hwait, hc.waiting, List.nil_append]

/-- A request of the same source at the same slice, or for the same line, is before a later one (02 R34). -/
theorem heldBack_behind {s : State} {r q : Req} (hok : r.ok = true) (hq : q ∈ s.waiting)
    (hbefore : (q.src = r.src ∧ homeSlice s q.addr = homeSlice s r.addr) ∨ q.addr / 128 = r.addr / 128) : heldBack s r = true := by
  rcases hbefore with ⟨hsrc, hslice⟩ | hline
  · have hwaits : sourceWaits s r.src r.addr = true := List.any_eq_true.mpr ⟨q, hq, by simp [hsrc, hslice]⟩
    simp [heldBack, hwaits]
  · have hpos := size_pos_of_ok hok
    have hmeets : reqMeets q r.addr r.size = true := by
      simp only [reqMeets, Bool.and_eq_true, decide_eq_true_eq]
      omega
    have hlocked : lineLocked s r.addr r.size = true := by
      simp only [lineLocked, lineShut, Bool.or_eq_true, List.any_eq_true]
      exact .inr ⟨q, hq, hmeets⟩
    simp [heldBack, hlocked]

/-- A store's line that is whole needs no fill. -/
theorem needsFill_whole {s : State} {r : Req} {l : Line} (hop : r.op = .store) (hline : lineOf s.lines (r.addr / 128) = some l)
    (hwhole : l.valid = 0xFFFF) : needsFill s r = false := by
  simp [needsFill, hop, validWords, hline, hwhole]

/-- A store leaves a whole line whole, and its lock as it is. -/
theorem lineAfterStore_whole {s : State} {a n : Nat} {th : Bool} {l : Line} (hsl : isSliced a = true) (hline : lineOf s.lines (a / 128) = some l)
    (hwhole : l.valid = 0xFFFF) :
    ∃ k, lineOf (lineAfterStore s a n th) (a / 128) = some k ∧ k.locked = l.locked ∧ k.valid = 0xFFFF := by
  have hall : ∀ m : BitVec 16, 0xFFFF ||| m = 0xFFFF := fun m => BitVec.allOnes_or
  have hnone : ∀ m : BitVec 16, m &&& ~~~(0xFFFF : BitVec 16) = 0 := fun m => BitVec.and_zero
  simp only [lineAfterStore, wayFor_of_present hline, hsl, lineAt_of_present hline, hwhole, hall, hnone, if_true]
  have hnum := num_of_lineOf hline
  exact ⟨_, lineOf_putLine_of_num (by exact hnum) _, rfl, rfl⟩

@[simp] theorem watchWrite_lines (s : State) (a n : Nat) : (watchWrite s a n).lines = s.lines := by unfold watchWrite; split <;> rfl
@[simp] theorem homeWrite_lines (s : State) (a n v : Nat) : (homeWrite s a n v).lines = s.lines := by simp [homeWrite]

theorem performWrite_lines {a : Nat} (hsl : isSliced a = true) (s : State) (n v : Nat) (th : Bool) :
    (performWrite s a n v th).lines = lineAfterStore s a n th := by
  simp [performWrite, storeLine, hsl]

/-- A store that its slice performs on a whole line: its bytes are written, and its line stays whole. -/
theorem store_serves_whole {s : State} {r : Req} {l : Line} (hsrc : 1152 ≤ r.src) (hsl : isSliced r.addr = true) (hop : r.op = .store)
    (hline : lineOf s.lines (r.addr / 128) = some l) (hwhole : l.valid = 0xFFFF) :
    QueuesKept { s with responses := s.responses ++ [r.answer none] } (serve s r) ∧ (serve s r).mem = writeNat s.mem r.addr r.size r.value ∧
      ∃ k, lineOf (serve s r).lines (r.addr / 128) = some k ∧ k.locked = l.locked ∧ k.valid = 0xFFFF := by
  have hperf : performReq s r = (performWrite s r.addr r.size r.value false, r.answer none) := by simp [performReq, hop, Req.reads]
  have hkept := performWrite_kept s r.addr r.size r.value false
  rw [serve_port hsrc hperf]
  exact ⟨⟨congrArg (· ++ [r.answer none]) hkept.responses, hkept.waiting, hkept.stop, hkept.regs⟩, performWrite_mem _ _ _ _ _,
    by simpa only [performWrite_lines hsl] using lineAfterStore_whole hsl hline hwhole⟩

/-- The state in which a fill's line, the only one, is whole and unlocked, and what waited for it is taken out to arrive anew. -/
def filled (s : State) (l : Line) : State := { s with lines := [{ l with valid := 0xFFFF, locked := false }], waiting := [] }

theorem filled_calm {s : State} (hc : Calm s) (l : Line) : Calm (filled s l) where
  cmds := hc.cmds
  lines := by simp [filled]
  waiting := rfl
  stop := hc.stop
  forks := hc.forks
  sent := hc.sent
  returns := hc.returns
  checked := hc.checked

theorem lineOf_filled (s : State) {l : Line} {n : Nat} (hnum : l.num = n) :
    lineOf (filled s l).lines n = some { l with valid := 0xFFFF, locked := false } := by simp [lineOf, filled, hnum]

/-- The one request that waits arrives anew, and nothing stands at a stop after it. -/
theorem arriveAll_one {s : State} {r : Req} (hwait : s.waiting = [r]) (hstop : (arrive { s with waiting := [] } r).stop = []) :
    arriveAll s = arrive { s with waiting := [] } r := by
  unfold arriveAll
  rw [hwait, List.foldl_cons, List.foldl_nil]
  generalize arrive { s with waiting := [] } r = t at hstop ⊢
  dsimp only
  rw [hstop, List.foldl_nil]
  exact (congrArg (fun q => { t with stop := q }) hstop).symm

/-- When its fill is done, the line is whole and unlocked, and the one request that waited for it arrives anew (02 R36). -/
theorem exec_mergingFill_one {s : State} {l : Line} {r : Req} (hlines : s.lines = [l]) (hwait : s.waiting = [r]) (hnum : l.num = s.unit)
    (hlocked : l.locked = true) (hstop : (arrive (filled s l) r).stop = []) : exec .mergingFill s = .next (arrive (filled s l) r) := by
  have hline : lineOf s.lines s.unit = some l := by simp [lineOf, hlines, hnum]
  have hput : putLine { l with valid := 0xFFFF, locked := false } [l] = [{ l with valid := 0xFFFF, locked := false }] := by simp [putLine]
  have hall : arriveAll { s with lines := [{ l with valid := 0xFFFF, locked := false }] } = arrive (filled s l) r := arriveAll_one hwait hstop
  show execMergingFill s = _
  simp only [execMergingFill, hline, hlocked, if_true]
  rw [hlines, hput, hall]

theorem mergingFill_stores {s u : State} {r : Req} {l : Line} (hc : Calm s) (hsrc : 1152 ≤ r.src) (hu : u = { s with lines := [l], waiting := [r] })
    (hunit : l.num = u.unit) (hlocked : l.locked = true) (hnum : l.num = r.addr / 128) (hok : r.ok = true) (hsl : isSliced r.addr = true)
    (hop : r.op = .store) :
    ∃ t k, exec .mergingFill u = .next t ∧ t.waiting = [] ∧ lineOf t.lines l.num = some k ∧ k.locked = false ∧ k.valid = 0xFFFF ∧
      readNat t.mem r.addr r.size = r.value ∧ OutsideKept u t r.addr r.size := by
  have hfilled : filled u l = filled s l := by rw [hu]; rfl
  have hline := lineOf_filled s hnum
  have harrive := arrive_calm (filled_calm hc l) hok (needsFill_whole hop hline rfl)
  obtain ⟨hkept, hmem, k, hk, hklocked, hkvalid⟩ := store_serves_whole hsrc hsl hop hline rfl
  rw [← harrive, ← hfilled] at hkept hmem hk
  refine ⟨_, k, exec_mergingFill_one (by rw [hu]) (by rw [hu]) hunit hlocked (hkept.stop.trans (hfilled ▸ hc.stop)), hkept.waiting.trans rfl,
    hnum ▸ hk, hklocked, hkvalid, ?_, fun a ha => ?_⟩
  · rw [hmem, readNat_writeNat_same]; exact Nat.mod_mod _ _
  · rw [hmem, readByte_writeNat_outside _ _ _ _ _ (by omega)]; rfl

/-- A write-back cleans its line; in a calm state no lock stands on it (02 R39). -/
theorem exec_writeBackComplete_calm {s : State} {l : Line} (hc : Calm s) (hline : lineOf s.lines s.unit = some l) :
    exec .writeBackComplete s = .next { s with lines := putLine { l with dirty := 0, behind := [], locked := false } s.lines } := by
  have hfree : l.locked = false := hc.lines l (mem_of_lineOf hline)
  show execWriteBackComplete s = _
  simp only [execWriteBackComplete, hline, hfree, Bool.false_and]

theorem writeBackComplete_cleans {s : State} {l : Line} (hc : Calm s) (hline : lineOf s.lines s.unit = some l) :
    ∃ t, exec .writeBackComplete s = .next t ∧ lineOf t.lines s.unit = some { l with dirty := 0, behind := [], locked := false } ∧ t.mem = s.mem := by
  have hnum := num_of_lineOf hline
  exact ⟨_, exec_writeBackComplete_calm hc hline, lineOf_putLine_of_num (by exact hnum) _, rfl⟩

/-! ## Responses and watches -/

/-- A response comes to the core that waits for it. -/
theorem takeResponse_first {a : Resp} {g : Nat} (hcore : a.core = g) (rest : List Resp) : takeResponse g (a :: rest) = some (a, rest) := by
  simp [takeResponse, hcore]

theorem exec_accessResponse_awaited {s : State} {a : Resp} {rest : List Resp} (hresp : s.responses = a :: rest) (hcore : a.core = s.unit)
    (hunit : s.unit < 1152) (hawaits : (coreOf s s.unit).awaits a = true) :
    exec .accessResponse s = .next (if (coreOf s s.unit).sched.halted
      then depositSaved (updCore { s with responses := rest } s.unit (Core.deposit a)) (assignedArea (coreOf s s.unit).ctx s.unit)
        ((coreOf s s.unit).deposit a).sched.returns
      else updCore { s with responses := rest } s.unit (Core.deposit a)) := by
  have hvault : s.unit < Config.nVaults := hunit
  show execAccessResponse s = _
  simp [execAccessResponse, hresp, takeResponse_first hcore, hvault, hawaits]

/-- The core then holds the value among its returns. -/
theorem coreOf_deposited (s : State) (rest : List Resp) (a : Resp) (g : Nat) :
    coreOf (updCore { s with responses := rest } g (Core.deposit a)) g = (coreOf s g).deposit a :=
  coreOf_updCore { s with responses := rest } g (Core.deposit a) rfl

/-- A save area of one return holds its flags, the lowest of which says that it is there, and above them its value. -/
theorem depositSaved_one (s : State) (area : Nat) {a : Resp} {v : Word} (hv : a.value = some v) :
    homeWord (depositSaved s area [a]) (area + 0x608) = v ∧ (homeWord (depositSaved s area [a]) (area + 0x600)).getLsbD 0 = true := by
  have hbytes : returnsNat [a] = 1 + 2 + (if a.refused then 4 else 0) + (if a.bad then 8 else 0) + v.toNat * 2 ^ 64 := by
    rw [returnsNat, returnsNat, Nat.zero_mul, Nat.add_zero, hv, Option.isSome_some, if_pos rfl, Option.getD_some]
  have hlt := v.isLt
  have hmem : (depositSaved s area [a]).mem = writeNat s.mem (area + 0x600) 512 (returnsNat [a]) := homeWrite_mem _ _ _ _
  constructor
  · have hread := readNat_writeNat_part s.mem (area + 0x600) (returnsNat [a]) 8 8 496
    have hval : returnsNat [a] / 2 ^ 64 % 2 ^ 64 = v.toNat := by
      rw [hbytes]; split <;> split <;> omega
    rw [Nat.shiftRight_eq_div_pow] at hread
    rw [homeWord, homeRead, hmem, hread.trans hval, BitVec.ofNat_toNat, BitVec.setWidth_eq]
  · have hread := readNat_writeNat_part s.mem (area + 0x600) (returnsNat [a]) 0 8 504
    have hodd : returnsNat [a] % 2 = 1 := by
      rw [hbytes]; split <;> split <;> omega
    rw [Nat.mul_zero, Nat.shiftRight_zero] at hread
    rw [homeWord, homeRead, hmem, hread]
    simp only [BitVec.getLsbD_ofNat, Nat.testBit_zero, Bool.and_eq_true, decide_eq_true_eq]
    omega

theorem exec_mwaitWake_watching {s : State} {w : Watch} (hunit : s.unit < 1152) (hw : (coreOf s s.unit).watch = some w) :
    exec .mwaitWake s = .next (updCore s s.unit (fun c => { c with watch := c.watch.map (fun w => { w with seen := true }) })) := by
  have hvault : s.unit < Config.nVaults := hunit
  show execMwaitWake s = _
  simp [execMwaitWake, hvault, hw]

/-- A core's watch has then seen an event (03 R62). -/
theorem mwaitWake_sees {s : State} {w : Watch} (hunit : s.unit < 1152) (hw : (coreOf s s.unit).watch = some w) :
    ∃ t, exec .mwaitWake s = .next t ∧ coreOf t s.unit = { coreOf s s.unit with watch := some { w with seen := true } } := by
  refine ⟨_, exec_mwaitWake_watching hunit hw, ?_⟩
  rw [coreOf_updCore _ _ _ rfl, hw, Option.map_some]

theorem exec_mwaitTimeout_waiting {s : State} (hunit : s.unit < 1152) (hwait : (coreOf s s.unit).sched.mwaited ≠ 0) :
    exec .mwaitTimeout s = .next (updCore s s.unit (fun c => { c with sched := { c.sched with mwaited := waitOver } })) := by
  have hvault : s.unit < Config.nVaults := hunit
  show execMwaitTimeout s = _
  simp [execMwaitTimeout, hvault, hwait]

/-- The core's wait is then over (13 R227). -/
theorem mwaitTimeout_ends {s : State} (hunit : s.unit < 1152) (hwait : (coreOf s s.unit).sched.mwaited ≠ 0) :
    ∃ t, exec .mwaitTimeout s = .next t ∧ coreOf t s.unit = { coreOf s s.unit with sched := { (coreOf s s.unit).sched with mwaited := waitOver } } :=
  ⟨_, exec_mwaitTimeout_waiting hunit hwait, coreOf_updCore _ _ _ rfl⟩

theorem accessResponse_running {s : State} {a : Resp} {rest : List Resp} (hresp : s.responses = a :: rest) (hcore : a.core = s.unit)
    (hunit : s.unit < 1152) (hawaits : (coreOf s s.unit).awaits a = true) (hhalted : (coreOf s s.unit).sched.halted = false) :
    ∃ t, exec .accessResponse s = .next t ∧ t.responses = rest ∧ t.mem = s.mem ∧ coreOf t s.unit = (coreOf s s.unit).deposit a := by
  refine ⟨_, exec_accessResponse_awaited hresp hcore hunit hawaits, ?_⟩
  simp [hhalted, coreOf_deposited]

theorem accessResponse_halted {s : State} {a : Resp} {rest : List Resp} {v : Word} (hresp : s.responses = a :: rest) (hcore : a.core = s.unit)
    (hunit : s.unit < 1152) (hawaits : (coreOf s s.unit).awaits a = true) (hctx : (coreOf s s.unit).ctx = a.ctx)
    (hhalted : (coreOf s s.unit).sched.halted = true) (hnone : (coreOf s s.unit).sched.returns = []) (hv : a.value = some v) :
    ∃ t, exec .accessResponse s = .next t ∧ t.responses = rest ∧ (coreOf t s.unit).sched.returns = [a] ∧
      homeWord t (assignedArea a.ctx s.unit + 0x608) = v ∧ (homeWord t (assignedArea a.ctx s.unit + 0x600)).getLsbD 0 = true := by
  have hone : ((coreOf s s.unit).deposit a).sched.returns = [a] := by simp [Core.deposit, hnone]
  refine ⟨_, exec_accessResponse_awaited hresp hcore hunit hawaits, ?_⟩
  rw [if_pos hhalted, hone, hctx]
  refine ⟨?_, ?_, depositSaved_one _ _ hv⟩
  · rw [depositSaved, (homeWrite_kept _ _ _ _).responses, updCore_responses]
  · rw [depositSaved, coreOf_homeWrite_sched, coreOf_deposited, hone]

/-! ## What the homes do -/

/-- A step that performs a request: a slice's that needs no fill, or a vault's. -/
theorem exec_serves {s : State} {r : Req} {i : Instr} (hc : Calm s) (hok : r.ok = true)
    (hi : (i = .sliceRequest r ∧ isSliced r.addr = true ∧ s.waiting = [] ∧ needsFill s r = false) ∨ (i = .vaultAccess r ∧ inSomeVault r = true)) :
    exec i s = .next (serve s r) := by
  rcases hi with ⟨rfl, hsl, -, hfill⟩ | ⟨rfl, hin⟩
  · exact exec_sliceRequest_serves hc hok hsl hfill
  · exact exec_vaultAccess_serves hc hok hin

theorem sliceRequest_waits {s : State} {r q : Req} (hc : Calm s) (hok : r.ok = true) (hsl : isSliced r.addr = true)
    (hbefore : (q.src = r.src ∧ homeSlice s q.addr = homeSlice s r.addr) ∨ q.addr / 128 = r.addr / 128) :
    exec (.sliceRequest r) { s with waiting := [q] } = .next { s with waiting := [q, { r with stamp := arrivalKey s }] } := by
  have hheld : heldBack { s with waiting := [q] } { r with stamp := arrivalKey s } = true :=
    heldBack_behind ((ok_stamp r _).trans hok) (List.mem_singleton_self q) hbefore
  refine (exec_sliceRequest_arrives (s := { s with waiting := [q] }) hok hsl hc.stop (by simp)).trans ?_
  exact congrArg Host.Outcome.next (arrive_heldBack ((ok_stamp r _).trans hok) hheld)

theorem sliceRequest_stopped {s : State} {r : Req} {ws : List Req} {b : Nat} (hc : Calm s) (hok : r.ok = true) (hsl : isSliced r.addr = true)
    (hfull : 32 ≤ (ws.filter (fun q => homeSlice s q.addr == homeSlice s r.addr && bankOf s (q.addr / 128) == b)).length) :
    exec (.sliceRequest r) { s with waiting := ws } = .next { s with waiting := ws, stop := [{ r with stamp := arrivalKey s }] } := by
  have hstopped : intakeStopped { s with waiting := ws } r.addr = true := intakeStopped_full hfull
  rw [exec_sliceRequest hok hsl, intake, if_pos hstopped]
  simp only [hc.stop]
  rfl

/-- Settles O54: each step of a home or a core, by what its meaning does in a calm state. -/
theorem homeEvents : Obligations.HomeEvents := by
  unfold Obligations.HomeEvents
  rintro s r ⟨hc, -, -⟩ hclean hsrc
  refine ⟨?performed, fun hok hsl _ hfill => sliceRequest_fills hc hok hsl hfill, fun q hok hsl hbefore => sliceRequest_waits hc hok hsl hbefore,
    fun ws b hok hsl hfull => sliceRequest_stopped hc hok hsl hfull,
    fun u l hu hunit hlocked hnum hok hsl hop => mergingFill_stores hc hsrc hu hunit hlocked hnum hok hsl hop,
    fun l hline => writeBackComplete_cleans hc hline, ?answer, fun w hunit hw => mwaitWake_sees hunit hw,
    mwaitTimeout_ends, ?recalled⟩
  case performed =>
    intro i hok hi
    have hexec := exec_serves hc hok hi
    exact ⟨load_answered hexec hsrc hclean, store_answered hexec hsrc hclean, fun fn => atom_answered hexec hsrc hclean,
      fun c => cas_answered_equal hexec hsrc hclean, fun c => cas_answered_different hexec hsrc hclean, cpin_answered hexec hsrc hclean,
      fun cx va fn x cls u w => stamp_answered hexec hsrc hclean, control_answered hexec hsrc hclean⟩
  case answer =>
    intro a rest hresp hcore hunit hnum hctx howner hasked
    have hawaits : (coreOf s s.unit).awaits a = true := by simp [Core.awaits, hnum, hcore, hctx, howner, hasked]
    exact ⟨accessResponse_running hresp hcore hunit hawaits, fun v hhalted hnone hv => accessResponse_halted hresp hcore hunit hawaits hctx hhalted hnone hv⟩
  case recalled =>
    intro a w
    show execRecall a w s = _
    rw [execRecall, settle_calm hc]

end Sys2Proof.Machine
end

section
/-! SUPPORT. What a task waits for: its posted accesses by the scope of their homes, the zero-length reads that cover the links it has written, and the
counts of CNTS (03 R53, R56, R60, R65, R68, 13 R226). -/

namespace Sys2Proof.Machine

open Sys2Proof.Says

/-! ## Posted accesses outstanding -/

/-- Home h lies in a scope: in its own cluster's vaults, in no far window, anywhere (03 R56). -/
def ScopeHolds (s : State) (sc : BitVec 2) (h : Nat) : Prop :=
  (sc = 0 → isVaultHome h = true ∧ clusterOf ((h - Config.vaultKey) / Config.vaultBytes) = clusterOf s.core.num) ∧ (sc = 1 → isFar h = false)

/-- The running task has an access to a home of the scope on its way (03 R60). -/
def OutIn (s : State) (sc : BitVec 2) : Prop :=
  ∃ e, e ∈ s.core.sched.acks ∧ s.core.csr.here < e.due ∧ e.owner = s.core.port.owner ∧ ∃ h, e.home = some h ∧ ScopeHolds s sc h

theorem scope_cases {sc : BitVec 2} (h : sc ≠ 3) : sc = 0 ∨ sc = 1 ∨ sc = 2 := by
  revert sc; decide

theorem inScope_iff {sc : BitVec 2} (hsc : sc ≠ 3) (s : State) (h : Nat) : inScope s sc h = true ↔ ScopeHolds s sc h := by
  rcases scope_cases hsc with rfl | rfl | rfl <;> simp [inScope, ScopeHolds]

theorem scopeOut_iff {sc : BitVec 2} (hsc : sc ≠ 3) (s : State) : scopeOut s sc = true ↔ OutIn s sc := by
  simp only [scopeOut, OutIn, List.any_eq_true, Bool.and_eq_true, decide_eq_true_eq, beq_iff_eq, Option.any_eq_true, inScope_iff hsc, and_assoc]

theorem scopeOut_of_not_outIn {s : State} {sc : BitVec 2} (hsc : sc ≠ 3) (h : ¬ OutIn s sc) : scopeOut s sc = false :=
  Bool.eq_false_iff.mpr (mt (scopeOut_iff hsc s).mp h)

/-- A task none of whose posted accesses is outstanding has none in any scope. -/
theorem scopeOut_of_storesOut_zero {s : State} (h : storesOut s = 0) (sc : BitVec 2) : scopeOut s sc = false := by
  refine List.any_eq_false.mpr (fun e he hout => ?_)
  rw [Bool.and_eq_true] at hout
  exact List.filter_eq_nil_iff.mp (List.length_eq_zero_iff.mp h) e he hout.1

/-! ## Links that the task has written -/

/-- Link l's mark is bit l. -/
theorem getLsbD_linkMark (l k : Nat) : ((1 : BitVec 2) <<< l).getLsbD k = (decide (l < 2) && decide (l = k)) :=
  (congrArg (BitVec.getLsbD · k) (BitVec.twoPow_eq 2 l).symm).trans (BitVec.getLsbD_twoPow l k)

theorem clearWrote_of_clear {s : State} {l : Nat} (h : s.core.sched.wrote.getLsbD l = false) : s.clearWrote l = s := by
  have hsame : s.core.sched.wrote &&& ~~~((1 : BitVec 2) <<< l) = s.core.sched.wrote := by
    refine BitVec.eq_of_getLsbD_eq (fun i hi => ?_)
    rw [BitVec.getLsbD_and, BitVec.getLsbD_not, getLsbD_linkMark]
    by_cases hil : l = i
    · subst hil; simp [h]
    · simp [hil, hi]
  unfold State.clearWrote; rw [hsame]

theorem clearWrote_of_linkMark {s : State} {l : Nat} (h : s.core.sched.wrote = (1 : BitVec 2) <<< l) : s.clearWrote l = s.released := by
  unfold State.clearWrote State.released
  rw [h, BitVec.and_not_self]

/-- The mark of a link, written as a number. -/
theorem linkMark_eq {l : Nat} (hl : l < 2) : ((1 <<< l : Nat) : BitVec 2) = (1 : BitVec 2) <<< l := by
  revert l; decide

theorem clearWrote_clearWrote (s : State) : (s.clearWrote 0).clearWrote 1 = s.released := by
  have hnone : ∀ w : BitVec 2, w &&& ~~~((1 : BitVec 2) <<< 0) &&& ~~~((1 : BitVec 2) <<< 1) = 0 := by decide
  unfold State.released
  rw [← hnone s.core.sched.wrote]; rfl

/-- A link that the task has not written, or that is down, is covered without a read (21 R360). -/
theorem coverLink_skips {l : Nat} {s : State} (h : s.core.sched.wrote.getLsbD l = true → s.out.hostUp.getLsbD l = false) :
    coverLink l s = .ok (s.clearWrote l) := by
  have hskip : (!s.core.sched.wrote.getLsbD l || !s.out.hostUp.getLsbD l) = true := by
    cases hw : s.core.sched.wrote.getLsbD l
    · rfl
    · rw [h hw]; rfl
  rw [coverLink, if_pos hskip]

theorem coverLink_unwritten {l : Nat} {s : State} (h : s.core.sched.wrote.getLsbD l = false) : coverLink l s = .ok s := by
  rw [coverLink_skips (fun hw => absurd hw (by simp [h])), clearWrote_of_clear h]

section
variable {l : Nat} {s : State} (hwrote : s.core.sched.wrote.getLsbD l = true) (hup : s.out.hostUp.getLsbD l = true)
include hwrote hup

/-- Before its read has returned the instruction waits for it. -/
theorem coverLink_asks (hnone : s.core.sched.returns = []) :
    coverLink l s = .error (.ask (emit s s.core.ctx false (linkHome s l) 0 false) (linkHome s l) false) := by
  simp [coverLink, hwrote, hup, hnone]

theorem coverLink_returned {r : Resp} {rest : List Resp} (hsome : s.core.sched.returns = r :: rest) :
    coverLink l s = .ok (({ s with core := { s.core with sched := { s.core.sched with returns := rest } } }).clearWrote l) := by
  simp [coverLink, hwrote, hup, hsome]

end

/-- A link's first address lies in the host window, and goes out on that link (01 R29). -/
theorem linkHome_spec (s : State) {l : Nat} (hl : l < 2) : isHost (linkHome s l) = true ∧ isPeer (linkHome s l) = false ∧ hostLink s (linkHome s l) = l := by
  unfold linkHome hostLink isHost isPeer Config.hostBase Config.peerBase
  cases bonded s <;> simp <;> omega

/-- A zero-length read on link l: no write, and with Relaxed Ordering clear (03 R68). -/
theorem emit_zeroRead (s : State) (cx : Nat) {l : Nat} (hl : l < 2) :
    ∃ p : Tlp, (emit s cx false (linkHome s l) 0 false).out.emitted = s.out.emitted ++ [p] ∧ p.link = l ∧ p.write = false ∧ p.len = 0 ∧ p.relaxed = false := by
  obtain ⟨hhost, hpeer, hlink⟩ := linkHome_spec s hl
  simp [emit, emitAs, hhost, hpeer, hlink]

@[simp] theorem emitAs_core (op : Option AtomicOp) (rel : Bool) (s : State) (cx : Nat) (w : Bool) (h n : Nat) (r : Bool) :
    (emitAs op rel s cx w h n r).core = s.core := by unfold emitAs; split <;> rfl
@[simp] theorem emit_core (s : State) (cx : Nat) (w : Bool) (h n : Nat) (r : Bool) : (emit s cx w h n r).core = s.core := emitAs_core _ _ _ _ _ _ _ _

/-- Where every link that the task has written is down, nothing is read. -/
theorem coverHost_down {s : State} (h : ∀ l, l < 2 → s.core.sched.wrote.getLsbD l = true → s.out.hostUp.getLsbD l = false) : coverHost s = .ok s.released := by
  have hother : (s.clearWrote 0).core.sched.wrote.getLsbD 1 = true → (s.clearWrote 0).out.hostUp.getLsbD 1 = false := fun hw => by
    have hand : (s.core.sched.wrote &&& ~~~((1 : BitVec 2) <<< 0)).getLsbD 1 = true := hw
    rw [BitVec.getLsbD_and, Bool.and_eq_true] at hand
    exact h 1 (by omega) hand.1
  simp only [coverHost, coverLink_skips (h 0 (by omega)), coverLink_skips hother, clearWrote_clearWrote]

section
variable {l : Nat} {s : State} (hl : l < 2) (hwrote : s.core.sched.wrote = (1 : BitVec 2) <<< l) (hup : s.out.hostUp.getLsbD l = true)
include hl hwrote hup

theorem coverHost_asks (hnone : s.core.sched.returns = []) :
    coverHost s = .error (.ask (emit s s.core.ctx false (linkHome s l) 0 false) (linkHome s l) false) := by
  obtain rfl | rfl : l = 0 ∨ l = 1 := by omega
  · simp only [coverHost, coverLink_asks (by rw [hwrote]; rfl) hup hnone]
  · have hfirst : coverLink 0 s = .ok s := coverLink_unwritten (by rw [hwrote]; rfl)
    simp only [coverHost, hfirst, coverLink_asks (by rw [hwrote]; rfl) hup hnone]

theorem coverHost_returned {r : Resp} {rest : List Resp} (hsome : s.core.sched.returns = r :: rest) :
    coverHost s = .ok { s with core := { s.core with sched := { s.core.sched with returns := rest, wrote := 0 } } } := by
  have hbit : s.core.sched.wrote.getLsbD l = true := by rw [hwrote, getLsbD_linkMark]; simp [hl]
  have hcover := (coverLink_returned hbit hup hsome).trans (congrArg Except.ok (clearWrote_of_linkMark hwrote))
  obtain rfl | rfl : l = 0 ∨ l = 1 := by omega
  · simp only [coverHost, hcover]
    exact coverLink_unwritten (s := { s with core := { s.core with sched := { s.core.sched with returns := rest, wrote := 0 } } }) BitVec.getLsbD_zero
  · have hfirst : coverLink 0 s = .ok s := coverLink_unwritten (by rw [hwrote]; rfl)
    simp only [coverHost, hfirst, hcover]
    rfl

end

/-! ## Fences -/

theorem exec_fence_stalls {s : State} {sc : BitVec 2} (hsc : sc ≠ 3) (h : scopeOut s sc = true) : exec (.fence sc) s = .next s.markStalled := by
  show execFence sc s = _
  rw [execFence, if_neg hsc, if_pos h]; rfl

/-- A fence below SYS scope has nothing to read over a link. -/
theorem exec_fence_passes {s : State} {sc : BitVec 2} (hres : sc ≠ 3) (hsys : sc ≠ 2) (h : scopeOut s sc = false) : exec (.fence sc) s = .next s.advance := by
  show execFence sc s = _
  rw [execFence, if_neg hres, if_neg (by simp [h]), if_neg hsys]; rfl

theorem exec_drain_stalls {s : State} (h : storesOut s ≠ 0) : exec .drain s = .next s.markStalled := by
  show execDrain s = _
  simp [execDrain, h]

/-- With no posted access outstanding, FENCE.SYS and DRAIN are over once the links are covered. -/
theorem exec_covers {s : State} {i : Instr} (hi : i ∈ [Instr.fence 2, .drain]) (h : storesOut s = 0) :
    exec i s = finish s ((coverHost s).map State.advance) := by
  simp only [List.mem_cons, List.not_mem_nil, or_false] at hi
  rcases hi with rfl | rfl
  · show execFence 2 s = _
    rw [execFence, if_neg (by decide), if_neg (by simp [scopeOut_of_storesOut_zero h]), if_pos rfl]
    cases coverHost s <;> rfl
  · show execDrain s = _
    rw [execDrain, if_neg (by simp [h])]
    cases coverHost s <;> rfl

section
variable {s : State} {i : Instr} (hi : i ∈ [Instr.fence 2, .drain]) (hdone : storesOut s = 0)
include hi hdone

theorem exec_covers_down (h : ∀ l, l < 2 → s.core.sched.wrote.getLsbD l = true → s.out.hostUp.getLsbD l = false) :
    exec i s = .next s.released.advance := by
  rw [exec_covers hi hdone, coverHost_down h]; rfl

variable {l : Nat} (hl : l < 2) (hwrote : s.core.sched.wrote = (1 : BitVec 2) <<< l) (hup : s.out.hostUp.getLsbD l = true)
include hl hwrote hup

theorem exec_covers_asks (hnone : s.core.sched.returns = []) :
    ∃ t p, exec i s = .next t ∧ t.core.regs = s.core.regs ∧ t.core.sched.asked = true ∧ t.out.emitted = s.out.emitted ++ [p] ∧ p.link = l ∧
      p.write = false ∧ p.len = 0 ∧ p.relaxed = false := by
  obtain ⟨p, hemitted, hp⟩ := emit_zeroRead s s.core.ctx hl
  refine ⟨awaitAnswer (emit s s.core.ctx false (linkHome s l) 0 false) (linkHome s l) false, p, ?_, ?_, rfl, hemitted, hp⟩
  · rw [exec_covers hi hdone, coverHost_asks hl hwrote hup hnone]; rfl
  · show (emit s s.core.ctx false (linkHome s l) 0 false).core.regs = _
    rw [emit_core]

theorem exec_covers_returned {r : Resp} {rest : List Resp} (hsome : s.core.sched.returns = r :: rest) :
    exec i s = .next (State.advance { s with core := { s.core with sched := { s.core.sched with returns := rest, wrote := 0 } } }) := by
  rw [exec_covers hi hdone, coverHost_returned hl hwrote hup hsome]; rfl

end

/-! ## WAITC -/

/-- A count is at or below its nibble of a WAITC's immediate, 15 being no limit (13 R226). -/
def NibbleHolds (n : BitVec 16) (i count : Nat) : Prop := n.toNat / 2 ^ (4 * i) % 16 = 15 ∨ count ≤ n.toNat / 2 ^ (4 * i) % 16

theorem bits_nibble (n : BitVec 16) (i : Nat) : bits n (4 * i + 3) (4 * i) = n.toNat / 2 ^ (4 * i) % 16 :=
  have hwidth : 4 * i + 3 + 1 - 4 * i = 4 := by omega
  (congrArg (fun k => (n.toNat >>> (4 * i)) % 2 ^ k) hwidth).trans (congrArg (· % 16) (Nat.shiftRight_eq_div_pow _ _))

theorem countsWithin_iff (s : State) (n : BitVec 16) :
    countsWithin s n = true ↔ NibbleHolds n 0 (loadsOut s) ∧ NibbleHolds n 1 (storesOut s) ∧ NibbleHolds n 2 (copiesOf s) ∧ NibbleHolds n 3 (tileOps s) := by
  simp only [countsWithin, counts, List.zipIdx_cons, List.zipIdx_nil, List.all_cons, List.all_nil, Bool.and_true, Bool.and_eq_true, Bool.or_eq_true, beq_iff_eq,
    decide_eq_true_eq, bits_nibble, NibbleHolds, Nat.zero_add]

theorem exec_waitc (n : BitVec 16) (s : State) : exec (.waitc n) s = .next (if countsWithin s n then s.advance else s.markStalled) := by
  show execWaitc n s = _
  unfold execWaitc
  split <;> rfl

/-- Settles O19: each wait by what it finds outstanding. -/
theorem fenceAndWaitResults : Obligations.FenceAndWaitResults := by
  unfold Obligations.FenceAndWaitResults
  intro s n
  refine ⟨fun h => exec_fence_passes (by decide) (by decide) (scopeOut_of_not_outIn (by decide) h),
    fun h => exec_fence_passes (by decide) (by decide) (scopeOut_of_not_outIn (by decide) h),
    fun sc hsc h => exec_fence_stalls hsc ((scopeOut_iff hsc s).mpr h), exec_drain_stalls, ?covers, rfl, rfl,
    fun h => ?within, fun h => ?beyond⟩
  case covers =>
    exact fun i hi hdone => ⟨exec_covers_down hi hdone, fun l hl hwrote hup =>
      have hmark := hwrote.trans (linkMark_eq hl)
      ⟨exec_covers_asks hi hdone hl hmark hup, fun r rest => exec_covers_returned hi hdone hl hmark hup⟩⟩
  case within => rw [exec_waitc, if_pos ((countsWithin_iff s n).mpr h)]
  case beyond => rw [exec_waitc, if_neg (mt (countsWithin_iff s n).mp h)]

end Sys2Proof.Machine
end

section
/-! SUPPORT. Cache control under a command's claim: the recall of 04 R80 moves the command on, so a CPREF's step writes the command's bytes. -/

namespace Sys2Proof.Machine

/-! ## CPREF at a slice -/

@[simp] theorem prefetchLine_mem (s : State) (n : Nat) : (prefetchLine s n).mem = s.mem := (prefetchLine_kept s n).2

/-- A CPREF that has passed its checks and gone its way to the slice leaves the memory that it found there (13 R228). -/
theorem exec_cpref_reaches {s u : State} {p : BitVec 3} {ac : Access} {h : Nat} (hprobe : probeAt s p = .ok (ac, h)) (hroom : storeRoom s = true)
    (hsl : isSliced h = true) (hreach : reach s (h / 128 * 128) 128 false = (u, true)) : ∃ t, exec (.cpref p) s = .next t ∧ t.mem = u.mem := by
  refine ⟨(awaitAck s ((prefetchLine u (h / 128)).touchTlb ac.va.toNat) h).advance, ?_, ?_⟩
  · show execCpref p s = _
    simp [execCpref, hprobe, hroom, hsl, hreach]
  · show (awaitAck s ((prefetchLine u (h / 128)).touchTlb ac.va.toNat) h).mem = _
    simp

/-! ## A FILL under way at the line that a CPREF names -/

/-- A writable page of context 1, 64 KiB of HBM4E from 0x40000 on. -/
def filledPage : Page :=
  { va := Config.translatedBase, size := 1, ctx := 1, pa := 0x40000, cow := false, tier := 0, il := false, mig := false, x := false, w := true, r := true }

/-- A FILL of the page's first doubleword with 0xFF, of which nothing is done (04 R75, R89). -/
def fillUnderWay : Cmd :=
  { (default : Cmd) with ecw0 := BitVec.ofNat 64 (3 + 8 * 2 ^ 32), ecw1 := 0xFF, ecw2 := BitVec.ofNat 64 Config.translatedBase, ctx := 1, key := 1 }

/-- Engine 0 runs it, while a task of context 1 runs on core 0, whose p0 points at the page. -/
def filling : State :=
  let s := State.reset.setAddr 0 (BitVec.ofNat 64 Config.translatedBase)
  { s with ctxs := [{ newCtx s { (default : CtxSpec) with num := 1, pages := [filledPage] } with running := true }],
           core := { s.core with ctx := 1, tlb := [filledPage], sched := { s.core.sched with running := true } },
           engines := s.engines.set! 0 { (default : Engine) with running := [fillUnderWay] } }

theorem probeAt_filling : probeAt filling 0 = .ok (⟨BitVec.ofNat 64 Config.translatedBase, 1, .home 0x40000⟩, 0x40000) := by rfl

/-- The access reaches its slice once the recall has moved the FILL to its end: its bytes are there. -/
theorem reach_filling : (reach filling 0x40000 128 false).2 = true ∧ readByte filling.mem 0x40000 = 0 ∧
    readByte (reach filling 0x40000 128 false).1.mem 0x40000 = 0xFF := by decide +kernel

/-- Refutes O20: its last part has CPREF keep every byte in every state, but where the line that it names is claimed by a FILL, the step's recall (04 R80,
log entry 10) writes the FILL's bytes. -/
theorem not_watchAndCacheResults : ¬ Obligations.WatchAndCacheResults := by
  unfold Obligations.WatchAndCacheResults
  rintro ⟨-, hcache⟩
  obtain ⟨-, -, ⟨t, hexec, hkept⟩, -⟩ := hcache filling 0 0
  obtain ⟨hway, hbefore, hafter⟩ := reach_filling
  obtain ⟨u, hnext, hmem⟩ := exec_cpref_reaches probeAt_filling (by decide) (by decide) (Prod.ext rfl hway)
  obtain rfl : u = t := Host.Outcome.next.inj (hnext.symm.trans hexec)
  have hbyte := hkept 0x40000
  rw [hmem, hbefore, hafter] at hbyte
  exact absurd hbyte (by decide)

end Sys2Proof.Machine
end

section
/-! SUPPORT. A copy engine's step on a command that has first to ask the driver for an address (04 R85, 06 R120): the service core is told, and the command
stands where it stood. -/

namespace Sys2Proof.Machine

open Sys2Proof.Says

/-! ## The one command under way -/

section
variable {s : State} {e : Nat} {c : Cmd} (h : OneCmd s e c)
include h

/-- Nothing of a lower key is there to wait for (04 R81). -/
theorem heldBy_oneCmd : c.heldBy s = none := by
  obtain ⟨-, hcmds, -⟩ := h
  simp [Cmd.heldBy, hcmds, sortCmds]

/-- No slice keeps it out: no line is locked, and no request waits (02 R32-R34). -/
theorem shut_oneCmd : c.shut s = false := by
  obtain ⟨-, -, -, -, hlines, hwaiting, hstop, -⟩ := h
  have hlocked (a n : Nat) : lockedFor s c.key a n = false := by
    simp only [lockedFor, lineShut, hwaiting, List.filter_nil, List.any_nil, Bool.or_false, List.any_eq_false]
    exact fun l hl => by simp [hlines l hl]
  have hintake (a : Nat) : intakeStopped s a = false := by simp [intakeStopped, hwaiting, hstop]
  simp [Cmd.shut, hlocked, hintake]

/-- It is not finished: it has bytes to move, and has not stopped. -/
theorem unfinished_oneCmd : c.finished s = false := by
  obtain ⟨-, -, -, -, -, -, -, -, -, -, -, hfault, hleft⟩ := h
  simp [Cmd.finished, hfault, hleft]

/-- With an address to ask for, its next piece is the question, and the command is as before. -/
theorem moveOne_asks {k : Bool × Nat × Nat} (hk : c.unasked s = some k) : moveOne s c = (askService s c k, c) := by
  have hunfinished := unfinished_oneCmd h
  simp only [Cmd.finished, Bool.or_eq_false_iff, decide_eq_false_iff_not] at hunfinished
  simp [moveOne, hunfinished, shut_oneCmd h, heldBy_oneCmd h, hk]

theorem advanceCmd_asks {k : Bool × Nat × Nat} (hk : c.unasked s = some k) :
    advanceCmd (allCmds s).length s c = setCmd (askService s c k) c := by
  obtain ⟨-, hcmds, -⟩ := id h
  simp [hcmds, advanceCmd, heldBy_oneCmd h, moveOne_asks h hk]

/-- The engine at work is one of the 32. -/
theorem engine_lt_of_oneCmd : e < 32 := by
  obtain ⟨-, -, hrun, -⟩ := h
  refine Nat.lt_of_not_le (fun hge => ?_)
  have hnone : engineOf s e = default := by
    rw [engineOf, List.getD_eq_getElem?_getD, List.getElem?_eq_none (Nat.le_trans (Nat.le_of_eq Vector.length_toList) hge), Option.getD_none]
  rw [hnone] at hrun
  cases hrun

end

/-! ## Engines changed and found again -/

theorem engineOf_updEngine (s : State) {e : Nat} (he : e < 32) (f : Engine → Engine) : engineOf (updEngine s e f) e = f (engineOf s e) := by
  simp [engineOf, updEngine, he]

theorem running_setCmd (s : State) (c : Cmd) (e : Nat) :
    (engineOf (setCmd s c) e).running = (engineOf s e).running.map (fun d => if d.key = c.key then c else d) := by
  simp only [engineOf, setCmd, Vector.toList_map, List.getD_eq_getElem?_getD, List.getElem?_map]
  cases s.engines.toList[e]? <;> rfl

theorem running_rotate (s : State) {e : Nat} (he : e < 32) (d : Cmd) :
    (engineOf (rotate s e d) e).running = (engineOf s e).running.filter (fun c => c.key != d.key) ++ [d] := by
  rw [rotate, engineOf_updEngine s he]

@[simp] theorem engineOf_due (s : State) (u : Nat) (i : Instr) (e : Nat) : engineOf (due s u i) e = engineOf s e := rfl
@[simp] theorem engineOf_dueOnce (s : State) (u : Nat) (i : Instr) (e : Nat) : engineOf (dueOnce s u i) e = engineOf s e := by
  unfold dueOnce; split <;> rfl
@[simp] theorem engineOf_dueEnds (s : State) (e k : Nat) : engineOf (dueEnds s e) k = engineOf s k := by
  unfold dueEnds; dsimp only; split <;> split <;> simp
@[simp] theorem engineOf_askService (s : State) (c : Cmd) (k : Bool × Nat × Nat) (e : Nat) : engineOf (askService s c k) e = engineOf s e := rfl

/-! ## The step -/

/-- At the step that asks, the command has moved nothing. -/
theorem engineStep_asks {s : State} {e : Nat} {c : Cmd} {p : Cmd → Bool} {k : Bool × Nat × Nat} (h : OneCmd s e c) (hp : p c = true)
    (hk : c.unasked s = some k) : (engineOf (engineStep s p) e).running = [c] := by
  have he := engine_lt_of_oneCmd h
  obtain ⟨hunit, -, hrun, hfenced, -⟩ := id h
  have hset : (engineOf (setCmd (askService s c k) c) e).running = [c] := by simp [running_setCmd, hrun]
  simp only [engineStep, hunit, hrun, hfenced, unfinished_oneCmd h, hp, advanceCmd_asks h hk, hset, List.find?_cons_of_pos, Bool.not_false, Bool.and_self,
    Bool.false_eq_true, if_false, beq_self_eq_true]
  split
  case isTrue => rw [engineOf_dueEnds, hset]
  case isFalse => simp [running_rotate _ he, hset]

/-! ## An MCAST whose offset lies beyond every vault -/

/-- A host-backed page of context 1, at the start of translated space, that the driver has not mapped yet (06 R120). -/
def gapPage : Page :=
  { va := Config.translatedBase, size := 1, ctx := 1, pa := Config.hostBase, cow := false, tier := 2, il := false, mig := false, x := false, w := true, r := true }

/-- An MCAST of 128 bytes from core 0's vault to vault 0 (04 R75, R90), whose offset is that page's address as counted from the windows' first byte. -/
def strayMcast : Cmd :=
  { (default : Cmd) with ecw0 := BitVec.ofNat 64 (4 + 2 ^ 16 + 128 * 2 ^ 32), ecw2 := BitVec.ofNat 64 (Config.translatedBase - Config.windowBase), ecw3 := 1,
                         ctx := 1, key := 1 }

/-- Engine 0 runs it; the driver has accepted the feature of host-backed ranges. -/
def strayState : State :=
  let s := State.reset
  { s with ctxs := [{ newCtx s { (default : CtxSpec) with num := 1 } with running := true, hostGaps := [gapPage] }],
           out := { s.out with accept := some (2 ^ 4) },
           engines := s.engines.set! 0 { (default : Engine) with running := [strayMcast] } }

theorem oneCmd_strayMcast : OneCmd strayState 0 strayMcast := by
  unfold OneCmd
  decide +kernel

/-- Its source can be read at once, and its destination's window address is one that the driver has to be asked for. -/
theorem unasked_strayMcast : engineHome strayState strayMcast 0 false = .ok (strayState, vaultHome 0 0) ∧
    strayMcast.unasked strayState = some (true, Config.translatedBase, 128) := ⟨rfl, by decide +kernel⟩

/-- Refutes O55: its clause on MCAST asks nothing of the destination's offset. Where that lies beyond every vault, which a go refuses (04 R76, R77) and the
statement does not, a line's window address can fall on a host-backed page: the step asks the driver for it (06 R120), and the command moves no byte. -/
theorem not_engineResults : ¬ Obligations.EngineResults := by
  unfold Obligations.EngineResults
  rintro ⟨hmoves, -⟩
  obtain ⟨-, -, -, -, hmcast, -⟩ := hmoves strayState 0 strayMcast oneCmd_strayMcast
  obtain ⟨hsrc, hask⟩ := unasked_strayMcast
  obtain ⟨t, hexec, ⟨⟨d, hrun, hmoved⟩, -⟩, -⟩ := hmcast (vaultHome 0 0) (by decide) rfl (by decide) hsrc
  obtain rfl : engineStep strayState (ofCode 4) = t := Host.Outcome.next.inj hexec
  have hstands : (engineOf (engineStep strayState (ofCode 4)) 0).running = [strayMcast] := engineStep_asks oneCmd_strayMcast (by decide) hask
  obtain rfl : strayMcast = d := List.head_eq_of_cons_eq (hstands.symm.trans hrun)
  exact absurd (congrArg Cmd.done hmoved) (by decide)

end Sys2Proof.Machine
end

section
/-! SUPPORT. What a read and a write at a home may change: the frames of the state's operations, and that they compose (03 R62, 06 R114, 26 R371). -/

namespace Sys2Proof.Says

open Sys2Proof.Machine

/-! ## Cores that have no part in an access -/

theorem SluiceKept.refl (x : Sluice) : SluiceKept x x := by
  cases h : x.shadow with
  | none => exact ⟨none, by rw [h, Option.map_none, ← h]⟩
  | some sh => exact ⟨sh.mx.bypass, by rw [h, Option.map_some, ← h]⟩
theorem SluiceKept.trans {x y z : Sluice} (h : SluiceKept x y) (k : SluiceKept y z) : SluiceKept x z := by
  obtain ⟨v, rfl⟩ := h
  obtain ⟨w, rfl⟩ := k
  exact ⟨w, by rw [Option.map_map]; rfl⟩

theorem CoreKept.refl (c : Core) : CoreKept c c := ⟨rfl, .refl _⟩
theorem CoreKept.trans {c d e : Core} (h : CoreKept c d) (k : CoreKept d e) : CoreKept c e := by
  obtain ⟨hd, hsluice⟩ := h
  obtain ⟨he, ksluice⟩ := k
  exact ⟨he.trans (by rw [hd]), hsluice.trans ksluice⟩

theorem OthersKept.refl (s : State) : OthersKept s s := ⟨id, .refl, by simp⟩
theorem OthersKept.trans {s t u : State} (h : OthersKept s t) (k : OthersKept t u) : OthersKept s u := by
  obtain ⟨f, hf, ht⟩ := h
  obtain ⟨g, hg, hu⟩ := k
  exact ⟨g ∘ f, fun c => (hf c).trans (hg _), by simp [hu, ht]⟩

/-- A line that goes takes no more than a watch. -/
theorem coreKept_loseWatch (n : Nat) (c : Core) : CoreKept c (c.loseWatch n) := by
  rw [loseWatch_core]
  exact ⟨rfl, .refl _⟩

theorem voidBypass_matrix (num a n : Nat) (m : Matrix) : m.voidBypass num a n = { m with bypass := (m.voidBypass num a n).bypass } := by
  unfold Matrix.voidBypass
  repeat' split
  all_goals rfl

theorem seeWrite_core (a n : Nat) (c : Core) : c.seeWrite a n = { c with watch := (c.seeWrite a n).watch } := by
  unfold Core.seeWrite
  repeat' split
  all_goals rfl

theorem coreKept_seeWrite (a n : Nat) (c : Core) : CoreKept c (c.seeWrite a n) := by
  rw [seeWrite_core]
  exact ⟨rfl, .refl _⟩

theorem coreKept_voidBypass (a n : Nat) (c : Core) : CoreKept c (c.voidBypass a n) := by
  unfold Core.voidBypass
  rw [voidBypass_matrix]
  dsimp only
  split
  next sh hshadow =>
    rw [voidBypass_matrix]
    exact ⟨rfl, (sh.mx.voidBypass c.num a n).bypass, by rw [hshadow]; rfl⟩
  next => exact ⟨rfl, .refl _⟩

/-- A write is seen by a watch, and voids bypass buffers. -/
theorem coreKept_watchWrite (a n : Nat) (c : Core) : CoreKept c (c.watchWrite a n) := (coreKept_seeWrite a n c).trans (coreKept_voidBypass a n _)

/-! ## Reads -/

theorem ReadFrame.trans {s t u : State} (h : ReadFrame s t) (k : ReadFrame t u) : ReadFrame s u := by
  obtain ⟨ht, hothers⟩ := h
  obtain ⟨hu, kothers⟩ := k
  exact ⟨hu.trans (by rw [ht]), hothers.trans kothers⟩

theorem ReadFrame.mem {s t : State} (h : ReadFrame s t) : t.mem = s.mem := by
  obtain ⟨ht, -⟩ := h
  rw [ht]

theorem readFrame_loseWatch (s : State) (n : Nat) : ReadFrame s (loseWatch s n) := by
  refine ⟨?_, fun c => c.loseWatch n, coreKept_loseWatch n, rfl⟩
  unfold loseWatch
  rw [loseWatch_core]

theorem readFrame_loseEvicted (s : State) (n : Nat) : ReadFrame s (loseEvicted s n) := by
  unfold loseEvicted
  split
  next => exact readFrame_loseWatch _ _
  next => exact ⟨rfl, .refl _⟩

theorem ReadFrame.withLines {s t : State} (h : ReadFrame s t) (ls : List Line) (ts : List (Nat × BitVec 64)) :
    ReadFrame s { t with lines := ls, trees := ts } := h.trans ⟨rfl, .refl _⟩

theorem readFrame_loadLine (s : State) (a n : Nat) (al : Bool) : ReadFrame s (loadLine s a n al) := by
  unfold loadLine
  split
  case isTrue => exact (readFrame_loseEvicted _ _).withLines _ _
  case isFalse => exact ⟨rfl, .refl _⟩

theorem readFrame_storeLine (s : State) (a n : Nat) (th : Bool) : ReadFrame s (storeLine s a n th) := by
  unfold storeLine
  split
  case isTrue => exact (readFrame_loseEvicted _ _).withLines _ _
  case isFalse => exact ⟨rfl, .refl _⟩

theorem readFrame_touchTlb (s : State) (va : Nat) : ReadFrame s (s.touchTlb va) := by
  refine ⟨?_, id, .refl, ?_⟩ <;> rw [touchTlb_frame]
  simp

theorem readFrame_withRegs (s : State) (r : Regs) : ReadFrame s (s.withRegs r) := ⟨rfl, .refl _⟩

/-! ## Writes -/

theorem WriteFrame.trans {s t u : State} (h : WriteFrame s t) (k : WriteFrame t u) : WriteFrame s u := by
  obtain ⟨ht, hsluice, hothers⟩ := h
  obtain ⟨hu, ksluice, kothers⟩ := k
  exact ⟨hu.trans (by rw [ht]), hsluice.trans ksluice, hothers.trans kothers⟩

/-- A read changes no more than a write may. -/
theorem ReadFrame.writeFrame {s t : State} (h : ReadFrame s t) : WriteFrame s t := by
  obtain ⟨ht, hothers⟩ := h
  exact ⟨ht.trans (by rw [ht]), by rw [ht]; exact .refl _, hothers⟩

theorem writeFrame_homeWrite (s : State) (a n v : Nat) : WriteFrame s (homeWrite s a n v) := by
  unfold homeWrite watchWrite
  split
  case isTrue => exact ⟨rfl, .refl _, .refl _⟩
  case isFalse =>
    obtain ⟨hcore, hsluice⟩ := coreKept_watchWrite a n s.core
    exact ⟨by rw [hcore], hsluice, _, coreKept_watchWrite a n, rfl⟩

theorem writeFrame_performWrite (s : State) (a n v : Nat) (th : Bool) : WriteFrame s (performWrite s a n v th) :=
  (readFrame_storeLine s a n th).writeFrame.trans (writeFrame_homeWrite _ a n v)

theorem writeFrame_awaitAck (b s : State) (h : Nat) : WriteFrame s (awaitAck b s h) := by
  unfold awaitAck awaitAckOf
  dsimp only
  split <;> exact ⟨rfl, .refl _, .refl _⟩

/-! ## Bytes written at its home -/

theorem stored_performWrite (s : State) (h n v : Nat) (th : Bool) : Stored s (performWrite s h n v th) h n v := by
  refine ⟨?_, fun a ha => ?_, writeFrame_performWrite s h n v th⟩
  · rw [performWrite_mem, readNat_writeNat_same]
  · rw [performWrite_mem, readByte_writeNat_outside _ _ _ _ _ (by omega)]

/-- What leaves memory's bytes leaves them stored, before the write and after it. -/
theorem Stored.after {s t u : State} {h n v : Nat} (hread : ReadFrame s t) (hstored : Stored t u h n v) : Stored s u h n v := by
  obtain ⟨hval, hout, hframe⟩ := hstored
  have hmem : t.mem = s.mem := hread.mem
  exact ⟨hval, fun a ha => by rw [hout a ha, hmem], hread.writeFrame.trans hframe⟩
theorem Stored.before {s t u : State} {h n v : Nat} (hstored : Stored s t h n v) (hframe : WriteFrame t u) (hmem : u.mem = t.mem) :
    Stored s u h n v := by
  obtain ⟨hval, hout, hwrite⟩ := hstored
  exact ⟨by rw [hmem, hval], fun a ha => by rw [hmem, hout a ha], hwrite.trans hframe⟩

/-! ## The end of an M-format instruction -/

theorem awaitAck_regs (b s : State) (h : Nat) : (awaitAck b s h).core.regs = s.core.regs := by
  unfold awaitAck awaitAckOf
  dsimp only
  split <;> rfl

theorem readFrame_setA (s : State) (v : Word) : ReadFrame s (s.setA v) := readFrame_withRegs s _
/-- The pointer's move and PC's leave all but the scalar registers. -/
theorem readFrame_movePtr_advance (s : State) (m : MOp) (v : Word) : ReadFrame s (movePtr s m v).advance := readFrame_withRegs s _
/-- They depend on the registers only. -/
theorem movePtr_advance_regs {s u : State} (h : u.core.regs = s.core.regs) (m : MOp) (v : Word) :
    (movePtr u m v).advance.core.regs = (movePtr s m v).advance.core.regs := by
  simp only [movePtr, State.advance, State.setPc, State.setAddr, State.setPtr, State.withRegs, State.ptr, h]

end Sys2Proof.Says
end

section
/-! SUPPORT. The stamped operations: the one step that they share at a home that can act, and the laws of stamped words (07 R122-R131, 13 R224). -/

namespace Sys2Proof.Machine

open Sys2Proof.Says

/-! ## The step that they share -/

/-- A checked access that reaches a home is of its address and size. -/
theorem checkAccess_of_homeOf {s : State} {va : Word} {n h : Nat} {k : Kind} (e : homeOf s va n k = some h) :
    checkAccess s va n k = .ok ⟨va, n, .home h⟩ := by
  unfold homeOf at e
  split at e
  next va' n' h' hok =>
    obtain ⟨hva, hn, -, -⟩ := checkAccess_ok hok
    cases e
    rw [hok, ← hva, ← hn]
  next => cases e

theorem stampHome_of_homeOf {s : State} {m : MOp} {h : Nat} {k : Kind} (e : homeOf s (effAddr s m) 8 k = some h) :
    stampHome s m k = .ok (⟨effAddr s m, 8, .home h⟩, h) := by
  simp [stampHome, checkAccess_of_homeOf e]

theorem stampRegion_of_class {s : State} {x : Ctx} {va : Word} {h cls : Nat} (hx : myCtx s = some x) (hcls : regionClass x va.toNat h = some cls) :
    stampRegion s va h = .ok (x, cls) := by
  simp [stampRegion, hx, hcls]

theorem stampRegion_outside {s : State} {va : Word} {h : Nat} (hnone : ∀ x, myCtx s = some x → regionClass x va.toNat h = none) :
    stampRegion s va h = .error (.trap cSTAMP va 1) := by
  unfold stampRegion
  cases hx : myCtx s with
  | none => rfl
  | some x => simp [hnone x hx]

/-- What the two kinds of operation do with a STAMP code c: those that return nothing tell it, the others trap (07 R129). -/
def stampFails (s : State) (va : Word) (fn c : Nat) : Res (State × Word) :=
  if fn = 1 ∨ fn = 3 then .ok (stampUpcall s s.core.ctx s.core.num va s.core.regs.pc c, 0) else .error (.trap cSTAMP va (BitVec.ofNat 64 c))

/-- An address outside every region is STAMP 0x01. -/
theorem stampStep_outside {s : State} {va : Word} {h : Nat} (hfar : isFar h = false)
    (hnone : ∀ x, myCtx s = some x → regionClass x va.toNat h = none) (fn : Nat) :
    stampStep s ⟨va, 8, .home h⟩ h fn = stampFails s va fn 1 := by
  simp [stampStep, stampFails, hfar, stampRegion_outside hnone]

section
variable {s : State} {x : Ctx} {va : Word} {h cls : Nat} (hacts : ActsAt s h 8) (hx : myCtx s = some x) (hcls : regionClass x va.toNat h = some cls)
include hacts hx hcls

/-- Where the home can act at once, the operation is performed there, and a posted one's acknowledgement is awaited. -/
theorem stampStep_performs {fn : Nat} {t : State} {w : Word} (hat : stampAt s x cls h fn s.core.regs.a = .ok (t, w)) :
    stampStep s ⟨va, 8, .home h⟩ h fn = .ok (if fn = 1 ∨ fn = 3 then awaitAck s (t.touchTlb va.toNat) h else t.touchTlb va.toNat, w) := by
  obtain ⟨⟨⟨hcalm, hout, -⟩, hord, -⟩, hfar, hclean⟩ := hacts
  have hroom : storeRoom s = true := by simpa [storeRoom] using hout
  simp [stampStep, hfar, stampRegion_of_class hx hcls, hord, hroom, loadRoom_calm hcalm, reach_calm hcalm, hclean, hat]

theorem stampStep_fails {fn c : Nat} (hc : stampCheck x.decay cls (nowOf x.held) fn (homeWord s h) s.core.regs.a = some c) :
    stampStep s ⟨va, 8, .home h⟩ h fn = stampFails s va fn c := by
  obtain ⟨⟨⟨hcalm, hout, -⟩, hord, -⟩, hfar, hclean⟩ := hacts
  have hroom : storeRoom s = true := by simpa [storeRoom] using hout
  have hat : stampAt s x cls h fn s.core.regs.a = .error c := by simp [stampAt, hc]
  simp [stampStep, stampFails, hfar, stampRegion_of_class hx hcls, hord, hroom, loadRoom_calm hcalm, reach_calm hcalm, hclean, hat]

theorem stampStep_reads {fn : Nat} {w : Word} (hfn : fn ≠ 1 ∧ fn ≠ 3) (hc : stampCheck x.decay cls (nowOf x.held) fn (homeWord s h) s.core.regs.a = none)
    (heff : stampEffect (x.decay.getD []) cls (nowOf x.held) (baseOf x.held) fn (homeWord s h) s.core.regs.a = (none, w)) :
    stampStep s ⟨va, 8, .home h⟩ h fn = .ok ((loadLine s h 8 true).touchTlb va.toNat, w) := by
  have hat : stampAt s x cls h fn s.core.regs.a = .ok (loadLine s h 8 true, w) := by simp [stampAt, hc, heff]
  rw [stampStep_performs hacts hx hcls hat, if_neg (by simp [hfn])]

theorem stampStep_writes {fn : Nat} {v w : Word} (hc : stampCheck x.decay cls (nowOf x.held) fn (homeWord s h) s.core.regs.a = none)
    (heff : stampEffect (x.decay.getD []) cls (nowOf x.held) (baseOf x.held) fn (homeWord s h) s.core.regs.a = (some v, w)) :
    ∃ t, stampStep s ⟨va, 8, .home h⟩ h fn = .ok (t, w) ∧ Stored s t h 8 v.toNat ∧ t.core.regs = s.core.regs := by
  have hat : stampAt s x cls h fn s.core.regs.a = .ok (performWrite (loadLine s h 8 true) h 8 v.toNat false, w) := by simp [stampAt, hc, heff]
  have hput : Stored s ((performWrite (loadLine s h 8 true) h 8 v.toNat false).touchTlb va.toNat) h 8 v.toNat :=
    ((stored_performWrite _ h 8 v.toNat false).after (readFrame_loadLine s h 8 true)).before (readFrame_touchTlb _ _).writeFrame (touchTlb_mem _ _)
  have hregs : ((performWrite (loadLine s h 8 true) h 8 v.toNat false).touchTlb va.toNat).core.regs = s.core.regs := by
    rw [touchTlb_regs, performWrite_regs, (loadLine_kept s h 8 true).regs]
  refine ⟨_, stampStep_performs hacts hx hcls hat, ?_⟩
  split
  case isTrue => exact ⟨hput.before (writeFrame_awaitAck _ _ _) (awaitAck_mem _ _ _), (awaitAck_regs _ _ _).trans hregs⟩
  case isFalse => exact ⟨hput, hregs⟩

end

/-! ## What the operations write and return (07 R131, 13 R224) -/

section
variable (tbl : List (List W32)) (cls : Nat) (now base : BitVec 24) (w o : Word)

theorem stampEffect_sld : stampEffect tbl cls now base 0 w o =
    (none, stampWord now (logical tbl now base w).cls ((logical tbl now base w).faded tbl)) := rfl
theorem stampEffect_sst : stampEffect tbl cls now base 1 w o = (some (stampWord now cls (valueOf o)), 0) := rfl
theorem stampEffect_sadd : stampEffect tbl cls now base 2 w o =
    (some (stampWord now (logical tbl now base w).cls (add32 ((logical tbl now base w).faded tbl) (valueOf o))),
      stampWord now (logical tbl now base w).cls (add32 ((logical tbl now base w).faded tbl) (valueOf o))) := rfl
theorem stampEffect_saddN : stampEffect tbl cls now base 3 w o = stampEffect tbl cls now base 2 w o := rfl
theorem stampEffect_smrg : stampEffect tbl cls now base 4 w o =
    (some (mergeStamped tbl (logical tbl now base w) (logical tbl now base o)),
      mergeStamped tbl (logical tbl now base w) (logical tbl now base o)) := rfl
theorem stampEffect_sage : stampEffect tbl cls now base 5 w o = (none, BitVec.ofNat 64 (logical tbl now base w).age) := rfl
theorem stampEffect_srebase : stampEffect tbl cls now base 6 w o =
    (some (stampWord now (logical tbl now base w).cls ((logical tbl now base w).faded tbl)),
      stampWord now (logical tbl now base w).cls ((logical tbl now base w).faded tbl)) := rfl

/-- The posted addition is checked as the one that returns the sum. -/
theorem stampCheck_saddN (tbl : Option (List (List W32))) : stampCheck tbl cls now 3 w o = stampCheck tbl cls now 2 w o := by
  simp [stampCheck]

end

/-! ## The instructions -/

section
variable {s : State} {m : MOp} {h : Nat} {k : Kind}

/-- How an operation that returns a word ends. -/
theorem stampR_of_step (hhome : homeOf s (effAddr s m) 8 k = some h) {t : State} {w : Word} {fn : Nat}
    (hstep : stampStep s ⟨effAddr s m, 8, .home h⟩ h fn = .ok (t, w)) :
    stampR s m k fn = .next ((movePtr t m (nextAddr s m)).advance.setA w) := by
  simp [stampR, stampHome_of_homeOf hhome, hstep]
theorem stampN_of_step (hhome : homeOf s (effAddr s m) 8 .atomic = some h) {t : State} {w : Word} {fn : Nat}
    (hstep : stampStep s ⟨effAddr s m, 8, .home h⟩ h fn = .ok (t, w)) :
    stampN s m fn = .next (movePtr t m (nextAddr s m)).advance := by
  simp [stampN, stampHome_of_homeOf hhome, hstep]

/-- A STAMP code of an operation that returns a word is a precise trap. -/
theorem stampR_traps (hhome : homeOf s (effAddr s m) 8 k = some h) {fn c : Nat} (hfn : fn ≠ 1 ∧ fn ≠ 3)
    (hstep : stampStep s ⟨effAddr s m, 8, .home h⟩ h fn = stampFails s (effAddr s m) fn c) :
    stampR s m k fn = .next (trapOf s 0x16 (effAddr s m) (BitVec.ofNat 64 c)) := by
  simp [stampR, stampHome_of_homeOf hhome, hstep, stampFails, hfn, trapOf, cSTAMP]
/-- Of one that returns nothing it is an upcall, and the operation goes on: R129 says so of SADD.N, and the model reads SST likewise (log entries 15, 17). -/
theorem stampN_tells (hhome : homeOf s (effAddr s m) 8 .atomic = some h) {fn c : Nat} (hfn : fn = 1 ∨ fn = 3)
    (hstep : stampStep s ⟨effAddr s m, 8, .home h⟩ h fn = stampFails s (effAddr s m) fn c) :
    stampN s m fn = .next (tellOf s m (effAddr s m) c) := by
  rw [stampFails, if_pos hfn] at hstep
  exact stampN_of_step hhome hstep

variable {x : Ctx} {cls : Nat} (hacts : ActsAt s h 8) (hx : myCtx s = some x) (hcls : regionClass x (effAddr s m).toNat h = some cls)
include hacts hx hcls

/-- An operation that writes nothing leaves in a the word that it returns. -/
theorem stampR_reads (hhome : homeOf s (effAddr s m) 8 k = some h) {fn : Nat} {w : Word} (hfn : fn ≠ 1 ∧ fn ≠ 3)
    (hc : stampCheck x.decay cls (nowOf x.held) fn (homeWord s h) s.core.regs.a = none)
    (heff : stampEffect (x.decay.getD []) cls (nowOf x.held) (baseOf x.held) fn (homeWord s h) s.core.regs.a = (none, w)) :
    ∃ t, stampR s m k fn = .next t ∧ ReadFrame s t ∧ t.core.regs = { movedRegs s m with a := w } := by
  have hregs : ((loadLine s h 8 true).touchTlb (effAddr s m).toNat).core.regs = s.core.regs := by
    rw [touchTlb_regs, (loadLine_kept s h 8 true).regs]
  refine ⟨_, stampR_of_step hhome (stampStep_reads hacts hx hcls hfn hc heff), ?_, ?_⟩
  · exact ((readFrame_loadLine s h 8 true).trans (readFrame_touchTlb _ _)).trans ((readFrame_movePtr_advance _ m _).trans (readFrame_setA _ w))
  · rw [movedRegs, ← movePtr_advance_regs hregs]
    rfl

/-- One that writes leaves the word at the home, and, where it returns one, a word in a. -/
theorem stampR_writes (hhome : homeOf s (effAddr s m) 8 k = some h) {fn : Nat} {v w : Word}
    (hc : stampCheck x.decay cls (nowOf x.held) fn (homeWord s h) s.core.regs.a = none)
    (heff : stampEffect (x.decay.getD []) cls (nowOf x.held) (baseOf x.held) fn (homeWord s h) s.core.regs.a = (some v, w)) :
    ∃ t, stampR s m k fn = .next t ∧ Stored s t h 8 v.toNat ∧ t.core.regs = { movedRegs s m with a := w } := by
  obtain ⟨u, hstep, hput, hregs⟩ := stampStep_writes hacts hx hcls hc heff
  refine ⟨_, stampR_of_step hhome hstep, hput.before ((readFrame_movePtr_advance u m _).trans (readFrame_setA _ w)).writeFrame rfl, ?_⟩
  rw [movedRegs, ← movePtr_advance_regs hregs]
  rfl
theorem stampN_writes (hhome : homeOf s (effAddr s m) 8 .atomic = some h) {fn : Nat} {v w : Word}
    (hc : stampCheck x.decay cls (nowOf x.held) fn (homeWord s h) s.core.regs.a = none)
    (heff : stampEffect (x.decay.getD []) cls (nowOf x.held) (baseOf x.held) fn (homeWord s h) s.core.regs.a = (some v, w)) :
    ∃ t, stampN s m fn = .next t ∧ Stored s t h 8 v.toNat ∧ t.core.regs = movedRegs s m := by
  obtain ⟨u, hstep, hput, hregs⟩ := stampStep_writes hacts hx hcls hc heff
  refine ⟨_, stampN_of_step hhome hstep, hput.before (readFrame_movePtr_advance u m _).writeFrame rfl, ?_⟩
  rw [movedRegs, ← movePtr_advance_regs hregs]

end

/-! ## The laws of stamped words (07 R122, R126, R130, R131) -/

/-- The number that a stamped word is of its fields. -/
theorem toNat_stampWord (st : BitVec 24) {c : Nat} (v : W32) (hc : c < 16) :
    (stampWord st c v).toNat = st.toNat * 2 ^ 40 + c * 2 ^ 36 + v.toNat := by
  have hst := st.isLt
  have hv := v.isLt
  rw [stampWord, BitVec.toNat_ofNat, Nat.mod_eq_of_lt hc, Nat.mod_eq_of_lt (by omega)]

/-- A stamped word keeps its fields. -/
theorem stampWord_fields (st : BitVec 24) {c : Nat} (v : W32) (hc : c < 16) :
    stampOf (stampWord st c v) = st ∧ classOf (stampWord st c v) = c ∧ stampZero (stampWord st c v) = true ∧ valueOf (stampWord st c v) = v := by
  have hst := st.isLt
  have hv := v.isLt
  have hnat := toNat_stampWord st v hc
  refine ⟨BitVec.eq_of_toNat_eq ?_, ?_, ?_, BitVec.eq_of_toNat_eq ?_⟩
  · rw [stampOf, BitVec.extractLsb'_toNat, hnat, Nat.shiftRight_eq_div_pow]
    omega
  · rw [classOf, bits, hnat, Nat.shiftRight_eq_div_pow]
    omega
  · rw [stampZero, bits, hnat, Nat.shiftRight_eq_div_pow, beq_iff_eq]
    omega
  · rw [valueOf, BitVec.extractLsb'_toNat, hnat, Nat.shiftRight_eq_div_pow]
    omega

/-- A word no older than the base is its own logical word. -/
theorem logical_newer {now base : BitVec 24} {w : Word} (hage : (now - stampOf w).toNat ≤ (now - base).toNat) (tbl : List (List W32)) :
    logical tbl now base w = ⟨stampOf w, classOf w, valueOf w, (now - stampOf w).toNat⟩ := if_neg (Nat.not_lt.mpr hage)
/-- An older one takes the base as its stamp, its value decayed by the steps between. -/
theorem logical_older {now base : BitVec 24} {w : Word} (hage : (now - base).toNat < (now - stampOf w).toNat) (tbl : List (List W32)) :
    logical tbl now base w = ⟨base, classOf w,
      mul32 (valueOf w) (decayOf tbl (classOf w) ((now - stampOf w).toNat - (now - base).toNat)), (now - base).toNat⟩ := if_pos hage

theorem decayOf_class15 (tbl : List (List W32)) (n : Nat) : decayOf tbl 15 n = 0x3F800000 := if_pos rfl

/-- Over no step nothing is multiplied. -/
theorem decayChain_zero (ps : List W32) (d : W32) : decayChain ps 0 d = d := by
  induction ps with
  | nil => rfl
  | cons p ps ih => exact ih
theorem decayOf_zero (tbl : List (List W32)) (c : Nat) : decayOf tbl c 0 = 0x3F800000 := by
  rw [decayOf, decayChain_zero, ite_self]

/-- A merge is stamped with the newer stamp, in the class of the first. -/
theorem mergeStamped_fields (tbl : List (List W32)) {l : Logical} (o : Logical) (hcls : l.cls < 16) :
    stampOf (mergeStamped tbl l o) = (if o.age ≤ l.age then o.st else l.st) ∧ classOf (mergeStamped tbl l o) = l.cls := by
  unfold mergeStamped
  split
  all_goals
    obtain ⟨hstamp, hclass, -, -⟩ := stampWord_fields _ _ hcls
    exact ⟨hstamp, hclass⟩

/-! ## The statement -/

/-- Settles O14: every instruction is the step that they share with its FN, so that what it writes and returns is `stampEffect` and how it fails is
`stampFails`; the laws are those of the words' fields. -/
theorem stampedResults : Obligations.StampedResults := by
  unfold Obligations.StampedResults
  refine ⟨⟨fun s m x cls h => ?acts, fun s m h => ?outside⟩, fun st c v hc => stampWord_fields st v hc, fun tbl now base w => (logical_newer · tbl),
    fun tbl now base w => (logical_older · tbl), decayOf_class15, decayOf_zero, fun tbl l o => mergeStamped_fields tbl o⟩
  case acts =>
    dsimp only
    intro hhome hprobe hacts hx hcls
    refine ⟨?sld, ?sst, ?sadd, ?smrg, ?sage, ?srebase, ?traps, ?tells⟩
    case sld => exact fun hc => stampR_reads hacts hx hcls hprobe (by decide) hc (stampEffect_sld ..)
    case sst => exact fun hc => stampN_writes hacts hx hcls hhome hc (stampEffect_sst ..)
    case sadd =>
      exact fun hc => ⟨stampR_writes hacts hx hcls hhome hc (stampEffect_sadd ..),
        stampN_writes hacts hx hcls hhome ((stampCheck_saddN ..).trans hc) ((stampEffect_saddN ..).trans (stampEffect_sadd ..))⟩
    case smrg => exact fun hc => stampR_writes hacts hx hcls hhome hc (stampEffect_smrg ..)
    case sage => exact fun hc => stampR_reads hacts hx hcls hprobe (by decide) hc (stampEffect_sage ..)
    case srebase => exact fun hc => stampR_writes hacts hx hcls hhome hc (stampEffect_srebase ..)
    case traps =>
      intro i fn c hi hc
      have hstep := stampStep_fails hacts hx hcls hc
      simp only [List.mem_cons, Prod.mk.injEq, List.not_mem_nil, or_false] at hi
      obtain ⟨rfl, rfl⟩ | ⟨rfl, rfl⟩ | ⟨rfl, rfl⟩ | ⟨rfl, rfl⟩ | ⟨rfl, rfl⟩ := hi
      · exact stampR_traps hprobe (by decide) hstep
      · exact stampR_traps hhome (by decide) hstep
      · exact stampR_traps hhome (by decide) hstep
      · exact stampR_traps hprobe (by decide) hstep
      · exact stampR_traps hhome (by decide) hstep
    case tells =>
      intro i fn c hi hc
      have hstep := stampStep_fails hacts hx hcls hc
      simp only [List.mem_cons, Prod.mk.injEq, List.not_mem_nil, or_false] at hi
      obtain ⟨rfl, rfl⟩ | ⟨rfl, rfl⟩ := hi
      · exact stampN_tells hhome (by decide) hstep
      · exact stampN_tells hhome (by decide) hstep
  case outside =>
    intro hhome hprobe hfar hnone
    have hstep := stampStep_outside hfar hnone
    refine ⟨?traps, ?tells⟩
    case traps =>
      simp only [List.forall_mem_cons, List.not_mem_nil, false_imp_iff, implies_true, and_true]
      exact ⟨stampR_traps hprobe (by decide) (hstep 0), stampR_traps hhome (by decide) (hstep 2), stampR_traps hhome (by decide) (hstep 4),
        stampR_traps hprobe (by decide) (hstep 5), stampR_traps hhome (by decide) (hstep 6)⟩
    case tells =>
      simp only [List.forall_mem_cons, List.not_mem_nil, false_imp_iff, implies_true, and_true]
      exact ⟨stampN_tells hhome (by decide) (hstep 1), stampN_tells hhome (by decide) (hstep 3)⟩

end Sys2Proof.Machine
end

section
/-! SUPPORT. The step home and the tables that a context loads: contexts and tasks set and found again, STEP and its increments, the sweeps of a new base,
a table taken or refused, and what the matrix engine ends (07 R123-R136, 16 R264, 18 R310, R316). -/

namespace Sys2Proof.Machine

open Sys2Proof.Says

/-! ## Contexts set and found again -/

theorem num_of_ctxOf {s : State} {n : Nat} {x : Ctx} (hx : ctxOf s n = some x) : x.num = n := by
  simpa using List.find?_some hx

/-- A context is found by its own number. -/
theorem ctxOf_num {s : State} {n : Nat} {x : Ctx} (hx : ctxOf s n = some x) : ctxOf s x.num = some x := by rw [num_of_ctxOf hx, hx]

/-- A context that has been changed is what the change made of it, as long as it keeps its number. -/
theorem ctxOf_updCtx {s : State} {n : Nat} {x : Ctx} (hx : ctxOf s n = some x) {f : Ctx → Ctx} (hf : ∀ c, (f c).num = c.num) :
    ctxOf (updCtx s n f) n = some (f x) := by
  have hkeys : (fun c : Ctx => c.num == n) ∘ (fun c => if c.num = n then f c else c) = fun c => c.num == n := by
    funext c
    simp only [Function.comp_apply]
    split <;> simp [hf]
  unfold ctxOf at hx
  rw [ctxOf, updCtx, List.find?_map, hkeys, hx, Option.map_some, if_pos (num_of_ctxOf hx)]

@[simp] theorem coreOf_updCtx (s : State) (n : Nat) (f : Ctx → Ctx) (g : Nat) : coreOf (updCtx s n f) g = coreOf s g := rfl
@[simp] theorem coreOf_due (s : State) (u : Nat) (i : Instr) (g : Nat) : coreOf (due s u i) g = coreOf s g := rfl
@[simp] theorem ctxOf_due (s : State) (u : Nat) (i : Instr) (n : Nat) : ctxOf (due s u i) n = ctxOf s n := rfl

/-- Changes of one context after another are one change. -/
theorem updCtx_updCtx (s : State) (n : Nat) {f : Ctx → Ctx} (g : Ctx → Ctx) (hf : ∀ c, (f c).num = c.num) :
    updCtx (updCtx s n f) n g = updCtx s n (g ∘ f) := by
  unfold updCtx
  rw [List.map_map]
  congr 2
  funext c
  by_cases hc : c.num = n <;> simp [hc, hf]

/-! ## Tasks set and found again -/

theorem otherCore_putOther_ne {g k : Nat} (hne : k ≠ g) (c : Core) (l : List (Nat × Core)) : otherCore (putOther g c l) k = otherCore l k := by
  induction l with
  | nil => simp [putOther, otherCore, hne.symm]
  | cons e r ih =>
    simp only [putOther]
    split
    next => simp [otherCore, hne.symm]
    next =>
      split
      next heq => simp [otherCore, hne.symm, ← heq]
      next => simp [otherCore, ih]

/-- The other cores are as before. -/
theorem coreOf_updCore_ne (s : State) {g k : Nat} (hne : k ≠ g) {f : Core → Core} (hnum : ∀ c, (f c).num = c.num) :
    coreOf (updCore s g f) k = coreOf s k := by
  unfold updCore setCore
  split
  next hcur =>
    subst hcur
    simp [coreOf, hnum, hne.symm]
  next => simp only [coreOf, otherCore_putOther_ne hne]

@[simp] theorem ctxOf_updCore (s : State) (g : Nat) (f : Core → Core) (n : Nat) : ctxOf (updCore s g f) n = ctxOf s n := by
  unfold updCore setCore; split <;> rfl
@[simp] theorem ctxOf_updTask (s : State) (cx g : Nat) (f : Core → Core) (n : Nat) : ctxOf (updTask s cx g f) n = ctxOf s n := by
  unfold updTask
  split
  · exact ctxOf_updCore s g f n
  · rfl
@[simp] theorem updTask_pending (s : State) (cx g : Nat) (f : Core → Core) : (updTask s cx g f).pending = s.pending := by
  unfold updTask updCore setCore
  repeat' split
  all_goals rfl

/-- A task's change reaches the core that it stands on, and no other. -/
theorem coreOf_updTask (s : State) (cx g k : Nat) {f : Core → Core} (hnum : ∀ c, (f c).num = c.num) :
    coreOf (updTask s cx g f) k = if k = g ∧ standsHere s cx k = true then f (coreOf s k) else coreOf s k := by
  have hsaves (u : State) : coreOf { u with saves := u.saves.map (fun e => if e.1 = cx * 2048 + g then (e.1, f e.2) else e) } k = coreOf u k := rfl
  rw [updTask, hsaves]
  by_cases hk : k = g
  · subst hk
    by_cases hstands : standsHere s cx k = true
    · rw [if_pos hstands, if_pos ⟨rfl, hstands⟩, coreOf_updCore _ _ _ (hnum _)]
    · rw [if_neg hstands, if_neg (fun h => hstands h.2)]
  · rw [apply_ite (fun u => coreOf u k), coreOf_updCore_ne s hk hnum, ite_self, if_neg (fun h => hk h.1)]

theorem coreOf_updTask_stands {s : State} {cx g : Nat} (hstands : standsHere s cx g = true) {f : Core → Core} (hnum : ∀ c, (f c).num = c.num) :
    coreOf (updTask s cx g f) g = f (coreOf s g) := by
  rw [coreOf_updTask s cx g g hnum, if_pos ⟨rfl, hstands⟩]

/-- Where a task stands is read from its core and its context's home. -/
theorem standsHere_congr {s t : State} {cx g : Nat} (hcore : (coreOf t g).ctx = (coreOf s g).ctx)
    (hhome : (ctxOf t cx).map (·.home) = (ctxOf s cx).map (·.home)) : standsHere t cx g = standsHere s cx g := by
  unfold standsHere
  rw [hcore]
  cases hs : ctxOf s cx <;> cases ht : ctxOf t cx <;> simp_all

theorem standsHere_updCtx {s : State} {n : Nat} {x : Ctx} (hx : ctxOf s n = some x) {f : Ctx → Ctx} (hf : ∀ c, (f c).num = c.num ∧ (f c).home = c.home)
    (g : Nat) : standsHere (updCtx s n f) n g = standsHere s n g :=
  standsHere_congr rfl (by rw [ctxOf_updCtx hx (fun c => (hf c).1), hx, Option.map_some, (hf x).2, Option.map_some])

theorem standsHere_updTask (s : State) (cx g k : Nat) {f : Core → Core} (hf : ∀ c, (f c).num = c.num ∧ (f c).ctx = c.ctx) :
    standsHere (updTask s cx g f) cx k = standsHere s cx k := by
  refine standsHere_congr ?_ (by rw [ctxOf_updTask])
  rw [coreOf_updTask s cx g k (fun c => (hf c).1)]
  split
  · exact (hf _).2
  · rfl

/-! ## The step count (07 R123, R124, R133) -/

theorem stepAllowed_iff (x : Ctx) : stepAllowed x = true ↔ x.sweeps = 0 ∨ x.gstep.toNat + 1 < x.sweepStart.toNat + 2 ^ 22 := by
  simp [stepAllowed]

theorem not_stepAllowed {x : Ctx} (hsweeps : x.sweeps ≠ 0) (hlate : x.sweepStart.toNat + 2 ^ 22 ≤ x.gstep.toNat + 1) : stepAllowed x = false := by
  rw [Bool.eq_false_iff, Ne, stepAllowed_iff]
  omega

/-- The step home takes a waiting increment of core g, and its value is on its way to the homes and cores. -/
theorem stepIncrement_counts {s : State} {x : Ctx} {g : Nat} (hx : ctxOf s s.unit = some x) (hreq : x.stepReq = [g]) (hsweeps : x.sweeps = 0)
    (hstands : standsHere s x.num g = true) :
    ∃ t y, exec .stepIncrement s = .next t ∧ ctxOf t x.num = some y ∧ y.gstep = x.gstep + 1 ∧ y.held = x.held ∧ y.stepReq = [] ∧
      (coreOf t g).sched.stepDone = true ∧ (x.num, Instr.stepBroadcast) ∈ t.pending ∧ t.mem = s.mem := by
  have hadd : ctxOf (addStep s x) x.num = some { x with gstep := x.gstep + 1 } := ctxOf_updCtx (ctxOf_num hx) (fun _ => rfl)
  have hhere : standsHere (addStep s x) x.num g = true := by
    rw [addStep, standsHere_updCtx (ctxOf_num hx), hstands]
    exact fun _ => ⟨rfl, rfl⟩
  have hallowed : stepAllowed x = true := (stepAllowed_iff x).mpr (Or.inl hsweeps)
  refine ⟨due (updCtx (updTask (addStep s x) x.num g (fun c => { c with sched := { c.sched with stepDone := true } })) x.num
      (fun c => { c with stepReq := [] })) x.num .stepBroadcast, { x with gstep := x.gstep + 1, stepReq := [] },
    ?exec, ?ctx, rfl, rfl, rfl, ?done, by simp [due], ?mem⟩
  case exec =>
    show execStepIncrement s = _
    simp [execStepIncrement, hx, hreq, hallowed]
  case ctx =>
    rw [ctxOf_due, ctxOf_updCtx ((ctxOf_updTask _ _ _ _ _).trans hadd)]
    exact fun _ => rfl
  case done =>
    rw [coreOf_due, coreOf_updCtx, coreOf_updTask_stands hhere]
    exact fun _ => rfl
  case mem => simp [due, addStep]

/-- An increment that the step home may not take yet goes on waiting. -/
theorem stepIncrement_waits {s : State} {x : Ctx} {g : Nat} {r : List Nat} (hx : ctxOf s s.unit = some x) (hreq : x.stepReq = g :: r)
    (hnot : stepAllowed x = false) : exec .stepIncrement s = .next s := by
  show execStepIncrement s = _
  simp [execStepIncrement, hx, hreq, hnot]

theorem exec_stepBroadcast {s : State} {x : Ctx} (hx : ctxOf s s.unit = some x) : exec .stepBroadcast s = .next (takeStep s x) := by
  show execStepBroadcast s = _
  simp [execStepBroadcast, hx]

/-- Within one base the homes take the count and nothing else happens. -/
theorem takeStep_sameBase {x : Ctx} (hbase : x.held.toNat / 2 ^ 20 = x.gstep.toNat / 2 ^ 20) (s : State) :
    takeStep s x = updCtx s x.num (fun c => { c with held := c.gstep }) := if_pos hbase
theorem takeStep_newBase {x : Ctx} (hbase : x.held.toNat / 2 ^ 20 ≠ x.gstep.toNat / 2 ^ 20) (s : State) :
    takeStep s x = issueSweeps (updCtx s x.num (fun c => { c with held := c.gstep })) { x with held := x.gstep } := if_neg hbase

/-! ## The sweeps of a new base (07 R132) -/

/-- With one region, one sweep is issued and counted. -/
theorem issueSweeps_one {x : Ctx} {r : Region} (hregions : x.regions = some [some r]) (s : State) :
    issueSweeps s x = updCtx (issueOwn s x (sweepCmd x 0 r)) x.num
      (fun c => { c with sweeps := c.sweeps + 1, sweepStart := if c.sweeps = 0 then c.gstep else c.sweepStart }) := by
  simp [issueSweeps, hregions]

theorem ownEngine_lt (s : State) (x : Ctx) : ownEngine s x < 32 := by
  unfold ownEngine
  dsimp only
  cases hfind : ((List.range 32).map (fun i => (2 * quadrantOf ((partCores x).headD 0) + i) % 32)).find? (fun e => !(engineOf s e).fenced) with
  | none => exact Nat.mod_lt _ (by decide)
  | some e =>
    obtain ⟨i, -, rfl⟩ := List.mem_map.mp (List.mem_of_find?_eq_some hfind)
    exact Nat.mod_lt _ (by decide)

/-- A command of the control complex stands in the engine that takes it, whose start is due. -/
theorem issueOwn_stands (s : State) (x : Ctx) (c : Cmd) :
    { c with on := ownEngine s x, key := ownKey s } ∈ (engineOf (issueOwn s x c) (ownEngine s x)).own ∧
      (ownEngine s x, Instr.engineCommandStart) ∈ (issueOwn s x c).pending := by
  refine ⟨?_, List.mem_append_right _ (List.mem_singleton.mpr rfl)⟩
  rw [issueOwn, engineOf_due, engineOf_updEngine s (ownEngine_lt s x)]
  exact List.mem_append_right _ (List.mem_singleton.mpr rfl)

@[simp] theorem ctxOf_issueOwn (s : State) (x : Ctx) (c : Cmd) (n : Nat) : ctxOf (issueOwn s x c) n = ctxOf s n := rfl

/-- What a sweep's words say of its region and context. -/
theorem sweepCmd_fields {x : Ctx} {r : Region} (hnum : x.num < 64) (hlen : r.len < 2 ^ 32) (hbase : r.base < 2 ^ 64) (n : Nat) :
    (sweepCmd x n r).code = 8 ∧ (sweepCmd x n r).len = r.len ∧ (sweepCmd x n r).a1 = r.base ∧ (sweepCmd x n r).param = x.num := by
  have hword : (BitVec.ofNat 64 (8 + x.num * 2 ^ 16 + r.len * 2 ^ 32)).toNat = 8 + x.num * 2 ^ 16 + r.len * 2 ^ 32 := by
    rw [BitVec.toNat_ofNat, Nat.mod_eq_of_lt (by omega)]
  refine ⟨?_, ?_, ?_, ?_⟩
  · rw [Cmd.code, bits, sweepCmd, hword, Nat.shiftRight_eq_div_pow]; omega
  · rw [Cmd.len, bits, sweepCmd, hword, Nat.shiftRight_eq_div_pow]; omega
  · rw [Cmd.a1, sweepCmd, BitVec.toNat_ofNat, Nat.mod_eq_of_lt hbase]
  · rw [Cmd.param, bits, sweepCmd, hword, Nat.shiftRight_eq_div_pow]; omega

/-- A new base: the homes take the count, and a sweep of the one region is under way. -/
theorem stepBroadcast_sweeps {s : State} {x : Ctx} {r : Region} (hx : ctxOf s s.unit = some x)
    (hnew : x.held.toNat / 2 ^ 20 ≠ x.gstep.toNat / 2 ^ 20) (hregions : x.regions = some [some r]) (hlen : r.len < 2 ^ 32) (hbase : r.base < 2 ^ 64)
    (hlt : x.num < 64) :
    ∃ t y k c, exec .stepBroadcast s = .next t ∧ ctxOf t x.num = some y ∧ y.held = x.gstep ∧ y.sweeps = x.sweeps + 1 ∧ c ∈ (engineOf t k).own ∧
      c.code = 8 ∧ c.len = r.len ∧ c.a1 = r.base ∧ c.param = x.num ∧ c.done = 0 ∧ (k, Instr.engineCommandStart) ∈ t.pending := by
  have hheld : ctxOf (updCtx s x.num (fun c => { c with held := c.gstep })) x.num = some { x with held := x.gstep } :=
    ctxOf_updCtx (ctxOf_num hx) (fun _ => rfl)
  obtain ⟨hown, hdue⟩ := issueOwn_stands (updCtx s x.num (fun c => { c with held := c.gstep })) { x with held := x.gstep }
    (sweepCmd { x with held := x.gstep } 0 r)
  obtain ⟨hcode, hclen, ha1, hparam⟩ := sweepCmd_fields (x := { x with held := x.gstep }) hlt hlen hbase 0
  have hexec : exec .stepBroadcast s = .next _ := (exec_stepBroadcast hx).trans
    (congrArg _ ((takeStep_newBase hnew s).trans (issueSweeps_one (x := { x with held := x.gstep }) hregions _)))
  exact ⟨_, _, _, _, hexec, ctxOf_updCtx ((ctxOf_issueOwn _ _ _ _).trans hheld) (fun _ => rfl), rfl, rfl, hown, hcode, hclen, ha1, hparam, rfl, hdue⟩

/-! ## STEP -/

theorem exec_step {s : State} {x : Ctx} (hx : myCtx s = some x) (hdone : s.core.sched.stepDone = false) (hreq : s.core.num ∉ x.stepReq) :
    exec .step s = .next (if stepAllowed x then (takeStep (addStep s x) { x with gstep := x.gstep + 1 }).advance
      else (updCtx s x.num (fun c => { c with stepReq := c.stepReq ++ [s.core.num] })).markStalled) := by
  show execStep s = _
  cases hallowed : stepAllowed x <;> simp [execStep, hx, hdone, hreq, hallowed]

/-- Within one base STEP adds one to the count, and every home and core takes it. -/
theorem step_counts {s : State} {x : Ctx} (hx : myCtx s = some x) (hdone : s.core.sched.stepDone = false) (hreq : s.core.num ∉ x.stepReq)
    (hallowed : stepAllowed x = true) (hbase : x.held.toNat / 2 ^ 20 = (x.gstep + 1).toNat / 2 ^ 20) :
    exec .step s = .next (updCtx s x.num (fun c => { c with gstep := c.gstep + 1, held := c.gstep + 1 })).advance := by
  rw [exec_step hx hdone hreq, if_pos hallowed, takeStep_sameBase hbase, addStep, updCtx_updCtx]
  · rfl
  · exact fun _ => rfl

/-- While sweeps of an earlier base run, a step too far past their start is asked for, and STEP stalls. -/
theorem step_waits {s : State} {x : Ctx} (hx : myCtx s = some x) (hdone : s.core.sched.stepDone = false) (hreq : s.core.num ∉ x.stepReq)
    (hnot : stepAllowed x = false) :
    ∃ t, exec .step s = .next t ∧ t.core.regs = s.core.regs ∧ t.core.sched.stalled = true ∧
      ∀ y, ctxOf t x.num = some y → s.core.num ∈ y.stepReq ∧ y.gstep = x.gstep := by
  have hasked : ctxOf (updCtx s x.num (fun c => { c with stepReq := c.stepReq ++ [s.core.num] })) x.num =
      some { x with stepReq := x.stepReq ++ [s.core.num] } := by
    rw [ctxOf_updCtx (ctxOf_num hx)]
    exact fun _ => rfl
  refine ⟨_, exec_step hx hdone hreq, ?_⟩
  rw [if_neg (by simp [hnot])]
  refine ⟨rfl, rfl, fun y hy => ?_⟩
  obtain rfl := Option.some.inj (hasked.symm.trans hy)
  exact ⟨List.mem_append_right _ (List.mem_singleton.mpr rfl), rfl⟩

/-! ## What the matrix engine ends (16 R264, 18 R316) -/

@[simp] theorem commitGroup_num (c : Core) : c.commitGroup.num = c.num := by
  unfold Core.commitGroup; split <;> rfl
@[simp] theorem tileDone_num (c : Core) : c.tileDone.num = c.num := by
  unfold Core.tileDone
  repeat' split
  all_goals rfl

theorem exec_sluiceGroupCommit {s : State} (hpast : (coreOf s s.unit).mx.doneAt ≤ s.clock) :
    exec .sluiceGroupCommit s = .next (updCore s s.unit Core.commitGroup) := congrArg _ (if_neg (Nat.not_lt.mpr hpast))
theorem exec_tileInstructionComplete {s : State} (hpast : (coreOf s s.unit).mx.doneAt ≤ s.clock) :
    exec .tileInstructionComplete s = .next (updCore s s.unit Core.tileDone) := congrArg _ (if_neg (Nat.not_lt.mpr hpast))

theorem commitGroup_of_shadow {c : Core} {sh : Shadow} (h : c.sluice.shadow = some sh) :
    c.commitGroup = { c with mx := { sh.mx with ops := 0, owner := c.mx.owner }, csr := { c.csr with dgctr := sh.dgctr },
                             regs := { c.regs with pc := c.regs.pc + BitVec.ofNat 64 (4 * sh.n) },
                             sluice := { c.sluice with hits := c.sluice.hits + 1, shadow := none, win := c.sluice.win.drop sh.n,
                                                       pos := c.sluice.pos + sh.n } } := by
  simp only [Core.commitGroup, h]

@[simp] theorem tile_setTile (m : Matrix) (k n : BitVec 2) (t : Tile) : (m.setTile k t).tile n = if k = n then t else m.tile n := by
  by_cases h : k = n
  · subst h; simp [Matrix.tile, Matrix.setTile]
  · have hne : k.toNat ≠ n.toNat := fun e => h (BitVec.eq_of_toNat_eq e)
    simp [Matrix.tile, Matrix.setTile, h, Vector.getElem_set_ne _ _ hne]

/-- A change of distinct tiles reaches each of them, and no other. -/
theorem tile_onTiles (l : List (BitVec 2)) (hl : l.Nodup) (f : Tile → Tile) (m : Matrix) (n : BitVec 2) :
    (m.onTiles l f).tile n = if n ∈ l then f (m.tile n) else m.tile n := by
  induction l generalizing m with
  | nil => rfl
  | cons k l ih =>
    obtain ⟨hk, hl⟩ := List.nodup_cons.mp hl
    rw [Matrix.onTiles, List.foldl_cons, ← Matrix.onTiles, ih hl, tile_setTile]
    by_cases h : k = n
    · subst h; simp [hk]
    · simp [h, Ne.symm h]

theorem mem_allTiles (n : BitVec 2) : n ∈ [(0 : BitVec 2), 1, 2, 3] := by
  revert n
  decide

theorem tileDone_of_running {c : Core} (hshadow : c.sluice.shadow = none) (hhalted : c.sched.halted = false) :
    c.tileDone = { c with mx := { (c.mx.onTiles [0, 1, 2, 3] (fun t => { t with pend := false })) with
                                  ops := 0, rsdWord := 0, rsdpos := 0, run := none } } := by
  simp [Core.tileDone, hshadow, hhalted]

/-- The engine has nothing left to do, and no tile is pending. -/
theorem tileDone_fields {c : Core} (hshadow : c.sluice.shadow = none) (hhalted : c.sched.halted = false) :
    c.tileDone.mx.ops = 0 ∧ c.tileDone.regs = c.regs ∧ ∀ n, c.tileDone.mx.tile n = { c.mx.tile n with pend := false } := by
  rw [tileDone_of_running hshadow hhalted]
  refine ⟨rfl, rfl, fun n => ?_⟩
  exact (tile_onTiles _ (by decide) _ c.mx n).trans (if_pos (mem_allTiles n))

/-! ## Tables (07 R127, R136, 18 R310) -/

theorem pieces_eq_map (n k : Nat) (l : List Word) : pieces n k l = (List.range k).map (fun i => (l.drop (n * i)).take n) := by
  induction k generalizing l with
  | zero => rfl
  | succ k ih =>
    rw [pieces, ih, List.range_succ_eq_map, List.map_cons, List.map_map]
    congr 1
    refine List.map_congr_left (fun i _ => ?_)
    rw [Function.comp_apply, List.drop_drop, Nat.mul_succ, Nat.add_comm n]

/-- The first entry of a table that fails a check: none where every entry passes. -/
theorem findIdx?_range_none {n : Nat} {f : Nat → List Word} {ok : List Word → Bool} (h : ∀ i, i < n → ok (f i) = true) :
    ((List.range n).map f).findIdx? (fun e => !ok e) = none := by
  simpa [List.findIdx?_eq_none_iff] using h
theorem findIdx?_range_some {n i : Nat} {f : Nat → List Word} {ok : List Word → Bool} (hi : i < n) (hbad : ok (f i) = false)
    (hfirst : ∀ j, j < i → ok (f j) = true) : ((List.range n).map f).findIdx? (fun e => !ok e) = some i := by
  rw [List.findIdx?_eq_some_iff_getElem]
  exact ⟨by simpa using hi, by simpa using hbad, fun j hj => by simpa using hfirst j hj⟩

/-- The outcome of a load reaches the task that asked for it. -/
theorem coreOf_setTableDone {s : State} {cx g owner : Nat} (hstands : standsHere s cx g = true) (howner : (coreOf s g).port.owner = owner)
    (r : Option TrapInfo) : (coreOf (setTableDone s cx g owner r) g).sched.tableDone = some r := by
  rw [setTableDone, coreOf_updTask_stands hstands]
  · rw [if_pos howner]
  · intro c; split <;> rfl

/-- It changes no core's sluice. -/
theorem sluice_setTableDone (s : State) (cx g owner k : Nat) (r : Option TrapInfo) :
    (coreOf (setTableDone s cx g owner r) k).sluice = (coreOf s k).sluice := by
  rw [setTableDone, coreOf_updTask]
  · split
    · dsimp only; split <;> rfl
    · rfl
  · intro c; split <;> rfl
@[simp] theorem ctxOf_setTableDone (s : State) (cx g owner : Nat) (r : Option TrapInfo) (n : Nat) :
    ctxOf (setTableDone s cx g owner r) n = ctxOf s n := ctxOf_updTask _ _ _ _ _

section
variable {f : Core → Core} (hf : ∀ c, (f c).num = c.num ∧ (f c).ctx = c.ctx)
include hf

/-- A change of the tasks of several cores moves none of them. -/
theorem standsHere_foldl_updTask (cx k : Nat) (l : List Nat) (s : State) :
    standsHere (l.foldl (fun s g => updTask s cx g f) s) cx k = standsHere s cx k := by
  induction l generalizing s with
  | nil => rfl
  | cons g l ih => rw [List.foldl_cons, ih, standsHere_updTask s cx g k hf]

/-- A change that made twice is as made once reaches each of those that stand there, and no other core. -/
theorem coreOf_foldl_updTask (hidem : ∀ c, f (f c) = f c) (cx k : Nat) (l : List Nat) (s : State) :
    coreOf (l.foldl (fun s g => updTask s cx g f) s) k = if k ∈ l ∧ standsHere s cx k = true then f (coreOf s k) else coreOf s k := by
  induction l generalizing s with
  | nil => simp
  | cons g l ih =>
    rw [List.foldl_cons, ih, standsHere_updTask s cx g k hf, coreOf_updTask s cx g k (fun c => (hf c).1)]
    by_cases hs : standsHere s cx k = true
    · by_cases hk : k = g
      · subst hk; simp [hs, hidem]
      · simp [hs, hk]
    · simp [hs]

end

theorem ctxOf_foldl_updTask (f : Core → Core) (cx n : Nat) (l : List Nat) (s : State) :
    ctxOf (l.foldl (fun s g => updTask s cx g f) s) n = ctxOf s n := by
  induction l generalizing s with
  | nil => rfl
  | cons g l ih => rw [List.foldl_cons, ih, ctxOf_updTask]

/-- What a core's sluice is with a rule table: the table, and no hit (18 R310). -/
def Core.withRules (tbl : List (List Word)) (c : Core) : Core := { c with sluice := { c.sluice with table := tbl, hits := 0 } }

/-- Each core of the partition that the context's task stands on has the rules, and every other core is as before. -/
theorem coreOf_takeRules {s : State} {x : Ctx} (hx : ctxOf s x.num = some x) (tbl : List (List Word)) (g : Nat) :
    coreOf (takeRules s x tbl) g = if g ∈ partCores x ∧ standsHere s x.num g = true then (coreOf s g).withRules tbl else coreOf s g := by
  rw [takeRules]
  refine (coreOf_foldl_updTask (f := Core.withRules tbl) (fun _ => ⟨rfl, rfl⟩) (fun _ => rfl) x.num g _ _).trans ?_
  rw [standsHere_updCtx hx, coreOf_updCtx]
  exact fun _ => ⟨rfl, rfl⟩

theorem ctxOf_takeRules {s : State} {x : Ctx} (hx : ctxOf s x.num = some x) (tbl : List (List Word)) :
    ctxOf (takeRules s x tbl) x.num = some { x with rules := tbl } := by
  rw [takeRules, ctxOf_foldl_updTask, ctxOf_updCtx hx]
  exact fun _ => rfl

/-- The entries of a table's image. -/
def Load.entries (l : Load) : List (List Word) := pieces (tableShape l.kind).1 (tableShape l.kind).2 l.words

/-- The state in which the context's load is over. -/
def unloaded (s : State) (x : Ctx) : State := updCtx s x.num (fun c => { c with loading := [] })

@[simp] theorem coreOf_unloaded (s : State) (x : Ctx) (g : Nat) : coreOf (unloaded s x) g = coreOf s g := rfl

section
variable {s : State} {x : Ctx} (hx : ctxOf s s.unit = some x)
include hx

theorem ctxOf_unloaded : ctxOf (unloaded s x) x.num = some { x with loading := [] } := by
  rw [unloaded, ctxOf_updCtx (ctxOf_num hx)]
  exact fun _ => rfl
theorem standsHere_unloaded (g : Nat) : standsHere (unloaded s x) x.num g = standsHere s x.num g := by
  rw [unloaded, standsHere_updCtx (ctxOf_num hx)]
  exact fun _ => ⟨rfl, rfl⟩

variable {l : Load} (hload : x.loading = [l])
include hload

theorem exec_tableLoadComplete_taken (hok : tableFails x l.kind l.entries = none) :
    exec .tableLoadComplete s = .next (setTableDone (installTable (unloaded s x) x l.kind l.addr l.entries) x.num l.core l.owner none) := by
  show execTableLoadComplete s = _
  rw [Load.entries] at hok
  simp only [execTableLoadComplete, hx, hload, hok]
  rfl
theorem exec_tableLoadComplete_refused {i : Nat} (hbad : tableFails x l.kind l.entries = some i) :
    exec .tableLoadComplete s = .next (setTableDone (unloaded s x) x.num l.core l.owner
      (some ⟨0x19, l.addr + BitVec.ofNat 64 (8 * (tableShape l.kind).1 * i), 0, BitVec.ofNat 64 i⟩)) := by
  show execTableLoadComplete s = _
  rw [Load.entries] at hbad
  simp only [execTableLoadComplete, hx, hload, hbad]
  rfl

variable (hstands : standsHere s x.num l.core = true) (howner : (coreOf s l.core).port.owner = l.owner)
include hstands howner

/-- A refused table leaves the context as it was, but for the load, and its task is told of the entry. -/
theorem tableLoadComplete_refuses {i n : Nat} (hbad : tableFails x l.kind l.entries = some i) (hsize : 8 * (tableShape l.kind).1 = n) :
    ∃ t, exec .tableLoadComplete s = .next t ∧ ctxOf t x.num = some { x with loading := [] } ∧
      (coreOf t l.core).sched.tableDone = some (some ⟨0x19, l.addr + BitVec.ofNat 64 (n * i), 0, BitVec.ofNat 64 i⟩) := by
  subst hsize
  exact ⟨_, exec_tableLoadComplete_refused hx hload hbad, (ctxOf_setTableDone ..).trans (ctxOf_unloaded hx),
    coreOf_setTableDone ((standsHere_unloaded hx _).trans hstands) (by rw [coreOf_unloaded, howner]) _⟩

/-- A table that the homes take changes the context, and its task is told. -/
theorem tableLoadComplete_changes {f : Ctx → Ctx} (hf : ∀ c, (f c).num = c.num ∧ (f c).home = c.home) (hok : tableFails x l.kind l.entries = none)
    (hinstall : installTable (unloaded s x) x l.kind l.addr l.entries = updCtx (unloaded s x) x.num f) :
    ∃ t, exec .tableLoadComplete s = .next t ∧ ctxOf t x.num = some (f { x with loading := [] }) ∧
      (coreOf t l.core).sched.tableDone = some none := by
  have hnow := ctxOf_unloaded hx
  have htaken := exec_tableLoadComplete_taken hx hload hok
  rw [hinstall] at htaken
  refine ⟨_, htaken, ?_, coreOf_setTableDone ?_ ?_ none⟩
  · rw [ctxOf_setTableDone, ctxOf_updCtx hnow (fun c => (hf c).1)]
  · rw [standsHere_updCtx hnow hf, standsHere_unloaded hx, hstands]
  · rw [coreOf_updCtx, coreOf_unloaded, howner]

/-- Decay records that all pass are taken, their powers with them (07 R125). -/
theorem tableLoadComplete_decay (hkind : l.kind = 0x021) (hok : tableFails x l.kind l.entries = none) :
    ∃ t, exec .tableLoadComplete s = .next t ∧
      ctxOf t x.num = some { x with loading := [], decay := some (l.entries.map decayPowers), decayb := l.addr } ∧
      (coreOf t l.core).sched.tableDone = some none :=
  tableLoadComplete_changes (f := fun c => { c with decay := some (l.entries.map decayPowers), decayb := l.addr }) hx hload hstands howner
    (fun _ => ⟨rfl, rfl⟩) hok (if_pos hkind)

/-- So are stamped regions (07 R128). -/
theorem tableLoadComplete_regions (hkind : l.kind = 0x022) (hok : tableFails x l.kind l.entries = none) :
    ∃ t, exec .tableLoadComplete s = .next t ∧
      ctxOf t x.num = some { x with loading := [], regions := some (l.entries.map regionOf), srtb := l.addr } ∧
      (coreOf t l.core).sched.tableDone = some none :=
  tableLoadComplete_changes (f := fun c => { c with regions := some (l.entries.map regionOf), srtb := l.addr }) hx hload hstands howner
    (fun _ => ⟨rfl, rfl⟩) hok (by simp [installTable, hkind, tableDecay, tableRegion])

/-- Rewrite rules go to every core of the partition (18 R310). -/
theorem tableLoadComplete_rules (hkind : l.kind = 0x208) (hok : tableFails x l.kind l.entries = none) :
    ∃ t, exec .tableLoadComplete s = .next t ∧ ctxOf t x.num = some { x with loading := [], rules := l.entries } ∧
      (coreOf t l.core).sched.tableDone = some none ∧
      ∀ g ∈ partCores x, standsHere s x.num g = true → (coreOf t g).sluice.table = l.entries ∧ (coreOf t g).sluice.hits = 0 := by
  have hnow := ctxOf_unloaded hx
  have hinstall : installTable (unloaded s x) x l.kind l.addr l.entries = takeRules (unloaded s x) { x with loading := [] } l.entries := by
    simp [installTable, hkind, tableDecay, tableRegion]
    rfl
  have hcore := coreOf_takeRules (x := { x with loading := [] }) hnow l.entries
  have hctx := ctxOf_takeRules (x := { x with loading := [] }) hnow l.entries
  have htaken := exec_tableLoadComplete_taken hx hload hok
  rw [hinstall] at htaken
  refine ⟨_, htaken, (ctxOf_setTableDone ..).trans hctx, coreOf_setTableDone ?_ ?_ none, ?_⟩
  · rw [← hstands, ← standsHere_unloaded hx]
    refine standsHere_congr ?_ (by rw [hctx, hnow]; rfl)
    rw [hcore, coreOf_unloaded]; split <;> rfl
  · rw [← howner, hcore, coreOf_unloaded]; split <;> rfl
  · intro g hg hhere
    rw [sluice_setTableDone, hcore, if_pos ⟨hg, (standsHere_unloaded hx g).trans hhere⟩]
    exact ⟨rfl, rfl⟩

end

/-! ## The statement -/

/-- The entries of each kind of table. -/
theorem entries_decay {l : Load} (hkind : l.kind = 0x021) : l.entries = (List.range 15).map (fun i => (l.words.drop (16 * i)).take 16) := by
  rw [Load.entries, hkind]; exact pieces_eq_map 16 15 _
theorem entries_regions {l : Load} (hkind : l.kind = 0x022) : l.entries = (List.range 64).map (fun i => (l.words.drop (2 * i)).take 2) := by
  rw [Load.entries, hkind]; exact pieces_eq_map 2 64 _
theorem entries_rules {l : Load} (hkind : l.kind = 0x208) : l.entries = (List.range 64).map (fun i => (l.words.drop (8 * i)).take 8) := by
  rw [Load.entries, hkind]; exact pieces_eq_map 8 64 _

/-- What each kind is checked for. -/
theorem tableFails_decay (x : Ctx) {k : Nat} (hkind : k = 0x021) (es : List (List Word)) : tableFails x k es = es.findIdx? (fun e => !decayOk e) :=
  if_pos hkind
theorem tableFails_regions (x : Ctx) {k : Nat} (hkind : k = 0x022) (es : List (List Word)) : tableFails x k es = regionFails x es := by
  subst hkind; rfl
theorem tableFails_rules (x : Ctx) {k : Nat} (hkind : k = 0x208) (es : List (List Word)) : tableFails x k es = es.findIdx? (fun e => !ruleOk e) := by
  subst hkind; rfl

/-- Settles O21: each device step and STEP by what it makes of the context and of the tasks that stand where they run. -/
theorem deviceStepsAndStep : Obligations.DeviceStepsAndStep := by
  unfold Obligations.DeviceStepsAndStep
  refine ⟨fun s x hx hnum => ?device, fun s x hx hdone hreq => ⟨?counts, ?waits⟩⟩
  case counts => exact fun hallowed hbase => step_counts hx hdone hreq ((stepAllowed_iff x).mpr hallowed) hbase
  case waits => exact fun hsweeps hlate => step_waits hx hdone hreq (not_stepAllowed hsweeps hlate)
  case device =>
    dsimp only
    refine ⟨?increment, ?late, ?sameBase, ?newBase, ?rules, ?tables, ?commit, ?tiles⟩
    case increment => exact fun g hone hsweeps hstands => stepIncrement_counts hx hone hsweeps hstands
    case late => exact fun g r hsome hsweeps hlate => stepIncrement_waits hx hsome (not_stepAllowed hsweeps hlate)
    case sameBase =>
      intro hbase
      refine ⟨_, (exec_stepBroadcast hx).trans (congrArg _ (takeStep_sameBase hbase s)), ?_, rfl⟩
      rw [ctxOf_updCtx (ctxOf_num hx)]
      exact fun _ => rfl
    case newBase => exact fun r hnew hregions hlen hbase hlt => stepBroadcast_sweeps hx hnew hregions hlen hbase hlt
    case rules =>
      intro l hload hkind _ hstands howner
      have hentries := entries_rules hkind
      refine ⟨fun hok => ?taken, fun i hi hbad hfirst => ?refused⟩
      case taken =>
        obtain ⟨t, hexec, hctx, htold, hcores⟩ := tableLoadComplete_rules hx hload hstands howner hkind (by
          rw [tableFails_rules x hkind, hentries]; exact findIdx?_range_none hok)
        exact ⟨t, _, hexec, hctx, rfl, hentries, htold, fun g hg hhere => hentries ▸ hcores g hg hhere⟩
      case refused =>
        obtain ⟨t, hexec, hctx, htold⟩ := tableLoadComplete_refuses hx hload hstands howner (i := i) (n := 64) (by
          rw [tableFails_rules x hkind, hentries]; exact findIdx?_range_some hi hbad hfirst) (by rw [hkind]; rfl)
        exact ⟨t, _, hexec, hctx, rfl, rfl, htold⟩
    case tables =>
      intro l hload hstands howner
      refine ⟨fun hkind _ => ⟨fun hok => ?decay, fun i hi hbad hfirst => ?decayRefused⟩,
        fun hkind _ => ⟨fun hok => ?regions, fun i hbad => ?regionsRefused⟩⟩
      case decay =>
        have hentries := entries_decay hkind
        obtain ⟨t, hexec, hctx, htold⟩ := tableLoadComplete_decay hx hload hstands howner hkind (by
          rw [tableFails_decay x hkind, hentries]; exact findIdx?_range_none hok)
        exact ⟨t, _, hexec, hctx, rfl, rfl, by rw [hentries, List.map_map]; rfl, htold⟩
      case decayRefused =>
        obtain ⟨t, hexec, hctx, htold⟩ := tableLoadComplete_refuses hx hload hstands howner (i := i) (n := 128) (by
          rw [tableFails_decay x hkind, entries_decay hkind]; exact findIdx?_range_some hi hbad hfirst) (by rw [hkind]; rfl)
        exact ⟨t, _, hexec, hctx, rfl, rfl, rfl, htold⟩
      case regions =>
        have hentries := entries_regions hkind
        obtain ⟨t, hexec, hctx, htold⟩ := tableLoadComplete_regions hx hload hstands howner hkind (by
          rw [tableFails_regions x hkind, hentries]; exact hok)
        exact ⟨t, _, hexec, hctx, rfl, rfl, by rw [hentries], htold⟩
      case regionsRefused =>
        obtain ⟨t, hexec, hctx, htold⟩ := tableLoadComplete_refuses hx hload hstands howner (i := i) (n := 16) (by
          rw [tableFails_regions x hkind, entries_regions hkind]; exact hbad) (by rw [hkind]; rfl)
        exact ⟨t, _, hexec, hctx, rfl, rfl, rfl, htold⟩
    case commit =>
      intro sh hshadow hpast
      refine ⟨_, exec_sluiceGroupCommit hpast, updCore_mem _ _ _, ?_⟩
      rw [coreOf_updCore _ _ _ (commitGroup_num _), commitGroup_of_shadow hshadow]
    case tiles =>
      intro hshadow hhalted hpast
      refine ⟨_, exec_tileInstructionComplete hpast, ?_⟩
      rw [coreOf_updCore _ _ _ (tileDone_num _)]
      exact tileDone_fields hshadow hhalted

end Sys2Proof.Machine
end

section
/-! SUPPORT. A rank packet's arrival: it meets the unit of the core that its context's task stands on, and the save of that core while the context holds no
cluster (09 R150, R159, 10 R373). -/

namespace Sys2Proof.Machine

open Sys2Proof.Says

/-! ## A packet's arrival -/

/-- The oldest packet of all, on its way to this core, leaves the network, and its context's task takes it. -/
theorem exec_rankPacketArrival {s : State} {pk : RkPacket} {rest : List RkPacket} (hnet : s.rankNet = pk :: rest) (hpacket : pk.entries ≠ [entryStop])
    (hdst : pk.dst = s.unit) :
    exec .rankPacketArrival s =
      .next (due (updTask { s with rankNet := rest } pk.ctx s.unit (fun c => { c with rank := c.rank.accept pk })) s.unit .rankArrival) := by
  have hfind : s.rankNet.find? (fun k => k.dst == s.unit && k.entries != [entryStop]) = some pk := by
    rw [hnet, List.find?_cons_of_pos]
    simp [hdst, hpacket]
  have herase : s.rankNet.erase pk = rest := by rw [hnet, List.erase_cons_head]
  show execRankPacketArrival s = _
  simp only [execRankPacketArrival, hfind, herase, hdst]
  rfl

/-- The core's unit meets the packet where the context's task stands on the core, and is as before where the task is saved (09 R150, 10 R373). -/
theorem rank_rankPacketArrival {s : State} {pk : RkPacket} {rest : List RkPacket} (hnet : s.rankNet = pk :: rest) (hpacket : pk.entries ≠ [entryStop])
    (hdst : pk.dst = s.unit) {t : State} (hexec : exec .rankPacketArrival s = .next t) :
    (coreOf t s.unit).rank = if standsHere s pk.ctx s.unit then (coreOf s s.unit).rank.accept pk else (coreOf s s.unit).rank := by
  obtain rfl := Host.Outcome.next.inj ((exec_rankPacketArrival hnet hpacket hdst).symm.trans hexec)
  have hstands : standsHere { s with rankNet := rest } pk.ctx s.unit = standsHere s pk.ctx s.unit := standsHere_congr rfl rfl
  rw [coreOf_due, coreOf_updTask, hstands]
  case hnum => exact fun _ => rfl
  by_cases h : standsHere s pk.ctx s.unit = true
  · rw [if_pos ⟨rfl, h⟩, if_pos h]; rfl
  · rw [if_neg (fun hc => h hc.2), if_neg h]; rfl

/-! ## A packet for a core whose context has handed its clusters on -/

/-- Context 0, halted and saved, has handed on the first cluster and waits for it (10 R373). -/
def awayCtx : Ctx := { newCtx State.reset { (default : CtxSpec) with num := 0 } with home := 1, wants := 1, saved := true }

/-- A packet of context 0 for core 0. -/
def latePacket : RkPacket := { ctx := 0, src := 1, dst := 0, stream := 0, p := 0, entries := [entryEnd] }

/-- Core 0 as it stands for the next context, which leaves its context number 0 as reset does; its state for context 0 is saved, and the packet is due. -/
def handedOn : State := { State.reset with ctxs := [awayCtx], saves := [(0, Core.reset 0)], rankNet := [latePacket] }

theorem quiet_handedOn : Quiet handedOn := by
  refine ⟨⟨by decide, fun l hl => ?_, rfl, rfl, rfl, rfl, rfl, rfl⟩, by decide, by decide⟩
  cases hl

/-- Refutes O48: its clause on arrivals asks that the core's context be the packet's, and not that the context's task stand on the core. A core handed on has
context number 0 (10 R373), and context 0 may be the one whose task is saved: the packet meets the save (09 R159), and the core's unit does not say STRAY. -/
theorem not_rankTrafficResults : ¬ Obligations.RankTrafficResults := by
  unfold Obligations.RankTrafficResults
  intro h
  obtain ⟨-, harrival, -⟩ := h handedOn default 0 0 quiet_handedOn
  have hpacket : latePacket.entries ≠ [entryStop] := by decide
  obtain ⟨t, hexec, -, -, hstray, -⟩ := harrival latePacket [] rfl hpacket rfl rfl
  have hsaved : standsHere handedOn 0 0 = false := by decide
  have hkept : (coreOf t 0).rank = Rank.reset := (rank_rankPacketArrival rfl hpacket rfl hexec).trans (if_neg (Bool.eq_false_iff.mp hsaved))
  have hclaimed : (coreOf t 0).rank = { Rank.reset with stray := true } := hstray rfl
  exact absurd (congrArg Rank.stray (hkept.symm.trans hclaimed)) (by decide)

end Sys2Proof.Machine
end
